-- ==== Sys2Proof/Word.lean ====
section
/-! DEFINITION. The plainest value types of the EH416: bytes, wrapping counters, instants, and the numbers
that name its ports, lanes, groups and lines. Arithmetic on them that a test could show wrong stands in
Sys2Proof/Machine/Bits.lean and Sys2Proof/Machine/Time.lean. -/

namespace Sys2Proof

/-- One byte of a frame, a message or a record. -/
abbrev Byte := BitVec 8

/-- An unsigned 32-bit count that wraps from 2^32 − 1 to 0 (R36, R80, R92, R97, R112, R149, R186). -/
abbrev Counter := BitVec 32

/-- An instant of device time as every block but the Time Base sees it: whole seconds and nanoseconds (R2).
The fraction count never leaves the Time Base. -/
structure Instant where
  sec : Nat
  ns : Nat
deriving DecidableEq, Repr

/-- A port, numbered as R174 and the layouts of section 10.8 number it: 0 to 3 are G0 to G3, 4 to 7 are
E0 to E3. -/
abbrev Port := Fin 8

/-- A lane (and its Lane Stamper), 0 to 3: lane n joins Gn and En (R62). -/
abbrev LaneId := Fin 4

/-- An auction group, 0 to 15 (R114). -/
abbrev Group := Fin 16

/-- A strobe line, 0 to 3 (R150). -/
abbrev Line := Fin 4

/-- The whole nanoseconds, 0 to 7, from the most recent oscillator tick to an event (R2). -/
abbrev Sub := Fin 8

/-- A choice of the order in which records, or markers, that several blocks hand over at one moment are
taken (R162, R144): the k-th number picks, modulo the number still left, which is taken k-th. Every
list names an order and every order is named by some list. -/
abbrev Order := List Nat

end Sys2Proof
end

