-- ==== Sys2Proof/Syntax.lean ====
section
/-! DEFINITION. The commands of the EH416: one constructor for each row of spec/opcode_table.json.

Each row is one step of the part, whole and indivisible (95_what_each_step_holds.md). A row's operands are what
the outside world brings to that step and the part cannot know: which port, channel, lane, group or line it concerns,
the bytes that arrived, the levels of pins, how many nanoseconds after the last tick it happens (`Sub`, R2), and,
where the manual lets records or markers of one moment be taken "in either order", that order (`Order`).
What a management row acts on is NOT an operand: it is the request frame in the intake slot that
the Management Agent takes (R174). -/

namespace Sys2Proof

/-- Reference Channel A or B, and the reference wired to it. -/
inductive Channel where
  | A
  | B
deriving DecidableEq, Repr

/-- The three strap groups as their pins stand at the release of a reset (R187): the port named by CFG_PORT,
the reference named by PREF_REF, the value of ADDR. -/
structure Straps where
  cfgPort : Port
  prefRef : Channel
  addr : BitVec 4
deriving DecidableEq, Repr

/-- The commands and events of the part, one constructor per row of spec/opcode_table.json, in its order. -/
inductive Instr where
  /-- POWER_ON_RESET (R188): power is applied. -/
  | powerOnReset
  /-- POWER_ON_RESET_RELEASE (R188): the straps' pins, whether the supplies are within their range, and the level of RESET. -/
  | powerOnResetRelease (straps : Straps) (suppliesInRange resetHigh : Bool)
  /-- WARM_RESET_ASSERT (R189): RESET has been low for `lowTicks` ticks. -/
  | warmResetAssert (lowTicks : Nat) (sub : Sub) (order : Order)
  /-- WARM_RESET_RELEASE (R189): RESET goes high. -/
  | warmResetRelease (straps : Straps) (sub : Sub) (order : Order)
  /-- RESTART_RESET_ASSERT (R185): the agent asserts the warm reset a Restart ordered. -/
  | restartResetAssert (sub : Sub) (order : Order)
  /-- RESTART_HOLD_END (R185): the 1,000 µs hold of an ordered warm reset ends. -/
  | restartHoldEnd (straps : Straps) (sub : Sub) (order : Order)
  /-- STEP_APPLIED (R6): the oscillator tick at which a waiting step is applied. -/
  | stepApplied
  /-- SECOND_EVENT (R57): the DTU does its per-second work. -/
  | secondEvent (order : Order)
  /-- OFFSET_CHANGE (R12): the pending UTC offset change takes effect. -/
  | offsetChange
  /-- PULSE_POINT_REACHED (R13): a pulse-per-second point has been reached by counting. -/
  | pulsePointReached
  /-- PPS_PULSE_END (R15): the PPS pulse width runs out. -/
  | ppsPulseEnd
  /-- PULSE_EDGE (R20): a rising transition on a channel's pulse line. -/
  | pulseEdge (ch : Channel) (sub : Sub) (order : Order)
  /-- PULSE_GLITCH (R20): the pulse line falls before the filter width is reached. -/
  | pulseGlitch (ch : Channel) (sub : Sub)
  /-- EDGE_QUALIFIED (R23): the line has stayed high for the filter width. -/
  | edgeQualified (ch : Channel) (sub : Sub) (order : Order)
  /-- PREDICTION_EXPIRY (R34): sixteen seconds since the last delivered edge. -/
  | predictionExpiry (ch : Channel) (sub : Sub)
  /-- CHARACTER_COMPLETE (R24): the eight data bits, the parity bit (read only where parity is configured) and the first
  stop bit as the receiver sampled them. -/
  | characterComplete (ch : Channel) (data : Byte) (parityBit stopBit : Bool) (sub : Sub)
  /-- MESSAGE_VALIDATION (R29): the assembler validates a complete message. -/
  | messageValidation (ch : Channel) (sub : Sub)
  /-- GAP_TIMER_EXPIRY (R27): the gap timer runs out before byte 14. -/
  | gapTimerExpiry (ch : Channel) (sub : Sub)
  /-- MESSAGE_STALE (R31): a queued message has been pending for more than 1,500 ms. -/
  | messageStale (ch : Channel) (sub : Sub)
  /-- FRAME_START_DETECTED (R64): a port recognises a frame's start delimiter. -/
  | frameStartDetected (port : Port) (sub : Sub) (order : Order)
  /-- ETHERTYPE_RECEIVED (R85): the frame's first fourteen bytes are in. -/
  | etherTypeReceived (port : Port) (header : List Byte)
  /-- OVERSIZE_DETECTED (R63): the further bytes with which the frame's length passes 9,216. -/
  | oversizeDetected (port : Port) (more : List Byte)
  /-- CLASSIFICATION_POINT (R90): the further bytes up to the last of the key and kind bytes. -/
  | classificationPoint (port : Port) (more : List Byte)
  /-- FRAME_END (R63): the remaining bytes, the FCS the last of them, and whether a receive error ended or damaged the frame. -/
  | frameEnd (port : Port) (rest : List Byte) (receiveError : Bool) (sub : Sub) (order : Order)
  /-- PAUSE_REPEAT_TIMER (R76): the repeat timer of the passing FIFO of an egress port expires. -/
  | pauseRepeatTimer (port : Port) (sub : Sub)
  /-- RECEIVED_PAUSE_EXPIRY (R68): a port's received pause runs out. -/
  | receivedPauseExpiry (port : Port) (sub : Sub)
  /-- ITEM_START (R74): a port at a frame boundary starts an item. -/
  | itemStart (port : Port)
  /-- TRANSMISSION_END (R73): the item in transmission on a port ends. -/
  | transmissionEnd (port : Port) (sub : Sub)
  /-- LINK_UP (R77): a port's physical link is established. -/
  | linkUp (port : Port) (sub : Sub)
  /-- LINK_DOWN (R79): a port's physical link is lost. -/
  | linkDown (port : Port) (sub : Sub) (order : Order)
  /-- CALL_START_REACHED (R120): device time reaches a group's call start. -/
  | callStartReached (group : Group)
  /-- WINDOW_START_REACHED (R121): device time reaches a group's window start. -/
  | windowStartReached (group : Group) (sub : Sub)
  /-- CLOSE_INSTANT_REACHED (R125): device time reaches a group's close instant. -/
  | closeInstantReached (group : Group) (sub : Sub)
  /-- STROBE_PULSE_END (R151): a strobe line's pulse width runs out. -/
  | strobePulseEnd (line : Line)
  /-- MARKER_POINT_REACHED (R143): device time has reached the marker point of waiting requests of a lane. -/
  | markerPointReached (lane : LaneId) (order : Order)
  /-- MANAGEMENT_FRAME_REJECTED (R175): a take at which a header test fails. -/
  | managementFrameRejected (sub : Sub)
  /-- GET_STATUS (R179). -/
  | getStatus (sub : Sub)
  /-- READ_JOURNAL (R166). -/
  | readJournal (sub : Sub)
  /-- READ_SEED (R137). -/
  | readSeed (sub : Sub)
  /-- READ_GROUP (R115). -/
  | readGroup (sub : Sub)
  /-- READ_MATCH_ENTRY (R94). -/
  | readMatchEntry (sub : Sub)
  /-- READ_COUNTERS (R180). -/
  | readCounters (sub : Sub)
  /-- EXTEND_CALL (R129, R130). -/
  | extendCall (sub : Sub)
  /-- RELEASE_JOURNAL (R165). -/
  | releaseJournal (sub : Sub)
  /-- SET_LANE_MODE (R65). -/
  | setLaneMode (sub : Sub)
  /-- SET_LANE_PROFILE (R83). -/
  | setLaneProfile (sub : Sub)
  /-- WRITE_MATCH_ENTRY (R93). -/
  | writeMatchEntry (sub : Sub)
  /-- SWAP_BANK (R95). -/
  | swapBank (sub : Sub)
  /-- LOAD_SCHEDULE (R117, R118). -/
  | loadSchedule (sub : Sub) (order : Order)
  /-- CLEAR_SCHEDULE (R119). -/
  | clearSchedule (sub : Sub)
  /-- SET_DAY (R132). -/
  | setDay (sub : Sub)
  /-- DAY_ROLL (R133). -/
  | dayRoll (sub : Sub)
  /-- LOAD_SEED (R135). -/
  | loadSeed (sub : Sub)
  /-- COMMIT_SEED (R136). -/
  | commitSeed (sub : Sub)
  /-- SET_REFERENCE_CHANNEL (R18, R19). -/
  | setReferenceChannel (sub : Sub)
  /-- SET_PREFERRED_REFERENCE (R56). -/
  | setPreferredReference (sub : Sub)
  /-- SET_DISCIPLINE (R37). -/
  | setDiscipline (sub : Sub)
  /-- END_ACQUISITION (R44). -/
  | endAcquisition (sub : Sub)
  /-- STEP_TIME (R183). -/
  | stepTime (sub : Sub)
  /-- SET_UTC_OFFSET (R181). -/
  | setUtcOffset (sub : Sub)
  /-- SET_OUTPUTS (R182). -/
  | setOutputs (sub : Sub)
  /-- SET_PERMISSIONS (R178). -/
  | setPermissions (sub : Sub)
  /-- RESTART (R185). -/
  | restart (sub : Sub)
  /-- TICK (R1): one tick of the oscillator. -/
  | tick
  /-- POWER_LOSS (R140, R189): power is lost. -/
  | powerLoss
deriving DecidableEq, Repr

end Sys2Proof
end

