-- ==== Sys2Proof/Decode.lean ====
section
/-! DEFINITION. The command that a word spells. No row of spec/opcode_table.json gives bits (every row's "fields" is empty): the part's steps are not words.
The requests that management software sends as frames are read in Sys2Proof/Machine/Operands.lean. -/

namespace Sys2Proof

/-- No word spells a command: no row of the table has bits. -/
def decodeTableWord (_nbits _w : Nat) : Option Instr := none

end Sys2Proof
end

