-- ==== Sys2Proof/Machine/Types.lean ====
section
/-! DEFINITION. The pieces of the machine's state, block by block, as plain data. Their values at a reset stand in
Sys2Proof/Machine/Defaults.lean; the State that holds them in Sys2Proof/Machine/State.lean. -/

namespace Sys2Proof.Machine

/-! ### Time Base (Chapter 1) -/

/-- Who asked for a step: the DTU or a StepTime command (R6, R8). -/
inductive StepSource where
  | dtu
  | command
deriving DecidableEq, Repr

/-- A step request waiting for its tick (R6). -/
structure StepRequest where
  source : StepSource
  amount : Int
deriving DecidableEq, Repr

/-- Who scheduled a change of UTC offset (R11, R12). -/
inductive OffsetSource where
  | reference (ch : Channel)
  | command
deriving DecidableEq, Repr

/-- The pending change of UTC offset (R10, R11). -/
structure OffsetChange where
  newOffset : Int
  effective : Instant
  source : OffsetSource
deriving DecidableEq, Repr

/-- The PPS mode (R14). -/
inductive PpsMode where
  | off
  | always
  | traceableOnly
deriving DecidableEq, Repr

/-- The pulse-per-second output (R13 to R15). -/
structure Pps where
  mode : PpsMode
  /-- The pulse width in µs (R15). -/
  width : Nat
  /-- The output compensation in ns (R13). -/
  compensation : Nat
  /-- The last-pulsed second, or none (R13). -/
  lastPulsed : Option Nat
  /-- MODEL'S OWN: the second whose pulse point the last ticks reached by counting and which has not been taken yet. -/
  due : Option Nat
  /-- The PPS pin: asserted until this oscillator tick, or deasserted (R15). -/
  pulseEnd : Option Nat
deriving DecidableEq, Repr

/-- A step tick's device time before and after it. -/
structure StepSpan where
  before : Instant
  after : Instant
deriving DecidableEq, Repr

/-- The Time Base (R1 to R16). -/
structure TimeBase where
  /-- The seconds count, 48 bits. -/
  sec : Nat
  /-- The nanoseconds count. -/
  ns : Nat
  /-- The fraction count, in units of 2^−32 ns. -/
  frac : Nat
  /-- The addend A, in units of 2^−32 ns. -/
  addend : Nat
  /-- The current UTC offset (R10). -/
  utcOffset : Int
  /-- The pending change, or absent (R10). -/
  pendingOffset : Option OffsetChange
  /-- MODEL'S OWN: how often the pending change has become absent (log entry 4). -/
  absences : Nat
  /-- Step requests waiting for their ticks, in the order taken (R6, R9). -/
  steps : List StepRequest
  /-- MODEL'S OWN: the last step tick, which tells whether an instant was reached by a step (R12, R121). -/
  stepSpan : Option StepSpan
  /-- MODEL'S OWN: the readings of second events given (R3) and not yet taken by the DTU, oldest first. -/
  secondEvents : List Instant
  pps : Pps
deriving DecidableEq, Repr

/-! ### Reference channels (Chapter 2) -/

/-- The parity setting (R18). -/
inductive Parity where
  | none
  | even
  | odd
deriving DecidableEq, Repr

/-- The settings of a reference channel (R18). -/
structure ChannelSettings where
  enabled : Bool
  /-- The pulse filter width in ticks. -/
  filterTicks : Nat
  /-- The cable compensation in ns. -/
  cable : Nat
  /-- The early and late limits, in units. -/
  early : Nat
  late : Nat
  /-- The range flag: the unit is 4,096 ns when on, 16 ns when off. -/
  wideRange : Bool
  divisor : Nat
  doubleSpeed : Bool
  parity : Parity
  stopBits : Nat
deriving DecidableEq, Repr

/-- An edge waiting in the width filter (R20). -/
structure FilterEdge where
  /-- The capture instant. -/
  capture : Instant
  /-- The rising transition in oscillator time (ns). -/
  risen : Nat
  /-- The filter width that applies to this edge, in ticks. -/
  width : Nat
deriving DecidableEq, Repr

/-- The serial receiver (R24): it looks for a start bit, or, after a framing error, for the line to be high first. `since` is the oscillator time (ns)
from which it looks: the last character's completion, a flush, the channel's enabling or the release of a reset (R19, R24, R36). A character in reception
is one whose start bit began after it; the row that completes the character tells when (log entry 24). -/
inductive Receiver where
  | waitingForStart (since : Nat)
  | waitingForHigh (since : Nat)
deriving DecidableEq, Repr

/-- A completed character with its flags and its completion moment in oscillator time (R24, R25). -/
structure Character where
  data : Byte
  framingError : Bool
  parityError : Bool
  overrun : Bool
  completed : Nat
deriving DecidableEq, Repr

/-- The assembler (R26, R27, R29). -/
inductive Assembler where
  | hunting
  /-- Bytes 1 onward of the message so far, and the completion of the last character taken, from which the gap timer runs. -/
  | assembling (bytes : List Byte) (lastCompleted : Nat)
  /-- A complete message's bytes 1 to 14 and its completion point, to be validated. -/
  | validating (bytes : List Byte) (completion : Nat)
deriving DecidableEq, Repr

/-- The source state of a time message. -/
inductive SourceState where
  | locked
  | holdoverUpstream
  | unlocked
deriving DecidableEq, Repr

/-- A message in the pending-message queue (R31): what labelling needs of it. -/
structure QueuedMessage where
  edgeSecond : Nat
  source : SourceState
  completion : Nat
deriving DecidableEq, Repr

/-- The last delivered edge, from which the label prediction is made (R34), with the source state of the message that
labelled the last labelled edge (R35). -/
structure Delivered where
  label : Nat
  risen : Nat
  source : SourceState
deriving DecidableEq, Repr

/-- The counters of a reference channel (R36), in the order of R180. -/
structure ChannelCounters where
  glitch : Counter
  extra : Counter
  accepted : Counter
  early : Counter
  late : Counter
  framingError : Counter
  parityError : Counter
  overrun : Counter
  skippedByte : Counter
  lineAbort : Counter
  gapAbort : Counter
  settingsAbort : Counter
  checkFailure : Counter
  fieldFailure : Counter
  validMessage : Counter
  leapRefused : Counter
  messageOverrun : Counter
  stale : Counter
  duplicate : Counter
  unlabelledDelivery : Counter
  withheld : Counter
  labelJump : Counter
deriving DecidableEq, Repr

/-- A reference channel (R17 to R36). -/
structure RefChannel where
  settings : ChannelSettings
  filter : Option FilterEdge
  /-- The rising transition of the last accepted edge, in oscillator time (R21). -/
  lastAccepted : Option Nat
  receiver : Receiver
  /-- The two-character buffer, front first (R25). -/
  buffer : List Character
  assembler : Assembler
  /-- The pending-message queue, oldest first (R31). -/
  queue : List QueuedMessage
  /-- The last delivered edge while it still gives a prediction (R34). -/
  delivered : Option Delivered
  /-- The run of unlabelled deliveries (R33). -/
  run : Nat
  counters : ChannelCounters
deriving DecidableEq, Repr

/-- The edge record a channel hands to the DTU (R35). -/
structure EdgeRecord where
  channel : Channel
  capture : Instant
  label : Nat
  unlabelled : Bool
  jump : Bool
  source : SourceState
  cable : Nat
deriving DecidableEq, Repr

/-! ### Discipline and Traceability Unit (Chapter 3) -/

/-- The discipline settings (R37). -/
structure DtuSettings where
  acqKi : Nat
  acqKp : Nat
  trackKi : Nat
  trackKp : Nat
  /-- S_max, the proportional limit, in fu. -/
  sMax : Nat
  /-- L, the limit, in ns. -/
  limit : Nat
  /-- W_warn, the warning threshold, in ns. -/
  warn : Nat
  /-- U, the uncertainty, in ns. -/
  uncertainty : Nat
  /-- Q, the qualifying count. -/
  qualify : Nat
  /-- M, the qualification age, in s. -/
  age : Nat
  /-- n_p, the persistence. -/
  persistence : Nat
  /-- h, the holdover growth, in ns per second. -/
  growth : Nat
  stepThreshold : Nat
  /-- The revert delay, in s. -/
  revertDelay : Nat
  crossLimit : Nat
deriving DecidableEq, Repr

/-- The five discipline states. -/
inductive DState where
  | free
  | acquiring
  | traceable
  | holdover
  | untraceable
deriving DecidableEq, Repr

/-- The five qualities (R51). -/
inductive Quality where
  | traceable
  | warning
  | holdover
  | untraceable
  | unset
deriving DecidableEq, Repr

/-- What the DTU keeps for one reference (R38, R52, R53). -/
structure RefJudgement where
  edgeAge : Option Nat
  jumpAge : Option Nat
  /-- The source state of the last record delivered. -/
  source : Option SourceState
  /-- The qualified run; the reference is qualified while it is not 0. -/
  run : Nat
  /-- The latest θ. -/
  theta : Option Int
  /-- A θ has been supplied since the previous second event (R53). -/
  fresh : Bool
deriving DecidableEq, Repr

/-- The accumulation of the current minute (R58). -/
structure Minute where
  smallest : Int
  largest : Int
  accepted : Nat
  rejected : Nat
  largestD : Nat
deriving DecidableEq, Repr

/-- The Discipline and Traceability Unit (R37 to R61). -/
structure Dtu where
  settings : DtuSettings
  state : DState
  refA : RefJudgement
  refB : RefJudgement
  /-- The active reference. -/
  active : Option Channel
  /-- The preferred reference (R56). -/
  preferred : Channel
  /-- f, the integral term, in fu. -/
  integral : Int
  /-- s, the proportional term, in fu. -/
  proportional : Int
  /-- D, the divergence bound, in ns. -/
  bound : Nat
  lastTheta : Int
  /-- The warning flag (R48). -/
  warning : Bool
  /-- The disagreement flag (R53). -/
  disagreement : Bool
  /-- The unlabelled-measurement flag (R39). -/
  unlabelled : Bool
  qualifying : Nat
  persistent : Nat
  /-- D_entry (R46, R49). -/
  entryBound : Nat
  /-- The growth count (R46, R49). -/
  growths : Nat
  disagreeing : Nat
  agreeing : Nat
  /-- Second events since the last applied measurement (R41). -/
  sinceApplied : Nat
  minute : Minute
  /-- The seconds value of the previous second event (R59). -/
  lastSecond : Nat
  /-- The oscillator time (ns) of the last step the Time Base told of (R38). -/
  steppedAt : Option Nat
deriving DecidableEq, Repr

/-- The cause carried by a StateChange record (R50). -/
inductive StateCause where
  | referenceEdge
  | qualified
  | persistence
  | referenceLost
  | holdoverLimit
  | endAcquisition
  | stepTime
  | warmReset
deriving DecidableEq, Repr

/-- The cause carried by a ReferenceSwitch record (R57). -/
inductive SwitchCause where
  | failover
  | revert
  | selection
  | loss
  | holdover
  | warmReset
deriving DecidableEq, Repr

/-! ### Lanes and ports (Chapters 4 to 6, 8) -/

/-- A lane's mode (R65). -/
inductive LaneMode where
  | pass
  | stamp
deriving DecidableEq, Repr

/-- The action of a Match Table entry (R88), or a profile's default action (R84). -/
inductive Action where
  | pass
  | stamp
  | stampNoGroup
deriving DecidableEq, Repr

/-- A lane profile (R83, R84, R75). -/
structure LaneProfile where
  orderEtherType : BitVec 16
  keyOffset : Nat
  kindOffset : Nat
  defaultAction : Action
  /-- The latency compensation L_lane, in ns. -/
  latency : Nat
  markerAddress : BitVec 48
  high : Nat
  low : Nat
deriving DecidableEq, Repr

/-- A frame's detection record (R64). -/
structure DetectionRecord where
  instant : Instant
  utcOffset : Int
  quality : Quality
  unlabelled : Bool
  mode : LaneMode
  bank : Fin 2
  profile : LaneProfile
deriving DecidableEq, Repr

/-- What a frame is recognised as at its EtherType (R67, R68, R85). `plain` is a frame that is neither a management nor a
MAC control frame and is not subject to classification. -/
inductive FrameKind where
  | management
  | macControl
  | other
  | order
  | plain
deriving DecidableEq, Repr

/-- The outcome of a lookup (R90). -/
inductive Lookup where
  | matched (index : Fin 64) (action : Action) (group : Option Group)
  | defaulted
deriving DecidableEq, Repr

/-- A frame in reception on an ingress port. -/
structure Reception where
  detection : DetectionRecord
  /-- The bytes stored so far. -/
  bytes : List Byte
  /-- What the frame was recognised as, once its EtherType has been received. -/
  kind : Option FrameKind
  /-- The lookup, once the classification point has been reached. -/
  lookup : Option Lookup
  /-- The length has passed 9,216 bytes (R63). -/
  oversize : Bool
deriving DecidableEq, Repr

/-- A close marker in a passing FIFO (R144, R147). -/
structure Marker where
  group : Group
  close : Instant
  k : Nat
  quality : Quality
  address : BitVec 48
  lastSequence : BitVec 32
deriving DecidableEq, Repr

/-- An item of a passing FIFO (R70). A frame keeps its detection record until it leaves the lane (R64). -/
inductive PassingItem where
  | frame (bytes : List Byte) (detection : DetectionRecord)
  | marker (m : Marker)
deriving DecidableEq, Repr

/-- A frame of an own-frame queue (R72). `ofRestart` marks the response whose end a Restart waits for (R185). -/
inductive OwnFrame where
  | response (bytes : List Byte) (ofRestart : Bool)
  | pause (quanta : Nat)
deriving DecidableEq, Repr

/-- The side whose head is in transmission on a port (R73). -/
inductive Sending where
  | passing
  | own
deriving DecidableEq, Repr

/-- An open overflow episode of a passing FIFO (R71): its drop count, and whether the fill already lay below the low watermark when it opened, so that it
closes at the next fall of the fill. -/
structure Episode where
  drops : Nat
  openedBelow : Bool
deriving DecidableEq, Repr

/-- The ingress counters of a port (R80), in the order of R180. -/
structure IngressCounters where
  received : Counter
  aborted : Counter
  runt : Counter
  oversize : Counter
  bad : Counter
  management : Counter
  macControl : Counter
deriving DecidableEq, Repr

/-- The egress counters of a port (R80), in the order of R180. -/
structure EgressCounters where
  drop : Counter
  passing : Counter
  marker : Counter
  own : Counter
  pauseSent : Counter
  pauseDiscard : Counter
  abort : Counter
deriving DecidableEq, Repr

/-- One Ethernet port: its ingress, and its egress with the passing FIFO and the own-frame queue (R62 to R81). -/
structure PortState where
  /-- The link state, true for up (R77). -/
  link : Bool
  reception : Option Reception
  /-- The passing FIFO of this egress port, head first (R70). -/
  fifo : List PassingItem
  /-- The own-frame queue of this egress port, head first (R72). -/
  own : List OwnFrame
  /-- How often the head of the own-frame queue has been passed over (R74). -/
  passedOver : Nat
  /-- The item in transmission: the head of this side. -/
  sending : Option Sending
  /-- The received pause: running until this oscillator time in tenths of a ns, or not running (R68). -/
  receivedPause : Option Nat
  /-- The pause state of the passing FIFO: asserted, its repeat timer started at this oscillator time (ns), or clear (R76). -/
  pauseTimer : Option Nat
  /-- The overflow episode of the passing FIFO: open, or closed (R71). -/
  episode : Option Episode
  ingress : IngressCounters
  egress : EgressCounters
  linkChanges : Counter
deriving DecidableEq, Repr

/-- A waiting marker request (R142). `reached` is the MODEL'S OWN: a tick has reached the marker point and it has not been taken
yet. `afterFrame`: the marker follows the frame in reception (R143). -/
structure MarkerRequest where
  group : Group
  close : Instant
  k : Nat
  quality : Quality
  reached : Bool
  afterFrame : Bool
deriving DecidableEq, Repr

/-- The classification counters (R97). -/
structure ClassCounters where
  other : Counter
  keyAbsent : Counter
  matchedStamp : Counter
  matchedNoGroup : Counter
  matchedPass : Counter
  defaultedDated : Counter
  defaultedPassed : Counter
deriving DecidableEq, Repr

/-- The marker counters (R149). -/
structure MarkerCounters where
  requested : Counter
  placed : Counter
  withdrawn : Counter
  lost : Counter
deriving DecidableEq, Repr

/-- A lane stamper (R64 to R66, R83, R99 to R113, R142 to R149). -/
structure Lane where
  mode : LaneMode
  profile : LaneProfile
  lastStamp : Instant
  sequence : BitVec 32
  /-- The dated-since-reset indication (R104). -/
  datedSince : Bool
  /-- The waiting list of marker requests (R142). -/
  waiting : List MarkerRequest
  passForwarded : Counter
  classes : ClassCounters
  dated : Counter
  clamped : Counter
  markers : MarkerCounters
deriving DecidableEq, Repr

/-! ### Match Table (Chapter 5) -/

/-- The fields of a Match Table entry (R88). -/
structure MatchEntry where
  valid : Bool
  keyValue : BitVec 32
  keyMask : BitVec 32
  kindValue : Byte
  kindMask : Byte
  /-- The group, `none` for NONE. -/
  group : Option Group
  action : Action
deriving DecidableEq, Repr

/-- An entry with its hit count (R88, R92). -/
structure MatchSlot where
  entry : MatchEntry
  hits : Counter
deriving DecidableEq, Repr

/-- The Match Table: two banks of 64 entries and the active bank (R88). -/
structure MatchTable where
  banks : Vector (Vector MatchSlot 64) 2
  active : Fin 2
deriving DecidableEq, Repr

/-! ### Auction Timer (Chapter 7) -/

/-- The states of a group (R114). -/
inductive GroupState where
  | idle
  | armed
  | call
  | window
  | suspended
  | closed
deriving DecidableEq, Repr

/-- The policy of a group (R114). -/
inductive Policy where
  | proceed
  | defer
deriving DecidableEq, Repr

/-- A draw result (R114). -/
structure Draw where
  /-- The drawn d, in ms. -/
  d : Nat
  /-- The seed flag: true for uncommitted. -/
  uncommitted : Bool
  advanced : Bool
deriving DecidableEq, Repr

/-- A group record (R114). -/
structure GroupRecord where
  state : GroupState
  callStart : Instant
  windowStart : Instant
  /-- W, in ms. -/
  window : Nat
  /-- The extension length, in ms. -/
  extLength : Nat
  extLimit : Nat
  extUsed : Nat
  policy : Policy
  /-- The defer restart, in ms. -/
  deferRestart : Nat
  /-- The marker lane set, bit n for lane n. -/
  lanes : BitVec 4
  k : Nat
  deferrals : Nat
  /-- The close instant c. -/
  close : Option Instant
  draw : Option Draw
deriving DecidableEq, Repr

/-- The seed slot (R134). -/
inductive SeedSlot where
  | absent
  | loaded (seed : BitVec 32)
  | committed (seed : BitVec 32)
  | revealed (seed : BitVec 32)
deriving DecidableEq, Repr

/-- The Auction Timer (R114 to R141). -/
structure AuctionTimer where
  groups : Vector GroupRecord 16
  seed : SeedSlot
  /-- The day number, 16 bits. -/
  day : Nat
deriving DecidableEq, Repr

/-! ### Trace Journal (Chapter 9) -/

/-- The payload of a journal record, by its kind (R154, R139, R161, R167, section 10.8). -/
inductive Payload where
  | start (straps : Straps) (day : Nat)
  | restart (byCommand : Bool) (straps : Straps) (state : DState) (day : Nat)
  | stateChange (previous new : DState) (cause : StateCause) (bound : Nat) (active : Option Channel)
  | referenceSwitch (previous new : Option Channel) (cause : SwitchCause)
  | referenceDisagree (set byDisqualification : Bool) (thetaA thetaB : Option Int)
  | step (source : StepSource) (requested applied : Int) (saturated : Bool)
  | offsetChange (previous new : Int) (effective : Instant) (source : OffsetSource)
  | minuteSummary (minute : Minute) (state : DState) (active : Option Channel)
  | configChange (command : Byte) (port : Port) (object : BitVec 16) (detail : List Byte)
  | seedCommit (check : BitVec 16)
  | seedReveal (seed : BitVec 32) (check : BitVec 16)
  | extension (group : Group) (extUsed k : Nat) (windowStart : Instant)
  | suspend (group : Group) (k d window : Nat) (quality : Quality) (byJournal : Bool)
  | resume (group : Group) (k deferrals : Nat) (windowStart : Instant)
  | close (group : Group) (k : Nat) (draw : Draw) (window : Nat) (quality : Quality) (policy : Policy)
      (extUsed deferrals : Nat) (mask : BitVec 4)
  | laneOverflow (lane : LaneId) (egress : Port) (isEnd : Bool) (drops : Nat) (byReset : Bool)
  | linkChange (port : Port) (up : Bool)
  | dayRoll (previous new : Nat) (slot : SeedSlot)
  | gap (omitted lost : Nat) (start : BitVec 32)
deriving DecidableEq, Repr

/-- A record as its writer hands it (R153), with the DTU's FREE and quality as they stand when it is handed. -/
structure Handed where
  payload : Payload
  instant : Instant
  timeUnset : Bool
  quality : Quality
deriving DecidableEq, Repr

/-- A record as the journal holds it (R153). -/
structure JournalRecord where
  sequence : BitVec 32
  body : Handed
  chain : BitVec 16
deriving DecidableEq, Repr

/-- The Trace Journal (R153 to R171). The oldest retained sequence O and the free space follow from the retained records and
the next sequence (R157). -/
structure Journal where
  /-- The retained records, oldest first. -/
  retained : List JournalRecord
  next : BitVec 32
  /-- The chain value (R156). -/
  chain : BitVec 16
  omitted : Nat
  lost : Nat
  shortageStart : BitVec 32
deriving DecidableEq, Repr

/-! ### Management Agent (Chapter 10) and Signal Block (Chapter 11) -/

/-- The permission levels, in rising order (R178). -/
inductive Level where
  | none
  | observe
  | operate
  | configure
deriving DecidableEq, Repr

/-- What the Management Agent holds for one port (R173, R178, R186). -/
structure AgentPort where
  level : Level
  /-- The intake slot: empty, or the management frame it holds (R173). -/
  slot : Option (List Byte)
  intake : Counter
  slotFull : Counter
  noPermission : Counter
  notRequest : Counter
  responseDiscard : Counter
  /-- The port's response counter (R177). -/
  responses : Counter
deriving DecidableEq, Repr

/-- A Restart taken and not yet asserted (R185): the oscillator time (ns) of its take, and whether its response's
transmission has ended. -/
structure RestartOrder where
  takenAt : Nat
  answered : Bool
deriving DecidableEq, Repr

/-- The Management Agent (R172 to R186). -/
structure Agent where
  ports : Vector AgentPort 8
  /-- The round-robin pointer (R174). -/
  pointer : Port
  restart : Option RestartOrder
  malformed : Counter
  unknown : Counter
  denied : Counter
deriving DecidableEq, Repr

/-- A strobe line (R150, R151). -/
structure Strobe where
  /-- The group set, bit g for group g. -/
  groups : BitVec 16
  /-- The pulse width in µs. -/
  width : Nat
  /-- The line: asserted until this oscillator tick, or deasserted. -/
  pulseEnd : Option Nat
deriving DecidableEq, Repr

/-- The Signal Block: strap latches, alarm mask, strobe lines (R150, R187, R191). -/
structure SignalBlock where
  straps : Straps
  alarmMask : BitVec 7
  strobes : Vector Strobe 4
deriving DecidableEq, Repr

/-! ### Power and resets (Chapter 11) -/

/-- A warm reset being held (R185, R189): whether a Restart command ordered it, whether the RESET pin is low, and the oscillator time (ns)
at which an ordered hold ends, until it has ended. -/
structure Hold where
  byCommand : Bool
  pinLow : Bool
  commandEnd : Option Nat
deriving DecidableEq, Repr

/-- Where the part stands between power and reset (R188, R189). -/
inductive Phase where
  /-- No power. -/
  | off
  /-- Power-on reset asserted and not yet released. -/
  | powerOn
  | running
  /-- Warm reset held. -/
  | warm (hold : Hold)
deriving DecidableEq, Repr

end Sys2Proof.Machine
end

