-- ==== Sys2Proof/Machine/Defaults.lean ====
section
/-! DEFINITION. What each block holds at the release of a reset (R16, R18, R36, R60, R82, R84, R98, R113, R114, R150, R186, R191). -/

namespace Sys2Proof.Machine

/-- A0, the nominal addend: 8 ns in units of 2^−32 ns (R4). -/
def nominalAddend : Nat := 34359738368

/-- D while device time has not been brought to a reference: 4,294,967,295 (R42). -/
def unsetBound : Nat := 4294967295

/-- The broadcast address, the default marker address (R83). -/
def broadcastAddress : BitVec 48 := 0xFFFFFFFFFFFF#48

/-- The PPS output after either reset (R15, R16). -/
def Pps.initial : Pps :=
  { mode := .off, width := 100, compensation := 0, lastPulsed := none, due := none, pulseEnd := none }

/-- The Time Base at the release of a power-on reset (R16). -/
def TimeBase.initial : TimeBase :=
  { sec := 0, ns := 0, frac := 0, addend := nominalAddend, utcOffset := 0, pendingOffset := none, absences := 0,
    steps := [], stepSpan := none, secondEvents := [], pps := Pps.initial }

/-- The default settings of a reference channel (R18). -/
def ChannelSettings.default : ChannelSettings :=
  { enabled := true, filterTicks := 64, cable := 0, early := 64, late := 64, wideRange := false, divisor := 813,
    doubleSpeed := false, parity := .none, stopBits := 1 }

/-- All counters of a reference channel at 0 (R36). -/
def ChannelCounters.zero : ChannelCounters :=
  { glitch := 0, extra := 0, accepted := 0, early := 0, late := 0, framingError := 0, parityError := 0, overrun := 0,
    skippedByte := 0, lineAbort := 0, gapAbort := 0, settingsAbort := 0, checkFailure := 0, fieldFailure := 0,
    validMessage := 0, leapRefused := 0, messageOverrun := 0, stale := 0, duplicate := 0, unlabelledDelivery := 0,
    withheld := 0, labelJump := 0 }

/-- A reference channel after either reset, released at the oscillator time `osc` (R36). -/
def RefChannel.initial (osc : Nat) : RefChannel :=
  { settings := ChannelSettings.default, filter := none, lastAccepted := none, receiver := .waitingForStart osc, buffer := [],
    assembler := .hunting, queue := [], delivered := none, run := 0, counters := ChannelCounters.zero }

/-- The default discipline settings (R37). -/
def DtuSettings.default : DtuSettings :=
  { acqKi := 3, acqKp := 1, trackKi := 6, trackKp := 2, sMax := 800000, limit := 100000, warn := 50000, uncertainty := 1000,
    qualify := 8, age := 3, persistence := 2, growth := 20, stepThreshold := 100000, revertDelay := 60, crossLimit := 10000 }

/-- What the DTU keeps for a reference after either reset (R52, R38). -/
def RefJudgement.initial : RefJudgement :=
  { edgeAge := none, jumpAge := none, source := none, run := 0, theta := none, fresh := false }

/-- An empty accumulation of a minute that begins with the divergence bound `bound` (R58). -/
def Minute.start (bound : Nat) : Minute :=
  { smallest := 0, largest := 0, accepted := 0, rejected := 0, largestD := bound }

/-- The DTU at the release of a power-on reset, with the preferred reference as latched (R60). D_entry, which has no stated
reset value, is 0 (DESIGN CHOICE, log entry 6). -/
def Dtu.initial (preferred : Channel) : Dtu :=
  { settings := DtuSettings.default, state := .free, refA := RefJudgement.initial, refB := RefJudgement.initial, active := none,
    preferred := preferred, integral := 0, proportional := 0, bound := unsetBound, lastTheta := 0, warning := false,
    disagreement := false, unlabelled := false, qualifying := 0, persistent := 0, entryBound := 0, growths := 0,
    disagreeing := 0, agreeing := 0, sinceApplied := 0, minute := Minute.start unsetBound, lastSecond := 0,
    steppedAt := none }

/-- The default lane profile (R75, R83, R84). -/
def LaneProfile.default : LaneProfile :=
  { orderEtherType := 0x88B6#16, keyOffset := 0, kindOffset := 4, defaultAction := .pass, latency := 0,
    markerAddress := broadcastAddress, high := 24576, low := 8192 }

/-- All ingress counters at 0. -/
def IngressCounters.zero : IngressCounters :=
  { received := 0, aborted := 0, runt := 0, oversize := 0, bad := 0, management := 0, macControl := 0 }

/-- All egress counters at 0. -/
def EgressCounters.zero : EgressCounters :=
  { drop := 0, passing := 0, marker := 0, own := 0, pauseSent := 0, pauseDiscard := 0, abort := 0 }

/-- A port at the release of a power-on reset: down, its stores empty (R77, R82). -/
def PortState.initial : PortState :=
  { link := false, reception := none, fifo := [], own := [], passedOver := 0, sending := none, receivedPause := none,
    pauseTimer := none, episode := none, ingress := IngressCounters.zero, egress := EgressCounters.zero, linkChanges := 0 }

/-- All classification counters at 0. -/
def ClassCounters.zero : ClassCounters :=
  { other := 0, keyAbsent := 0, matchedStamp := 0, matchedNoGroup := 0, matchedPass := 0, defaultedDated := 0, defaultedPassed := 0 }

/-- All marker counters at 0. -/
def MarkerCounters.zero : MarkerCounters :=
  { requested := 0, placed := 0, withdrawn := 0, lost := 0 }

/-- A lane at the release of a power-on reset (R82, R113, R149). -/
def Lane.initial : Lane :=
  { mode := .pass, profile := LaneProfile.default, lastStamp := { sec := 0, ns := 0 }, sequence := 0, datedSince := false,
    waiting := [], passForwarded := 0, classes := ClassCounters.zero, dated := 0, clamped := 0, markers := MarkerCounters.zero }

/-- A Match Table entry after either reset (R98). -/
def MatchEntry.initial : MatchEntry :=
  { valid := false, keyValue := 0, keyMask := 0, kindValue := 0, kindMask := 0, group := none, action := .pass }

/-- The Match Table after either reset (R98). -/
def MatchTable.initial : MatchTable :=
  { banks := Vector.replicate 2 (Vector.replicate 64 { entry := MatchEntry.initial, hits := 0 }), active := 0 }

/-- A group record after either reset (R114). -/
def GroupRecord.initial : GroupRecord :=
  { state := .idle, callStart := { sec := 0, ns := 0 }, windowStart := { sec := 0, ns := 0 }, window := 0, extLength := 1,
    extLimit := 0, extUsed := 0, policy := .proceed, deferRestart := 1, lanes := 0, k := 0, deferrals := 0, close := none,
    draw := none }

/-- The Auction Timer at the release of a power-on reset (R140). -/
def AuctionTimer.initial : AuctionTimer :=
  { groups := Vector.replicate 16 GroupRecord.initial, seed := .absent, day := 0 }

/-- The empty journal of a power-on reset, before its Start record (R169). The shortage start, which has no stated reset value, is 0
(DESIGN CHOICE, log entry 6). -/
def Journal.initial : Journal :=
  { retained := [], next := 1, chain := 0xFFFF#16, omitted := 0, lost := 0, shortageStart := 0 }

/-- What the agent holds for a port after either reset, with the level it then has (R186). -/
def AgentPort.initial (level : Level) : AgentPort :=
  { level := level, slot := none, intake := 0, slotFull := 0, noPermission := 0, notRequest := 0, responseDiscard := 0,
    responses := 0 }

/-- The Management Agent after either reset: the port named by CFG_PORT holds Configure, the other seven None (R178, R186). -/
def Agent.initial (cfgPort : Port) : Agent :=
  { ports := Vector.ofFn fun p => AgentPort.initial (if p = cfgPort then .configure else .none),
    pointer := 0, restart := none, malformed := 0, unknown := 0, denied := 0 }

/-- The default alarm mask: UNTRACEABLE (bit 0), JOURNAL_LOST (bit 5) and LANE_OVERFLOW (bit 6) (R191). -/
def defaultAlarmMask : BitVec 7 := 0b1100001#7

/-- A strobe line after either reset (R150, R151). -/
def Strobe.initial : Strobe :=
  { groups := 0, width := 100, pulseEnd := none }

/-- The Signal Block after either reset (R150, R187, R191). -/
def SignalBlock.initial (straps : Straps) : SignalBlock :=
  { straps := straps, alarmMask := defaultAlarmMask, strobes := Vector.replicate 4 Strobe.initial }

end Sys2Proof.Machine
end

