-- ==== Sys2Proof/Machine/Bits.lean ====
section
/-! DEFINITION. Bytes and checks: big-endian fields, the check of R28, the Ethernet frame check sequence, and the
choice of an order among things handed over at one moment (R162). -/

namespace Sys2Proof.Machine

/-- `n` as `len` bytes, most significant first (the manual's conventions: all multi-byte fields are big-endian). -/
def beBytes : Nat → Nat → List Byte
  | 0, _ => []
  | len + 1, n => BitVec.ofNat 8 (n / 256 ^ len) :: beBytes len n

/-- A signed number as `len` bytes in two's complement, most significant first. -/
def signedBytes (len : Nat) (x : Int) : List Byte :=
  beBytes len (x % (256 ^ len : Nat)).toNat

/-- The unsigned number that a run of bytes carries, most significant first. -/
def beNat (bytes : List Byte) : Nat :=
  bytes.foldl (fun n b => n * 256 + b.toNat) 0

/-- The signed number that a run of bytes carries, in two's complement. -/
def beInt (bytes : List Byte) : Int :=
  if 256 ^ bytes.length ≤ 2 * beNat bytes then (beNat bytes : Int) - (256 ^ bytes.length : Nat)
  else beNat bytes

/-- The run of `len` bytes at offset `off`. -/
def slice (bytes : List Byte) (off len : Nat) : List Byte :=
  (bytes.drop off).take len

/-- The unsigned field of `len` bytes at offset `off`. -/
def fieldNat (bytes : List Byte) (off len : Nat) : Nat :=
  beNat (slice bytes off len)

/-- The signed field of `len` bytes at offset `off`. -/
def fieldInt (bytes : List Byte) (off len : Nat) : Int :=
  beInt (slice bytes off len)

/-- The run of bytes brought up to `len` bytes with zeros, or cut to them. -/
def padTo (len : Nat) (bytes : List Byte) : List Byte :=
  (bytes ++ List.replicate (len - bytes.length) 0).take len

/-- An instant as 10 bytes: seconds (6), then nanoseconds (4) (section 10.8). -/
def instantBytes (i : Instant) : List Byte :=
  beBytes 6 i.sec ++ beBytes 4 i.ns

/-- The instant field at offset `off`. -/
def fieldInstant (bytes : List Byte) (off : Nat) : Instant :=
  { sec := fieldNat bytes off 6, ns := fieldNat bytes (off + 6) 4 }

/-- 1 for yes, 0 for no. -/
def flagByte (b : Bool) : Byte := if b then 1 else 0

/-! ### The check (R28) -/

/-- One shift of the check register: if the bit shifted out was 1, 0x1021 is combined in. -/
def checkShift (r : BitVec 16) : BitVec 16 :=
  if r.msb then (r <<< 1) ^^^ 0x1021#16 else r <<< 1

/-- The check register after one byte (R28, step 2). -/
def checkByte (r : BitVec 16) (b : Byte) : BitVec 16 :=
  Nat.iterate checkShift 8 (r ^^^ (b.setWidth 16 <<< 8))

/-- The check over a run of bytes with a given initial value (R28, R156). -/
def checkFrom (init : BitVec 16) (bytes : List Byte) : BitVec 16 :=
  bytes.foldl checkByte init

/-- The check over a run of bytes, with the initial value 0xFFFF (R28). -/
def check (bytes : List Byte) : BitVec 16 :=
  checkFrom 0xFFFF bytes

/-! ### The Ethernet frame check sequence

The manual calls it "the Ethernet 32-bit frame check sequence" (R110) and leaves its computation to Ethernet.
PRESUMED (log entry 5): the reflected CRC-32 of IEEE 802.3, its four bytes carried least significant first. -/

/-- One shift of the reflected CRC-32 register. -/
def fcsShift (r : BitVec 32) : BitVec 32 :=
  if r.getLsbD 0 then (r >>> 1) ^^^ 0xEDB88320#32 else r >>> 1

/-- The CRC-32 register after one byte. -/
def fcsByte (r : BitVec 32) (b : Byte) : BitVec 32 :=
  Nat.iterate fcsShift 8 (r ^^^ b.setWidth 32)

/-- The CRC-32 of a run of bytes. -/
def fcs (bytes : List Byte) : BitVec 32 :=
  ~~~ (bytes.foldl fcsByte 0xFFFFFFFF#32)

/-- The four FCS bytes of a frame, in the order they are carried. -/
def fcsBytes (bytes : List Byte) : List Byte :=
  (beBytes 4 (fcs bytes).toNat).reverse

/-- A frame with a newly computed FCS appended (R110). -/
def withFcs (bytes : List Byte) : List Byte :=
  bytes ++ fcsBytes bytes

/-- A received frame without its last four bytes, the FCS. -/
def withoutFcs (frame : List Byte) : List Byte :=
  frame.take (frame.length - 4)

/-- The FCS of a received frame is correct. -/
def fcsCorrect (frame : List Byte) : Bool :=
  frame.drop (frame.length - 4) == fcsBytes (withoutFcs frame)

/-! ### Orders -/

/-- Take up to `fuel` things from a list, each at the place the order names. -/
def pickInOrder {α : Type} : Nat → Order → List α → List α
  | 0, _, xs => xs
  | fuel + 1, order, xs =>
    match xs[order.headD 0 % xs.length]? with
    | some x => x :: pickInOrder fuel order.tail (xs.eraseIdx (order.headD 0 % xs.length))
    | none => xs

/-- The things handed over at one moment, in the order named: always the same things, each once (R162). -/
def inOrder {α : Type} (order : Order) (xs : List α) : List α :=
  pickInOrder xs.length order xs

end Sys2Proof.Machine
end

