-- ==== Sys2Proof/Machine/Records.lean ====
section
/-! DEFINITION. The codes and byte layouts of journal records and of the values that travel in frames (section 10.8). -/

namespace Sys2Proof.Machine

/-- Discipline states as coded in the GetStatus response. -/
def DState.code : DState → Byte
  | .free => 0
  | .acquiring => 1
  | .traceable => 2
  | .holdover => 3
  | .untraceable => 4

/-- Qualities as coded in the stamp trailer (R108). -/
def Quality.code : Quality → Byte
  | .traceable => 0
  | .warning => 1
  | .holdover => 2
  | .untraceable => 3
  | .unset => 4

/-- References: 0 A, 1 B. -/
def Channel.code : Channel → Byte
  | .A => 0
  | .B => 1

/-- An active reference: 0 A, 1 B, 0xFF none. -/
def activeCode : Option Channel → Byte
  | none => 0xFF
  | some ch => Channel.code ch

/-- The causes of a StateChange. -/
def StateCause.code : StateCause → Byte
  | .referenceEdge => 0
  | .qualified => 1
  | .persistence => 2
  | .referenceLost => 3
  | .holdoverLimit => 4
  | .endAcquisition => 5
  | .stepTime => 6
  | .warmReset => 7

/-- The causes of a ReferenceSwitch. -/
def SwitchCause.code : SwitchCause → Byte
  | .failover => 0
  | .revert => 1
  | .selection => 2
  | .loss => 3
  | .holdover => 4
  | .warmReset => 5

/-- Group states 0 IDLE to 5 CLOSED, in the order of R114. -/
def GroupState.code : GroupState → Byte
  | .idle => 0
  | .armed => 1
  | .call => 2
  | .window => 3
  | .suspended => 4
  | .closed => 5

/-- Policies: 0 PROCEED, 1 DEFER. -/
def Policy.code : Policy → Byte
  | .proceed => 0
  | .defer => 1

/-- Lane modes: 0 PASS, 1 STAMP. -/
def LaneMode.code : LaneMode → Byte
  | .pass => 0
  | .stamp => 1

/-- Action codes: 0 PASS, 1 STAMP, 2 STAMP_NO_GROUP. -/
def Action.code : Action → Byte
  | .pass => 0
  | .stamp => 1
  | .stampNoGroup => 2

/-- Seed-slot states: 0 ABSENT, 1 LOADED, 2 COMMITTED, 3 REVEALED. -/
def SeedSlot.code : SeedSlot → Byte
  | .absent => 0
  | .loaded _ => 1
  | .committed _ => 2
  | .revealed _ => 3

/-- Sources of a step: 0 DTU, 1 command. -/
def StepSource.code : StepSource → Byte
  | .dtu => 0
  | .command => 1

/-- Sources of an offset change: 0 reference channel A, 1 reference channel B, 2 command. -/
def OffsetSource.code : OffsetSource → Byte
  | .reference ch => Channel.code ch
  | .command => 2

/-- A θ, −2,147,483,648 when absent. -/
def thetaBytes (theta : Option Int) : List Byte :=
  signedBytes 4 (theta.getD (-2147483648))

/-- The seed flag of a Close record: bit 0 uncommitted, bit 1 advanced. -/
def Draw.flagByte (draw : Draw) : Byte :=
  (if draw.uncommitted then 1 else 0) ||| (if draw.advanced then 2 else 0)

/-- A group field: the group, or 0xFF for NONE. -/
def groupByte : Option Group → Byte
  | none => 0xFF
  | some g => BitVec.ofNat 8 g

/-- The bytes of the straps in a Start or Restart record: CFG_PORT, PREF_REF, ADDR. -/
def strapBytes (straps : Straps) : List Byte :=
  [BitVec.ofNat 8 straps.cfgPort, Channel.code straps.prefRef, straps.addr.setWidth 8]

/-- The fields of a MinuteSummary (R167): the largest D as 16,777,215 when it exceeds that value (R59), the discipline state in the upper
four bits of the last byte and the active reference (0 A, 1 B, 0xF none) in the lower four. -/
def minuteBytes (m : Minute) (state : DState) (active : Option Channel) : List Byte :=
  signedBytes 4 m.smallest ++ signedBytes 4 m.largest ++ beBytes 1 m.accepted ++ beBytes 1 m.rejected ++
    beBytes 3 (min m.largestD 16777215) ++
    [(DState.code state <<< 4) ||| (activeCode active &&& 0x0F)]

/-- The kind codes of R154. -/
def Payload.kind : Payload → Byte
  | .start .. => 1
  | .restart .. => 2
  | .stateChange .. => 3
  | .referenceSwitch .. => 4
  | .referenceDisagree .. => 5
  | .step .. => 6
  | .offsetChange .. => 7
  | .minuteSummary .. => 8
  | .configChange .. => 9
  | .seedCommit .. => 10
  | .seedReveal .. => 11
  | .extension .. => 12
  | .suspend .. => 13
  | .resume .. => 14
  | .close .. => 15
  | .laneOverflow .. => 16
  | .linkChange .. => 17
  | .dayRoll .. => 18
  | .gap .. => 19

/-- MinuteSummary is the one routine kind; every other kind is an event kind (R154). -/
def Payload.routine : Payload → Bool
  | .minuteSummary .. => true
  | _ => false

/-- The fields of each payload, in order from payload offset 0 (section 10.8). -/
def Payload.fields : Payload → List Byte
  | .start straps day => strapBytes straps ++ beBytes 2 day
  | .restart byCommand straps state day => flagByte byCommand :: (strapBytes straps ++ [DState.code state] ++ beBytes 2 day)
  | .stateChange previous new cause bound active =>
      [DState.code previous, DState.code new, StateCause.code cause] ++ beBytes 4 bound ++ [activeCode active]
  | .referenceSwitch previous new cause => [activeCode previous, activeCode new, SwitchCause.code cause]
  | .referenceDisagree set byDisqualification a b =>
      [flagByte set, flagByte byDisqualification] ++ thetaBytes a ++ thetaBytes b
  | .step source requested applied saturated =>
      StepSource.code source :: (signedBytes 6 requested ++ signedBytes 6 applied ++ [flagByte saturated])
  | .offsetChange previous new effective source =>
      signedBytes 1 previous ++ signedBytes 1 new ++ instantBytes effective ++ [OffsetSource.code source]
  | .minuteSummary m state active => minuteBytes m state active
  | .configChange command port object detail =>
      [command, BitVec.ofNat 8 port] ++ beBytes 2 object.toNat ++ padTo 10 detail
  | .seedCommit check => beBytes 2 check.toNat
  | .seedReveal seed check => beBytes 4 seed.toNat ++ beBytes 2 check.toNat
  | .extension g extUsed k windowStart =>
      beBytes 1 g ++ beBytes 1 extUsed ++ beBytes 1 k ++ instantBytes windowStart
  | .suspend g k d window quality byJournal =>
      beBytes 1 g ++ beBytes 1 k ++ beBytes 3 d ++ beBytes 3 window ++ [Quality.code quality, flagByte byJournal]
  | .resume g k deferrals windowStart =>
      beBytes 1 g ++ beBytes 1 k ++ beBytes 1 deferrals ++ instantBytes windowStart
  | .close g k draw window quality policy extUsed deferrals mask =>
      beBytes 1 g ++ beBytes 1 k ++ beBytes 3 draw.d ++ beBytes 3 window ++
        [Quality.code quality, Draw.flagByte draw, Policy.code policy] ++ beBytes 1 extUsed ++ beBytes 1 deferrals ++
        [mask.setWidth 8]
  | .laneOverflow lane egress isEnd drops byReset =>
      [BitVec.ofNat 8 lane, BitVec.ofNat 8 egress, flagByte isEnd] ++ beBytes 4 drops ++ [flagByte byReset]
  | .linkChange port up => [BitVec.ofNat 8 port, flagByte up]
  | .dayRoll previous new slot => beBytes 2 previous ++ beBytes 2 new ++ [SeedSlot.code slot]
  | .gap omitted lost began => beBytes 4 omitted ++ beBytes 4 lost ++ beBytes 4 began.toNat

/-- The 14 payload bytes: the fields, the bytes beyond the last field 0 (R153). -/
def Payload.bytes (p : Payload) : List Byte :=
  padTo 14 (Payload.fields p)

/-- The flags byte: bit 7 TIME_UNSET, bits 0 to 2 the quality at write (R153). -/
def Handed.flags (h : Handed) : Byte :=
  (if h.timeUnset then 0x80 else 0) ||| Quality.code h.quality

/-- The first 30 bytes of a record, sequence to payload, over which the chain check is computed (R156). -/
def recordHead (sequence : BitVec 32) (h : Handed) : List Byte :=
  beBytes 4 sequence.toNat ++ [Payload.kind h.payload, Handed.flags h] ++ instantBytes h.instant ++ Payload.bytes h.payload

/-- The 32 bytes of a record as they are read out (R153, R166). -/
def JournalRecord.bytes (r : JournalRecord) : List Byte :=
  recordHead r.sequence r.body ++ beBytes 2 r.chain.toNat

end Sys2Proof.Machine
end

