-- ==== Sys2Proof/Machine/Journal.lean ====
section
/-! DEFINITION. The Trace Journal as a block: sequence, chain, occupancy, shortage, release and read-out (R153 to R166). -/

namespace Sys2Proof.Machine

/-- The journal is a ring of 8,192 places. -/
def journalPlaces : Nat := 8192

/-- The greatest value of a saturating 32-bit count. -/
def countLimit : Nat := 4294967295

/-- The oldest retained sequence O (R157). -/
def Journal.oldest (j : Journal) : BitVec 32 :=
  j.next - BitVec.ofNat 32 j.retained.length

/-- The newest sequence, the next sequence less one (R157). -/
def Journal.newest (j : Journal) : BitVec 32 :=
  j.next - 1

/-- The free space (R157). -/
def Journal.free (j : Journal) : Nat :=
  journalPlaces - j.retained.length

/-- The journal is in shortage while either count is above 0 (R158). -/
def Journal.inShortage (j : Journal) : Bool :=
  j.omitted != 0 || j.lost != 0

/-- A record is appended: it takes the next sequence and the chain check (R155, R156). -/
def Journal.append (h : Handed) (j : Journal) : Journal :=
  let chain := checkFrom j.chain (recordHead j.next h)
  { j with
    retained := j.retained ++ [{ sequence := j.next, body := h, chain := chain }]
    next := j.next + 1
    chain := chain }

/-- The shortage start when a count rises: the newest sequence, if both counts were 0 (R158). -/
def Journal.shortageStartNow (j : Journal) : BitVec 32 :=
  if j.inShortage then j.shortageStart else j.newest

/-- An event record is lost (R159). -/
def Journal.lose (j : Journal) : Journal :=
  { j with lost := min (j.lost + 1) countLimit, shortageStart := j.shortageStartNow }

/-- A routine record is omitted (R160). -/
def Journal.omit (j : Journal) : Journal :=
  { j with omitted := min (j.omitted + 1) countLimit, shortageStart := j.shortageStartNow }

/-- The journal can take an event record: its free space is at least 1 (R159, R164). -/
def Journal.canTake (j : Journal) : Bool :=
  decide (1 ≤ j.free)

/-- A block hands an event record (R159). -/
def Journal.takeEvent (h : Handed) (j : Journal) : Journal :=
  if j.canTake then j.append h else j.lose

/-- The Gap record that ends a shortage, with the event instant of the MinuteSummary it precedes (R161). -/
def Journal.appendGap (h : Handed) (j : Journal) : Journal :=
  { j.append { h with payload := .gap j.omitted j.lost j.shortageStart } with omitted := 0, lost := 0 }

/-- The DTU hands a MinuteSummary record (R160). -/
def Journal.takeRoutine (h : Handed) (j : Journal) : Journal :=
  if j.free < 64 then j.omit
  else if j.inShortage then
    if j.free < 128 then j.omit else (j.appendGap h).append h
  else j.append h

/-- A block hands a record; the journal decides what becomes of it (R154, R159, R160). -/
def Journal.take (h : Handed) (j : Journal) : Journal :=
  if Payload.routine h.payload then j.takeRoutine h else j.takeEvent h

/-- Records handed one after another (R162). -/
def Journal.takeAll (hs : List Handed) (j : Journal) : Journal :=
  hs.foldl (fun j h => j.take h) j

/-- Where a sequence number lies (R155): the index of the retained record it names, or beyond the newest, or below the oldest. -/
inductive Place where
  | retained (index : Nat)
  | beyondNewest
  | belowOldest
deriving DecidableEq, Repr

/-- The place of the sequence number `n` (R155). -/
def Journal.place (n : BitVec 32) (j : Journal) : Place :=
  let distance := (n - j.oldest).toNat
  if distance < j.retained.length then .retained distance
  else if distance < 2147483648 then .beyondNewest
  else .belowOldest

/-- Release of every retained record up to `n` (R165). -/
def Journal.release (n : BitVec 32) (j : Journal) : Journal :=
  match j.place n with
  | .retained index => { j with retained := j.retained.drop (index + 1) }
  | .beyondNewest => { j with retained := [] }
  | .belowOldest => j

/-- The count of a ReadJournal, clamped to 1 to 32 (R166). -/
def clampReadCount (count : Nat) : Nat :=
  max 1 (min count 32)

/-- The records a ReadJournal from `from_` returns, or none where it is refused (R166). -/
def Journal.readFrom (from_ : BitVec 32) (count : Nat) (j : Journal) : Option (List JournalRecord) :=
  match j.place from_ with
  | .retained index => some ((j.retained.drop index).take (clampReadCount count))
  | .beyondNewest => some []
  | .belowOldest => none

end Sys2Proof.Machine
end

