-- ==== Sys2Proof/Machine/State.lean ====
section
/-! DEFINITION. The state of the EH416 and its value at the release of a power-on reset; the reasons a step may stop. -/

namespace Sys2Proof.Machine

/-- The whole part. Every field is plain data. -/
structure State where
  /-- Power and reset (R188, R189). -/
  phase : Phase
  /-- Oscillator ticks since power was applied: oscillator time (R17), and the 1,024 ticks of R188. -/
  osc : Nat
  time : TimeBase
  chanA : RefChannel
  chanB : RefChannel
  dtu : Dtu
  lanes : Vector Lane 4
  /-- The ports G0 to G3, E0 to E3. -/
  ports : Vector PortState 8
  table : MatchTable
  auction : AuctionTimer
  journal : Journal
  agent : Agent
  signal : SignalBlock
  /-- The MODEL'S OWN: the commands waiting to be taken, first in, first out. -/
  pending : List Instr
deriving DecidableEq, Repr

/-- Why a step may stop with a fault. NO constructor: the manual describes no event that stops the part, and no meaning raises one. -/
inductive Fault where
deriving DecidableEq, Repr

/-- Why a step may be refused. -/
inductive Refusal where
  /-- Raised by an arm of exec for a row that has no meaning yet (none at present). Safe: nothing is claimed of that row. -/
  | notModelled (mnemonic : String)
deriving DecidableEq, Repr

/-- The oscillator ticks a power-on reset lasts at least (R188). -/
abbrev powerOnTicks : Nat := 1024

/-- The Start record's body (R169): the straps latched, day 0, the event instant (0 s, 0 ns), TIME_UNSET set, quality Unset. R169
has the reading at the release, "near (0 s, 0 ns)": that it is exactly (0 s, 0 ns) is the model's choice (log entry 36). -/
def startRecord (straps : Straps) : Handed :=
  { payload := .start straps 0, instant := { sec := 0, ns := 0 }, timeUnset := true, quality := .unset }

/-- The part as the release of a power-on reset leaves it (R188), after `osc` ticks of the oscillator, with the straps latched; `absences` is the model's
own count of log entry 4. -/
def State.released (straps : Straps) (osc absences : Nat) (pending : List Instr) : State :=
  { phase := .running
    osc := osc
    time := { TimeBase.initial with absences := absences }
    chanA := RefChannel.initial (8 * osc)
    chanB := RefChannel.initial (8 * osc)
    dtu := Dtu.initial straps.prefRef
    lanes := Vector.replicate 4 Lane.initial
    ports := Vector.replicate 8 PortState.initial
    table := MatchTable.initial
    auction := AuctionTimer.initial
    journal := Journal.initial.append (startRecord straps)
    agent := Agent.initial straps.cfgPort
    signal := SignalBlock.initial straps
    pending := pending }

/-- The straps of State.reset: CFG_PORT 0, PREF_REF 0, ADDR 0 (DESIGN CHOICE, log entry 3: the board sets the pins). -/
def resetStraps : Straps := { cfgPort := 0, prefRef := .A, addr := 0 }

/-- The machine right after a power-on reset (R188), released at its 1,024th tick with all strap pins low. -/
def State.reset : State :=
  State.released resetStraps powerOnTicks 0 []

end Sys2Proof.Machine
end

