-- ==== Sys2Proof/Machine/Time.lean ====
section
/-! DEFINITION. Instants and device time: readings, comparison, the tick, steps, the addend (R1 to R7), and intervals of
oscillator time (R17). -/

namespace Sys2Proof.Machine

/-- Nanoseconds in a second. -/
abbrev nsPerSecond : Nat := 1000000000

/-- The seconds count wraps at 2^48 (R1). -/
abbrev secondsModulus : Nat := 281474976710656

/-- Instants are compared first by their seconds counts and then by their nanoseconds counts (R101). -/
abbrev Before (a b : Instant) : Prop :=
  a.sec < b.sec ∨ (a.sec = b.sec ∧ a.ns < b.ns)

/-- The instant `b` lies at or before the instant `a`. -/
abbrev AtOrAfter (a b : Instant) : Prop :=
  ¬ Before a b

/-- The whole nanoseconds from (0 s, 0 ns) to an instant. -/
def toNs (i : Instant) : Nat :=
  i.sec * nsPerSecond + i.ns

/-- The instant a number of nanoseconds after (0 s, 0 ns). -/
def ofNs (n : Nat) : Instant :=
  { sec := n / nsPerSecond, ns := n % nsPerSecond }

/-- An instant plus a duration in ns, with carry into the seconds count (R123, R130). -/
def addNs (i : Instant) (d : Nat) : Instant :=
  { sec := i.sec + (i.ns + d) / nsPerSecond, ns := (i.ns + d) % nsPerSecond }

/-- An instant plus a duration in milliseconds. -/
def addMs (i : Instant) (ms : Nat) : Instant :=
  addNs i (ms * 1000000)

/-- An instant less a compensation in ns, taken with borrow; (0 s, 0 ns) where the result would lie before it (R100). -/
def lessNs (i : Instant) (d : Nat) : Instant :=
  ofNs (toNs i - d)

/-- The later of two instants. -/
def laterOf (a b : Instant) : Instant :=
  if Before a b then b else a

/-- The earlier of two instants. -/
def earlierOf (a b : Instant) : Instant :=
  if Before b a then b else a

/-- Device time as the Time Base holds it (R1). -/
structure DeviceTime where
  sec : Nat
  ns : Nat
  frac : Nat
deriving DecidableEq, Repr

/-- Units of the fraction count in a nanosecond: 2^32. -/
abbrev fracPerNs : Nat := 4294967296

/-- One tick: the addend is added to the count of nanoseconds and fraction, with a carry of the whole nanoseconds out of the fraction and at
most one carry into the seconds count (R1). Irreducible, so that no unification counts down its large literals; `unfold` and `simp only`
open it. -/
@[irreducible] def DeviceTime.advance (t : DeviceTime) (addend : Nat) : DeviceTime :=
  let fraction := t.frac + addend
  let ns := t.ns + fraction / fracPerNs
  if nsPerSecond ≤ ns then
    { sec := (t.sec + 1) % secondsModulus, ns := ns - nsPerSecond, frac := fraction % fracPerNs }
  else
    { sec := t.sec, ns := ns, frac := fraction % fracPerNs }

/-- Device time without its fraction. -/
def DeviceTime.instant (t : DeviceTime) : Instant :=
  { sec := t.sec, ns := t.ns }

/-- What a step did: the device time after it, the amount applied, and whether it was saturated (R6, R7, R8). -/
structure StepResult where
  time : DeviceTime
  applied : Int
  saturated : Bool
deriving DecidableEq, Repr

/-- A step of `amount` ns: carries and borrows between nanoseconds and seconds, the fraction unchanged; a result before (0, 0)
gives (0, 0) with fraction 0; a result beyond the greatest seconds count wraps through 0 (R6, R7). -/
@[irreducible] def DeviceTime.step (t : DeviceTime) (amount : Int) : StepResult :=
  let ns : Int := t.ns + amount
  let sec : Int := t.sec + ns / nsPerSecond
  if sec < 0 then
    { time := { sec := 0, ns := 0, frac := 0 }, applied := -(toNs t.instant : Int), saturated := true }
  else
    { time := { sec := sec.toNat % secondsModulus, ns := (ns % nsPerSecond).toNat, frac := t.frac }
      applied := amount
      saturated := false }

/-- The greatest applied rate in magnitude: 3,200,000 fu, 200 ppm (R4). -/
def rateLimit : Int := 3200000

/-- A number clamped to the range from −limit to +limit. -/
def clampTo (limit : Int) (x : Int) : Int :=
  max (-limit) (min limit x)

/-- round(r × 2^31 / 10^9), to the nearest integer, a half away from zero (R4). -/
def addendOffset (r : Int) : Int :=
  r.sign * (((r.natAbs * 2147483648 + 500000000) / 1000000000 : Nat) : Int)

/-- The addend that an applied rate gives, the rate clamped first (R4). -/
def addendOf (r : Int) : Nat :=
  ((34359738368 : Int) + addendOffset (clampTo rateLimit r)).toNat

/-- Device time of the Time Base. -/
def TimeBase.device (tb : TimeBase) : DeviceTime :=
  { sec := tb.sec, ns := tb.ns, frac := tb.frac }

/-- The Time Base with another device time. -/
def TimeBase.withDevice (tb : TimeBase) (t : DeviceTime) : TimeBase :=
  { tb with sec := t.sec, ns := t.ns, frac := t.frac }

/-- Device time at the most recent tick, the fraction dropped. -/
def TimeBase.now (tb : TimeBase) : Instant :=
  { sec := tb.sec, ns := tb.ns }

/-- A reading of device time `sub` ns after the most recent tick, with the carry of R1 (R2). -/
@[irreducible] def TimeBase.reading (tb : TimeBase) (sub : Sub) : Instant :=
  if nsPerSecond ≤ tb.ns + sub then { sec := (tb.sec + 1) % secondsModulus, ns := tb.ns + sub - nsPerSecond }
  else { sec := tb.sec, ns := tb.ns + sub }

/-- The UTC offset given with a reading (R10). -/
def TimeBase.offsetAt (tb : TimeBase) (reading : Instant) : Int :=
  match tb.pendingOffset with
  | some change => if AtOrAfter reading change.effective then change.newOffset else tb.utcOffset
  | none => tb.utcOffset

/-- An instant that has been reached was reached by a step: the last step tick carried device time past it (R3). -/
def TimeBase.reachedByStep (tb : TimeBase) (i : Instant) : Option Instant :=
  match tb.stepSpan with
  | some span => if Before span.before i ∧ AtOrAfter span.after i then some span.after else none
  | none => none

/-- Oscillator time in ns: 8 ns for every tick, and the ns since the last tick (R17). -/
def oscTime (ticks : Nat) (sub : Nat) : Nat :=
  8 * ticks + sub

/-- A width in µs, in oscillator ticks: 125 ticks to the µs (R15, R151). -/
def ticksOfMicros (micros : Nat) : Nat :=
  125 * micros

end Sys2Proof.Machine
end

