-- ==== Sys2Proof/Machine/Flags.lean ====
section
/-! DEFINITION. What follows from the state at every moment: quality (R51), the fill of a passing FIFO (R70), the alarm conditions and the
ALARM line (R190, R191), the pins, the strobe set of a group (R114), the management address (R172). -/

namespace Sys2Proof.Machine

/-- The published quality (R51). -/
def Dtu.quality (d : Dtu) : Quality :=
  match d.state with
  | .traceable => if d.warning then .warning else .traceable
  | .holdover => .holdover
  | .untraceable => .untraceable
  | .acquiring => .untraceable
  | .free => .unset

/-- Quality Traceable, Warning or Holdover: fit for a DEFER close, a resume and the Traceable-only PPS mode (R14, R125, R128). -/
def Quality.fit : Quality → Bool
  | .traceable => true
  | .warning => true
  | .holdover => true
  | .untraceable => false
  | .unset => false

/-- The length of an item in bytes, as the fill counts it: markers take none (R70). -/
def PassingItem.fillLength : PassingItem → Nat
  | .frame bytes _ => bytes.length
  | .marker _ => 0

/-- The fill of a passing FIFO: the sum of the lengths of the frames it holds (R70). -/
def fillOf (items : List PassingItem) : Nat :=
  items.foldr (fun item n => PassingItem.fillLength item + n) 0

/-- The item is a close marker. -/
def PassingItem.isMarker : PassingItem → Bool
  | .frame _ _ => false
  | .marker _ => true

/-- How many close markers a passing FIFO holds (R70, R144). -/
def markersIn (items : List PassingItem) : Nat :=
  (items.filter PassingItem.isMarker).length

/-- The seven alarm conditions, bit n for condition n of R190. -/
def State.liveConditions (s : State) : BitVec 7 :=
  let bit (n : Nat) (live : Bool) : BitVec 7 := if live then BitVec.twoPow 7 n else 0
  bit 0 (s.dtu.state == .free || s.dtu.state == .acquiring || s.dtu.state == .untraceable) |||
  bit 1 s.dtu.warning |||
  bit 2 (s.dtu.state == .holdover) |||
  bit 3 s.dtu.disagreement |||
  bit 4 (decide (s.journal.free < 64)) |||
  bit 5 (s.journal.lost != 0) |||
  bit 6 ((List.finRange 8).any fun p => (s.ports[p]).episode.isSome)

/-- The ALARM line is driven low: at least one live condition is marked in the mask (R191). Without power nothing is driven. -/
def State.alarmAsserted (s : State) : Bool :=
  s.phase != .off && (s.liveConditions &&& s.signal.alarmMask) != 0

/-- The PPS_OUT pin is asserted (R15). -/
def State.ppsPin (s : State) : Bool :=
  s.time.pps.pulseEnd.isSome

/-- The pin of a strobe line is asserted (R151). -/
def State.strobePin (s : State) (line : Line) : Bool :=
  (s.signal.strobes[line]).pulseEnd.isSome

/-- The group set of a strobe line names the group (R150). -/
def Strobe.names (strobe : Strobe) (g : Group) : Bool :=
  strobe.groups.getLsbD g

/-- The strobe set of a group, bit n for line n (R114, R150). -/
def SignalBlock.strobeSet (sb : SignalBlock) (g : Group) : BitVec 4 :=
  (List.finRange 4).foldl (fun (set : BitVec 4) (line : Line) => if Strobe.names sb.strobes[line] g then set ||| BitVec.twoPow 4 line.val else set) 0

/-- The management address 02-57-47-42-00-0N, N the latched ADDR strap (R172). -/
def SignalBlock.managementAddress (sb : SignalBlock) : BitVec 48 :=
  0x025747420000#48 ||| sb.straps.addr.setWidth 48

/-- The management EtherType (R172). -/
def managementEtherType : BitVec 16 := 0x88B5#16

/-- The MAC control EtherType (R68). -/
def macControlEtherType : BitVec 16 := 0x8808#16

/-- The part runs: powered and no reset held. -/
def State.running (s : State) : Bool :=
  s.phase == .running

/-- A warm reset is held (R189). -/
def State.held (s : State) : Bool :=
  match s.phase with
  | .warm _ => true
  | _ => false

/-- The Time Base counts device time: while the part runs and while a warm reset is held (R1, R16). -/
def State.counting (s : State) : Bool :=
  s.running || s.held

end Sys2Proof.Machine
end

