-- ==== Sys2Proof/Machine/Ops.lean ====
section
/-! DEFINITION. The shared operations over the state: its blocks read and replaced, oscillator time, readings, records handed to the
journal, rates and offset schedules handed to the Time Base. -/

namespace Sys2Proof.Machine

/-- What every meaning answers with: the next state and nothing else (log entry 1). -/
abbrev Result := Host.Outcome State Fault Refusal

/-! ### Ports and lanes -/

/-- The lane a port belongs to (R62). -/
def laneOf (p : Port) : LaneId := ⟨p.val % 4, Nat.mod_lt _ (by decide)⟩

/-- The port is one of G0 to G3. -/
def isGateway (p : Port) : Bool := decide (p.val < 4)

/-- The other port of the lane: the feeder port of this port's passing FIFO (R62). -/
def mate (p : Port) : Port := ⟨(p.val + 4) % 8, Nat.mod_lt _ (by decide)⟩

/-- The gateway-side port of a lane. -/
def gatewayPort (l : LaneId) : Port := ⟨l.val, by omega⟩

/-- The engine-side port of a lane. -/
def enginePort (l : LaneId) : Port := ⟨l.val + 4, by omega⟩

/-! ### Blocks of the state -/

/-- Replace the Time Base. -/
def State.withTime (s : State) (tb : TimeBase) : State := { s with time := tb }
/-- Replace the DTU. -/
def State.withDtu (s : State) (d : Dtu) : State := { s with dtu := d }
/-- Replace the Trace Journal. -/
def State.withJournal (s : State) (j : Journal) : State := { s with journal := j }
/-- Replace the Auction Timer. -/
def State.withAuction (s : State) (a : AuctionTimer) : State := { s with auction := a }
/-- Replace the Management Agent. -/
def State.withAgent (s : State) (a : Agent) : State := { s with agent := a }
/-- Replace the Signal Block. -/
def State.withSignal (s : State) (b : SignalBlock) : State := { s with signal := b }
/-- Replace the Match Table. -/
def State.withTable (s : State) (t : MatchTable) : State := { s with table := t }
/-- Replace the phase. -/
def State.withPhase (s : State) (p : Phase) : State := { s with phase := p }

/-- A reference channel. -/
def State.chan (s : State) : Channel → RefChannel
  | .A => s.chanA
  | .B => s.chanB

/-- Replace a reference channel. -/
def State.withChan (s : State) (ch : Channel) (c : RefChannel) : State :=
  match ch with
  | .A => { s with chanA := c }
  | .B => { s with chanB := c }

/-- A lane. -/
def State.lane (s : State) (l : LaneId) : Lane := s.lanes[l]

/-- Replace a lane. -/
def State.withLane (s : State) (l : LaneId) (x : Lane) : State := { s with lanes := s.lanes.set l x }

/-- A port. -/
def State.port (s : State) (p : Port) : PortState := s.ports[p]

/-- Replace a port. -/
def State.withPort (s : State) (p : Port) (x : PortState) : State := { s with ports := s.ports.set p x }

/-- A group record. -/
def State.group (s : State) (g : Group) : GroupRecord := s.auction.groups[g]

/-- Replace a group record. -/
def State.withGroup (s : State) (g : Group) (r : GroupRecord) : State :=
  s.withAuction { s.auction with groups := s.auction.groups.set g r }

/-- What the agent holds for a port. -/
def State.agentPort (s : State) (p : Port) : AgentPort := s.agent.ports[p]

/-- Replace what the agent holds for a port. -/
def State.withAgentPort (s : State) (p : Port) (x : AgentPort) : State :=
  s.withAgent { s.agent with ports := s.agent.ports.set p x }

/-! ### Time -/

/-- Oscillator time, `sub` ns after the last tick (R17). -/
def State.oscAt (s : State) (sub : Sub) : Nat := oscTime s.osc sub

/-- A device-time reading, `sub` ns after the last tick (R2). -/
def State.readingAt (s : State) (sub : Sub) : Instant := s.time.reading sub

/-! ### Records -/

/-- A record as a block hands it at this moment: with the FREE and the quality the DTU then has (R153). -/
def Dtu.handed (d : Dtu) (instant : Instant) (payload : Payload) : Handed :=
  { payload := payload, instant := instant, timeUnset := d.state == .free, quality := d.quality }

/-- Records are handed to the journal one after another (R159, R160, R162). -/
def State.handAll (s : State) (hs : List Handed) : State :=
  s.withJournal (s.journal.takeAll hs)

/-- A block hands one record with the event instant `t`. -/
def State.hand (s : State) (t : Instant) (payload : Payload) : State :=
  s.withJournal (s.journal.take (s.dtu.handed t payload))

/-! ### What is handed to the Time Base -/

/-- The DTU hands an applied rate: the addend of the ticks to come (R4, R5). -/
def TimeBase.takeRate (tb : TimeBase) (r : Int) : TimeBase :=
  { tb with addend := addendOf r }

/-- A step request is taken; it waits for its tick (R6, R9). -/
def TimeBase.takeStep (tb : TimeBase) (r : StepRequest) : TimeBase :=
  { tb with steps := tb.steps ++ [r] }

/-- The Time Base takes the change: the current offset takes the new value and the pending change becomes absent (R12). -/
def TimeBase.applyOffset (tb : TimeBase) (newOffset : Int) : TimeBase :=
  { tb with utcOffset := newOffset, pendingOffset := none, absences := tb.absences + 1 }

/-- A new offset the Time Base can take: −128 to 127 (R11). -/
def offsetInRange (x : Int) : Bool :=
  decide (-128 ≤ x) && decide (x ≤ 127)

/-- A change is applied, with its OffsetChange record at the event instant `t` (R12). -/
def State.applyOffset (s : State) (change : OffsetChange) (t : Instant) : State :=
  let previous := s.time.utcOffset
  (s.withTime (s.time.applyOffset change.newOffset)).hand t
    (.offsetChange previous change.newOffset change.effective change.source)

/-- A schedule within range is taken at the reading `t`: it replaces the pending change, or is applied at once where its instant is at
or before `t` (R11, R12). Device time when the schedule is taken is its 1 ns reading at the take, not the count at the last tick (the model's choice,
log entry 33). A change applied at once leaves no pending change, whatever was pending before. -/
def State.takeSchedule (s : State) (change : OffsetChange) (t : Instant) : State :=
  if AtOrAfter t change.effective then s.applyOffset change t
  else s.withTime { s.time with pendingOffset := some change }

end Sys2Proof.Machine
end

