-- ==== Sys2Proof/Machine/Marker.lean ====
section
/-! DEFINITION. Close markers and strobe lines (Chapter 8): marker requests, their placement, strobe pulses; MARKER_POINT_REACHED and
STROBE_PULSE_END. -/

namespace Sys2Proof.Machine

/-- A passing FIFO holds up to 16 close markers (R70), a waiting list up to 16 requests (R142). -/
def markerPlaces : Nat := 16

/-- A frame's compensated instant: its detection instant less the L_lane of its detection record; the raw stamp of a dated frame (R100, R143). -/
def DetectionRecord.compensated (r : DetectionRecord) : Instant :=
  lessNs r.instant r.profile.latency

/-- The last-sequence field of a marker placed now (R144). -/
def Lane.lastSequence (l : Lane) : BitVec 32 :=
  if l.datedSince then l.sequence else 0xFFFFFFFF#32

/-- The marker of a request, as a lane fills it at its placement (R144, R147). -/
def Lane.markerOf (l : Lane) (r : MarkerRequest) : Marker :=
  { group := r.group, close := r.close, k := r.k, quality := r.quality, address := l.profile.markerAddress,
    lastSequence := l.lastSequence }

/-- A lane whose marker counters are changed. -/
def Lane.countMarker (l : Lane) (f : MarkerCounters → MarkerCounters) : Lane :=
  { l with markers := f l.markers }

/-- A request's marker is placed: withdrawn in PASS mode (R145), lost at a FIFO that holds 16 markers, and otherwise put at the back of the
engine-side passing FIFO (R144). -/
def State.placeMarker (s : State) (l : LaneId) (r : MarkerRequest) : State :=
  let lane := s.lane l
  let port := s.port (enginePort l)
  if lane.mode = .pass then
    s.withLane l (lane.countMarker fun c => { c with withdrawn := c.withdrawn + 1 })
  else if markersIn port.fifo < markerPlaces then
    (s.withPort (enginePort l) { port with fifo := port.fifo ++ [.marker (lane.markerOf r)] }).withLane l
      (lane.countMarker fun c => { c with placed := c.placed + 1 })
  else s.withLane l (lane.countMarker fun c => { c with lost := c.lost + 1 })

/-- The markers of several requests are placed at one moment (R144). -/
def State.placeMarkers (s : State) (l : LaneId) (rs : List MarkerRequest) : State :=
  rs.foldl (fun s r => s.placeMarker l r) s

/-- The waiting requests that a moment concerns leave the list and have their markers placed, in the order named (R143, R144). -/
def State.placeWaiting (s : State) (l : LaneId) (concerns : MarkerRequest → Bool) (order : Order) : State :=
  let lane := s.lane l
  (s.withLane l { lane with waiting := lane.waiting.filter fun r => !concerns r }).placeMarkers l
    (inOrder order (lane.waiting.filter concerns))

/-- A request is put on the waiting list (R142). -/
def State.waitMarker (s : State) (l : LaneId) (r : MarkerRequest) : State :=
  let lane := s.lane l
  s.withLane l { lane with waiting := lane.waiting ++ [r] }

/-- A request on the list is dealt with at once, at the reading `t` (R143): placed before a frame in reception whose compensated instant is at or after
c; once the marker point is reached placed, or made to follow the frame in reception; otherwise it waits. That the device time compared with the point is the
1 ns reading of that moment, and not the count at the last tick, is the model's choice (log entry 33). -/
def State.dealRequest (s : State) (l : LaneId) (r : MarkerRequest) (t : Instant) : State :=
  match (s.port (gatewayPort l)).reception with
  | some frame =>
    if AtOrAfter frame.detection.compensated r.close then s.placeMarker l r
    else if AtOrAfter t (addNs r.close (s.lane l).profile.latency) then s.waitMarker l { r with afterFrame := true }
    else s.waitMarker l r
  | none =>
    if AtOrAfter t (addNs r.close (s.lane l).profile.latency) then s.placeMarker l r
    else s.waitMarker l r

/-- A lane takes a marker request at the reading `t`; at a list that already holds 16 it is lost (R142). -/
def State.takeRequest (s : State) (l : LaneId) (r : MarkerRequest) (t : Instant) : State :=
  let lane := s.lane l
  let counted := s.withLane l (lane.countMarker fun c => { c with requested := c.requested + 1 })
  if lane.waiting.length < markerPlaces then counted.dealRequest l r t
  else counted.withLane l ((counted.lane l).countMarker fun c => { c with lost := c.lost + 1 })

/-- The lanes of a set that are in STAMP mode: those asked for a marker (R126). -/
def State.askedLanes (s : State) (lanes : BitVec 4) : BitVec 4 :=
  (List.finRange 4).foldl
    (fun (mask : BitVec 4) (l : LaneId) =>
      if lanes.getLsbD l && (s.lane l).mode == .stamp then mask ||| BitVec.twoPow 4 l.val else mask) 0

/-- Each lane of a mask takes the request (R126, R142). -/
def State.askLanes (s : State) (mask : BitVec 4) (r : MarkerRequest) (t : Instant) : State :=
  (List.finRange 4).foldl
    (fun (s : State) (l : LaneId) => if mask.getLsbD l then s.takeRequest l r t else s) s

/-- The waiting requests whose marker point device time has reached: placed where no frame is in reception on the gateway-side port, and
otherwise made to follow that frame (R143). -/
def State.reachMarkerPoint (s : State) (l : LaneId) (order : Order) : State :=
  let due (r : MarkerRequest) : Bool := r.reached && !r.afterFrame
  match (s.port (gatewayPort l)).reception with
  | none => s.placeWaiting l due order
  | some _ =>
    let lane := s.lane l
    s.withLane l { lane with waiting := lane.waiting.map fun r => if due r then { r with reached := false, afterFrame := true } else r }

/-- MARKER_POINT_REACHED (R143). -/
def execMarkerPointReached (l : LaneId) (order : Order) (s : State) : Result :=
  .next <| if s.running then s.reachMarkerPoint l order else s

/-- Every strobe line whose group set names the group is asserted for its pulse width from the tick `osc` (R151). -/
def SignalBlock.pulse (sb : SignalBlock) (g : Group) (osc : Nat) : SignalBlock :=
  { sb with
    strobes := Vector.ofFn fun line =>
      let strobe := sb.strobes[line]
      if Strobe.names strobe g then { strobe with pulseEnd := some (osc + ticksOfMicros strobe.width) } else strobe }

/-- The pulse of a strobe line has run its width (R151). -/
def Strobe.over (strobe : Strobe) (osc : Nat) : Bool :=
  match strobe.pulseEnd with
  | some tick => decide (tick ≤ osc)
  | none => false

/-- STROBE_PULSE_END (R151). -/
def execStrobePulseEnd (line : Line) (s : State) : Result :=
  .next <|
    if Strobe.over s.signal.strobes[line] s.osc then
      s.withSignal { s.signal with strobes := s.signal.strobes.set line { s.signal.strobes[line] with pulseEnd := none } }
    else s

end Sys2Proof.Machine
end

