-- ==== Sys2Proof/Machine/Auction.lean ====
section
/-! DEFINITION. The Auction Timer (Chapter 7): the draw, the close decision, suspension and resume, the seed's reveal;
CALL_START_REACHED, WINDOW_START_REACHED, CLOSE_INSTANT_REACHED. -/

namespace Sys2Proof.Machine

/-- The group waits for an instant or for quality: ARMED, CALL, WINDOW or SUSPENDED (R126, R133). -/
def GroupState.waiting : GroupState → Bool
  | .idle => false
  | .armed => true
  | .call => true
  | .window => true
  | .suspended => true
  | .closed => false

/-- The window end: window start plus W milliseconds (R114). -/
def GroupRecord.windowEnd (r : GroupRecord) : Instant :=
  addMs r.windowStart r.window

/-- One more, saturating at 255: the draw index and the deferrals (R114). -/
def bump (n : Nat) : Nat := min (n + 1) 255

/-! ### The draw (R122, R123) -/

/-- The key of a draw: day number × 65,536 + group × 256 + k (R122). -/
def drawKey (day : Nat) (g : Group) (k : Nat) : Nat :=
  day * 65536 + g.val * 256 + k

/-- V = ((S exclusive-or key) × 2,654,435,761) modulo 2^32 (R123). -/
def drawValue (seed : BitVec 32) (key : Nat) : Nat :=
  (seed ^^^ BitVec.ofNat 32 key).toNat * 2654435761 % 4294967296

/-- d, the whole part of V × (W + 1) / 2^32, in ms (R123). -/
def drawDelay (seed : BitVec 32) (key window : Nat) : Nat :=
  drawValue seed key * (window + 1) / 4294967296

/-- The seed of a draw and its uncommitted flag: the committed seed, or the nanoseconds count of the reading (R122). -/
def SeedSlot.forDraw (slot : SeedSlot) (reading : Instant) : BitVec 32 × Bool :=
  match slot with
  | .committed seed => (seed, false)
  | _ => (BitVec.ofNat 32 reading.ns, true)

/-- The group enters WINDOW and draws its close, with the draw instant and the reading of the draw (R121, R122, R123). -/
def AuctionTimer.drawClose (a : AuctionTimer) (g : Group) (drawInstant reading : Instant) : GroupRecord :=
  let r := a.groups[g]
  let seed := SeedSlot.forDraw a.seed reading
  let d := drawDelay seed.1 (drawKey a.day g r.k) r.window
  let drawn := addMs r.windowStart d
  { r with
    state := .window
    close := some (if AtOrAfter drawn drawInstant then drawn else earlierOf drawInstant r.windowEnd)
    draw := some { d := d, uncommitted := seed.2, advanced := decide (Before drawn drawInstant) } }

/-! ### The seed's reveal (R138) -/

/-- The four bytes of a seed, most significant first (R136). -/
def seedBytes (seed : BitVec 32) : List Byte := beBytes 4 seed.toNat

/-- A COMMITTED seed is revealed: a SeedReveal record, and the slot REVEALED (R138). -/
def State.revealSeed (s : State) (t : Instant) : State :=
  match s.auction.seed with
  | .committed seed =>
    (s.withAuction { s.auction with seed := .revealed seed }).hand t (.seedReveal seed (check (seedBytes seed)))
  | _ => s

/-- Some group is in ARMED, CALL, WINDOW or SUSPENDED (R126). -/
def AuctionTimer.anyWaiting (a : AuctionTimer) : Bool :=
  (List.finRange 16).any fun g => GroupState.waiting (a.groups[g]).state

/-! ### The close decision (R124 to R128) -/

/-- The Close record's payload (R139). -/
def GroupRecord.closePayload (r : GroupRecord) (g : Group) (draw : Draw) (quality : Quality) (mask : BitVec 4) : Payload :=
  .close g r.k draw r.window quality r.policy r.extUsed r.deferrals mask

/-- The marker request of a close (R126, R142). -/
def GroupRecord.request (r : GroupRecord) (g : Group) (c : Instant) (quality : Quality) : MarkerRequest :=
  { group := g, close := c, k := r.k, quality := quality, reached := false, afterFrame := false }

/-- A close fires at the reading `t`, in the order of R126: CLOSED, the Close record, the strobe pulses, the marker requests, and the seed's
reveal where no group waits any more. -/
def State.fireClose (s : State) (g : Group) (c : Instant) (draw : Draw) (t : Instant) : State :=
  let r := s.group g
  let quality := s.dtu.quality
  let mask := s.askedLanes r.lanes
  let closed := s.withGroup g { r with state := .closed }
  let recorded := closed.hand c (r.closePayload g draw quality mask)
  let pulsed := recorded.withSignal (recorded.signal.pulse g s.osc)
  let asked := pulsed.askLanes mask (r.request g c quality) t
  if asked.auction.anyWaiting then asked else asked.revealSeed t

/-- A group resumed at the reading `t` (R128). -/
def GroupRecord.resumed (r : GroupRecord) (t : Instant) : GroupRecord :=
  { r with
    state := .call
    windowStart := laterOf r.windowStart (addMs t r.deferRestart)
    k := bump r.k
    deferrals := bump r.deferrals }

/-- The Resume record's payload (R128). -/
def GroupRecord.resumePayload (r : GroupRecord) (g : Group) : Payload :=
  .resume g r.k r.deferrals r.windowStart

/-- A suspended group resumes at the reading `t`, with its Resume record (R128). -/
def State.resumeGroup (s : State) (g : Group) (t : Instant) : State :=
  let r := (s.group g).resumed t
  (s.withGroup g r).hand t (r.resumePayload g)

/-- A DEFER close whose test fails suspends the group, with its Suspend record, whose event instant is the discarded c (R127); where the
quality stands at Traceable, Warning or Holdover the group resumes at once (R128). -/
def State.suspendGroup (s : State) (g : Group) (c : Instant) (draw : Draw) (t : Instant) : State :=
  let r := s.group g
  let quality := s.dtu.quality
  let suspended := (s.withGroup g { r with state := .suspended, close := none, draw := none }).hand c
    (.suspend g r.k draw.d r.window quality (Quality.fit quality))
  if Quality.fit quality then suspended.resumeGroup g t else suspended

/-- The close decision of a group in WINDOW at the reading `t`: PROCEED fires (R124); DEFER fires where the quality is fit and the journal can
take an event record, and is suspended otherwise (R125). -/
def State.decideClose (s : State) (g : Group) (t : Instant) : State :=
  let r := s.group g
  match r.close, r.draw with
  | some c, some draw =>
    match r.policy with
    | .proceed => s.fireClose g c draw t
    | .defer => if Quality.fit s.dtu.quality && s.journal.canTake then s.fireClose g c draw t else s.suspendGroup g c draw t
  | _, _ => s

/-- A group enters WINDOW and draws; where c is already reached at the reading of the draw, the close is decided at once (R121). -/
def State.openWindow (s : State) (g : Group) (drawInstant reading : Instant) : State :=
  let r := s.auction.drawClose g drawInstant reading
  let drawn := s.withGroup g r
  match r.close with
  | some c => if AtOrAfter reading c then drawn.decideClose g reading else drawn
  | none => drawn

/-- All suspended groups resume at the reading `t` (R128). -/
def AuctionTimer.resumeAll (a : AuctionTimer) (t : Instant) : AuctionTimer :=
  { a with groups := Vector.ofFn fun g => if (a.groups[g]).state = .suspended then (a.groups[g]).resumed t else a.groups[g] }

/-- The Resume payloads of the groups suspended before a resume of all. -/
def AuctionTimer.resumePayloads (a : AuctionTimer) (t : Instant) : List Payload :=
  (List.finRange 16).filterMap fun g =>
    if (a.groups[g]).state = .suspended then some (((a.groups[g]).resumed t).resumePayload g) else none

/-! ### Instants reached -/

/-- CALL_START_REACHED (R120): a group in ARMED enters CALL once device time has reached its call start. -/
def execCallStartReached (g : Group) (s : State) : Result :=
  .next <|
    if s.running ∧ (s.group g).state = .armed ∧ AtOrAfter s.time.now (s.group g).callStart then
      s.withGroup g { s.group g with state := .call }
    else s

/-- The draw instant of a window start that device time reached: the window start itself when counting reached it, the reading at the step
tick when a step did (R121). -/
def TimeBase.drawInstant (tb : TimeBase) (windowStart : Instant) : Instant :=
  (tb.reachedByStep windowStart).getD windowStart

/-- WINDOW_START_REACHED (R121): a group in CALL enters WINDOW once device time has reached its window start. -/
def execWindowStartReached (g : Group) (sub : Sub) (s : State) : Result :=
  .next <|
    if s.running ∧ (s.group g).state = .call ∧ AtOrAfter s.time.now (s.group g).windowStart then
      s.openWindow g (s.time.drawInstant (s.group g).windowStart) (s.readingAt sub)
    else s

/-- Device time has reached the close instant of a group in WINDOW (R116). -/
def State.closeDue (s : State) (g : Group) : Bool :=
  match (s.group g).state, (s.group g).close with
  | .window, some c => decide (AtOrAfter s.time.now c)
  | _, _ => false

/-- CLOSE_INSTANT_REACHED (R125). -/
def execCloseInstantReached (g : Group) (sub : Sub) (s : State) : Result :=
  .next <| if s.running && s.closeDue g then s.decideClose g (s.readingAt sub) else s

end Sys2Proof.Machine
end

