-- ==== Sys2Proof/Machine/Clock.lean ====
section
/-! DEFINITION. The Time Base's own steps: TICK, STEP_APPLIED, OFFSET_CHANGE, PULSE_POINT_REACHED, PPS_PULSE_END (Chapter 1). -/

namespace Sys2Proof.Machine

/-- The second event of a tick, when the seconds count changes (R3). -/
def secondEventOf (before after : Instant) : List Instant :=
  if after.sec = before.sec then [] else [after]

/-- The last second whose pulse point, the instant (s, 0) less the compensation, lies at or before an instant (R13). -/
def lastPulsePoint (compensation : Nat) (i : Instant) : Nat :=
  i.sec + (i.ns + compensation) / nsPerSecond

/-- The second whose pulse point a tick of counting reaches, if it reaches one: its pulse point lies after `before` and not after `after`
(R3, R13). -/
@[irreducible] def pulseSecond (compensation : Nat) (before after : Instant) : Option Nat :=
  if lastPulsePoint compensation before < lastPulsePoint compensation after then some (lastPulsePoint compensation after) else none

/-- The pulse-per-second output at a tick of counting: a pulse point reached makes its second's pulse due unless it is the last-pulsed
second (R13). -/
def Pps.counted (pps : Pps) (before after : Instant) : Pps :=
  match pulseSecond pps.compensation before after with
  | some second => if pps.lastPulsed = some second then pps else { pps with due := some second }
  | none => pps

/-- The marker point of a waiting request: c plus L_lane of the profile in force (R143). -/
def MarkerRequest.point (r : MarkerRequest) (latency : Nat) : Instant :=
  addNs r.close latency

/-- A waiting request at a tick: its marker point is reached when device time comes from before it to at or after it. A point that a backward step puts ahead
is reached again by counting, also where it had been reached with a frame in reception, which the marker then does not follow (R3, R143; log entry 30). -/
def MarkerRequest.ticked (latency : Nat) (before after : Instant) (r : MarkerRequest) : MarkerRequest :=
  let passed := decide (AtOrAfter after (r.point latency))
  { r with
    reached := passed && (r.reached || decide (Before before (r.point latency)))
    afterFrame := r.afterFrame && passed }

/-- A lane at a tick: its waiting requests. -/
def Lane.ticked (before after : Instant) (l : Lane) : Lane :=
  { l with waiting := l.waiting.map (MarkerRequest.ticked l.profile.latency before after) }

/-- All lanes at a tick that carries device time from `before` to `after`. -/
def ticked (lanes : Vector Lane 4) (before after : Instant) : Vector Lane 4 :=
  Vector.ofFn fun l => Lane.ticked before after lanes[l]

/-- The Time Base after a tick of counting: the addend is added (R1), a second event is given where the seconds count changed (R3), and a
pulse point reached makes a pulse due (R13). -/
def TimeBase.counted (tb : TimeBase) : TimeBase :=
  let after := tb.device.advance tb.addend
  { tb.withDevice after with
    secondEvents := tb.secondEvents ++ secondEventOf tb.now after.instant
    pps := tb.pps.counted tb.now after.instant }

/-- A tick with no step waiting (R1). -/
def State.countTick (s : State) : State :=
  { s with
    osc := s.osc + 1
    time := s.time.counted
    lanes := ticked s.lanes s.time.now s.time.counted.now }

/-- What the step of a request gives at a tick: the tick's advance first, then the step (R6). -/
def TimeBase.stepResult (tb : TimeBase) (r : StepRequest) : StepResult :=
  (tb.device.advance tb.addend).step r.amount

/-- The Time Base after the tick at which a step request is applied: it leaves the waiting requests, the last-pulsed second
becomes none and no pulse point crossed gives a pulse (R6, R9, R13). The seconds count is compared before and after the whole tick: where the addend
carries into a new second and the step brings it back to the old one, no second event is given (the model's choice, log entry 32). -/
def TimeBase.stepped (tb : TimeBase) (r : StepRequest) (rest : List StepRequest) : TimeBase :=
  let after := (tb.stepResult r).time
  { tb.withDevice after with
    steps := rest
    stepSpan := some { before := tb.now, after := after.instant }
    secondEvents := tb.secondEvents ++ secondEventOf tb.now after.instant
    pps := { tb.pps with lastPulsed := none } }

/-- The payload of the Step record of a request applied now (R8). -/
def TimeBase.stepPayload (tb : TimeBase) (r : StepRequest) : Payload :=
  .step r.source r.amount (tb.stepResult r).applied (tb.stepResult r).saturated

/-- The DTU is told of a step applied at the oscillator time `osc` (R38). -/
def Dtu.toldOfStep (d : Dtu) (osc : Nat) : Dtu := { d with steppedAt := some osc }

/-- The tick at which a step request is applied (R6): the DTU is told of it (R38) and a Step record is written with the device time
after the step as its event instant (R8). The Step record stands before every record that another block hands at the same tick (the model's choice among
the orders of R162, log entry 35). -/
def State.stepTick (s : State) (r : StepRequest) (rest : List StepRequest) : State :=
  { s with
    osc := s.osc + 1
    time := s.time.stepped r rest
    dtu := s.dtu.toldOfStep (oscTime (s.osc + 1) 0)
    lanes := ticked s.lanes s.time.now (s.time.stepped r rest).now
    journal := s.journal.take (s.dtu.handed (s.time.stepped r rest).now (s.time.stepPayload r)) }

/-- One tick of the oscillator: it counts device time while the part runs and while a warm reset is held (R1), applies a step request
that waits (R6), and before the release of a power-on reset only counts towards it (R188). -/
def State.tick (s : State) : State :=
  match s.phase with
  | .off => s
  | .powerOn => { s with osc := s.osc + 1 }
  | _ =>
    match s.time.steps with
    | r :: rest => s.stepTick r rest
    | [] => s.countTick

/-- TICK (R1). -/
def execTick (s : State) : Result := .next s.tick

/-- STEP_APPLIED (R6): the tick of a waiting step request. With none waiting there is no such tick. -/
def execStepApplied (s : State) : Result :=
  .next <| match s.counting, s.time.steps with
    | true, r :: rest => s.stepTick r rest
    | _, _ => s

/-- The event instant of an OffsetChange reached by device time: the effective instant when counting reached it, the reading at
the step tick when a step did (R12). -/
def TimeBase.offsetInstant (tb : TimeBase) (change : OffsetChange) : Instant :=
  (tb.reachedByStep change.effective).getD change.effective

/-- The pending offset change, once device time has reached its effective instant (R3, R12). -/
def TimeBase.offsetDue (tb : TimeBase) : Option OffsetChange :=
  tb.pendingOffset.filter fun change => decide (AtOrAfter tb.now change.effective)

/-- OFFSET_CHANGE (R12), also while a warm reset is held (R16). -/
def execOffsetChange (s : State) : Result :=
  .next <| match s.counting, s.time.offsetDue with
    | true, some change => s.applyOffset change (s.time.offsetInstant change)
    | _, _ => s

/-- A due pulse is driven on the pin: by the mode and the quality (R14). -/
def PpsMode.drives (mode : PpsMode) (quality : Quality) : Bool :=
  match mode with
  | .off => false
  | .always => true
  | .traceableOnly => Quality.fit quality

/-- A pulse point reached, taken at oscillator tick `osc`: its second becomes the last-pulsed second, and a driven pulse asserts
the pin for the width, counted anew (R13, R14, R15). -/
def Pps.taken (pps : Pps) (second : Nat) (quality : Quality) (osc : Nat) : Pps :=
  if pps.lastPulsed = some second then { pps with due := none }
  else
    { pps with
      due := none
      lastPulsed := some second
      pulseEnd := if PpsMode.drives pps.mode quality then some (osc + ticksOfMicros pps.width) else pps.pulseEnd }

/-- PULSE_POINT_REACHED (R13). -/
def execPulsePointReached (s : State) : Result :=
  .next <| match s.running, s.time.pps.due with
    | true, some second => s.withTime { s.time with pps := s.time.pps.taken second s.dtu.quality s.osc }
    | _, _ => s

/-- The PPS pulse has run its width (R15). -/
def Pps.over (pps : Pps) (osc : Nat) : Bool :=
  match pps.pulseEnd with
  | some tick => decide (tick ≤ osc)
  | none => false

/-- PPS_PULSE_END (R15). -/
def execPpsPulseEnd (s : State) : Result :=
  .next <| if s.time.pps.over s.osc then s.withTime { s.time with pps := { s.time.pps with pulseEnd := none } } else s

end Sys2Proof.Machine
end

