-- ==== Sys2Proof/Machine/Discipline.lean ====
section
/-! DEFINITION. The Discipline and Traceability Unit (Chapter 3): the measurement of an edge record, the loop, the discipline states, the
divergence bound, reference selection, minute summaries; SECOND_EVENT. -/

namespace Sys2Proof.Machine

/-- What a step of the DTU does: the DTU after it, the records it hands in order, the last applied rate it hands to the Time Base, and
the step it requests. -/
structure DtuEffect where
  dtu : Dtu
  out : List Handed
  rate : Option Int
  step : Option Int
deriving DecidableEq, Repr

/-- A step of the DTU that has done nothing yet. -/
def DtuEffect.of (d : Dtu) : DtuEffect :=
  { dtu := d, out := [], rate := none, step := none }

/-- The DTU is changed. -/
def DtuEffect.change (e : DtuEffect) (f : Dtu → Dtu) : DtuEffect :=
  { e with dtu := f e.dtu }

/-- A record is handed, with the quality the changes so far leave (R153). -/
def DtuEffect.emit (e : DtuEffect) (t : Instant) (p : Payload) : DtuEffect :=
  { e with out := e.out ++ [e.dtu.handed t p] }

/-- The other reference. -/
def otherRef : Channel → Channel
  | .A => .B
  | .B => .A

/-- What the DTU keeps for a reference. -/
def Dtu.ref (d : Dtu) : Channel → RefJudgement
  | .A => d.refA
  | .B => d.refB

/-- Replace what the DTU keeps for a reference. -/
def Dtu.withRef (d : Dtu) (ch : Channel) (r : RefJudgement) : Dtu :=
  match ch with
  | .A => { d with refA := r }
  | .B => { d with refB := r }

/-- A reference is qualified: its qualified run is not 0 (R52). -/
def RefJudgement.qualified (r : RefJudgement) : Bool := r.run != 0

/-- D changes; the minute's largest D follows (R58). -/
def Dtu.setBound (d : Dtu) (bound : Nat) : Dtu :=
  { d with bound := bound, minute := { d.minute with largestD := max d.minute.largestD bound } }

/-- The warning flag is evaluated: set above W_warn, cleared at or below W_warn − W_warn/8, kept between (R48). -/
def Dtu.evaluateWarning (d : Dtu) : Dtu :=
  { d with
    warning :=
      if d.settings.warn < d.bound then true
      else if d.bound ≤ d.settings.warn - d.settings.warn / 8 then false
      else d.warning }

/-- The proportional term is set to 0 and r = f is handed over (R41). -/
def DtuEffect.holdRate (e : DtuEffect) : DtuEffect :=
  { e with dtu := { e.dtu with proportional := 0 }, rate := some (clampTo rateLimit e.dtu.integral) }

/-- A change of discipline state is recorded, with D and the active reference after it (R50). -/
def DtuEffect.recordState (e : DtuEffect) (t : Instant) (previous : DState) (cause : StateCause) : DtuEffect :=
  e.emit t (.stateChange previous e.dtu.state cause e.dtu.bound e.dtu.active)

/-! ### Measurement (R38 to R40, R42 to R49) -/

/-- An arithmetic right shift by k places, rounding towards minus infinity (R40). -/
def shiftDown (x : Int) (k : Nat) : Int := x / ((2 ^ k : Nat) : Int)

/-- The loop: the integral, the proportional, the applied rate, in this order, with the gains of the state (R40). -/
def DtuEffect.loop (e : DtuEffect) (ki kp : Nat) (theta : Int) : DtuEffect :=
  let f := clampTo rateLimit (e.dtu.integral - shiftDown (theta * 16) ki)
  let p := clampTo e.dtu.settings.sMax (-(shiftDown (theta * 16) kp))
  { e with dtu := { e.dtu with integral := f, proportional := p }, rate := some (clampTo rateLimit (f + p)) }

/-- |θ| + U (R43, R45, R47, R49). -/
def Dtu.measuredBound (d : Dtu) (theta : Int) : Nat :=
  theta.natAbs + d.settings.uncertainty

/-- The qualifying count after a measurement: one more if |θ| + U ≤ L, and 0 otherwise (R43, R47, R49). -/
def Dtu.countQualifying (d : Dtu) (theta : Int) : Dtu :=
  { d with qualifying := if d.measuredBound theta ≤ d.settings.limit then d.qualifying + 1 else 0 }

/-- The qualifying count has reached Q: the DTU moves to TRACEABLE, where D is |θ| + U and the warning flag is evaluated (R43, R47, R48, R49). -/
def DtuEffect.qualifyAt (e : DtuEffect) (t : Instant) (theta : Int) : DtuEffect :=
  if e.dtu.settings.qualify ≤ e.dtu.qualifying then
    (e.change fun d =>
      (({ d with state := .traceable, persistent := 0, warning := false }).setBound (d.measuredBound theta)).evaluateWarning).recordState
        t e.dtu.state .qualified
  else e

/-- Entry to UNTRACEABLE: the warning flag is cleared, the qualifying count is 0, and growth starts from the D held where no reference is
active (R48, R49). -/
def Dtu.enterUntraceable (d : Dtu) : Dtu :=
  { d with
    state := .untraceable
    warning := false
    qualifying := 0
    entryBound := if d.active = none then d.bound else d.entryBound
    growths := if d.active = none then 0 else d.growths }

/-- An applied measurement in ACQUIRING: a step request for a large θ, the loop otherwise (R43). -/
def DtuEffect.measureAcquiring (e : DtuEffect) (t : Instant) (theta : Int) : DtuEffect :=
  if e.dtu.settings.stepThreshold < theta.natAbs then
    let held := e.holdRate.change fun d => { d with qualifying := 0 }.setBound (d.measuredBound theta)
    { held with step := some (-theta) }
  else
    ((e.loop e.dtu.settings.acqKi e.dtu.settings.acqKp theta).change fun d =>
      (d.countQualifying theta).setBound (d.measuredBound theta)).qualifyAt t theta

/-- An applied measurement in TRACEABLE: the loop, D, the warning flag and the persistence count (R45). -/
def DtuEffect.measureTraceable (e : DtuEffect) (t : Instant) (theta : Int) : DtuEffect :=
  let judged := (e.loop e.dtu.settings.trackKi e.dtu.settings.trackKp theta).change fun d =>
    let d := (d.setBound (d.measuredBound theta)).evaluateWarning
    { d with persistent := if d.settings.limit < d.bound then d.persistent + 1 else 0 }
  if judged.dtu.settings.limit < judged.dtu.bound ∧ judged.dtu.settings.persistence ≤ judged.dtu.persistent then
    (judged.change Dtu.enterUntraceable).recordState t .traceable .persistence
  else judged

/-- An applied measurement of a returning reference in HOLDOVER: the loop and the qualifying count; D keeps growing (R47). -/
def DtuEffect.measureHoldover (e : DtuEffect) (t : Instant) (theta : Int) : DtuEffect :=
  ((e.loop e.dtu.settings.trackKi e.dtu.settings.trackKp theta).change fun d => d.countQualifying theta).qualifyAt t theta

/-- An applied measurement in UNTRACEABLE: the loop, D and the qualifying count (R49). -/
def DtuEffect.measureUntraceable (e : DtuEffect) (t : Instant) (theta : Int) : DtuEffect :=
  ((e.loop e.dtu.settings.trackKi e.dtu.settings.trackKp theta).change fun d =>
    (d.setBound (d.measuredBound theta)).countQualifying theta).qualifyAt t theta

/-- The first labelled applied measurement in FREE: the DTU moves to ACQUIRING (R42). -/
def DtuEffect.leaveFree (e : DtuEffect) (t : Instant) : DtuEffect :=
  (e.change fun d => { d with state := .acquiring, qualifying := 0, warning := false }).recordState t .free .referenceEdge

/-- The minute's accumulation of an applied measurement (R58). -/
def Minute.accept (m : Minute) (theta : Int) : Minute :=
  { m with
    smallest := if m.accepted = 0 then theta else min m.smallest theta
    largest := if m.accepted = 0 then theta else max m.largest theta
    accepted := min (m.accepted + 1) 255 }

/-- The minute's count of rejected measurements of the active reference (R39, R58). -/
def Minute.reject (m : Minute) : Minute :=
  { m with rejected := min (m.rejected + 1) 255 }

/-- What every applied measurement sets: the last θ, the unlabelled-measurement flag, the minute's accumulation (R39, R40, R58). -/
def Dtu.noteApplied (d : Dtu) (theta : Int) (unlabelled : Bool) : Dtu :=
  { d with lastTheta := theta, unlabelled := unlabelled, sinceApplied := 0, minute := d.minute.accept theta }

/-- An applied measurement, handled as its discipline state requires (R39). -/
def DtuEffect.measure (e : DtuEffect) (t : Instant) (theta : Int) (unlabelled : Bool) : DtuEffect :=
  let noted := e.change fun d => d.noteApplied theta unlabelled
  match e.dtu.state with
  | .free => (noted.leaveFree t).measureAcquiring t theta
  | .acquiring => noted.measureAcquiring t theta
  | .traceable => noted.measureTraceable t theta
  | .holdover => noted.measureHoldover t theta
  | .untraceable => noted.measureUntraceable t theta

/-- The greatest θ in magnitude, 500,000,000 ns (R38). -/
def thetaLimit : Int := 500000000

/-- The offset of an edge record before its clamp: capture less (label second, 0 ns) less cable compensation (R38). -/
def EdgeRecord.offset (r : EdgeRecord) : Int :=
  (toNs r.capture : Int) - ((r.label * nsPerSecond : Nat) : Int) - (r.cable : Int)

/-- A record delivered at the oscillator time `osc` follows a step within 10 ms (R38). -/
def Dtu.afterStep (d : Dtu) (osc : Nat) : Bool :=
  match d.steppedAt with
  | some stepped => decide (osc ≤ stepped + 10000000)
  | none => false

/-- The θ that a record yields, if it yields one (R38). -/
def Dtu.thetaOf (d : Dtu) (r : EdgeRecord) (osc : Nat) : Option Int :=
  if r.jump || d.afterStep osc then none else some (clampTo thetaLimit r.offset)

/-- The ages, the source state and the latest θ of a reference when it delivers a record (R38, R52). -/
def RefJudgement.deliver (j : RefJudgement) (r : EdgeRecord) (theta : Option Int) : RefJudgement :=
  { j with
    edgeAge := if !r.unlabelled && !r.jump then some 0 else j.edgeAge
    jumpAge := if r.jump then some 0 else j.jumpAge
    source := some r.source
    theta := theta.orElse fun _ => j.theta
    fresh := j.fresh || theta.isSome }

/-- A delivered record is handed to the DTU at the reading `t` and the oscillator time `osc` (R38, R39, R42, R52). In FREE a record that is not
a labelled applied measurement changes only qualification and the channel's latest θ (R42; log entry 14). -/
def Dtu.takeRecord (d : Dtu) (r : EdgeRecord) (t : Instant) (osc : Nat) : DtuEffect :=
  let theta := d.thetaOf r osc
  let judged := d.withRef r.channel ((d.ref r.channel).deliver r theta)
  if d.active = some r.channel then
    match theta, r.source with
    | some x, .locked =>
      if d.state = .free ∧ r.unlabelled then DtuEffect.of judged else (DtuEffect.of judged).measure t x r.unlabelled
    | _, _ => if d.state = .free then DtuEffect.of judged else DtuEffect.of { judged with minute := judged.minute.reject }
  else DtuEffect.of judged

/-! ### The second event (R46, R49, R52 to R59) -/

/-- Stage 1: a MinuteSummary where the seconds value lies in a different minute from the previous second event's (R59). -/
def DtuEffect.summarise (e : DtuEffect) (t : Instant) : DtuEffect :=
  let told := e.change fun d => { d with lastSecond := t.sec }
  if t.sec / 60 ≠ e.dtu.lastSecond / 60 then
    (told.emit t (.minuteSummary e.dtu.minute e.dtu.state e.dtu.active)).change fun d => { d with minute := Minute.start d.bound }
  else told

/-- D grows by h: D_entry + h × growth count, saturating (R46, R49). -/
def Dtu.grow (d : Dtu) : Dtu :=
  { d with growths := d.growths + 1 }.setBound (min (d.entryBound + d.settings.growth * (d.growths + 1)) unsetBound)

/-- Stage 2: growth of D in HOLDOVER, with the warning flag evaluated and the move to UNTRACEABLE above L, or in UNTRACEABLE with no active
reference (R46, R48, R49). -/
def DtuEffect.growBound (e : DtuEffect) (t : Instant) : DtuEffect :=
  match e.dtu.state with
  | .holdover =>
    let grown := e.change fun d => d.grow.evaluateWarning
    if grown.dtu.settings.limit < grown.dtu.bound then
      (grown.change Dtu.enterUntraceable).recordState t .holdover .holdoverLimit
    else grown
  | .untraceable => if e.dtu.active = none then e.change Dtu.grow else e
  | _ => e

/-- An age rises by one, saturating at 255 (R52). -/
def ageOneSecond (age : Option Nat) : Option Nat :=
  age.map fun n => min (n + 1) 255

/-- The three tests of qualification (R52). -/
def RefJudgement.passes (r : RefJudgement) (m : Nat) : Bool :=
  (match r.edgeAge with | some n => decide (n ≤ m) | none => false) &&
  r.source == some .locked &&
  (match r.jumpAge with | some n => decide (m < n) | none => true)

/-- A reference at a second event: its ages rise, it is judged, and its qualified run follows (R52). -/
def RefJudgement.judge (r : RefJudgement) (m : Nat) : RefJudgement :=
  let aged := { r with edgeAge := ageOneSecond r.edgeAge, jumpAge := ageOneSecond r.jumpAge }
  { aged with run := if aged.passes m then r.run + 1 else 0 }

/-- Stage 3: both references are judged (R52). -/
def DtuEffect.judgeReferences (e : DtuEffect) : DtuEffect :=
  e.change fun d => { d with refA := d.refA.judge d.settings.age, refB := d.refB.judge d.settings.age }

/-- The pair of latest θ values of a second event, where one is formed (R53). -/
def Dtu.pair (d : Dtu) : Option (Int × Int) :=
  if d.refA.qualified && d.refB.qualified && d.refA.fresh && d.refB.fresh then
    match d.refA.theta, d.refB.theta with
    | some a, some b => some (a, b)
    | _, _ => none
  else none

/-- A pair is counted (R53). -/
def Dtu.countPair (d : Dtu) (a b : Int) : Dtu :=
  if d.settings.crossLimit < (a - b).natAbs then { d with disagreeing := d.disagreeing + 1, agreeing := 0 }
  else { d with disagreeing := 0, agreeing := d.agreeing + 1 }

/-- The disagreement flag is set or cleared, with its record (R53). -/
def DtuEffect.setDisagreement (e : DtuEffect) (t : Instant) (set byDisqualification : Bool) : DtuEffect :=
  (e.change fun d => { d with disagreement := set }).emit t
    (.referenceDisagree set byDisqualification e.dtu.refA.theta e.dtu.refB.theta)

/-- Stage 4: a pair is formed and counted, and the flag set or cleared on the counts (R53). Whether a θ is new is asked afresh from the next
second event on. -/
def DtuEffect.crossCheck (e : DtuEffect) (t : Instant) : DtuEffect :=
  let counted := match e.dtu.pair with
    | some (a, b) => e.change fun d => d.countPair a b
    | none => e
  let flagged :=
    if e.dtu.pair.isSome && !e.dtu.disagreement && decide (e.dtu.settings.persistence ≤ counted.dtu.disagreeing) then
      counted.setDisagreement t true false
    else if e.dtu.pair.isSome && e.dtu.disagreement && decide (e.dtu.settings.qualify ≤ counted.dtu.agreeing) then
      counted.setDisagreement t false false
    else counted
  flagged.change fun d => { d with refA := { d.refA with fresh := false }, refB := { d.refB with fresh := false } }

/-- The active reference changes, with its ReferenceSwitch record (R57); the persistence count goes to 0, and so does the qualifying count, but for a failover or a
revert in TRACEABLE, which keeps it (R45, R49, R54, R55, R56). -/
def DtuEffect.switchTo (e : DtuEffect) (t : Instant) (new : Option Channel) (cause : SwitchCause) : DtuEffect :=
  (e.change fun d => { d with
    active := new
    persistent := 0
    qualifying := if d.state = .traceable ∧ d.active ≠ none then d.qualifying else 0 }).emit t (.referenceSwitch e.dtu.active new cause)

/-- Entry to HOLDOVER, or to UNTRACEABLE in its place where D exceeds L (R46): D_entry, the growth count, no active reference, r = f. -/
def Dtu.enterHoldover (d : Dtu) : Dtu :=
  { d with
    state := if d.settings.limit < d.bound then .untraceable else .holdover
    warning := if d.settings.limit < d.bound then false else d.warning
    active := none
    qualifying := 0
    persistent := 0
    entryBound := d.bound
    growths := 0 }

/-- The loss of the active reference in TRACEABLE: the two records, handed in the order named (R46, R50, R54, R57). -/
def DtuEffect.loseTraceable (e : DtuEffect) (t : Instant) (order : Order) : DtuEffect :=
  let entered := (e.change Dtu.enterHoldover).holdRate
  let d := entered.dtu
  { entered with
    out := entered.out ++ inOrder order
      [d.handed t (.referenceSwitch e.dtu.active none .holdover),
       d.handed t (.stateChange .traceable d.state .referenceLost d.bound none)] }

/-- The loss of the active reference in another state, with no other to take its place (R41, R47, R49, R54). -/
def DtuEffect.loseActive (e : DtuEffect) (t : Instant) : DtuEffect :=
  let lost := (e.change fun d => { d with
    active := none
    persistent := 0
    qualifying := if d.state = .holdover ∨ d.state = .untraceable then 0 else d.qualifying
    entryBound := if d.state = .untraceable then d.bound else d.entryBound
    growths := if d.state = .untraceable then 0 else d.growths }).holdRate
  lost.emit t (.referenceSwitch e.dtu.active none .loss)

/-- Stage 5: failover of a disqualified active reference (R54), or the revert test (R56). -/
def DtuEffect.failover (e : DtuEffect) (t : Instant) (order : Order) : DtuEffect :=
  match e.dtu.active with
  | none => e
  | some ch =>
    if (e.dtu.ref ch).qualified then
      if ch ≠ e.dtu.preferred ∧ e.dtu.settings.revertDelay ≤ (e.dtu.ref e.dtu.preferred).run ∧ e.dtu.disagreement = false then
        e.switchTo t (some e.dtu.preferred) .revert
      else e
    else if (e.dtu.ref (otherRef ch)).qualified ∧ e.dtu.disagreement = false then
      e.switchTo t (some (otherRef ch)) .failover
    else if e.dtu.state = .traceable then e.loseTraceable t order
    else e.loseActive t

/-- The reference that R55 makes active, if it can. -/
def Dtu.selection (d : Dtu) : Option Channel :=
  if d.disagreement then none
  else if (d.ref d.preferred).qualified then some d.preferred
  else if (d.ref (otherRef d.preferred)).qualified then some (otherRef d.preferred)
  else none

/-- Stage 6: selection, where no reference is active (R55). -/
def DtuEffect.select (e : DtuEffect) (t : Instant) : DtuEffect :=
  match e.dtu.active, e.dtu.selection with
  | none, some ch => e.switchTo t (some ch) .selection
  | _, _ => e

/-- Stage 7: the disagreement flag and both counts are cleared where either reference is disqualified (R53). -/
def DtuEffect.clearDisagreement (e : DtuEffect) (t : Instant) : DtuEffect :=
  if e.dtu.refA.qualified && e.dtu.refB.qualified then e
  else
    (if e.dtu.disagreement then e.setDisagreement t false true else e).change fun d => { d with disagreeing := 0, agreeing := 0 }

/-- Stage 8: the test of R41 on the proportional term. -/
def DtuEffect.restRate (e : DtuEffect) : DtuEffect :=
  let counted := e.change fun d => { d with sinceApplied := min (d.sinceApplied + 1) 2 }
  if counted.dtu.sinceApplied = 2 ∧ counted.dtu.proportional ≠ 0 then counted.holdRate else counted

/-- The DTU's work at a second event, in its fixed stage order (R57). -/
def Dtu.secondEvent (d : Dtu) (t : Instant) (order : Order) : DtuEffect :=
  ((((((((DtuEffect.of d).summarise t).growBound t).judgeReferences).crossCheck t).failover t order).select t).clearDisagreement t).restRate

/-- The DTU at a second event while a warm reset is held: stage 2 and no other stage (R61). -/
def Dtu.heldSecondEvent (d : Dtu) (t : Instant) : DtuEffect :=
  ((DtuEffect.of d).growBound t).change fun d => { d with lastSecond := t.sec }

/-! ### Commands on the discipline state (R44) and the warm reset (R61) -/

/-- StepTime is taken: the DTU moves to ACQUIRING from any state (R43, R44). -/
def Dtu.stepTime (d : Dtu) (t : Instant) : DtuEffect :=
  let bound := if d.state = .free ∨ d.state = .acquiring then d.bound else unsetBound
  let moved := ((DtuEffect.of d).change fun d => { d with state := .acquiring, qualifying := 0, warning := false }.setBound bound).holdRate
  if d.state = .acquiring then moved else moved.recordState t d.state .stepTime

/-- EndAcquisition is accepted in ACQUIRING: UNTRACEABLE, with the active reference kept (R44). -/
def Dtu.endAcquisition (d : Dtu) (t : Instant) : DtuEffect :=
  ((DtuEffect.of d).change Dtu.enterUntraceable).recordState t .acquiring .endAcquisition

/-- The discipline state after a warm reset, D being compared with the default L (R61). -/
def Dtu.stateAfterWarm (d : Dtu) : DState :=
  match d.state with
  | .free => .free
  | .acquiring => .acquiring
  | .traceable => if DtuSettings.default.limit < d.bound then .untraceable else .holdover
  | .holdover => if DtuSettings.default.limit < d.bound then .untraceable else .holdover
  | .untraceable => .untraceable

/-- D_entry and the growth count continue through a warm reset in HOLDOVER (R61). -/
def Dtu.growthContinues (d : Dtu) : Bool :=
  d.state == .holdover && d.stateAfterWarm == .holdover

/-- The DTU at the release of a warm reset, the preferred reference latched anew (R61). -/
def Dtu.afterWarm (d : Dtu) (preferred : Channel) : Dtu :=
  let state := d.stateAfterWarm
  { d with
    settings := DtuSettings.default
    state := state
    refA := RefJudgement.initial
    refB := RefJudgement.initial
    active := none
    preferred := preferred
    proportional := 0
    warning := if state = .untraceable then false else d.warning
    disagreement := false
    unlabelled := false
    qualifying := 0
    persistent := 0
    entryBound := if state = .holdover ∨ state = .untraceable then (if d.growthContinues then d.entryBound else d.bound) else d.entryBound
    growths := if state = .holdover ∨ state = .untraceable then (if d.growthContinues then d.growths else 0) else d.growths
    disagreeing := 0
    agreeing := 0
    sinceApplied := 0
    minute := Minute.start d.bound }

/-- The records a warm reset's release hands for the DTU, after the Restart record: a change of state, and a cleared active reference (R57, R61). -/
def Dtu.warmRecords (d : Dtu) (preferred : Channel) (t : Instant) : List Handed :=
  let after := d.afterWarm preferred
  (if after.state = d.state then [] else [after.handed t (.stateChange d.state after.state .warmReset after.bound none)]) ++
  (if d.active = none then [] else [after.handed t (.referenceSwitch d.active none .warmReset)])

/-! ### The DTU in the machine -/

/-- The rate and the step that the DTU hands over are taken by the Time Base (R5, R6). -/
def TimeBase.takeEffect (tb : TimeBase) (e : DtuEffect) : TimeBase :=
  let rated := match e.rate with
    | some r => tb.takeRate r
    | none => tb
  match e.step with
  | some x => rated.takeStep { source := .dtu, amount := x }
  | none => rated

/-- A step of the DTU takes effect, but for its records. -/
def State.withEffect (s : State) (e : DtuEffect) : State :=
  (s.withTime (s.time.takeEffect e)).withDtu e.dtu

/-- A step of the DTU takes effect and hands its records. -/
def State.takeEffect (s : State) (e : DtuEffect) : State :=
  (s.withEffect e).handAll e.out

/-- SECOND_EVENT (R57): the DTU takes the oldest second event given; while a warm reset is held, stage 2 of it only (R61). -/
def execSecondEvent (order : Order) (s : State) : Result :=
  .next <| match s.time.secondEvents with
    | [] => s
    | t :: rest =>
      let told := s.withTime { s.time with secondEvents := rest }
      if s.running then told.takeEffect (told.dtu.secondEvent t order)
      else if s.held then told.takeEffect (told.dtu.heldSecondEvent t)
      else s

end Sys2Proof.Machine
end

