-- ==== Sys2Proof/Machine/Egress.lean ====
section
/-! DEFINITION. The stores of the egress ports and their transmitters (Chapter 4): passing FIFOs, own-frame queues, pause, overflow episodes,
arbitration, link changes; PAUSE_REPEAT_TIMER, RECEIVED_PAUSE_EXPIRY, ITEM_START, TRANSMISSION_END, LINK_UP, LINK_DOWN. -/

namespace Sys2Proof.Machine

/-- The bytes of frames a passing FIFO holds at most (R70). -/
def fifoBytes : Nat := 32768

/-- The frames an own-frame queue holds at most (R72). -/
def ownPlaces : Nat := 8

/-! ### Frames as they are carried on the wire -/

/-- The pause frame of R76: 64 bytes, the destination 01-80-C2-00-00-01, EtherType 0x8808, opcode 0x0001 and the quanta. That opcode and quanta follow the
EtherType, and that zeros fill the bytes up to the FCS, is PRESUMED from IEEE 802.3: R76 names the fields and the length (log entry 34). -/
def pauseFrame (source : BitVec 48) (quanta : Nat) : List Byte :=
  withFcs (padTo 60
    (beBytes 6 0x0180C2000001 ++ beBytes 6 source.toNat ++ beBytes 2 0x8808 ++ beBytes 2 1 ++ beBytes 2 quanta))

/-- The close marker frame of R147, 64 bytes, laid out as section 10.8 has it. -/
def Marker.frame (m : Marker) (source : BitVec 48) : List Byte :=
  withFcs (padTo 60
    (beBytes 6 m.address.toNat ++ beBytes 6 source.toNat ++ beBytes 2 0x88B5 ++
      [1, 3, 0, 0] ++ beBytes 2 0 ++ beBytes 2 17 ++
      beBytes 1 m.group ++ instantBytes m.close ++ beBytes 1 m.k ++ beBytes 4 m.lastSequence.toNat ++ [Quality.code m.quality]))

/-- The bytes with which a passing item leaves the port (R73, R147). -/
def PassingItem.wire (item : PassingItem) (source : BitVec 48) : List Byte :=
  match item with
  | .frame bytes _ => bytes
  | .marker m => m.frame source

/-- The bytes with which an own frame leaves the port (R76, R177). -/
def OwnFrame.wire (frame : OwnFrame) (source : BitVec 48) : List Byte :=
  match frame with
  | .response bytes _ => bytes
  | .pause quanta => pauseFrame source quanta

/-- The frame a port has on the wire, if an item is in transmission on it (R73). -/
def State.onWire (s : State) (p : Port) : Option (List Byte) :=
  match (s.port p).sending with
  | some .passing => (s.port p).fifo.head?.map fun item => item.wire s.signal.managementAddress
  | some .own => (s.port p).own.head?.map fun frame => OwnFrame.wire frame s.signal.managementAddress
  | none => none

/-! ### The own-frame queue (R72) -/

/-- The quanta of the waiting pause frame replaced, where one waits. -/
def replacePause (quanta : Nat) : List OwnFrame → Option (List OwnFrame)
  | [] => none
  | .pause _ :: rest => some (.pause quanta :: rest)
  | x :: rest => (replacePause quanta rest).map fun rest => x :: rest

/-- The own frames not yet started replaced in a queue: all of them, or all but a head in transmission. -/
def replaceWaiting (quanta : Nat) (sending : Option Sending) (queue : List OwnFrame) : Option (List OwnFrame) :=
  match sending, queue with
  | some .own, head :: rest => (replacePause quanta rest).map fun rest => head :: rest
  | _, _ => replacePause quanta queue

/-- A pause frame is offered to a port's own-frame queue: it replaces the quanta of a waiting pause frame, or enters at the back, or is discarded
and counted at a full queue (R72). -/
def PortState.offerPause (p : PortState) (quanta : Nat) : PortState :=
  match replaceWaiting quanta p.sending p.own with
  | some queue => { p with own := queue }
  | none =>
    if p.own.length < ownPlaces then { p with own := p.own ++ [.pause quanta] }
    else { p with egress := { p.egress with pauseDiscard := p.egress.pauseDiscard + 1 } }

/-! ### Pause state and overflow episode (R71, R76) -/

/-- The profile of the lane a port belongs to. -/
def State.profileOf (s : State) (p : Port) : LaneProfile := (s.lane (laneOf p)).profile

/-- A rise of the fill of the passing FIFO of `p`, or a new watermark, is tested: above the high watermark with the state clear, the feeder port is sent a
pause of 65,535 quanta, and the repeat timer starts at the oscillator time `osc` (R76). -/
def State.testHigh (s : State) (p : Port) (osc : Nat) : State :=
  if (s.profileOf p).high < fillOf (s.port p).fifo ∧ (s.port p).pauseTimer = none then
    let asserted := s.withPort p { s.port p with pauseTimer := some osc }
    asserted.withPort (mate p) ((asserted.port (mate p)).offerPause 65535)
  else s

/-- A fall of the fill, or a new watermark, is tested: below the low watermark with the state asserted, the feeder port is sent a pause of 0 quanta, and the
state is clear (R76). -/
def State.testLow (s : State) (p : Port) : State :=
  if fillOf (s.port p).fifo < (s.profileOf p).low ∧ (s.port p).pauseTimer ≠ none then
    let clear := s.withPort p { s.port p with pauseTimer := none }
    clear.withPort (mate p) ((clear.port (mate p)).offerPause 0)
  else s

/-- The fill of the passing FIFO of `p` lies below the low watermark (R71, R76). -/
def State.belowLow (s : State) (p : Port) : Bool :=
  decide (fillOf (s.port p).fifo < (s.profileOf p).low)

/-- An open overflow episode is tested at a fall of the fill: it closes, with its LaneOverflow record, where the fill is then below the low watermark, and at the
first fall after it opened where it opened below it (R71). -/
def State.testEpisode (s : State) (p : Port) (t : Instant) : State :=
  match (s.port p).episode with
  | some e =>
    if e.openedBelow = true ∨ s.belowLow p = true then
      (s.withPort p { s.port p with episode := none }).hand t (.laneOverflow (laneOf p) p true e.drops false)
    else s
  | none => s

/-- The tests of a fall of the fill (R71, R76). -/
def State.afterFall (s : State) (p : Port) (t : Instant) : State :=
  (s.testLow p).testEpisode p t

/-- A frame is dropped whole: counted, and the episode opens with its LaneOverflow record, or its drop count rises (R71). -/
def State.dropFrame (s : State) (p : Port) (t : Instant) : State :=
  let port := s.port p
  let counted := { port with egress := { port.egress with drop := port.egress.drop + 1 } }
  match port.episode with
  | some e => s.withPort p { counted with episode := some { e with drops := min (e.drops + 1) countLimit } }
  | none => (s.withPort p { counted with episode := some { drops := 1, openedBelow := s.belowLow p } }).hand t (.laneOverflow (laneOf p) p false 1 false)

/-- A frame is offered to the passing FIFO of `p` with its detection record: it enters at the back if it fits, and is dropped whole otherwise (R64, R70, R71). -/
def State.offerFrame (s : State) (p : Port) (bytes : List Byte) (detection : DetectionRecord) (t : Instant) (osc : Nat) : State :=
  if fillOf (s.port p).fifo + bytes.length ≤ fifoBytes then
    (s.withPort p { s.port p with fifo := (s.port p).fifo ++ [.frame bytes detection] }).testHigh p osc
  else s.dropFrame p t

/-- The repeat timer of R76, in ns of oscillator time. -/
def repeatPeriod : Nat := 100000

/-- The repeat timer of the passing FIFO of a port has expired (R76). -/
def PortState.repeatDue (p : PortState) (osc : Nat) : Bool :=
  match p.pauseTimer with
  | some started => decide (started + repeatPeriod ≤ osc)
  | none => false

/-- PAUSE_REPEAT_TIMER (R76): another pause of 65,535 quanta if the fill is above the high watermark; the timer is restarted in both cases. -/
def execPauseRepeatTimer (p : Port) (sub : Sub) (s : State) : Result :=
  .next <|
    if s.running && (s.port p).repeatDue (s.oscAt sub) then
      let restarted := s.withPort p { s.port p with pauseTimer := some (s.oscAt sub) }
      if (s.profileOf p).high < fillOf (s.port p).fifo then
        restarted.withPort (mate p) ((restarted.port (mate p)).offerPause 65535)
      else restarted
    else s

/-- The received pause of a port has run out: its end is held in tenths of a ns (R68). -/
def PortState.pauseOver (p : PortState) (osc : Nat) : Bool :=
  match p.receivedPause with
  | some ends => decide (ends ≤ 10 * osc)
  | none => false

/-- RECEIVED_PAUSE_EXPIRY (R68). -/
def execReceivedPauseExpiry (p : Port) (sub : Sub) (s : State) : Result :=
  .next <|
    if s.running && (s.port p).pauseOver (s.oscAt sub) then s.withPort p { s.port p with receivedPause := none } else s

/-! ### Arbitration (R73, R74) -/

/-- The passing side is eligible (R73). -/
def PortState.passingEligible (p : PortState) : Bool :=
  !p.fifo.isEmpty && p.receivedPause.isNone

/-- The own side is eligible (R73). -/
def PortState.ownEligible (p : PortState) : Bool :=
  !p.own.isEmpty

/-- How often an own head may be passed over (R74). -/
def passOverLimit : Nat := 4

/-- The item started at a frame boundary, by the table of R74. R74 lets an idle port whose two sides become eligible at the same moment start either first: that
the passing head is started where one row makes both eligible (LINK_DOWN, LOAD_SCHEDULE) is the model's choice (log entry 38). -/
def PortState.start (p : PortState) : PortState :=
  match p.passingEligible, p.ownEligible with
  | true, false => { p with sending := some .passing }
  | false, true => { p with sending := some .own }
  | true, true =>
    if p.passedOver < passOverLimit then { p with sending := some .passing, passedOver := p.passedOver + 1 }
    else { p with sending := some .own }
  | false, false => p

/-- A port can start an item: link up, no reset held, nothing in transmission (R73). -/
def State.canStart (s : State) (p : Port) : Bool :=
  s.running && (s.port p).link && (s.port p).sending.isNone

/-- ITEM_START (R74). -/
def execItemStart (p : Port) (s : State) : Result :=
  .next <| if s.canStart p then s.withPort p (s.port p).start else s

/-- The response whose end a Restart waits for. -/
def OwnFrame.isRestart : OwnFrame → Bool
  | .response _ ofRestart => ofRestart
  | .pause _ => false

/-- A pending Restart learns that its response's transmission has ended (R185). -/
def State.noteAnswered (s : State) (frame : OwnFrame) : State :=
  if OwnFrame.isRestart frame then
    s.withAgent { s.agent with restart := s.agent.restart.map fun r => { r with answered := true } }
  else s

/-- The egress counters at the end of a passing item's transmission (R80). -/
def EgressCounters.sentPassing (c : EgressCounters) (item : PassingItem) : EgressCounters :=
  if PassingItem.isMarker item then { c with marker := c.marker + 1 } else { c with passing := c.passing + 1 }

/-- The egress counters at the end of an own frame's transmission: a pause frame raises the pause-sent counter too (R76, R80). -/
def EgressCounters.sentOwn (c : EgressCounters) (frame : OwnFrame) : EgressCounters :=
  match frame with
  | .response _ _ => { c with own := c.own + 1 }
  | .pause _ => { c with own := c.own + 1, pauseSent := c.pauseSent + 1 }

/-- The own head leaves its queue; the next frame becomes the head with a count of 0 (R72, R74, R79). -/
def PortState.dropOwn (p : PortState) : PortState :=
  { p with own := p.own.tail, passedOver := 0, sending := none }

/-- The passing head leaves its FIFO (R70, R79). -/
def PortState.dropPassing (p : PortState) : PortState :=
  { p with fifo := p.fifo.tail, sending := none }

/-- The item in transmission on a port ends: it leaves its store, is counted, and the fall of the fill is tested (R70 to R76, R80). A marker takes
no bytes, so its leaving is no fall of the fill (R144). -/
def State.endTransmission (s : State) (p : Port) (t : Instant) : State :=
  let port := s.port p
  match port.sending, port.fifo, port.own with
  | some .passing, item :: _, _ =>
    let left := s.withPort p { port.dropPassing with egress := port.egress.sentPassing item }
    if PassingItem.isMarker item then left else left.afterFall p t
  | some .own, _, frame :: _ =>
    (s.withPort p { port.dropOwn with egress := port.egress.sentOwn frame }).noteAnswered frame
  | _, _, _ => s

/-- TRANSMISSION_END (R73). -/
def execTransmissionEnd (p : Port) (sub : Sub) (s : State) : Result :=
  .next <| if s.running then s.endTransmission p (s.readingAt sub) else s

/-! ### Link (R77 to R79) -/

/-- A change of a port's link state is counted and recorded (R77). -/
def State.noteLink (s : State) (p : Port) (up : Bool) (t : Instant) : State :=
  (s.withPort p { s.port p with link := up, linkChanges := (s.port p).linkChanges + 1 }).hand t (.linkChange p up)

/-- LINK_UP (R77), also while a warm reset is held; before the release of a power-on reset every port stays down. -/
def execLinkUp (p : Port) (sub : Sub) (s : State) : Result :=
  .next <| if s.counting && !(s.port p).link then s.noteLink p true (s.readingAt sub) else s

/-- An item in transmission is cut short: removed from its store and counted (R79). -/
def PortState.abortItem (p : PortState) : PortState :=
  match p.sending with
  | some .passing => { p.dropPassing with egress := { p.egress with abort := p.egress.abort + 1 } }
  | some .own => { p.dropOwn with egress := { p.egress with abort := p.egress.abort + 1 } }
  | none => p

/-- A frame in reception is aborted: discarded and counted (R63, R79). -/
def PortState.abortReception (p : PortState) : PortState :=
  if p.reception.isSome then
    { p with reception := none, ingress := { p.ingress with aborted := p.ingress.aborted + 1 } }
  else p

/-- The fall of the fill that the removal of a port's item in transmission is: only a frame of the passing FIFO has one (R79). -/
def PortState.abortFalls (p : PortState) : Bool :=
  match p.sending, p.fifo with
  | some .passing, item :: _ => !PassingItem.isMarker item
  | _, _ => false

/-- What a port loses at the loss of its link: the reception, the item in transmission, the received pause (R79). -/
def PortState.cut (p : PortState) : PortState :=
  { p.abortReception.abortItem with receivedPause := none }

/-- A port goes down at the reading `t` (R77, R79). The LinkChange record and a LaneOverflow record of the same moment are handed in the order
named: `order` puts the link change first unless its first number is odd (R162). A marker that was to follow the aborted frame is placed at that frame's end, which the abort is (R63, R143).
That marker and a pause of 0 quanta can become eligible together on the engine-side port: PortState.start says which starts first (R74, log entry 38). -/
def State.linkLost (s : State) (p : Port) (t : Instant) (order : Order) : State :=
  let falls := (s.port p).abortFalls
  let cut := s.withPort p (s.port p).cut
  let fallen (s : State) : State := if falls then s.afterFall p t else s
  let noted := if order.headD 0 % 2 = 0 then fallen (cut.noteLink p false t) else (fallen cut).noteLink p false t
  if isGateway p then noted.placeWaiting (laneOf p) (fun r => r.afterFrame) order.tail else noted

/-- LINK_DOWN (R79), also while a warm reset is held (R77). -/
def execLinkDown (p : Port) (sub : Sub) (order : Order) (s : State) : Result :=
  .next <| if s.counting && (s.port p).link then s.linkLost p (s.readingAt sub) order else s

end Sys2Proof.Machine
end

