-- ==== Sys2Proof/WellFormed.lean ====
section
/-! DEFINITION. Which commands are well formed: those whose operands the outside world can bring. -/

namespace Sys2Proof

/-- The longest frame a lane stores, in bytes (R63). -/
abbrev maxFrameLength : Nat := 9216

/-- A command is well formed when its run of bytes is one the row can bring: the header of R85 is exactly fourteen
bytes, the run that carries a frame past 9,216 bytes or to its classification point is not empty, the run to the
classification point ends at most 64 bytes after the EtherType (R86: the kind offset is at most 63), and the run to a frame's end
carries at most 9,216 bytes (past that an OVERSIZE_DETECTED stands before it, R63). -/
def Instr.WellFormed : Instr → Bool
  | .etherTypeReceived _ header => header.length == 14
  | .oversizeDetected _ more => !more.isEmpty
  | .classificationPoint _ more => !more.isEmpty && decide (more.length ≤ 64)
  | .frameEnd _ rest _ _ _ => decide (rest.length ≤ maxFrameLength)
  | _ => true

end Sys2Proof
end

