-- ==== Sys2Proof/Machine/Frame.lean ====
section
/-! DEFINITION. Reception, classification and dating (Chapters 4, 5 and 6): FRAME_START_DETECTED, ETHERTYPE_RECEIVED, OVERSIZE_DETECTED,
CLASSIFICATION_POINT, FRAME_END. -/

namespace Sys2Proof.Machine

/-! ### The start of a frame (R64) -/

/-- The detection record a lane takes at the reading `t` (R64). -/
def State.detection (s : State) (p : Port) (t : Instant) : DetectionRecord :=
  { instant := t
    utcOffset := s.time.offsetAt t
    quality := s.dtu.quality
    unlabelled := s.dtu.unlabelled
    mode := (s.lane (laneOf p)).mode
    bank := s.table.active
    profile := (s.lane (laneOf p)).profile }

/-- A port can begin a reception: the part runs, the link is up, and no frame is in reception (R63, R78, R81). -/
def State.canReceive (s : State) (p : Port) : Bool :=
  s.running && (s.port p).link && (s.port p).reception.isNone

/-- A reception begun with a detection record. -/
def Reception.begin (r : DetectionRecord) : Reception :=
  { detection := r, bytes := [], kind := none, lookup := none, oversize := false }

/-- A frame's start is detected: its record is taken; on a gateway-side port the markers of waiting requests whose c its compensated instant has
reached are placed, so that they precede the frame (R64, R143). -/
def State.startFrame (s : State) (p : Port) (t : Instant) (order : Order) : State :=
  let record := s.detection p t
  let begun := s.withPort p { s.port p with reception := some (Reception.begin record) }
  if isGateway p then begun.placeWaiting (laneOf p) (fun r => decide (AtOrAfter record.compensated r.close)) order
  else begun

/-- FRAME_START_DETECTED (R64). -/
def execFrameStartDetected (p : Port) (sub : Sub) (order : Order) (s : State) : Result :=
  .next <| if s.canReceive p then s.startFrame p (s.readingAt sub) order else s

/-! ### Recognition (R67, R68, R85) -/

/-- The EtherType: bytes 12 and 13 (R85). -/
def etherTypeOf (frame : List Byte) : BitVec 16 := BitVec.ofNat 16 (fieldNat frame 12 2)

/-- The destination address. -/
def destinationOf (frame : List Byte) : BitVec 48 := BitVec.ofNat 48 (fieldNat frame 0 6)

/-- What a frame is recognised as on a port, with its detection record (R67, R68, R85). -/
def State.recognise (s : State) (p : Port) (r : DetectionRecord) (header : List Byte) : FrameKind :=
  if destinationOf header = s.signal.managementAddress ∧ etherTypeOf header = managementEtherType then .management
  else if etherTypeOf header = macControlEtherType then .macControl
  else if isGateway p = true ∧ r.mode = .stamp then
    if etherTypeOf header = r.profile.orderEtherType then .order else .other
  else .plain

/-- The frame in reception on a port, while the part runs. -/
def State.receiving (s : State) (p : Port) : Option Reception :=
  if s.running then (s.port p).reception else none

/-- The frame in reception on a port is replaced. -/
def State.withReception (s : State) (p : Port) (f : Reception) : State :=
  s.withPort p { s.port p with reception := some f }

/-- ETHERTYPE_RECEIVED (R85): the first fourteen bytes of the frame in reception are in. -/
def execEtherTypeReceived (p : Port) (header : List Byte) (s : State) : Result :=
  .next <| match s.receiving p with
    | some f =>
      if f.kind = none ∧ header.length = 14 then
        s.withReception p { f with bytes := header, kind := some (s.recognise p f.detection header) }
      else s
    | none => s

/-- OVERSIZE_DETECTED (R63): the length passes 9,216 bytes and no further byte is stored. -/
def execOversizeDetected (p : Port) (more : List Byte) (s : State) : Result :=
  .next <| match s.receiving p with
    | some f =>
      if f.kind ≠ none ∧ maxFrameLength < f.bytes.length + more.length then
        s.withReception p { f with bytes := (f.bytes ++ more).take maxFrameLength, oversize := true }
      else s
    | none => s

/-! ### Classification (R86 to R91) -/

/-- An entry matches a key and a kind (R89). -/
def MatchEntry.matchesKey (e : MatchEntry) (key : BitVec 32) (kind : Byte) : Bool :=
  e.valid && (key &&& e.keyMask) == (e.keyValue &&& e.keyMask) && (kind &&& e.kindMask) == (e.kindValue &&& e.kindMask)

/-- The entry of lowest index of a bank that matches (R90). -/
def MatchTable.firstMatch (t : MatchTable) (bank : Fin 2) (key : BitVec 32) (kind : Byte) : Option (Fin 64) :=
  (List.finRange 64).find? fun i => ((t.banks[bank])[i]).entry.matchesKey key kind

/-- A lookup (R90). -/
def MatchTable.lookup (t : MatchTable) (bank : Fin 2) (key : BitVec 32) (kind : Byte) : Lookup :=
  match t.firstMatch bank key kind with
  | some i => .matched i ((t.banks[bank])[i]).entry.action ((t.banks[bank])[i]).entry.group
  | none => .defaulted

/-- The payload bytes needed to hold key and kind (R87). -/
def LaneProfile.needed (p : LaneProfile) : Nat := max (p.keyOffset + 4) (p.kindOffset + 1)

/-- The key of a frame: the four payload bytes at the key offset (R86). -/
def keyOf (p : LaneProfile) (frame : List Byte) : BitVec 32 := BitVec.ofNat 32 (fieldNat frame (14 + p.keyOffset) 4)

/-- The kind of a frame: the payload byte at the kind offset (R86). -/
def kindOf (p : LaneProfile) (frame : List Byte) : Byte := BitVec.ofNat 8 (fieldNat frame (14 + p.kindOffset) 1)

/-- CLASSIFICATION_POINT (R86, R90): the last of the five bytes of an order frame is in, and its key and kind are looked up in the bank of its
detection record, as that bank stands now. -/
def execClassificationPoint (p : Port) (more : List Byte) (s : State) : Result :=
  .next <| match s.receiving p with
    | some f =>
      if f.kind = some .order ∧ f.lookup = none ∧ f.oversize = false ∧
          f.bytes.length + more.length = 14 + f.detection.profile.needed then
        let bytes := f.bytes ++ more
        s.withReception p
          { f with
            bytes := bytes
            lookup := some (s.table.lookup f.detection.bank (keyOf f.detection.profile bytes) (kindOf f.detection.profile bytes)) }
      else s
    | none => s

/-- The classification of an ordinary frame subject to it (R85, R87, R90). -/
inductive Classification where
  | other
  | keyAbsent
  | looked (result : Lookup)
deriving DecidableEq, Repr

/-- What stamping is handed for a dated frame: its group, match index and KEY_ABSENT flag (R91). -/
structure Dating where
  group : Option Group
  index : Option (Fin 64)
  keyAbsent : Bool
deriving DecidableEq, Repr

/-- The classification result handed to stamping: dated, with what, or not dated (R91). -/
def Classification.dating (c : Classification) (defaultAction : Action) : Option Dating :=
  match c with
  | .other => none
  | .keyAbsent => some { group := none, index := none, keyAbsent := true }
  | .looked (.matched i .stamp g) => some { group := g, index := some i, keyAbsent := false }
  | .looked (.matched i .stampNoGroup _) => some { group := none, index := some i, keyAbsent := false }
  | .looked (.matched _ .pass _) => none
  | .looked .defaulted =>
    match defaultAction with
    | .stampNoGroup => some { group := none, index := none, keyAbsent := false }
    | _ => none

/-- The one classification counter that an ordinary frame raises (R97). -/
def ClassCounters.raise (k : ClassCounters) (c : Classification) (defaultAction : Action) : ClassCounters :=
  match c with
  | .other => { k with other := k.other + 1 }
  | .keyAbsent => { k with keyAbsent := k.keyAbsent + 1 }
  | .looked (.matched _ .stamp _) => { k with matchedStamp := k.matchedStamp + 1 }
  | .looked (.matched _ .stampNoGroup _) => { k with matchedNoGroup := k.matchedNoGroup + 1 }
  | .looked (.matched _ .pass _) => { k with matchedPass := k.matchedPass + 1 }
  | .looked .defaulted =>
    match defaultAction with
    | .stampNoGroup => { k with defaultedDated := k.defaultedDated + 1 }
    | _ => { k with defaultedPassed := k.defaultedPassed + 1 }

/-- The hit count of a matched frame's entry, in the bank of its detection record, rises by one (R92). -/
def MatchTable.hit (t : MatchTable) (bank : Fin 2) (c : Classification) : MatchTable :=
  match c with
  | .looked (.matched i _ _) =>
    let slots := t.banks[bank]
    { t with banks := t.banks.set bank (slots.set i { slots[i] with hits := (slots[i]).hits + 1 }) }
  | _ => t

/-! ### Sorting at the frame's end (R63) -/

/-- The classes of R63, but for an aborted frame, which has no FRAME_END. -/
inductive FrameClass where
  | runt
  | oversize
  | badManagement
  | management
  | macControl
  | bad
  | ordinary
deriving DecidableEq, Repr

/-- The class of a frame, decided by the first test that applies (R63). -/
def Reception.classOf (f : Reception) (frame : List Byte) (receiveError : Bool) : FrameClass :=
  if frame.length < 64 then .runt
  else if f.oversize = true ∨ maxFrameLength < frame.length then .oversize
  else if f.kind = some .management then (if fcsCorrect frame && !receiveError then .management else .badManagement)
  else if f.kind = some .macControl then .macControl
  else if fcsCorrect frame && !receiveError then .ordinary
  else .bad

/-- The classification that stands at the end of an ordinary frame subject to it: key absent where the payload (the frame's length less 18) is too short for
key and kind, and the lookup made at its classification point otherwise (R85, R87, R91). None where the frame is not subject to classification. -/
def Reception.classification (f : Reception) (frame : List Byte) : Option Classification :=
  match f.kind with
  | some .other => some .other
  | some .order =>
    if frame.length < 18 + f.detection.profile.needed then some .keyAbsent
    else f.lookup.map Classification.looked
  | _ => none

/-- The steps of the reception that stand before its end have been taken: the EtherType of a frame that has one, and the classification point of
an order frame long enough to have one (R85, R86). -/
def Reception.complete (f : Reception) (frame : List Byte) : Bool :=
  (f.kind.isSome || decide (frame.length < 14)) &&
  (f.kind != some .order || f.oversize || decide (frame.length < 18 + f.detection.profile.needed) || f.lookup.isSome)

/-! ### Dating (R99 to R110) -/

/-- The phases of a trailer (R105, R108). -/
inductive OrderPhase where
  | continuous
  | call
  | late
  | none
deriving DecidableEq, Repr

/-- Phase codes: 0 Continuous, 1 Call, 2 Late, 3 None (R108). -/
def OrderPhase.code : OrderPhase → Byte
  | .continuous => 0
  | .call => 1
  | .late => 2
  | .none => 3

/-- The phase, from a group record and a raw stamp: the first test that applies decides (R105). -/
def GroupRecord.phase (r : GroupRecord) (raw : Instant) : OrderPhase :=
  if r.state = .idle then .continuous
  else if Before raw r.callStart then .continuous
  else match r.state, r.close with
    | .closed, some c => if AtOrAfter raw c then .late else .call
    | _, _ => .call

/-- The phase of a dated frame (R105). -/
def AuctionTimer.phaseOf (a : AuctionTimer) (g : Option Group) (raw : Instant) : OrderPhase :=
  match g with
  | none => .none
  | some g => (a.groups[g]).phase raw

/-- The stamp of a raw stamp over the last stamp: the stamp floor (R101). A last stamp of (2^48 − 1 s, 999,999,999 ns) is carried to 2^48 s and not wrapped, for
which R101 states nothing (log entry 26). -/
def stampOver (last raw : Instant) : Instant :=
  if Before last raw then raw else addNs last 1

/-- The CLAMPED flag (R101). -/
def clampedOver (last raw : Instant) : Bool :=
  !decide (Before last raw)

/-- The fields of a stamp trailer (R108). -/
structure Trailer where
  stamp : Instant
  sequence : BitVec 32
  group : Option Group
  phase : OrderPhase
  quality : Quality
  clamped : Bool
  keyAbsent : Bool
  unlabelled : Bool
  utcOffset : Int
  index : Option (Fin 64)
deriving DecidableEq, Repr

/-- The flags byte of a trailer: bit 0 CLAMPED, bit 1 KEY_ABSENT, bit 2 REF_UNLABELLED (section 10.8). -/
def Trailer.flags (t : Trailer) : Byte :=
  (if t.clamped then 1 else 0) ||| (if t.keyAbsent then 2 else 0) ||| (if t.unlabelled then 4 else 0)

/-- The first 22 bytes of a trailer (section 10.8). -/
def Trailer.head (t : Trailer) : List Byte :=
  beBytes 2 0xEA16 ++ instantBytes t.stamp ++ beBytes 4 t.sequence.toNat ++
    [groupByte t.group, OrderPhase.code t.phase, Quality.code t.quality, t.flags] ++ signedBytes 1 t.utcOffset ++
    [match t.index with | some i => BitVec.ofNat 8 i | none => 0xFF]

/-- The 24 bytes of a trailer: the check over the 22 before it is last (R108, R109). -/
def Trailer.bytes (t : Trailer) : List Byte :=
  t.head ++ beBytes 2 (check t.head).toNat

/-- The trailer that a lane gives a frame (R99 to R108): the group record is read as it stands. -/
def Lane.trailerFor (l : Lane) (a : AuctionTimer) (r : DetectionRecord) (d : Dating) : Trailer :=
  { stamp := stampOver l.lastStamp r.compensated
    sequence := l.sequence + 1
    group := d.group
    phase := a.phaseOf d.group r.compensated
    quality := r.quality
    clamped := clampedOver l.lastStamp r.compensated
    keyAbsent := d.keyAbsent
    unlabelled := r.unlabelled
    utcOffset := r.utcOffset
    index := d.index }

/-- A lane that has dated a frame: last stamp, sequence number, dated-since-reset indication, counters (R101, R103, R104, R112). -/
def Lane.dateWith (l : Lane) (t : Trailer) : Lane :=
  { l with
    lastStamp := t.stamp
    sequence := t.sequence
    datedSince := true
    dated := l.dated + 1
    clamped := if t.clamped then l.clamped + 1 else l.clamped }

/-- A dated frame as it leaves: the trailer after the last byte before the FCS, and a newly computed FCS (R110). -/
def datedFrame (frame : List Byte) (t : Trailer) : List Byte :=
  withFcs (withoutFcs frame ++ t.bytes)

/-! ### Disposition at the frame's end (R63, R66 to R69, R173) -/

/-- The ingress counters at a frame's end (R63, R80). -/
def IngressCounters.end (k : IngressCounters) (c : FrameClass) : IngressCounters :=
  let k := { k with received := k.received + 1 }
  match c with
  | .runt => { k with runt := k.runt + 1 }
  | .oversize => { k with oversize := k.oversize + 1 }
  | .badManagement => { k with bad := k.bad + 1 }
  | .management => { k with management := k.management + 1 }
  | .macControl => { k with macControl := k.macControl + 1 }
  | .bad => { k with bad := k.bad + 1 }
  | .ordinary => k

/-- A management frame is handed to its port's intake slot, or discarded and counted at a full one (R173). -/
def AgentPort.intakeFrame (a : AgentPort) (frame : List Byte) : AgentPort :=
  match a.slot with
  | none => { a with slot := some frame, intake := a.intake + 1 }
  | some _ => { a with slotFull := a.slotFull + 1 }

/-- A MAC control frame is honoured: its FCS is correct and its opcode is pause (R68). That the opcode stands at frame offset 14, after the EtherType, is
PRESUMED from IEEE 802.3 (log entry 34). -/
def isPause (frame : List Byte) : Bool :=
  fcsCorrect frame && fieldNat frame 14 2 == 1

/-- An honoured pause: a non-zero count runs the received pause for that many quanta of 51.2 ns from the frame's end, replacing one
that runs; a zero count ends it (R68). Its end is held in tenths of a ns. -/
def PortState.honour (p : PortState) (quanta osc : Nat) : PortState :=
  { p with receivedPause := if quanta = 0 then none else some (10 * osc + 512 * quanta) }

/-- The end of an ordinary order-direction frame in STAMP mode: classification counters and hit count, then dating, then the offer to the engine-side
passing FIFO (R66, R92, R97, R99). -/
def State.endOrder (s : State) (p : Port) (f : Reception) (frame : List Byte) (t : Instant) (osc : Nat) : State :=
  match f.classification frame with
  | none => s
  | some c =>
    let action := f.detection.profile.defaultAction
    let lane := s.lane (laneOf p)
    let counted := (s.withTable (s.table.hit f.detection.bank c)).withLane (laneOf p)
      { lane with classes := lane.classes.raise c action }
    match c.dating action with
    | none => counted.offerFrame (mate p) frame f.detection t osc
    | some d =>
      let trailer := (counted.lane (laneOf p)).trailerFor counted.auction f.detection d
      (counted.withLane (laneOf p) ((counted.lane (laneOf p)).dateWith trailer)).offerFrame (mate p) (datedFrame frame trailer) f.detection t osc

/-- The end of an ordinary frame, by its direction and the mode of its detection record (R66). -/
def State.endOrdinary (s : State) (p : Port) (f : Reception) (frame : List Byte) (t : Instant) (osc : Nat) : State :=
  if isGateway p then
    match f.detection.mode with
    | .stamp => s.endOrder p f frame t osc
    | .pass =>
      let lane := s.lane (laneOf p)
      (s.withLane (laneOf p) { lane with passForwarded := lane.passForwarded + 1 }).offerFrame (mate p) frame f.detection t osc
  else s.offerFrame (mate p) frame f.detection t osc

/-- A frame is disposed of by its class (R63). That a pause frame's quanta stand at frame offset 16, after its opcode, is PRESUMED from IEEE 802.3 (log
entry 34). -/
def State.dispose (s : State) (p : Port) (f : Reception) (frame : List Byte) (c : FrameClass) (t : Instant) (osc : Nat) : State :=
  match c with
  | .runt => s
  | .oversize => s
  | .badManagement => s
  | .management => s.withAgentPort p ((s.agentPort p).intakeFrame frame)
  | .macControl => if isPause frame then s.withPort p ((s.port p).honour (fieldNat frame 16 2) osc) else s
  | .bad => s.offerFrame (mate p) frame f.detection t osc
  | .ordinary => s.endOrdinary p f frame t osc

/-- The end of a frame: counted, sorted, disposed of; then the markers that were to follow it are placed (R63, R143). -/
def State.endFrame (s : State) (p : Port) (f : Reception) (frame : List Byte) (receiveError : Bool) (t : Instant) (osc : Nat)
    (order : Order) : State :=
  let c := f.classOf frame receiveError
  let ended := s.withPort p { s.port p with reception := none, ingress := (s.port p).ingress.end c }
  let disposed := ended.dispose p f frame c t osc
  if isGateway p then disposed.placeWaiting (laneOf p) (fun r => r.afterFrame) order else disposed

/-- FRAME_END (R63). -/
def execFrameEnd (p : Port) (rest : List Byte) (receiveError : Bool) (sub : Sub) (order : Order) (s : State) : Result :=
  .next <| match s.receiving p with
    | some f =>
      if f.complete (f.bytes ++ rest) then s.endFrame p f (f.bytes ++ rest) receiveError (s.readingAt sub) (s.oscAt sub) order else s
    | none => s

end Sys2Proof.Machine
end

