-- ==== Sys2Proof/Machine/Operands.lean ====
section
/-! DEFINITION. The operands of the management commands: codes, classes and body lengths, the header of a request, the judgement of R175, and
the typed bodies with their clamps and refusals (Chapter 10, section 10.8). -/

namespace Sys2Proof.Machine

/-! ### Commands, classes, status codes -/

/-- The commands of section 10.5. -/
inductive Command where
  | getStatus | readJournal | readSeed | readGroup | readMatchEntry | readCounters
  | extendCall | releaseJournal
  | setLaneMode | setLaneProfile | writeMatchEntry | swapBank | loadSchedule | clearSchedule | setDay | dayRoll
  | loadSeed | commitSeed | setReferenceChannel | setPreferredReference | setDiscipline | endAcquisition | stepTime
  | setUtcOffset | setOutputs | setPermissions | restart
deriving DecidableEq, Repr

/-- The command codes of section 10.8. -/
def Command.code : Command → Byte
  | .getStatus => 0x01
  | .readJournal => 0x02
  | .readSeed => 0x03
  | .readGroup => 0x04
  | .readMatchEntry => 0x05
  | .readCounters => 0x06
  | .extendCall => 0x21
  | .releaseJournal => 0x22
  | .setLaneMode => 0x41
  | .setLaneProfile => 0x42
  | .writeMatchEntry => 0x43
  | .swapBank => 0x44
  | .loadSchedule => 0x45
  | .clearSchedule => 0x46
  | .setDay => 0x47
  | .dayRoll => 0x48
  | .loadSeed => 0x49
  | .commitSeed => 0x4A
  | .setReferenceChannel => 0x4B
  | .setPreferredReference => 0x4C
  | .setDiscipline => 0x4D
  | .endAcquisition => 0x4E
  | .stepTime => 0x4F
  | .setUtcOffset => 0x50
  | .setOutputs => 0x51
  | .setPermissions => 0x52
  | .restart => 0x53

/-- Every command, in the order of section 10.5. -/
def Command.all : List Command :=
  [.getStatus, .readJournal, .readSeed, .readGroup, .readMatchEntry, .readCounters, .extendCall, .releaseJournal,
    .setLaneMode, .setLaneProfile, .writeMatchEntry, .swapBank, .loadSchedule, .clearSchedule, .setDay, .dayRoll,
    .loadSeed, .commitSeed, .setReferenceChannel, .setPreferredReference, .setDiscipline, .endAcquisition, .stepTime,
    .setUtcOffset, .setOutputs, .setPermissions, .restart]

/-- The command a code names, if it names one (R175). -/
def Command.ofCode (code : Byte) : Option Command :=
  Command.all.find? fun c => Command.code c == code

/-- The class of a command, as the lowest permission level that may issue it (section 10.5). -/
def Command.level : Command → Level
  | .getStatus => .observe
  | .readJournal => .observe
  | .readSeed => .observe
  | .readGroup => .observe
  | .readMatchEntry => .observe
  | .readCounters => .observe
  | .extendCall => .operate
  | .releaseJournal => .operate
  | _ => .configure

/-- The length of a command's request body (section 10.8). -/
def Command.bodyLength : Command → Nat
  | .getStatus => 0
  | .readJournal => 5
  | .readSeed => 0
  | .readGroup => 1
  | .readMatchEntry => 2
  | .readCounters => 1
  | .extendCall => 1
  | .releaseJournal => 4
  | .setLaneMode => 3
  | .setLaneProfile => 24
  | .writeMatchEntry => 15
  | .swapBank => 1
  | .loadSchedule => 36
  | .clearSchedule => 1
  | .setDay => 2
  | .dayRoll => 0
  | .loadSeed => 4
  | .commitSeed => 2
  | .setReferenceChannel => 17
  | .setPreferredReference => 1
  | .setDiscipline => 37
  | .endAcquisition => 0
  | .stepTime => 8
  | .setUtcOffset => 11
  | .setOutputs => 22
  | .setPermissions => 8
  | .restart => 0

/-- The levels of R178 as their codes, in rising order: 0 None, 1 Observe, 2 Operate, 3 Configure. -/
def Level.code : Level → Nat
  | .none => 0
  | .observe => 1
  | .operate => 2
  | .configure => 3

/-- The level of a code, if it is 0 to 3 (R178). -/
def Level.ofCode : Nat → Option Level
  | 0 => some .none
  | 1 => some .observe
  | 2 => some .operate
  | 3 => some .configure
  | _ => none

/-- The status codes of R176. -/
inductive Status where
  | ok | malformed | unknown | denied | invalid | wrongState | notSet | tooLate | limit | mismatch | locked
deriving DecidableEq, Repr

/-- The codes of R176. -/
def Status.code : Status → Byte
  | .ok => 0
  | .malformed => 1
  | .unknown => 2
  | .denied => 3
  | .invalid => 4
  | .wrongState => 5
  | .notSet => 6
  | .tooLate => 7
  | .limit => 8
  | .mismatch => 9
  | .locked => 10

/-! ### The header of a request (section 10.8) and its judgement (R175) -/

/-- The version, at frame offset 14. -/
def versionOf (frame : List Byte) : Nat := fieldNat frame 14 1
/-- The message kind, at frame offset 15. -/
def kindCodeOf (frame : List Byte) : Nat := fieldNat frame 15 1
/-- The command code, at frame offset 16. -/
def commandCodeOf (frame : List Byte) : Byte := BitVec.ofNat 8 (fieldNat frame 16 1)
/-- The tag, the two bytes at frame offset 18. -/
def tagOf (frame : List Byte) : List Byte := slice frame 18 2
/-- The body length field, at frame offset 20. -/
def bodyLengthOf (frame : List Byte) : Nat := fieldNat frame 20 2
/-- The body, from frame offset 22, as long as its length field says. -/
def bodyOf (frame : List Byte) : List Byte := slice frame 22 (bodyLengthOf frame)
/-- The source address of a request, to which it is answered (R177). -/
def sourceOfFrame (frame : List Byte) : List Byte := slice frame 6 6
/-- The payload length P: the frame's length less 18 (R175). -/
def payloadLength (frame : List Byte) : Nat := frame.length - 18

/-- The judgement of a request at its take (R175). -/
inductive Judgement where
  | noPermission
  | notRequest
  | malformed
  | unknown
  | denied
  | command (c : Command)
deriving DecidableEq, Repr

/-- The length test of R175's table: 8 + body length exceeds P, or the frame is longer than 64 bytes and 8 + body length differs from P. -/
def wrongLength (frame : List Byte) : Bool :=
  decide (payloadLength frame < 8 + bodyLengthOf frame) ||
  (decide (64 < frame.length) && decide (8 + bodyLengthOf frame ≠ payloadLength frame))

/-- R175: the first test that applies decides. -/
def judgeRequest (level : Level) (frame : List Byte) : Judgement :=
  if level = .none then .noPermission
  else if kindCodeOf frame ≠ 1 then .notRequest
  else if versionOf frame ≠ 1 then .malformed
  else if wrongLength frame = true then .malformed
  else match Command.ofCode (commandCodeOf frame) with
    | none => .unknown
    | some c =>
      if Level.code level < Level.code c.level then .denied
      else if bodyLengthOf frame ≠ c.bodyLength then .malformed
      else .command c

/-! ### Values in bodies (R176, R184) -/

/-- A value clamped into a range. -/
def clampNat (low high n : Nat) : Nat := max low (min n high)

/-- A yes-or-no field: 0 for no, 1 for yes, any other value refused (R176). -/
def flagOf (n : Nat) : Option Bool :=
  if n = 0 then some false else if n = 1 then some true else none

/-- An instant of a body; a nanoseconds count of 1,000,000,000 or more is refused (R176). -/
def instantOf (body : List Byte) (off : Nat) : Option Instant :=
  if (fieldInstant body off).ns < nsPerSecond then some (fieldInstant body off) else none

/-- A lane named in a body (R184). -/
def laneNamed (n : Nat) : Option LaneId := if h : n < 4 then some ⟨n, h⟩ else none
/-- A group named in a body (R184). -/
def groupNamed (n : Nat) : Option Group := if h : n < 16 then some ⟨n, h⟩ else none
/-- A bank named in a body (R184). -/
def bankNamed (n : Nat) : Option (Fin 2) := if h : n < 2 then some ⟨n, h⟩ else none
/-- A match index named in a body (R184). -/
def indexNamed (n : Nat) : Option (Fin 64) := if h : n < 64 then some ⟨n, h⟩ else none
/-- A reference channel, or a reference, named in a body: 0 for A, 1 for B (R182, R184). -/
def channelNamed (n : Nat) : Option Channel := if n = 0 then some .A else if n = 1 then some .B else none
/-- A group field of WriteMatchEntry: a group, or NONE at 0xFF (R184). -/
def groupOrNone (n : Nat) : Option (Option Group) := if n = 255 then some none else (groupNamed n).map some
/-- An action code: 0 PASS, 1 STAMP, 2 STAMP_NO_GROUP. -/
def actionNamed (n : Nat) : Option Action :=
  if n = 0 then some .pass else if n = 1 then some .stamp else if n = 2 then some .stampNoGroup else none
/-- A lane mode code: 0 PASS, 1 STAMP (R65). -/
def modeNamed (n : Nat) : Option LaneMode := if n = 0 then some .pass else if n = 1 then some .stamp else none
/-- A policy code: 0 PROCEED, 1 DEFER. -/
def policyNamed (n : Nat) : Option Policy := if n = 0 then some .proceed else if n = 1 then some .defer else none
/-- A PPS mode code: 0 Off, 1 Always, 2 Traceable only (R182). -/
def ppsModeNamed (n : Nat) : Option PpsMode :=
  if n = 0 then some .off else if n = 1 then some .always else if n = 2 then some .traceableOnly else none
/-- A filter code: 0, 1, 2, 3 for 0, 8, 64, 512 ticks (R18). -/
def filterNamed (n : Nat) : Option Nat :=
  if n = 0 then some 0 else if n = 1 then some 8 else if n = 2 then some 64 else if n = 3 then some 512 else none
/-- A parity code: 0 none, 1 even, 2 odd (R18). -/
def parityNamed (n : Nat) : Option Parity :=
  if n = 0 then some .none else if n = 1 then some .even else if n = 2 then some .odd else none

/-! ### Typed bodies -/

/-- SetLaneMode (R65). -/
structure LaneModeBody where
  lane : LaneId
  mode : LaneMode
  resetSequence : Bool
deriving DecidableEq, Repr

/-- The body of a SetLaneMode; none where the command is refused with INVALID (R65, R176). -/
def laneModeBody (body : List Byte) : Option LaneModeBody := do
  let lane ← laneNamed (fieldNat body 0 1)
  let mode ← modeNamed (fieldNat body 1 1)
  let flag ← flagOf (fieldNat body 2 1)
  pure { lane := lane, mode := mode, resetSequence := flag }

/-- SetLaneProfile (R83, R84, R75). -/
structure LaneProfileBody where
  lane : LaneId
  profile : LaneProfile
deriving DecidableEq, Repr

/-- An order EtherType in range: 0x0600 to 0xFFFF, except 0x8808 (R84). -/
def orderEtherTypeInRange (n : Nat) : Bool := decide (0x0600 ≤ n) && n != 0x8808

/-- The profile a SetLaneProfile body carries, its watermarks clamped (R75); its other fields are tested by `laneProfileBody`. -/
def profileOfBody (body : List Byte) (action : Action) : LaneProfile :=
  { orderEtherType := BitVec.ofNat 16 (fieldNat body 1 2)
    keyOffset := fieldNat body 3 1
    kindOffset := fieldNat body 4 1
    defaultAction := action
    latency := fieldNat body 6 4
    markerAddress := BitVec.ofNat 48 (fieldNat body 10 6)
    high := clampNat 1 32768 (fieldNat body 16 4)
    low := min (clampNat 1 32768 (fieldNat body 20 4)) (clampNat 1 32768 (fieldNat body 16 4)) }

/-- The body of a SetLaneProfile; none where the command is refused with INVALID (R83, R84). -/
def laneProfileBody (body : List Byte) : Option LaneProfileBody := do
  let lane ← laneNamed (fieldNat body 0 1)
  let action ← actionNamed (fieldNat body 5 1)
  if orderEtherTypeInRange (fieldNat body 1 2) && decide (fieldNat body 3 1 ≤ 56) && decide (fieldNat body 4 1 ≤ 63) &&
      action != .stamp && decide (fieldNat body 6 4 ≤ 65535) then
    pure { lane := lane, profile := profileOfBody body action }
  else none

/-- WriteMatchEntry (R93). -/
structure MatchEntryBody where
  bank : Fin 2
  index : Fin 64
  entry : MatchEntry
deriving DecidableEq, Repr

/-- The body of a WriteMatchEntry; none where the command is refused with INVALID (R93, R176). -/
def matchEntryBody (body : List Byte) : Option MatchEntryBody := do
  let bank ← bankNamed (fieldNat body 0 1)
  let index ← indexNamed (fieldNat body 1 1)
  let valid ← flagOf (fieldNat body 2 1)
  let group ← groupOrNone (fieldNat body 13 1)
  let action ← actionNamed (fieldNat body 14 1)
  pure
    { bank := bank
      index := index
      entry :=
        { valid := valid
          keyValue := BitVec.ofNat 32 (fieldNat body 3 4)
          keyMask := BitVec.ofNat 32 (fieldNat body 7 4)
          kindValue := BitVec.ofNat 8 (fieldNat body 11 1)
          kindMask := BitVec.ofNat 8 (fieldNat body 12 1)
          group := group
          action := action } }

/-- LoadSchedule (R117). -/
structure ScheduleBody where
  group : Group
  callStart : Instant
  windowStart : Instant
  window : Nat
  extLength : Nat
  extLimit : Nat
  policy : Policy
  deferRestart : Nat
  lanes : BitVec 4
deriving DecidableEq, Repr

/-- The body of a LoadSchedule, W and the extension limit clamped; none where the first row of R117's table refuses it with INVALID. -/
def scheduleBody (body : List Byte) : Option ScheduleBody := do
  let group ← groupNamed (fieldNat body 0 1)
  let callStart ← instantOf body 1
  let windowStart ← instantOf body 11
  let policy ← policyNamed (fieldNat body 30 1)
  if decide (1 ≤ fieldNat body 25 4) && decide (fieldNat body 25 4 ≤ 3600000) && decide (1 ≤ fieldNat body 31 4) &&
      decide (fieldNat body 31 4 ≤ 600000) && decide (fieldNat body 35 1 < 16) then
    pure
      { group := group
        callStart := callStart
        windowStart := windowStart
        window := min (fieldNat body 21 4) 600000
        extLength := fieldNat body 25 4
        extLimit := min (fieldNat body 29 1) 7
        policy := policy
        deferRestart := fieldNat body 31 4
        lanes := BitVec.ofNat 4 (fieldNat body 35 1) }
  else none

/-- SetReferenceChannel (R18). -/
structure ChannelBody where
  channel : Channel
  settings : ChannelSettings
deriving DecidableEq, Repr

/-- The body of a SetReferenceChannel, the limits clamped; none where the command is refused with INVALID (R18, R176). -/
def channelBody (body : List Byte) : Option ChannelBody := do
  let channel ← channelNamed (fieldNat body 0 1)
  let enabled ← flagOf (fieldNat body 1 1)
  let filterTicks ← filterNamed (fieldNat body 2 1)
  let wideRange ← flagOf (fieldNat body 11 1)
  let doubleSpeed ← flagOf (fieldNat body 14 1)
  let parity ← parityNamed (fieldNat body 15 1)
  if decide (fieldNat body 3 4 ≤ 1000000) && decide (fieldNat body 12 2 ≤ 4095) && decide (1 ≤ fieldNat body 16 1) &&
      decide (fieldNat body 16 1 ≤ 2) then
    pure
      { channel := channel
        settings :=
          { enabled := enabled
            filterTicks := filterTicks
            cable := fieldNat body 3 4
            early := min (fieldNat body 7 2) 4095
            late := min (fieldNat body 9 2) 4095
            wideRange := wideRange
            divisor := fieldNat body 12 2
            doubleSpeed := doubleSpeed
            parity := parity
            stopBits := fieldNat body 16 1 } }
  else none

/-- The persistence allowed at or below a request: 1, 2, 4 or 8; 0 gives 1 (R37). -/
def allowedPersistence (n : Nat) : Nat :=
  if 8 ≤ n then 8 else if 4 ≤ n then 4 else if 2 ≤ n then 2 else 1

/-- The body of a SetDiscipline, clamped as R37 states; none where L lies below 1,000 ns and the command is refused with INVALID. -/
def disciplineBody (body : List Byte) : Option DtuSettings :=
  if fieldNat body 8 4 < 1000 then none
  else
    let limit := min (fieldNat body 8 4) 1000000000
    some
      { acqKi := min (fieldNat body 0 1) 15
        acqKp := min (fieldNat body 1 1) 15
        trackKi := min (fieldNat body 2 1) 15
        trackKp := min (fieldNat body 3 1) 15
        sMax := min (fieldNat body 4 4) 3200000
        limit := limit
        warn := min (fieldNat body 12 4) limit
        uncertainty := min (fieldNat body 16 4) 1000000
        qualify := clampNat 1 64 (fieldNat body 20 1)
        age := clampNat 2 16 (fieldNat body 21 1)
        persistence := allowedPersistence (fieldNat body 22 1)
        growth := min (fieldNat body 23 4) 100000
        stepThreshold := clampNat 1000 500000000 (fieldNat body 27 4)
        revertDelay := clampNat 10 3600 (fieldNat body 31 2)
        crossLimit := clampNat 1000 1000000000 (fieldNat body 33 4) }

/-- SetOutputs (R182). -/
structure OutputsBody where
  mode : PpsMode
  width : Nat
  compensation : Nat
  /-- The group set and width of each line. -/
  lines : Vector (BitVec 16 × Nat) 4
  mask : BitVec 7
deriving DecidableEq, Repr

/-- The body of a SetOutputs, widths of 0 clamped to 1; none where the command is refused with INVALID (R182). -/
def outputsBody (body : List Byte) : Option OutputsBody := do
  let mode ← ppsModeNamed (fieldNat body 0 1)
  if fieldNat body 21 1 < 128 then
    pure
      { mode := mode
        width := max 1 (fieldNat body 1 2)
        compensation := fieldNat body 3 2
        lines := Vector.ofFn fun (i : Line) =>
          (BitVec.ofNat 16 (fieldNat body (5 + 4 * i.val) 2), max 1 (fieldNat body (7 + 4 * i.val) 2))
        mask := BitVec.ofNat 7 (fieldNat body 21 1) }
  else none

/-- The level carried for a port by a SetPermissions body. -/
def levelIn (body : List Byte) (p : Port) : Level :=
  (Level.ofCode (fieldNat body p.val 1)).getD .none

/-- The levels of a SetPermissions body; none where a code is not 0 to 3 or no port would hold Configure (R178). -/
def permissionsBody (body : List Byte) : Option (Vector Level 8) :=
  if (List.finRange 8).all (fun p => decide (fieldNat body p.val 1 ≤ 3)) &&
      (List.finRange 8).any (fun p => levelIn body p == .configure) then
    some (Vector.ofFn fun p => levelIn body p)
  else none

/-- The greatest amount of a StepTime in magnitude: 86,400,000,000,000 ns (R183). -/
def stepLimit : Nat := 86400000000000

end Sys2Proof.Machine
end

