-- ==== Sys2Proof/Machine/Manage.lean ====
section
/-! DEFINITION. The Management Agent's takes (Chapter 10): the choice of a slot, the judgement, the response, the counters; MANAGEMENT_FRAME_REJECTED.

A management row is the take of the request that the round robin chooses. It acts only where that request is judged to be that row's command; any other
state, it leaves as it is (log entry 8). -/

namespace Sys2Proof.Machine

/-! ### The choice of a slot (R174) -/

/-- The port `n` places after a port in the cyclic order G0 to G3, E0 to E3 (R174). -/
def portAfter (p : Port) (n : Nat) : Port := ⟨(p.val + n) % 8, Nat.mod_lt _ (by decide)⟩

/-- The ports in the cyclic order that starts at the one the pointer names (R174). -/
def Agent.cycle (a : Agent) : List Port :=
  (List.range 8).map fun n => portAfter a.pointer n

/-- The port whose slot the agent takes: the first full one in the cyclic order from the pointer (R174). -/
def Agent.choice (a : Agent) : Option Port :=
  a.cycle.find? fun p => (a.ports[p]).slot.isSome

/-- The agent is free to take: no reset is held and no Restart is pending (R174, R185). -/
def State.freeToTake (s : State) : Bool :=
  s.running && s.agent.restart.isNone

/-- A take: the port and the frame in its slot, the level of the port, the reading and the oscillator time of the moment. -/
structure Take where
  port : Port
  level : Level
  frame : List Byte
  now : Instant
  osc : Nat
deriving DecidableEq, Repr

/-- The body of the request taken. -/
def Take.body (q : Take) : List Byte := bodyOf q.frame

/-- The judgement of the request taken (R175). -/
def Take.judgement (q : Take) : Judgement := judgeRequest q.level q.frame

/-- The take that stands next, if the agent is free and a slot is full (R174). -/
def State.nextTake (s : State) (sub : Sub) : Option Take :=
  if s.freeToTake then
    match s.agent.choice with
    | some p =>
      (s.agentPort p).slot.map fun frame =>
        { port := p, level := (s.agentPort p).level, frame := frame, now := s.readingAt sub, osc := s.oscAt sub }
    | none => none
  else none

/-- The frame leaves its slot, and the pointer names the port after the one served (R174). -/
def State.emptySlot (s : State) (p : Port) : State :=
  let emptied := s.withAgentPort p { s.agentPort p with slot := none }
  emptied.withAgent { emptied.agent with pointer := portAfter p 1 }

/-! ### The response (R177) -/

/-- Zeros brought to a run of bytes up to `len`; a longer run is left as it is (R177). -/
def padUpTo (len : Nat) (bytes : List Byte) : List Byte :=
  bytes ++ List.replicate (len - bytes.length) 0

/-- The response frame to a request (R177): header and body as section 10.8 lays them out, at least 64 bytes long. -/
def responseFrame (address : BitVec 48) (request : List Byte) (status : Status) (body : List Byte) : List Byte :=
  withFcs (padUpTo 60
    (sourceOfFrame request ++ beBytes 6 address.toNat ++ beBytes 2 0x88B5 ++
      [1, 2, commandCodeOf request, Status.code status] ++ tagOf request ++ beBytes 2 body.length ++ body))

/-- A response is offered to the own-frame queue of the request's port: it enters at the back of a queue of fewer than 8 frames, and is discarded and
counted at a full one (R72, R177). -/
def State.offerResponse (s : State) (p : Port) (bytes : List Byte) (ofRestart : Bool) : State :=
  if (s.port p).own.length < ownPlaces then
    (s.withPort p { s.port p with own := (s.port p).own ++ [.response bytes ofRestart] }).withAgentPort p
      { s.agentPort p with responses := (s.agentPort p).responses + 1 }
  else s.withAgentPort p { s.agentPort p with responseDiscard := (s.agentPort p).responseDiscard + 1 }

/-- A response to a take is formed and offered. -/
def State.respond (s : State) (q : Take) (status : Status) (body : List Byte) (ofRestart : Bool) : State :=
  s.offerResponse q.port (responseFrame s.signal.managementAddress q.frame status body) ofRestart

/-- What a command's own rule makes of a take: the state, the status, the response body (R176). -/
structure Reply where
  state : State
  status : Status
  body : List Byte

/-- A refused command: no state of the part changes (R176). -/
def Reply.refuse (s : State) (status : Status) : Reply :=
  { state := s, status := status, body := [] }

/-- An accepted command that has no response body. -/
def Reply.done (s : State) : Reply :=
  { state := s, status := .ok, body := [] }

/-- An accepted command answered with a body. -/
def Reply.give (s : State) (body : List Byte) : Reply :=
  { state := s, status := .ok, body := body }

/-- A command's request is taken, applied and answered (R174, R176, R177). -/
def State.serve (s : State) (q : Take) (apply : Take → State → Reply) (ofRestart : Bool) : State :=
  let reply := apply q (s.emptySlot q.port)
  reply.state.respond q reply.status reply.body ofRestart

/-- The take of one command: it acts where the request next taken is judged to be that command. -/
def State.takeCommand (s : State) (c : Command) (sub : Sub) (apply : Take → State → Reply) : State :=
  match s.nextTake sub with
  | some q => if q.judgement = .command c then s.serve q apply (c == .restart) else s
  | none => s

/-! ### Rejected frames (R175) -/

/-- A rejected frame at its take: discarded and counted, or answered and counted (R175, R186). -/
def State.reject (s : State) (q : Take) : State :=
  let s := s.emptySlot q.port
  match q.judgement with
  | .noPermission => s.withAgentPort q.port { s.agentPort q.port with noPermission := (s.agentPort q.port).noPermission + 1 }
  | .notRequest => s.withAgentPort q.port { s.agentPort q.port with notRequest := (s.agentPort q.port).notRequest + 1 }
  | .malformed => (s.withAgent { s.agent with malformed := s.agent.malformed + 1 }).respond q .malformed [] false
  | .unknown => (s.withAgent { s.agent with unknown := s.agent.unknown + 1 }).respond q .unknown [] false
  | .denied => (s.withAgent { s.agent with denied := s.agent.denied + 1 }).respond q .denied [] false
  | .command _ => s

/-- The judgement is that of a rejected frame. -/
def Judgement.rejects : Judgement → Bool
  | .command _ => false
  | _ => true

/-- MANAGEMENT_FRAME_REJECTED (R175). -/
def execManagementFrameRejected (sub : Sub) (s : State) : Result :=
  .next <| match s.nextTake sub with
    | some q => if q.judgement.rejects then s.reject q else s
    | none => s

/-! ### Records of configuration (R171) -/

/-- An object named by a lane, a group or a reference channel: its number in the first byte (section 10.8). -/
def objectOf (n : Nat) : BitVec 16 := BitVec.ofNat 16 (n * 256)

/-- No object, or the seed slot (section 10.8). -/
def noObject : BitVec 16 := 0xFFFF#16

/-- A ConfigChange record is handed, with the reading of the take as its event instant (R171). -/
def State.recordConfig (s : State) (q : Take) (c : Command) (object : BitVec 16) (detail : List Byte) : State :=
  s.hand q.now (.configChange c.code q.port object detail)

end Sys2Proof.Machine
end

