-- ==== Sys2Proof/Machine/ManageAuction.lean ====
section
/-! DEFINITION. The commands on the Auction Timer (Chapter 7): EXTEND_CALL, LOAD_SCHEDULE, CLEAR_SCHEDULE, SET_DAY, DAY_ROLL, LOAD_SEED, COMMIT_SEED. -/

namespace Sys2Proof.Machine

/-! ### ExtendCall (R129, R130) -/

/-- The outcome of an ExtendCall from the group's record and the reading `t`: the status of a refusal, or none where it is accepted; the first row of R129's
table that applies decides. -/
def GroupRecord.extendRefusal (r : GroupRecord) (t : Instant) : Option Status :=
  match r.state, r.close with
  | .idle, _ => some .wrongState
  | .armed, _ => some .wrongState
  | .closed, _ => some .tooLate
  | .window, some c =>
    if AtOrAfter t c then some .tooLate else if r.extUsed = r.extLimit then some .limit else none
  | _, _ => if r.extUsed = r.extLimit then some .limit else none

/-- A group whose call is extended at the reading `t` (R130, steps 1 to 3). -/
def GroupRecord.extended (r : GroupRecord) (t : Instant) : GroupRecord :=
  { r with
    state := .call
    windowStart := laterOf r.windowStart (addMs t r.extLength)
    extUsed := r.extUsed + 1
    k := bump r.k
    close := none
    draw := none }

/-- What ExtendCall does (R129, R130). -/
def applyExtendCall (q : Take) (s : State) : Reply :=
  match groupNamed (fieldNat q.body 0 1) with
  | none => .refuse s .invalid
  | some g =>
    match (s.group g).extendRefusal q.now with
    | some status => .refuse s status
    | none =>
      let r := (s.group g).extended q.now
      .give ((s.withGroup g r).hand q.now (.extension g r.extUsed r.k r.windowStart))
        (instantBytes r.windowStart ++ beBytes 1 r.extUsed ++ beBytes 1 r.k)

/-- EXTEND_CALL (R129, R130). -/
def execExtendCall (sub : Sub) (s : State) : Result := .next (s.takeCommand .extendCall sub applyExtendCall)

/-! ### LoadSchedule and ClearSchedule (R117 to R119) -/

/-- A group's call is in progress: CALL, WINDOW or SUSPENDED (R117, R133). -/
def GroupState.inCall : GroupState → Bool
  | .call => true
  | .window => true
  | .suspended => true
  | _ => false

/-- The refusal of a LoadSchedule whose body stands, in the order of R117's table, at the reading `t`. -/
def State.scheduleRefusal (s : State) (b : ScheduleBody) (t : Instant) : Option Status :=
  if (s.group b.group).state.inCall = true then some .wrongState
  else if s.dtu.state = .free then some .notSet
  else if AtOrAfter b.callStart b.windowStart then some .invalid
  else if AtOrAfter t (addMs b.windowStart b.window) then some .invalid
  else none

/-- The record of a group that takes a schedule at the reading `t`, in ARMED or CALL; a window start at or before `t` is dealt with by `loadGroup` (R118). -/
def ScheduleBody.record (b : ScheduleBody) (t : Instant) : GroupRecord :=
  { state := if Before t b.callStart then .armed else .call
    callStart := b.callStart
    windowStart := b.windowStart
    window := b.window
    extLength := b.extLength
    extLimit := b.extLimit
    extUsed := 0
    policy := b.policy
    deferRestart := b.deferRestart
    lanes := b.lanes
    k := 0
    deferrals := 0
    close := none
    draw := none }

/-- The group takes the schedule at the reading `t`, and draws at once where its window start is at or before `t` (R118). -/
def State.loadGroup (s : State) (b : ScheduleBody) (t : Instant) : State :=
  let loaded := s.withGroup b.group (b.record t)
  if AtOrAfter t b.windowStart then loaded.openWindow b.group t t else loaded

/-- The ConfigChange record of a LoadSchedule (R118, step 3). Its window start is the command's own, also where a close decided at the same moment resumes the
group and moves the group's window start (the model's choice, log entry 37). -/
def State.recordSchedule (s : State) (q : Take) (b : ScheduleBody) : State :=
  s.recordConfig q .loadSchedule (objectOf b.group) (instantBytes b.windowStart)

/-- What LoadSchedule does (R117, R118). The ConfigChange record follows the records of a close decided at the same moment, as R118 numbers its steps, unless the order
names it first (R162). -/
def applyLoadSchedule (order : Order) (q : Take) (s : State) : Reply :=
  match scheduleBody q.body with
  | none => .refuse s .invalid
  | some b =>
    match s.scheduleRefusal b q.now with
    | some status => .refuse s status
    | none =>
      let loaded :=
        if order.headD 0 % 2 = 0 then (s.loadGroup b q.now).recordSchedule q b
        else (s.recordSchedule q b).loadGroup b q.now
      .give loaded [GroupState.code (loaded.group b.group).state]

/-- LOAD_SCHEDULE (R117, R118). -/
def execLoadSchedule (sub : Sub) (order : Order) (s : State) : Result :=
  .next (s.takeCommand .loadSchedule sub (applyLoadSchedule order))

/-- A group enters IDLE, its c and draw result discarded and its other fields kept (R119, R133). -/
def GroupRecord.cleared (r : GroupRecord) : GroupRecord :=
  { r with state := .idle, close := none, draw := none }

/-- What ClearSchedule does (R119). -/
def applyClearSchedule (q : Take) (s : State) : Reply :=
  match groupNamed (fieldNat q.body 0 1) with
  | none => .refuse s .invalid
  | some g =>
    match (s.group g).state with
    | .armed => .done ((s.withGroup g (s.group g).cleared).recordConfig q .clearSchedule (objectOf g) [])
    | .closed => .done ((s.withGroup g (s.group g).cleared).recordConfig q .clearSchedule (objectOf g) [])
    | _ => .refuse s .wrongState

/-- CLEAR_SCHEDULE (R119). -/
def execClearSchedule (sub : Sub) (s : State) : Result := .next (s.takeCommand .clearSchedule sub applyClearSchedule)

/-! ### SetDay and DayRoll (R132, R133) -/

/-- All sixteen groups are in IDLE (R132). -/
def AuctionTimer.allIdle (a : AuctionTimer) : Bool :=
  (List.finRange 16).all fun g => (a.groups[g]).state == .idle

/-- Some group is in CALL, WINDOW or SUSPENDED (R133). -/
def AuctionTimer.anyInCall (a : AuctionTimer) : Bool :=
  (List.finRange 16).any fun g => (a.groups[g]).state.inCall

/-- What SetDay does (R132). -/
def applySetDay (q : Take) (s : State) : Reply :=
  if s.auction.allIdle then
    .done ((s.withAuction { s.auction with day := fieldNat q.body 0 2 }).recordConfig q .setDay noObject
      (beBytes 2 s.auction.day ++ beBytes 2 (fieldNat q.body 0 2)))
  else .refuse s .wrongState

/-- SET_DAY (R132). -/
def execSetDay (sub : Sub) (s : State) : Result := .next (s.takeCommand .setDay sub applySetDay)

/-- The Auction Timer after steps 2 to 4 of R133: every group in IDLE, the slot ABSENT, the next day. -/
def AuctionTimer.rolled (a : AuctionTimer) : AuctionTimer :=
  { groups := Vector.ofFn fun g => (a.groups[g]).cleared, seed := .absent, day := (a.day + 1) % 65536 }

/-- A day is rolled at the reading `t` (R133). -/
def State.rollDay (s : State) (t : Instant) : State :=
  let revealed := s.revealSeed t
  (revealed.withAuction revealed.auction.rolled).hand t (.dayRoll s.auction.day ((s.auction.day + 1) % 65536) s.auction.seed)

/-- What DayRoll does (R133). -/
def applyDayRoll (q : Take) (s : State) : Reply :=
  if s.auction.anyInCall then .refuse s .wrongState else .done (s.rollDay q.now)

/-- DAY_ROLL (R133). -/
def execDayRoll (sub : Sub) (s : State) : Result := .next (s.takeCommand .dayRoll sub applyDayRoll)

/-! ### The seed slot (R135, R136) -/

/-- The seed slot takes a value. -/
def State.withSeed (s : State) (slot : SeedSlot) : State := s.withAuction { s.auction with seed := slot }

/-- What LoadSeed does (R135). -/
def applyLoadSeed (q : Take) (s : State) : Reply :=
  match s.auction.seed with
  | .committed _ => .refuse s .locked
  | _ => .done ((s.withSeed (.loaded (BitVec.ofNat 32 (fieldNat q.body 0 4)))).recordConfig q .loadSeed noObject [])

/-- LOAD_SEED (R135). -/
def execLoadSeed (sub : Sub) (s : State) : Result := .next (s.takeCommand .loadSeed sub applyLoadSeed)

/-- What CommitSeed does (R136): COMMITTED with its SeedCommit record, or answered with MISMATCH and the seed discarded. -/
def applyCommitSeed (q : Take) (s : State) : Reply :=
  match s.auction.seed with
  | .committed _ => .refuse s .locked
  | .loaded seed =>
    if (check (seedBytes seed)).toNat = fieldNat q.body 0 2 then
      .done ((s.withSeed (.committed seed)).hand q.now (.seedCommit (check (seedBytes seed))))
    else { state := s.withSeed .absent, status := .mismatch, body := [] }
  | _ => .refuse s .wrongState

/-- COMMIT_SEED (R136). -/
def execCommitSeed (sub : Sub) (s : State) : Result := .next (s.takeCommand .commitSeed sub applyCommitSeed)

end Sys2Proof.Machine
end

