-- ==== Sys2Proof/Config.lean ====
section
/-! DEFINITION. What the manual leaves open as a VALUE: constants with no body, of which nothing can be proved. -/

namespace Sys2Proof

/-- FREE VALUE (log entry 4). The pending-offset fields of a GetStatus response (the signed new offset,
then the ten bytes of the effective instant, section 10.8 offsets 37 to 47) while no change is pending: the
manual lays the fields out and does not say what they hold then. The argument counts the times the pending
change became absent, so that the value may differ from one absence to the next, and two GetStatus taken
with no event between them agree (R179). -/
opaque Config.absentPending : Nat → BitVec 88

/-- FREE VALUE (log entry 31). The first two bytes of the four-byte value of a ReadSeed response in LOADED and COMMITTED: section 10.8
puts the check in its last two bytes and does not say what the first two hold. It may differ from take to take: the arguments are the
oscillator time of the take and the request's frame. -/
opaque Config.seedValueHigh (osc : Nat) (request : List Byte) : BitVec 16

end Sys2Proof
end

