-- ==== Sys2Proof/Machine/ManageRead.lean ====
section
/-! DEFINITION. The commands that read (Chapter 10, classes Observe and Operate but ExtendCall): GET_STATUS, READ_JOURNAL, READ_SEED, READ_GROUP,
READ_MATCH_ENTRY, READ_COUNTERS, RELEASE_JOURNAL. -/

namespace Sys2Proof.Machine

/-! ### GetStatus (R179) -/

/-- Bits of a byte set where a test holds, bit n for n. -/
def bitsWhere (n : Nat) (test : Nat → Bool) : Byte :=
  (List.range n).foldl (fun (set : Byte) i => if test i then set ||| BitVec.twoPow 8 i else set) 0

/-- The pending-change fields of GetStatus, 12 bytes from offset 36. While no change is pending, what stands after the mark is a free value (log entry 4). -/
def TimeBase.pendingBytes (tb : TimeBase) : List Byte :=
  match tb.pendingOffset with
  | some change => [1] ++ signedBytes 1 change.newOffset ++ instantBytes change.effective
  | none => [0] ++ beBytes 11 (Config.absentPending tb.absences).toNat

/-- The flags of GetStatus: bit 0 warning, bit 1 disagreement, bit 2 unlabelled measurement. -/
def Dtu.flagBits (d : Dtu) : Byte :=
  (if d.warning then 1 else 0) ||| (if d.disagreement then 2 else 0) ||| (if d.unlabelled then 4 else 0)

/-- The DTU's part of GetStatus, 25 bytes. -/
def Dtu.statusBytes (d : Dtu) : List Byte :=
  [DState.code d.state, Quality.code d.quality, d.flagBits, activeCode d.active, Channel.code d.preferred] ++
    beBytes 4 d.bound ++ signedBytes 4 d.lastTheta ++ signedBytes 4 d.integral ++ thetaBytes d.refA.theta ++ thetaBytes d.refB.theta

/-- The Auction Timer's part of GetStatus, 19 bytes. -/
def AuctionTimer.statusBytes (a : AuctionTimer) : List Byte :=
  ((List.finRange 16).map fun g => GroupState.code (a.groups[g]).state) ++ [SeedSlot.code a.seed] ++ beBytes 2 a.day

/-- The journal's part of GetStatus, 22 bytes. -/
def Journal.statusBytes (j : Journal) : List Byte :=
  beBytes 4 j.oldest.toNat ++ beBytes 4 j.newest.toNat ++ beBytes 2 j.free ++ beBytes 4 j.omitted ++ beBytes 4 j.lost ++
    beBytes 4 j.shortageStart.toNat

/-- The modes of the lanes, bit n set for STAMP. -/
def State.laneModeBits (s : State) : Byte :=
  bitsWhere 4 fun n => match laneNamed n with | some l => (s.lane l).mode == .stamp | none => false

/-- The link states of the ports, set for up. -/
def State.linkBits (s : State) : Byte :=
  bitsWhere 8 fun n => (s.ports[n]?).any fun p => p.link

/-- The 93 bytes of a GetStatus response (R179, section 10.8). -/
def State.statusBody (s : State) (now : Instant) : List Byte :=
  s.dtu.statusBytes ++ instantBytes now ++ signedBytes 1 s.time.utcOffset ++ s.time.pendingBytes ++
    s.auction.statusBytes ++ s.journal.statusBytes ++
    [s.laneModeBits, BitVec.ofNat 8 s.table.active, s.liveConditions.setWidth 8, s.linkBits]

/-- What GetStatus does (R179). The device time it reports is the 1 ns reading of the take (the model's choice, log entry 33: R2 does not name the Management
Agent). -/
def applyGetStatus (q : Take) (s : State) : Reply := .give s (s.statusBody q.now)

/-- GET_STATUS (R179). -/
def execGetStatus (sub : Sub) (s : State) : Result := .next (s.takeCommand .getStatus sub applyGetStatus)

/-! ### The journal (R165, R166) -/

/-- The response to a ReadJournal that returns some records (R166). -/
def Journal.readBody (j : Journal) (records : List JournalRecord) : List Byte :=
  beBytes 4 j.oldest.toNat ++ beBytes 4 j.newest.toNat ++ beBytes 2 j.free ++ beBytes 1 records.length ++
    (records.map JournalRecord.bytes).flatten

/-- What ReadJournal does (R166). -/
def applyReadJournal (q : Take) (s : State) : Reply :=
  match s.journal.readFrom (BitVec.ofNat 32 (fieldNat q.body 0 4)) (fieldNat q.body 4 1) with
  | some records => .give s (s.journal.readBody records)
  | none => .refuse s .invalid

/-- READ_JOURNAL (R166). -/
def execReadJournal (sub : Sub) (s : State) : Result := .next (s.takeCommand .readJournal sub applyReadJournal)

/-- What ReleaseJournal does (R165). -/
def applyReleaseJournal (q : Take) (s : State) : Reply :=
  let j := s.journal.release (BitVec.ofNat 32 (fieldNat q.body 0 4))
  .give (s.withJournal j) (beBytes 4 j.oldest.toNat ++ beBytes 2 j.free)

/-- RELEASE_JOURNAL (R165). -/
def execReleaseJournal (sub : Sub) (s : State) : Result := .next (s.takeCommand .releaseJournal sub applyReleaseJournal)

/-! ### The seed slot (R137) -/

/-- The four bytes of the value of a ReadSeed response: the seed in REVEALED, the check in its last two bytes in LOADED and COMMITTED, 0 in ABSENT. `high`
stands for the two bytes before the check, which section 10.8 leaves open (log entry 31). -/
def SeedSlot.readValue (slot : SeedSlot) (high : BitVec 16) : List Byte :=
  match slot with
  | .absent => beBytes 4 0
  | .loaded seed => beBytes 2 high.toNat ++ beBytes 2 (check (seedBytes seed)).toNat
  | .committed seed => beBytes 2 high.toNat ++ beBytes 2 (check (seedBytes seed)).toNat
  | .revealed seed => beBytes 4 seed.toNat

/-- What ReadSeed does (R137). -/
def applyReadSeed (q : Take) (s : State) : Reply :=
  .give s (SeedSlot.code s.auction.seed :: s.auction.seed.readValue (Config.seedValueHigh q.osc q.frame))

/-- READ_SEED (R137). -/
def execReadSeed (sub : Sub) (s : State) : Result := .next (s.takeCommand .readSeed sub applyReadSeed)

/-! ### A group record (R115) -/

/-- The c status, c, d and seed flag of a ReadGroup response: hidden in WINDOW, present in CLOSED, absent otherwise (R115). -/
def GroupRecord.closeBytes (r : GroupRecord) : List Byte :=
  match r.state, r.close, r.draw with
  | .closed, some c, some draw => [2] ++ instantBytes c ++ beBytes 3 draw.d ++ [Draw.flagByte draw]
  | .window, _, _ => [1] ++ List.replicate 14 0
  | _, _, _ => List.replicate 15 0

/-- The 56 bytes of a ReadGroup response (R115, section 10.8). -/
def GroupRecord.readBody (r : GroupRecord) (g : Group) (strobeSet : BitVec 4) : List Byte :=
  beBytes 1 g ++ [GroupState.code r.state] ++ instantBytes r.callStart ++ instantBytes r.windowStart ++ beBytes 4 r.window ++
    beBytes 4 r.extLength ++ beBytes 1 r.extLimit ++ beBytes 1 r.extUsed ++ [Policy.code r.policy] ++ beBytes 4 r.deferRestart ++
    [r.lanes.setWidth 8, strobeSet.setWidth 8] ++ beBytes 1 r.k ++ beBytes 1 r.deferrals ++ r.closeBytes

/-- What ReadGroup does (R115). -/
def applyReadGroup (q : Take) (s : State) : Reply :=
  match groupNamed (fieldNat q.body 0 1) with
  | some g => .give s ((s.group g).readBody g (s.signal.strobeSet g))
  | none => .refuse s .invalid

/-- READ_GROUP (R115). -/
def execReadGroup (sub : Sub) (s : State) : Result := .next (s.takeCommand .readGroup sub applyReadGroup)

/-! ### A match entry (R94) -/

/-- A slot of the Match Table. -/
def MatchTable.slot (t : MatchTable) (bank : Fin 2) (index : Fin 64) : MatchSlot := (t.banks[bank])[index]

/-- The seven fields of an entry, 13 bytes, as in WriteMatchEntry. -/
def MatchEntry.bytes (e : MatchEntry) : List Byte :=
  [flagByte e.valid] ++ beBytes 4 e.keyValue.toNat ++ beBytes 4 e.keyMask.toNat ++
    [e.kindValue, e.kindMask, groupByte e.group, Action.code e.action]

/-- The 20 bytes of a ReadMatchEntry response (R94). -/
def MatchTable.readBody (t : MatchTable) (bank : Fin 2) (index : Fin 64) : List Byte :=
  beBytes 1 bank ++ beBytes 1 index ++ (t.slot bank index).entry.bytes ++ beBytes 4 (t.slot bank index).hits.toNat ++
    [flagByte (t.active == bank)]

/-- What ReadMatchEntry does (R94). -/
def applyReadMatchEntry (q : Take) (s : State) : Reply :=
  match bankNamed (fieldNat q.body 0 1), indexNamed (fieldNat q.body 1 1) with
  | some bank, some index => .give s (s.table.readBody bank index)
  | _, _ => .refuse s .invalid

/-- READ_MATCH_ENTRY (R94). -/
def execReadMatchEntry (sub : Sub) (s : State) : Result := .next (s.takeCommand .readMatchEntry sub applyReadMatchEntry)

/-! ### Counters (R180) -/

/-- The ingress counters of a port, in the order of R180. -/
def IngressCounters.list (k : IngressCounters) : List Counter :=
  [k.received, k.aborted, k.runt, k.oversize, k.bad, k.management, k.macControl]

/-- The egress counters of a port, in the order of R180. -/
def EgressCounters.list (k : EgressCounters) : List Counter :=
  [k.drop, k.passing, k.marker, k.own, k.pauseSent, k.pauseDiscard, k.abort]

/-- The classification counters, in the order of R97. -/
def ClassCounters.list (k : ClassCounters) : List Counter :=
  [k.other, k.keyAbsent, k.matchedStamp, k.matchedNoGroup, k.matchedPass, k.defaultedDated, k.defaultedPassed]

/-- The marker counters, in the order of R149. -/
def MarkerCounters.list (k : MarkerCounters) : List Counter :=
  [k.requested, k.placed, k.withdrawn, k.lost]

/-- The 44 counters of a lane, in the order of R180. -/
def State.laneCounters (s : State) (l : LaneId) : List Counter :=
  let gateway := s.port (gatewayPort l)
  let engine := s.port (enginePort l)
  gateway.ingress.list ++ engine.ingress.list ++ gateway.egress.list ++ engine.egress.list ++
    [gateway.linkChanges, engine.linkChanges, (s.lane l).passForwarded] ++ (s.lane l).classes.list ++
    [(s.lane l).dated, (s.lane l).clamped] ++ (s.lane l).markers.list

/-- The 22 counters of a reference channel, in the order of R180. -/
def ChannelCounters.list (k : ChannelCounters) : List Counter :=
  [k.glitch, k.extra, k.accepted, k.early, k.late, k.framingError, k.parityError, k.overrun, k.skippedByte, k.lineAbort, k.gapAbort,
    k.settingsAbort, k.checkFailure, k.fieldFailure, k.validMessage, k.leapRefused, k.messageOverrun, k.stale, k.duplicate,
    k.unlabelledDelivery, k.withheld, k.labelJump]

/-- The five counters of a port in the agent, in the order of R180. -/
def AgentPort.list (a : AgentPort) : List Counter :=
  [a.intake, a.slotFull, a.noPermission, a.notRequest, a.responseDiscard]

/-- The 43 counters of the agent, in the order of R180. -/
def Agent.counters (a : Agent) : List Counter :=
  (a.ports.toList.map AgentPort.list).flatten ++ [a.malformed, a.unknown, a.denied]

/-- The counters that a selector names (R180). -/
def State.selectedCounters (s : State) (selector : Nat) : Option (List Counter) :=
  match laneNamed selector with
  | some l => some (s.laneCounters l)
  | none =>
    if selector = 4 then some s.chanA.counters.list
    else if selector = 5 then some s.chanB.counters.list
    else if selector = 6 then some s.agent.counters
    else none

/-- What ReadCounters does (R180). -/
def applyReadCounters (q : Take) (s : State) : Reply :=
  match s.selectedCounters (fieldNat q.body 0 1) with
  | some counters =>
    .give s (beBytes 1 (fieldNat q.body 0 1) ++ beBytes 1 counters.length ++
      (counters.map fun (k : Counter) => beBytes 4 k.toNat).flatten)
  | none => .refuse s .invalid

/-- READ_COUNTERS (R180). -/
def execReadCounters (sub : Sub) (s : State) : Result := .next (s.takeCommand .readCounters sub applyReadCounters)

end Sys2Proof.Machine
end

