-- ==== Sys2Proof/Machine/Reference.lean ====
section
/-! DEFINITION. The reference channels (Chapter 2): pulse capture, the acceptance window, the serial path, labelling; PULSE_EDGE to
MESSAGE_STALE. -/

namespace Sys2Proof.Machine

/-! ### Labelling and delivery (R32 to R35, R38, R128) -/

/-- A channel whose counters are changed. -/
def RefChannel.count (c : RefChannel) (f : ChannelCounters → ChannelCounters) : RefChannel :=
  { c with counters := f c.counters }

/-- The predicted label of an edge whose transition is at `risen`: the last delivered label plus the oscillator time between the two
transitions, to the nearest whole second, a half up (R34). Labels are seconds counts, taken modulo 2^48. -/
def Delivered.predict (d : Delivered) (risen : Nat) : Nat :=
  (d.label + (risen - d.risen + 500000000) / nsPerSecond) % secondsModulus

/-- A message completed at least 10 ms before an edge's rising transition (R32). -/
def QueuedMessage.early (risen : Nat) (m : QueuedMessage) : Bool :=
  decide (m.completion + 10000000 ≤ risen)

/-- What labelling makes of an accepted edge: the channel after it and the edge record delivered, if one is. -/
structure Labelled where
  channel : RefChannel
  record : Option EdgeRecord
deriving DecidableEq, Repr

/-- An accepted edge labelled by the newest message that completed in time; older such messages are duplicates (R32, R34). -/
def RefChannel.labelBy (c : RefChannel) (ch : Channel) (edge : FilterEdge) (m : QueuedMessage) : Labelled :=
  let jump := match c.delivered with
    | some d => decide (m.edgeSecond ≠ d.predict edge.risen)
    | none => false
  let older := (c.queue.filter (QueuedMessage.early edge.risen)).length - 1
  { channel :=
      { c with
        queue := c.queue.filter fun m => !QueuedMessage.early edge.risen m
        delivered := some { label := m.edgeSecond, risen := edge.risen, source := m.source }
        run := 0 }.count fun k =>
          { k with
            duplicate := k.duplicate + BitVec.ofNat 32 older
            labelJump := if jump then k.labelJump + 1 else k.labelJump }
    record := some
      { channel := ch, capture := edge.capture, label := m.edgeSecond, unlabelled := false, jump := jump, source := m.source,
        cable := c.settings.cable } }

/-- The longest run of unlabelled deliveries (R33). -/
def unlabelledRunLimit : Nat := 4

/-- An unlabelled accepted edge: delivered under the predicted label while a prediction is held and the run is below 4, and withheld
otherwise (R33). -/
def RefChannel.labelNone (c : RefChannel) (ch : Channel) (edge : FilterEdge) : Labelled :=
  match c.delivered with
  | some d =>
    if c.run < unlabelledRunLimit then
      { channel :=
          { c with
            delivered := some { label := d.predict edge.risen, risen := edge.risen, source := d.source }
            run := c.run + 1 }.count fun k => { k with unlabelledDelivery := k.unlabelledDelivery + 1 }
        record := some
          { channel := ch, capture := edge.capture, label := d.predict edge.risen, unlabelled := true, jump := false,
            source := d.source, cable := c.settings.cable } }
    else { channel := c.count fun k => { k with withheld := k.withheld + 1 }, record := none }
  | none => { channel := c.count fun k => { k with withheld := k.withheld + 1 }, record := none }

/-- An accepted edge looks at the pending-message queue (R32, R33). -/
def RefChannel.label (c : RefChannel) (ch : Channel) (edge : FilterEdge) : Labelled :=
  match (c.queue.filter (QueuedMessage.early edge.risen)).getLast? with
  | some m => c.labelBy ch edge m
  | none => c.labelNone ch edge

/-- A delivered edge record reaches the DTU (R35) at the reading `t` and the oscillator time `osc`: its effect, the resume of suspended groups where the
quality is then Traceable, Warning or Holdover (R128), and the records, those of the last change of state and of the resumes in the order named (R162). -/
def State.deliverEdge (s : State) (r : EdgeRecord) (t : Instant) (osc : Nat) (order : Order) : State :=
  let effect := s.dtu.takeRecord r t osc
  let changed := s.withEffect effect
  if Quality.fit changed.dtu.quality then
    let resumes := (changed.auction.resumePayloads t).map (changed.dtu.handed t)
    (changed.withAuction (changed.auction.resumeAll t)).handAll
      (effect.out.dropLast ++ inOrder order (effect.out.getLast?.toList ++ resumes))
  else changed.handAll effect.out

/-! ### The acceptance window (R21 to R23) -/

/-- The second of an edge's expected instant: the nearest (s, 0) plus cable compensation, the later where the capture lies halfway (R21). -/
def expectedSecond (capture : Instant) (cable : Nat) : Nat :=
  (toNs capture + 500000000 - cable) / nsPerSecond

/-- The expected instant of an edge, in ns from (0 s, 0 ns) (R21). -/
def expectedNs (capture : Instant) (cable : Nat) : Nat :=
  expectedSecond capture cable * nsPerSecond + cable

/-- The unit of the limits: 16 ns, or 4,096 ns with the range flag on (R22). -/
def ChannelSettings.limitUnit (c : ChannelSettings) : Nat :=
  if c.wideRange then 4096 else 16

/-- A window in force: the early and the late limit in ns. -/
structure Window where
  early : Nat
  late : Nat
deriving DecidableEq, Repr

/-- The window that applies in a DTU state: none in FREE and ACQUIRING, the configured one in TRACEABLE, and in HOLDOVER and UNTRACEABLE each limit
widened to D where D is larger (R23). -/
def ChannelSettings.window (c : ChannelSettings) (state : DState) (bound : Nat) : Option Window :=
  match state with
  | .free => none
  | .acquiring => none
  | .traceable => some { early := c.early * c.limitUnit, late := c.late * c.limitUnit }
  | .holdover => some { early := max (c.early * c.limitUnit) bound, late := max (c.late * c.limitUnit) bound }
  | .untraceable => some { early := max (c.early * c.limitUnit) bound, late := max (c.late * c.limitUnit) bound }

/-- The judgement of a qualified edge (R21, R23). -/
inductive EdgeVerdict where
  | extra
  | early
  | late
  | accepted
deriving DecidableEq, Repr

/-- Less than 500 ms of oscillator time since the last accepted edge's transition (R21). -/
def RefChannel.extraEdge (c : RefChannel) (risen : Nat) : Bool :=
  match c.lastAccepted with
  | some last => decide (risen < last + 500000000)
  | none => false

/-- A qualified edge is tested for an extra edge and then against the window (R21, R22, R23). -/
def RefChannel.judgeEdge (c : RefChannel) (edge : FilterEdge) (state : DState) (bound : Nat) : EdgeVerdict :=
  if c.extraEdge edge.risen then .extra
  else match c.settings.window state bound with
    | none => .accepted
    | some w =>
      if toNs edge.capture + w.early < expectedNs edge.capture c.settings.cable then .early
      else if expectedNs edge.capture c.settings.cable + w.late < toNs edge.capture then .late
      else .accepted

/-- A qualified edge, judged in the DTU state and D of the moment: rejected and counted, or accepted, labelled and delivered (R21, R23, R32). -/
def State.qualifyEdge (s : State) (ch : Channel) (edge : FilterEdge) (t : Instant) (osc : Nat) (order : Order) : State :=
  let c := s.chan ch
  match c.judgeEdge edge s.dtu.state s.dtu.bound with
  | .extra => s.withChan ch (c.count fun k => { k with extra := k.extra + 1 })
  | .early => s.withChan ch (c.count fun k => { k with early := k.early + 1 })
  | .late => s.withChan ch (c.count fun k => { k with late := k.late + 1 })
  | .accepted =>
    let accepted := { c with lastAccepted := some edge.risen }.count fun k => { k with accepted := k.accepted + 1 }
    let labelled := accepted.label ch edge
    match labelled.record with
    | some r => (s.withChan ch labelled.channel).deliverEdge r t osc order
    | none => s.withChan ch labelled.channel

/-! ### The pulse line (R20) -/

/-- A channel captures edges: the part runs, the channel is enabled, and no edge waits in its filter (R19, R20). -/
def State.captures (s : State) (ch : Channel) : Bool :=
  s.running && (s.chan ch).settings.enabled && (s.chan ch).filter.isNone

/-- PULSE_EDGE (R20): the edge is captured; it waits in the filter, or with a width of 0 is qualified at once. -/
def execPulseEdge (ch : Channel) (sub : Sub) (order : Order) (s : State) : Result :=
  .next <|
    if s.captures ch then
      let edge : FilterEdge := { capture := s.readingAt sub, risen := s.oscAt sub, width := (s.chan ch).settings.filterTicks }
      if edge.width = 0 then s.qualifyEdge ch edge (s.readingAt sub) (s.oscAt sub) order
      else s.withChan ch { s.chan ch with filter := some edge }
    else s

/-- The oscillator time at which the filter is satisfied: the width after the transition (R20). -/
def FilterEdge.satisfiedAt (edge : FilterEdge) : Nat := edge.risen + 8 * edge.width

/-- PULSE_GLITCH (R20): the line falls before the waiting edge's width is reached. From the moment it is reached the edge is qualified and no fall undoes it. -/
def execPulseGlitch (ch : Channel) (sub : Sub) (s : State) : Result :=
  .next <| match s.running, (s.chan ch).filter with
    | true, some edge =>
      if s.oscAt sub < edge.satisfiedAt then
        s.withChan ch ({ s.chan ch with filter := none }.count fun k => { k with glitch := k.glitch + 1 })
      else s
    | _, _ => s

/-- EDGE_QUALIFIED (R20, R23): the waiting edge's line has stayed high for the filter width. -/
def execEdgeQualified (ch : Channel) (sub : Sub) (order : Order) (s : State) : Result :=
  .next <| match s.running, (s.chan ch).filter with
    | true, some edge =>
      if edge.satisfiedAt ≤ s.oscAt sub then
        (s.withChan ch { s.chan ch with filter := none }).qualifyEdge ch edge (s.readingAt sub) (s.oscAt sub) order
      else s
    | _, _ => s

/-- PREDICTION_EXPIRY (R34): 16 s of oscillator time have passed since the last delivered edge. -/
def execPredictionExpiry (ch : Channel) (sub : Sub) (s : State) : Result :=
  .next <| match s.running, (s.chan ch).delivered with
    | true, some d =>
      if d.risen + 16000000000 ≤ s.oscAt sub then s.withChan ch { s.chan ch with delivered := none } else s
    | _, _ => s

/-! ### The serial line (R24 to R31) -/

/-- One bit period in ns of oscillator time: oversample × (divisor + 1) ticks (R24). -/
def ChannelSettings.bitPeriod (c : ChannelSettings) : Nat :=
  8 * ((if c.doubleSpeed then 8 else 16) * (c.divisor + 1))

/-- A character time in bit periods: start bit, eight data bits, the parity bit where configured, and the stop bits (R27). -/
def ChannelSettings.characterBits (c : ChannelSettings) : Nat :=
  9 + (if c.parity = .none then 0 else 1) + c.stopBits

/-- The gap timer's length: 20 character times (R27). -/
def ChannelSettings.gap (c : ChannelSettings) : Nat :=
  20 * c.characterBits * c.bitPeriod

/-- The ones in a byte and, where parity is configured, its parity bit. -/
def countOnes (data : Byte) (parityBit : Bool) : Nat :=
  ((List.range 8).filter fun i => data.getLsbD i).length + (if parityBit then 1 else 0)

/-- The parity error flag (R24). -/
def Parity.error (parity : Parity) (data : Byte) (parityBit : Bool) : Bool :=
  match parity with
  | .none => false
  | .even => countOnes data parityBit % 2 == 1
  | .odd => countOnes data parityBit % 2 == 0

/-- The character carries a flag (R26). -/
def Character.flagged (x : Character) : Bool :=
  x.framingError || x.parityError || x.overrun

/-- The sync byte (R26, R27). -/
def syncByte : Byte := 0xC3

/-- The assembler takes one character (R26, R27). -/
def RefChannel.takeCharacter (c : RefChannel) (x : Character) : RefChannel :=
  match c.assembler with
  | .hunting =>
    if x.flagged then c
    else if x.data = syncByte then { c with assembler := .assembling [] x.completed }
    else c.count fun k => { k with skippedByte := k.skippedByte + 1 }
  | .assembling bytes _ =>
    if x.flagged then { c with assembler := .hunting }.count fun k => { k with lineAbort := k.lineAbort + 1 }
    else if bytes.length + 1 = 14 then { c with assembler := .validating (bytes ++ [x.data]) x.completed }
    else { c with assembler := .assembling (bytes ++ [x.data]) x.completed }
  | .validating _ _ => c

/-- The assembler takes the waiting characters, front first, until none is left or a message is complete (R26). -/
def RefChannel.drain : List Character → RefChannel → RefChannel
  | [], c => { c with buffer := [] }
  | x :: rest, c =>
    match c.assembler with
    | .validating _ _ => { c with buffer := x :: rest }
    | _ => RefChannel.drain rest (c.takeCharacter x)

/-- The overrun flag is set on the character at the back of the buffer (R25). -/
def flagLast : List Character → List Character
  | [] => []
  | [x] => [{ x with overrun := true }]
  | x :: rest => x :: flagLast rest

/-- A completed character enters the two-character buffer, or is lost with the overrun flag set on the newer buffered one (R25). -/
def RefChannel.bufferCharacter (c : RefChannel) (x : Character) : RefChannel :=
  if c.buffer.length < 2 then { c with buffer := c.buffer ++ [x] }
  else { c with buffer := flagLast c.buffer }.count fun k => { k with overrun := k.overrun + 1 }

/-- A character as the receiver completes it, with its flags (R24). -/
def RefChannel.receive (c : RefChannel) (data : Byte) (parityBit stopBit : Bool) (completed : Nat) : Character :=
  { data := data, framingError := !stopBit, parityError := Parity.error c.settings.parity data parityBit, overrun := false,
    completed := completed }

/-- From the falling transition of a character's start bit to the sample of its first stop bit: half a bit period, then one for each of the eight data bits,
the parity bit where configured, and the stop bit (R24). -/
def ChannelSettings.receptionSpan (c : ChannelSettings) : Nat :=
  c.bitPeriod / 2 + (9 + (if c.parity = .none then 0 else 1)) * c.bitPeriod

/-- A character that completes at `completed` can have been in reception: its start bit began when the receiver looked for one, and after a framing error
later than that moment, since the line had to be high first (R24). A character that began before a flush or an enabling was abandoned (R19). -/
def RefChannel.receiving (c : RefChannel) (completed : Nat) : Bool :=
  match c.receiver with
  | .waitingForStart since => decide (since + c.settings.receptionSpan ≤ completed)
  | .waitingForHigh since => decide (since + c.settings.receptionSpan < completed)

/-- A completed character is counted, buffered, and taken by the assembler if it is ready; the receiver looks for the next start bit, after a framing error
once the line is high (R24, R25, R26). -/
def RefChannel.complete (c : RefChannel) (x : Character) : RefChannel :=
  let received :=
    { c with receiver := if x.framingError then .waitingForHigh x.completed else .waitingForStart x.completed }.count fun k =>
      { k with
        framingError := if x.framingError then k.framingError + 1 else k.framingError
        parityError := if x.parityError then k.parityError + 1 else k.parityError }
  let buffered := received.bufferCharacter x
  buffered.drain buffered.buffer

/-- CHARACTER_COMPLETE (R24): the sample of the first stop bit of the character in reception. -/
def execCharacterComplete (ch : Channel) (data : Byte) (parityBit stopBit : Bool) (sub : Sub) (s : State) : Result :=
  .next <|
    if s.running && (s.chan ch).settings.enabled && (s.chan ch).receiving (s.oscAt sub) then
      s.withChan ch ((s.chan ch).complete ((s.chan ch).receive data parityBit stopBit (s.oscAt sub)))
    else s

/-- The fields of a time message, from its bytes 1 to 14 (section 2.5). -/
structure TimeMessage where
  edgeSecond : Nat
  utcOffset : Int
  leapNotice : Nat
  secondsToLeap : Nat
  sourceState : Nat
  check : Nat
deriving DecidableEq, Repr

/-- The fields of a message whose bytes 1 to 14 are given. -/
def readMessage (bytes : List Byte) : TimeMessage :=
  { edgeSecond := fieldNat bytes 0 6
    utcOffset := fieldInt bytes 6 1
    leapNotice := fieldNat bytes 7 1
    secondsToLeap := fieldNat bytes 8 3
    sourceState := fieldNat bytes 11 1
    check := fieldNat bytes 12 2 }

/-- The source state of a code, if the code names one (R29). -/
def sourceOf : Nat → Option SourceState
  | 0 => some .locked
  | 1 => some .holdoverUpstream
  | 2 => some .unlocked
  | _ => none

/-- The offset-change schedule a valid message gives, if it gives one (R30). -/
def TimeMessage.leap (m : TimeMessage) (ch : Channel) : Option OffsetChange :=
  if m.leapNotice = 0 ∨ m.secondsToLeap = 0 then none
  else some
    { newOffset := if m.leapNotice = 1 then m.utcOffset + 1 else m.utcOffset - 1
      effective := { sec := (m.edgeSecond + m.secondsToLeap) % secondsModulus, ns := 0 }
      source := .reference ch }

/-- A valid message is offered to the pending-message queue (R31). -/
def RefChannel.offerMessage (c : RefChannel) (m : QueuedMessage) : RefChannel :=
  if c.queue.length < 2 then { c with queue := c.queue ++ [m] }
  else c.count fun k => { k with messageOverrun := k.messageOverrun + 1 }

/-- The assembler returns to hunting and takes the waiting characters (R26, R29). -/
def RefChannel.hunt (c : RefChannel) : RefChannel :=
  { c with assembler := .hunting }.drain c.buffer

/-- The schedule of a valid message is given to the Time Base, or refused and counted where its offset lies out of range (R30). -/
def State.scheduleLeap (s : State) (ch : Channel) (change : OffsetChange) (t : Instant) : State :=
  if offsetInRange change.newOffset then s.takeSchedule change t
  else s.withChan ch ((s.chan ch).count fun k => { k with leapRefused := k.leapRefused + 1 })

/-- A complete message is validated (R29, R30, R31). -/
def State.validateMessage (s : State) (ch : Channel) (bytes : List Byte) (completion : Nat) (t : Instant) : State :=
  let m := readMessage bytes
  if (check (bytes.take 12)).toNat ≠ m.check then
    s.withChan ch ((s.chan ch).count fun k => { k with checkFailure := k.checkFailure + 1 }).hunt
  else match sourceOf m.sourceState, decide (m.leapNotice ≤ 2) with
    | some source, true =>
      let valid := s.withChan ch ((s.chan ch).count fun k => { k with validMessage := k.validMessage + 1 })
      let scheduled := match m.leap ch with
        | some change => valid.scheduleLeap ch change t
        | none => valid
      scheduled.withChan ch
        ((scheduled.chan ch).offerMessage { edgeSecond := m.edgeSecond, source := source, completion := completion }).hunt
    | _, _ => s.withChan ch ((s.chan ch).count fun k => { k with fieldFailure := k.fieldFailure + 1 }).hunt

/-- MESSAGE_VALIDATION (R29). -/
def execMessageValidation (ch : Channel) (sub : Sub) (s : State) : Result :=
  .next <| match s.running, (s.chan ch).assembler with
    | true, .validating bytes completion => s.validateMessage ch bytes completion (s.readingAt sub)
    | _, _ => s

/-- GAP_TIMER_EXPIRY (R27). -/
def execGapTimerExpiry (ch : Channel) (sub : Sub) (s : State) : Result :=
  .next <| match s.running, (s.chan ch).assembler with
    | true, .assembling _ last =>
      if last + (s.chan ch).settings.gap ≤ s.oscAt sub then
        s.withChan ch ((s.chan ch).count fun k => { k with gapAbort := k.gapAbort + 1 }).hunt
      else s
    | _, _ => s

/-- MESSAGE_STALE (R31): the oldest queued message has been pending for more than 1,500 ms. -/
def execMessageStale (ch : Channel) (sub : Sub) (s : State) : Result :=
  .next <| match s.running, (s.chan ch).queue with
    | true, m :: rest =>
      if m.completion + 1500000000 < s.oscAt sub then
        s.withChan ch ({ s.chan ch with queue := rest }.count fun k => { k with stale := k.stale + 1 })
      else s
    | _, _ => s

end Sys2Proof.Machine
end

