-- ==== Sys2Proof/Machine/ManageSet.lean ====
section
/-! DEFINITION. The commands on settings (Chapter 10, class Configure, but those on the Auction Timer): SET_LANE_MODE, SET_LANE_PROFILE, WRITE_MATCH_ENTRY,
SWAP_BANK, SET_REFERENCE_CHANNEL, SET_PREFERRED_REFERENCE, SET_DISCIPLINE, END_ACQUISITION, STEP_TIME, SET_UTC_OFFSET, SET_OUTPUTS, SET_PERMISSIONS,
RESTART. -/

namespace Sys2Proof.Machine

/-! ### Lanes (R65, R83, R104) -/

/-- A lane that takes a mode, with its sequence number set to 0 and its dated-since-reset indication cleared where the flag asks for it (R65, R104). -/
def Lane.takeMode (l : Lane) (b : LaneModeBody) : Lane :=
  { l with
    mode := b.mode
    sequence := if b.resetSequence then 0 else l.sequence
    datedSince := if b.resetSequence then false else l.datedSince }

/-- What SetLaneMode does (R65, R104). -/
def applySetLaneMode (q : Take) (s : State) : Reply :=
  match laneModeBody q.body with
  | none => .refuse s .invalid
  | some b =>
    let set := s.withLane b.lane ((s.lane b.lane).takeMode b)
    if (s.lane b.lane).mode = b.mode ∧ b.resetSequence = false then .done set
    else .done (set.recordConfig q .setLaneMode (objectOf b.lane) [LaneMode.code b.mode, flagByte b.resetSequence])

/-- SET_LANE_MODE (R65). -/
def execSetLaneMode (sub : Sub) (s : State) : Result := .next (s.takeCommand .setLaneMode sub applySetLaneMode)

/-- The fields of a profile that a command changes, bits 0 to 7 in the order of section 10.8. -/
def LaneProfile.changed (old new : LaneProfile) : Byte :=
  (if old.orderEtherType = new.orderEtherType then 0 else 0x01) ||| (if old.keyOffset = new.keyOffset then 0 else 0x02) |||
  (if old.kindOffset = new.kindOffset then 0 else 0x04) ||| (if old.defaultAction = new.defaultAction then 0 else 0x08) |||
  (if old.latency = new.latency then 0 else 0x10) ||| (if old.markerAddress = new.markerAddress then 0 else 0x20) |||
  (if old.high = new.high then 0 else 0x40) ||| (if old.low = new.low then 0 else 0x80)

/-- A waiting request when the profile's latency becomes `latency` at the reading `now`: its marker point moves with it. A point that now lies ahead has not
been reached, also where it had been reached with a frame in reception: the request then waits for it anew and does not follow that frame (R3, R143, R146;
log entry 30). -/
def MarkerRequest.moved (latency : Nat) (now : Instant) (r : MarkerRequest) : MarkerRequest :=
  let passed := decide (AtOrAfter now (r.point latency))
  { r with reached := r.reached && passed, afterFrame := r.afterFrame && passed }

/-- A lane that takes a profile at the reading `now` (R83, R143). That a moved marker point is compared with this 1 ns reading, and not with the count at the last
tick, is the model's choice (log entry 33). -/
def Lane.takeProfile (l : Lane) (profile : LaneProfile) (now : Instant) : Lane :=
  { l with profile := profile, waiting := l.waiting.map (MarkerRequest.moved profile.latency now) }

/-- New watermarks are tested against both passing FIFOs of a lane (R75, R76). -/
def State.testWatermarks (s : State) (l : LaneId) (osc : Nat) : State :=
  (((s.testHigh (enginePort l) osc).testLow (enginePort l)).testHigh (gatewayPort l) osc).testLow (gatewayPort l)

/-- What SetLaneProfile does (R83, R84, R75). The watermarks are tested, and their pause frames offered, before the response is formed (the model's reading, log
entry 18). -/
def applySetLaneProfile (q : Take) (s : State) : Reply :=
  match laneProfileBody q.body with
  | none => .refuse s .invalid
  | some b =>
    let old := (s.lane b.lane).profile
    let set := (s.withLane b.lane ((s.lane b.lane).takeProfile b.profile q.now)).testWatermarks b.lane q.osc
    if old = b.profile then .done set
    else .done (set.recordConfig q .setLaneProfile (objectOf b.lane) [old.changed b.profile])

/-- SET_LANE_PROFILE (R83). -/
def execSetLaneProfile (sub : Sub) (s : State) : Result := .next (s.takeCommand .setLaneProfile sub applySetLaneProfile)

/-! ### The Match Table (R93, R95) -/

/-- An entry is written, its hit count set to 0 (R92, R93). -/
def MatchTable.write (t : MatchTable) (b : MatchEntryBody) : MatchTable :=
  { t with banks := t.banks.set b.bank ((t.banks[b.bank]).set b.index { entry := b.entry, hits := 0 }) }

/-- What WriteMatchEntry does (R93). -/
def applyWriteMatchEntry (q : Take) (s : State) : Reply :=
  match matchEntryBody q.body with
  | none => .refuse s .invalid
  | some b =>
    if b.bank = s.table.active then .refuse s .wrongState
    else
      let written := s.withTable (s.table.write b)
      if (s.table.slot b.bank b.index).entry = b.entry then .done written
      else .done (written.recordConfig q .writeMatchEntry (BitVec.ofNat 16 (b.bank.val * 256 + b.index.val)) [])

/-- WRITE_MATCH_ENTRY (R93). -/
def execWriteMatchEntry (sub : Sub) (s : State) : Result := .next (s.takeCommand .writeMatchEntry sub applyWriteMatchEntry)

/-- What SwapBank does (R95). -/
def applySwapBank (q : Take) (s : State) : Reply :=
  match bankNamed (fieldNat q.body 0 1) with
  | none => .refuse s .invalid
  | some bank =>
    if bank = s.table.active then .refuse s .wrongState
    else .done ((s.withTable { s.table with active := bank }).recordConfig q .swapBank noObject (beBytes 1 bank))

/-- SWAP_BANK (R95). -/
def execSwapBank (sub : Sub) (s : State) : Result := .next (s.takeCommand .swapBank sub applySwapBank)

/-! ### Reference channels (R18, R19) -/

/-- A serial setting differs: divisor, double-speed flag, parity or stop bits (R19). -/
def ChannelSettings.serialDiffers (a b : ChannelSettings) : Bool :=
  a.divisor != b.divisor || a.doubleSpeed != b.doubleSpeed || a.parity != b.parity || a.stopBits != b.stopBits

/-- A message is in assembly, or complete and not yet validated: that a flush counts the latter too is the model's reading (log entry 19). -/
def Assembler.busy : Assembler → Bool
  | .hunting => false
  | .assembling _ _ => true
  | .validating _ _ => true

/-- The channel flushes its serial path at the oscillator time `osc`: a character in reception, which began before it, is abandoned with the rest (R19). -/
def RefChannel.flush (c : RefChannel) (osc : Nat) : RefChannel :=
  { c with receiver := .waitingForStart osc, buffer := [], assembler := .hunting, queue := [] }.count fun k =>
    { k with settingsAbort := if c.assembler.busy then k.settingsAbort + 1 else k.settingsAbort }

/-- What disabling clears besides (R19). -/
def RefChannel.disable (c : RefChannel) : RefChannel :=
  { c with delivered := none, run := 0, filter := none }

/-- How a channel begins when it is enabled at the oscillator time `osc` (R19, R21, R33): its receiver waits for a start bit, and it has no last accepted
edge. -/
def RefChannel.enable (c : RefChannel) (osc : Nat) : RefChannel :=
  { c with
    receiver := .waitingForStart osc, assembler := .hunting, buffer := [], queue := [], delivered := none, run := 0, lastAccepted := none }

/-- A channel that takes settings at the oscillator time `osc` (R18, R19). -/
def RefChannel.takeSettings (c : RefChannel) (new : ChannelSettings) (osc : Nat) : RefChannel :=
  let set := { c with settings := new }
  match c.settings.enabled, new.enabled with
  | true, false => (set.flush osc).disable
  | false, true => set.enable osc
  | _, _ => if c.settings.serialDiffers new then set.flush osc else set

/-- What SetReferenceChannel does (R18, R19, R182). -/
def applySetReferenceChannel (q : Take) (s : State) : Reply :=
  match channelBody q.body with
  | none => .refuse s .invalid
  | some b =>
    let set := s.withChan b.channel ((s.chan b.channel).takeSettings b.settings q.osc)
    if (s.chan b.channel).settings = b.settings then .done set
    else .done (set.recordConfig q .setReferenceChannel (objectOf (Channel.code b.channel).toNat) [])

/-- SET_REFERENCE_CHANNEL (R18, R19). -/
def execSetReferenceChannel (sub : Sub) (s : State) : Result :=
  .next (s.takeCommand .setReferenceChannel sub applySetReferenceChannel)

/-! ### The DTU (R37, R44, R56, R183) -/

/-- What SetPreferredReference does (R56, R182). -/
def applySetPreferredReference (q : Take) (s : State) : Reply :=
  match channelNamed (fieldNat q.body 0 1) with
  | none => .refuse s .invalid
  | some ch =>
    .done ((s.withDtu { s.dtu with preferred := ch }).recordConfig q .setPreferredReference noObject [Channel.code ch])

/-- SET_PREFERRED_REFERENCE (R56). -/
def execSetPreferredReference (sub : Sub) (s : State) : Result :=
  .next (s.takeCommand .setPreferredReference sub applySetPreferredReference)

/-- What SetDiscipline does (R37, R182). -/
def applySetDiscipline (q : Take) (s : State) : Reply :=
  match disciplineBody q.body with
  | none => .refuse s .invalid
  | some settings =>
    let set := s.withDtu { s.dtu with settings := settings }
    if s.dtu.settings = settings then .done set else .done (set.recordConfig q .setDiscipline noObject [])

/-- SET_DISCIPLINE (R37). -/
def execSetDiscipline (sub : Sub) (s : State) : Result := .next (s.takeCommand .setDiscipline sub applySetDiscipline)

/-- What EndAcquisition does (R44). -/
def applyEndAcquisition (q : Take) (s : State) : Reply :=
  if s.dtu.state = .acquiring then .done (s.takeEffect (s.dtu.endAcquisition q.now)) else .refuse s .wrongState

/-- END_ACQUISITION (R44). -/
def execEndAcquisition (sub : Sub) (s : State) : Result := .next (s.takeCommand .endAcquisition sub applyEndAcquisition)

/-- The step of a StepTime is handed to the Time Base (R6, R183). -/
def State.requestStep (s : State) (amount : Int) : State :=
  s.withTime (s.time.takeStep { source := .command, amount := amount })

/-- What StepTime does (R44, R183). -/
def applyStepTime (q : Take) (s : State) : Reply :=
  if stepLimit < (fieldInt q.body 0 8).natAbs then .refuse s .invalid
  else .done ((s.requestStep (fieldInt q.body 0 8)).takeEffect (s.dtu.stepTime q.now))

/-- STEP_TIME (R183). -/
def execStepTime (sub : Sub) (s : State) : Result := .next (s.takeCommand .stepTime sub applyStepTime)

/-! ### The UTC offset (R11, R181) -/

/-- What SetUtcOffset does (R181): the ConfigChange record, then the schedule, whose OffsetChange record follows when the change is applied. -/
def applySetUtcOffset (q : Take) (s : State) : Reply :=
  match instantOf q.body 1 with
  | none => .refuse s .invalid
  | some effective =>
    let recorded := s.recordConfig q .setUtcOffset noObject (signedBytes 1 (fieldInt q.body 0 1) ++ beBytes 6 effective.sec)
    .done (recorded.takeSchedule { newOffset := fieldInt q.body 0 1, effective := effective, source := .command } q.now)

/-- SET_UTC_OFFSET (R181). -/
def execSetUtcOffset (sub : Sub) (s : State) : Result := .next (s.takeCommand .setUtcOffset sub applySetUtcOffset)

/-! ### Outputs (R182) -/

/-- The PPS output with new settings: a pulse in progress finishes with the width it began with (R15). -/
def Pps.takeSettings (pps : Pps) (b : OutputsBody) : Pps :=
  { pps with mode := b.mode, width := b.width, compensation := b.compensation }

/-- The Signal Block with new strobe sets and widths and a new mask; pulses in progress run on (R150, R191). -/
def SignalBlock.takeSettings (sb : SignalBlock) (b : OutputsBody) : SignalBlock :=
  { sb with
    alarmMask := b.mask
    strobes := Vector.ofFn fun line => { sb.strobes[line] with groups := (b.lines[line]).1, width := (b.lines[line]).2 } }

/-- What SetOutputs does (R182). -/
def applySetOutputs (q : Take) (s : State) : Reply :=
  match outputsBody q.body with
  | none => .refuse s .invalid
  | some b =>
    let pps := s.time.pps.takeSettings b
    let signal := s.signal.takeSettings b
    let set := (s.withTime { s.time with pps := pps }).withSignal signal
    if pps = s.time.pps ∧ signal = s.signal then .done set else .done (set.recordConfig q .setOutputs noObject [])

/-- SET_OUTPUTS (R182). -/
def execSetOutputs (sub : Sub) (s : State) : Result := .next (s.takeCommand .setOutputs sub applySetOutputs)

/-! ### Permissions and restart (R178, R185) -/

/-- The levels in force. -/
def Agent.levels (a : Agent) : Vector Level 8 := Vector.ofFn fun p => (a.ports[p]).level

/-- All eight levels are replaced at once (R178). -/
def Agent.withLevels (a : Agent) (levels : Vector Level 8) : Agent :=
  { a with ports := Vector.ofFn fun p => { a.ports[p] with level := levels[p] } }

/-- The codes of eight levels, G0 to G3 then E0 to E3. -/
def levelBytes (levels : Vector Level 8) : List Byte :=
  (List.finRange 8).map fun (p : Port) => BitVec.ofNat 8 (Level.code levels[p])

/-- What SetPermissions does (R178). -/
def applySetPermissions (q : Take) (s : State) : Reply :=
  match permissionsBody q.body with
  | none => .refuse s .invalid
  | some levels =>
    let set := s.withAgent (s.agent.withLevels levels)
    if s.agent.levels = levels then .done set else .done (set.recordConfig q .setPermissions noObject (levelBytes levels))

/-- SET_PERMISSIONS (R178). -/
def execSetPermissions (sub : Sub) (s : State) : Result := .next (s.takeCommand .setPermissions sub applySetPermissions)

/-- What Restart does (R185): a warm reset is ordered from this take on. -/
def applyRestart (q : Take) (s : State) : Reply :=
  .done (s.withAgent { s.agent with restart := some { takenAt := q.osc, answered := false } })

/-- RESTART (R185). -/
def execRestart (sub : Sub) (s : State) : Result := .next (s.takeCommand .restart sub applyRestart)

end Sys2Proof.Machine
end

