-- ==== Sys2Proof/Machine/Reset.lean ====
section
/-! DEFINITION. Power and resets (Chapter 11): POWER_ON_RESET, POWER_ON_RESET_RELEASE, WARM_RESET_ASSERT, WARM_RESET_RELEASE, RESTART_RESET_ASSERT,
RESTART_HOLD_END, POWER_LOSS. -/

namespace Sys2Proof.Machine

/-! ### Power (R188, R189, R140) -/

/-- The part without power, or with the power-on reset asserted: nothing of its state survives, the journal is empty and the outputs stand at their reset values. -/
def State.blank (s : State) (phase : Phase) : State :=
  { State.released s.signal.straps 0 (s.time.absences + 1) s.pending with phase := phase, journal := Journal.initial }

/-- POWER_ON_RESET (R188): power is applied (log entry 12). -/
def execPowerOnReset (s : State) : Result := .next (s.blank .powerOn)

/-- The moment of release of a power-on reset (R188): supplies in range, 1,024 ticks given, RESET high. -/
def State.readyForRelease (s : State) (suppliesInRange resetHigh : Bool) : Bool :=
  s.phase == .powerOn && suppliesInRange && resetHigh && decide (powerOnTicks ≤ s.osc)

/-- POWER_ON_RESET_RELEASE (R188). -/
def execPowerOnResetRelease (straps : Straps) (suppliesInRange resetHigh : Bool) (s : State) : Result :=
  .next <|
    if s.readyForRelease suppliesInRange resetHigh then State.released straps s.osc s.time.absences s.pending else s

/-- POWER_LOSS (R140, R189): power is lost. -/
def execPowerLoss (s : State) : Result := .next (s.blank .off)

/-! ### The assertion of a warm reset (R81, R141, R173, R189) -/

/-- The SeedReveal of a COMMITTED seed (R141). -/
def AuctionTimer.revealPayloads (a : AuctionTimer) : List Payload :=
  match a.seed with
  | .committed seed => [.seedReveal seed (check (seedBytes seed))]
  | _ => []

/-- The LaneOverflow records with the reset flag of the episodes open at the assertion (R81). -/
def State.overflowPayloads (s : State) : List Payload :=
  (List.finRange 8).filterMap fun (p : Port) =>
    (s.port p).episode.map fun e => Payload.laneOverflow (laneOf p) p true e.drops true

/-- The Auction Timer after the assertion: every group as R114 gives it, the slot ABSENT, the day number kept (R141). -/
def AuctionTimer.ended (a : AuctionTimer) : AuctionTimer :=
  { AuctionTimer.initial with day := a.day }

/-- A port whose frames in flight are abandoned and whose stores are emptied (R81). -/
def PortState.abandoned (p : PortState) : PortState :=
  { p with
    reception := none
    fifo := []
    own := []
    passedOver := 0
    sending := none
    receivedPause := none
    pauseTimer := none
    episode := none }

/-- A lane whose waiting requests are discarded (R142). -/
def Lane.asserted (l : Lane) : Lane := { l with waiting := [] }

/-- The Management Agent at the assertion: every slot emptied, no Restart pending (R173, R186). -/
def Agent.asserted (a : Agent) : Agent :=
  { a with ports := Vector.ofFn fun p => { a.ports[p] with slot := none }, restart := none }

/-- The Signal Block at the assertion: the default mask, every strobe line deasserted (R151, R191). -/
def SignalBlock.asserted (sb : SignalBlock) : SignalBlock :=
  { sb with
    alarmMask := defaultAlarmMask
    strobes := Vector.ofFn fun line => { sb.strobes[line] with pulseEnd := none } }

/-- The Time Base at the assertion: requests not yet applied are discarded, the PPS output returns to its reset values (R15, R16). -/
def TimeBase.asserted (tb : TimeBase) : TimeBase :=
  { tb with steps := [], pps := Pps.initial }

/-- A warm reset is asserted at the reading `t`; its records are appended in the order named (R189). -/
def State.assertWarm (s : State) (hold : Hold) (t : Instant) (order : Order) : State :=
  let recorded := s.handAll (inOrder order ((s.auction.revealPayloads ++ s.overflowPayloads).map (s.dtu.handed t)))
  { recorded with
    phase := .warm hold
    time := s.time.asserted
    lanes := Vector.ofFn fun l => Lane.asserted s.lanes[l]
    ports := Vector.ofFn fun p => PortState.abandoned s.ports[p]
    auction := s.auction.ended
    agent := s.agent.asserted
    signal := s.signal.asserted }

/-- The low level of RESET that asserts a warm reset, in ticks (R189). -/
def resetTicks : Nat := 16

/-- WARM_RESET_ASSERT (R189): a warm reset, or an extension of the one that is held (R185, R189); a shorter low level is ignored. -/
def execWarmResetAssert (lowTicks : Nat) (sub : Sub) (order : Order) (s : State) : Result :=
  .next <|
    if resetTicks ≤ lowTicks then
      match s.phase with
      | .running => s.assertWarm { byCommand := false, pinLow := true, commandEnd := none } (s.readingAt sub) order
      | .warm hold => s.withPhase (.warm { hold with pinLow := true })
      | .off => s
      | .powerOn => s
    else s

/-- 1,000 µs of oscillator time, in ns (R185). -/
def restartInterval : Nat := 1000000

/-- The assertion a Restart ordered is due: its response's transmission has ended, or 1,000 µs have passed since its take (R185). -/
def RestartOrder.due (r : RestartOrder) (osc : Nat) : Bool :=
  r.answered || decide (r.takenAt + restartInterval ≤ osc)

/-- RESTART_RESET_ASSERT (R185). -/
def execRestartResetAssert (sub : Sub) (order : Order) (s : State) : Result :=
  .next <| match s.running, s.agent.restart with
    | true, some r =>
      if r.due (s.oscAt sub) then
        s.assertWarm { byCommand := true, pinLow := false, commandEnd := some (s.oscAt sub + restartInterval) } (s.readingAt sub) order
      else s
    | _, _ => s

/-! ### The release of a warm reset (R61, R82, R113, R170, R187, R189) -/

/-- A lane at the release: its last stamp is kept (R82, R113). -/
def Lane.released (l : Lane) : Lane := { Lane.initial with lastStamp := l.lastStamp }

/-- A port at the release: its link state is kept (R77, R82). -/
def PortState.released (p : PortState) : PortState := { PortState.initial with link := p.link }

/-- The Time Base at the release: it takes r = f, the PPS output has its reset values (R16, R61). -/
def TimeBase.released (tb : TimeBase) (integral : Int) : TimeBase :=
  { tb.takeRate integral with pps := Pps.initial }

/-- The state at the release, at the oscillator time `osc`, but for its records, with the straps latched. -/
def State.warmState (s : State) (straps : Straps) (osc : Nat) : State :=
  { s with
    phase := .running
    time := s.time.released s.dtu.integral
    chanA := RefChannel.initial osc
    chanB := RefChannel.initial osc
    dtu := s.dtu.afterWarm straps.prefRef
    lanes := Vector.ofFn fun l => Lane.released s.lanes[l]
    ports := Vector.ofFn fun p => PortState.released s.ports[p]
    table := MatchTable.initial
    agent := Agent.initial straps.cfgPort
    signal := SignalBlock.initial straps }

/-- A warm reset is released at the reading `t` and the oscillator time `osc`: the Restart record first, then the DTU's records in the order named (R61, R162, R170). -/
def State.releaseWarm (s : State) (straps : Straps) (byCommand : Bool) (t : Instant) (osc : Nat) (order : Order) : State :=
  ((s.warmState straps osc).hand t (.restart byCommand straps (s.dtu.afterWarm straps.prefRef).state s.auction.day)).handAll
    (inOrder order (s.dtu.warmRecords straps.prefRef t))

/-- WARM_RESET_RELEASE (R189): RESET goes high; an ordered hold whose 1,000 µs have not ended goes on (R185). -/
def execWarmResetRelease (straps : Straps) (sub : Sub) (order : Order) (s : State) : Result :=
  .next <| match s.phase with
    | .warm hold =>
      if hold.pinLow = false then s
      else if hold.commandEnd = none then s.releaseWarm straps hold.byCommand (s.readingAt sub) (s.oscAt sub) order
      else s.withPhase (.warm { hold with pinLow := false })
    | _ => s

/-- The 1,000 µs of an ordered hold have passed (R185). -/
def Hold.over (hold : Hold) (osc : Nat) : Bool :=
  match hold.commandEnd with
  | some ends => decide (ends ≤ osc)
  | none => false

/-- RESTART_HOLD_END (R185): the release, or, while the RESET pin is low, the end of the ordered part of the hold. -/
def execRestartHoldEnd (straps : Straps) (sub : Sub) (order : Order) (s : State) : Result :=
  .next <| match s.phase with
    | .warm hold =>
      if hold.over (s.oscAt sub) = false then s
      else if hold.pinLow then s.withPhase (.warm { hold with commandEnd := none })
      else s.releaseWarm straps hold.byCommand (s.readingAt sub) (s.oscAt sub) order
    | _ => s

end Sys2Proof.Machine
end

