-- ==== Sys2Proof/Machine/Dispatch.lean ====
section
/-! DEFINITION. The meaning of each command: one arm per constructor of Instr, one direct call each. -/

namespace Sys2Proof.Machine

def exec (i : Instr) (s : State) : Host.Outcome State Fault Refusal :=
  match i with
  | .powerOnReset => Sys2Proof.Machine.execPowerOnReset s
  | .powerOnResetRelease straps suppliesInRange resetHigh => Sys2Proof.Machine.execPowerOnResetRelease straps suppliesInRange resetHigh s
  | .warmResetAssert lowTicks sub order => Sys2Proof.Machine.execWarmResetAssert lowTicks sub order s
  | .warmResetRelease straps sub order => Sys2Proof.Machine.execWarmResetRelease straps sub order s
  | .restartResetAssert sub order => Sys2Proof.Machine.execRestartResetAssert sub order s
  | .restartHoldEnd straps sub order => Sys2Proof.Machine.execRestartHoldEnd straps sub order s
  | .stepApplied => Sys2Proof.Machine.execStepApplied s
  | .secondEvent order => Sys2Proof.Machine.execSecondEvent order s
  | .offsetChange => Sys2Proof.Machine.execOffsetChange s
  | .pulsePointReached => Sys2Proof.Machine.execPulsePointReached s
  | .ppsPulseEnd => Sys2Proof.Machine.execPpsPulseEnd s
  | .pulseEdge ch sub order => Sys2Proof.Machine.execPulseEdge ch sub order s
  | .pulseGlitch ch sub => Sys2Proof.Machine.execPulseGlitch ch sub s
  | .edgeQualified ch sub order => Sys2Proof.Machine.execEdgeQualified ch sub order s
  | .predictionExpiry ch sub => Sys2Proof.Machine.execPredictionExpiry ch sub s
  | .characterComplete ch data parityBit stopBit sub => Sys2Proof.Machine.execCharacterComplete ch data parityBit stopBit sub s
  | .messageValidation ch sub => Sys2Proof.Machine.execMessageValidation ch sub s
  | .gapTimerExpiry ch sub => Sys2Proof.Machine.execGapTimerExpiry ch sub s
  | .messageStale ch sub => Sys2Proof.Machine.execMessageStale ch sub s
  | .frameStartDetected port sub order => Sys2Proof.Machine.execFrameStartDetected port sub order s
  | .etherTypeReceived port header => Sys2Proof.Machine.execEtherTypeReceived port header s
  | .oversizeDetected port more => Sys2Proof.Machine.execOversizeDetected port more s
  | .classificationPoint port more => Sys2Proof.Machine.execClassificationPoint port more s
  | .frameEnd port rest receiveError sub order => Sys2Proof.Machine.execFrameEnd port rest receiveError sub order s
  | .pauseRepeatTimer port sub => Sys2Proof.Machine.execPauseRepeatTimer port sub s
  | .receivedPauseExpiry port sub => Sys2Proof.Machine.execReceivedPauseExpiry port sub s
  | .itemStart port => Sys2Proof.Machine.execItemStart port s
  | .transmissionEnd port sub => Sys2Proof.Machine.execTransmissionEnd port sub s
  | .linkUp port sub => Sys2Proof.Machine.execLinkUp port sub s
  | .linkDown port sub order => Sys2Proof.Machine.execLinkDown port sub order s
  | .callStartReached group => Sys2Proof.Machine.execCallStartReached group s
  | .windowStartReached group sub => Sys2Proof.Machine.execWindowStartReached group sub s
  | .closeInstantReached group sub => Sys2Proof.Machine.execCloseInstantReached group sub s
  | .strobePulseEnd line => Sys2Proof.Machine.execStrobePulseEnd line s
  | .markerPointReached lane order => Sys2Proof.Machine.execMarkerPointReached lane order s
  | .managementFrameRejected sub => Sys2Proof.Machine.execManagementFrameRejected sub s
  | .getStatus sub => Sys2Proof.Machine.execGetStatus sub s
  | .readJournal sub => Sys2Proof.Machine.execReadJournal sub s
  | .readSeed sub => Sys2Proof.Machine.execReadSeed sub s
  | .readGroup sub => Sys2Proof.Machine.execReadGroup sub s
  | .readMatchEntry sub => Sys2Proof.Machine.execReadMatchEntry sub s
  | .readCounters sub => Sys2Proof.Machine.execReadCounters sub s
  | .extendCall sub => Sys2Proof.Machine.execExtendCall sub s
  | .releaseJournal sub => Sys2Proof.Machine.execReleaseJournal sub s
  | .setLaneMode sub => Sys2Proof.Machine.execSetLaneMode sub s
  | .setLaneProfile sub => Sys2Proof.Machine.execSetLaneProfile sub s
  | .writeMatchEntry sub => Sys2Proof.Machine.execWriteMatchEntry sub s
  | .swapBank sub => Sys2Proof.Machine.execSwapBank sub s
  | .loadSchedule sub order => Sys2Proof.Machine.execLoadSchedule sub order s
  | .clearSchedule sub => Sys2Proof.Machine.execClearSchedule sub s
  | .setDay sub => Sys2Proof.Machine.execSetDay sub s
  | .dayRoll sub => Sys2Proof.Machine.execDayRoll sub s
  | .loadSeed sub => Sys2Proof.Machine.execLoadSeed sub s
  | .commitSeed sub => Sys2Proof.Machine.execCommitSeed sub s
  | .setReferenceChannel sub => Sys2Proof.Machine.execSetReferenceChannel sub s
  | .setPreferredReference sub => Sys2Proof.Machine.execSetPreferredReference sub s
  | .setDiscipline sub => Sys2Proof.Machine.execSetDiscipline sub s
  | .endAcquisition sub => Sys2Proof.Machine.execEndAcquisition sub s
  | .stepTime sub => Sys2Proof.Machine.execStepTime sub s
  | .setUtcOffset sub => Sys2Proof.Machine.execSetUtcOffset sub s
  | .setOutputs sub => Sys2Proof.Machine.execSetOutputs sub s
  | .setPermissions sub => Sys2Proof.Machine.execSetPermissions sub s
  | .restart sub => Sys2Proof.Machine.execRestart sub s
  | .tick => Sys2Proof.Machine.execTick s
  | .powerLoss => Sys2Proof.Machine.execPowerLoss s

end Sys2Proof.Machine
end

