-- ==== Sys2Proof/Safety.lean ====
section
/-! DEFINITION. What holds of the part in every state it can reach, in the terms the statements use: the invariants of its blocks, the take of a command, and the
readings of a response. -/

namespace Sys2Proof.Machine

/-! ### The Trace Journal (R155, R156, R157, R158) -/

/-- The records carry consecutive sequences from `first` on (R155). -/
def consecutiveFrom (first : BitVec 32) : List JournalRecord → Bool
  | [] => true
  | r :: rest => r.sequence == first && consecutiveFrom (first + 1) rest

/-- Each record's chain check is computed from the one before it, and the last one is the chain value (R156). -/
def chainedTo (chain : BitVec 16) : List JournalRecord → Bool
  | [] => true
  | r :: rest =>
    (match rest with
      | [] => r.chain == chain
      | next :: _ => next.chain == checkFrom r.chain (recordHead next.sequence next.body)) &&
    chainedTo chain rest

/-- The journal retains at most 8,192 records of consecutive sequences ending at the newest, each chained to the one before it, and its shortage counts saturate. -/
def Journal.Sound (j : Journal) : Prop :=
  j.retained.length ≤ journalPlaces ∧ consecutiveFrom j.oldest j.retained = true ∧ chainedTo j.chain j.retained = true ∧
    j.omitted ≤ countLimit ∧ j.lost ≤ countLimit

/-! ### The Time Base (R1, R4, R10, R11) -/

/-- The greatest change of the addend from A0, for an applied rate of 3,200,000 fu (R4). -/
def addendSpan : Nat := 6871948

/-- The counts stay in their ranges, the addend within what an applied rate gives, the UTC offsets within −128 to 127. -/
def TimeBase.InRange (tb : TimeBase) : Prop :=
  tb.sec < secondsModulus ∧ tb.ns < nsPerSecond ∧ tb.frac < fracPerNs ∧
    nominalAddend ≤ tb.addend + addendSpan ∧ tb.addend ≤ nominalAddend + addendSpan ∧
    offsetInRange tb.utcOffset = true ∧
    ∀ change, tb.pendingOffset = some change → offsetInRange change.newOffset = true

/-- Device time with its fraction as one count of units of 2^−32 ns. -/
def TimeBase.units (tb : TimeBase) : Nat :=
  (tb.sec * nsPerSecond + tb.ns) * fracPerNs + tb.frac

/-- The count at which device time wraps through 0 (R1). -/
def unitsModulus : Nat := secondsModulus * nsPerSecond * fracPerNs

/-! ### Stores (R25, R31, R33, R70, R72, R74, R142) -/

/-- Nothing holds more than the manual lets it hold. -/
def State.WithinCapacity (s : State) : Prop :=
  (∀ p, fillOf (s.port p).fifo ≤ fifoBytes ∧ markersIn (s.port p).fifo ≤ markerPlaces ∧ (s.port p).own.length ≤ ownPlaces ∧
    (s.port p).passedOver ≤ passOverLimit) ∧
  (∀ l, (s.lane l).waiting.length ≤ markerPlaces) ∧
  (∀ ch, (s.chan ch).buffer.length ≤ 2 ∧ (s.chan ch).queue.length ≤ 2 ∧ (s.chan ch).run ≤ unlabelledRunLimit)

/-! ### Groups (R114) -/

/-- A group record holds values in their ranges, and a close instant and a draw result in WINDOW and CLOSED and in no other state (R114). -/
def GroupRecord.InRange (r : GroupRecord) : Prop :=
  r.window ≤ 600000 ∧ 1 ≤ r.extLength ∧ r.extLength ≤ 3600000 ∧ r.extLimit ≤ 7 ∧ r.extUsed ≤ r.extLimit ∧
    1 ≤ r.deferRestart ∧ r.deferRestart ≤ 600000 ∧ r.k ≤ 255 ∧ r.deferrals ≤ 255 ∧
    (r.close.isSome ↔ r.state = .window ∨ r.state = .closed) ∧ (r.draw.isSome ↔ r.state = .window ∨ r.state = .closed) ∧
    ∀ draw, r.draw = some draw → draw.d ≤ r.window

/-! ### Permissions (R178) -/

/-- Some port holds Configure. -/
def State.Configurable (s : State) : Prop :=
  ∃ p, (s.agentPort p).level = .configure

/-! ### Commands -/

/-- Power is applied, lost, or its reset released: the rows after which nothing of the state before survives. -/
def PowerRow (c : Instr) : Prop :=
  c = .powerOnReset ∨ (∃ straps supplies high, c = .powerOnResetRelease straps supplies high) ∨ c = .powerLoss

/-- The request that the agent takes next is `q`, and it is judged to be the command `c` (R174, R175). -/
def State.Takes (s : State) (sub : Sub) (q : Take) (c : Command) : Prop :=
  s.nextTake sub = some q ∧ q.judgement = .command c

/-- The own rule of each management command (section 10.5): what it makes of a take. -/
def Command.rule (order : Order) : Command → Take → State → Reply
  | .getStatus => applyGetStatus
  | .readJournal => applyReadJournal
  | .readSeed => applyReadSeed
  | .readGroup => applyReadGroup
  | .readMatchEntry => applyReadMatchEntry
  | .readCounters => applyReadCounters
  | .extendCall => applyExtendCall
  | .releaseJournal => applyReleaseJournal
  | .setLaneMode => applySetLaneMode
  | .setLaneProfile => applySetLaneProfile
  | .writeMatchEntry => applyWriteMatchEntry
  | .swapBank => applySwapBank
  | .loadSchedule => applyLoadSchedule order
  | .clearSchedule => applyClearSchedule
  | .setDay => applySetDay
  | .dayRoll => applyDayRoll
  | .loadSeed => applyLoadSeed
  | .commitSeed => applyCommitSeed
  | .setReferenceChannel => applySetReferenceChannel
  | .setPreferredReference => applySetPreferredReference
  | .setDiscipline => applySetDiscipline
  | .endAcquisition => applyEndAcquisition
  | .stepTime => applyStepTime
  | .setUtcOffset => applySetUtcOffset
  | .setOutputs => applySetOutputs
  | .setPermissions => applySetPermissions
  | .restart => applyRestart

/-- The row of a management command. -/
def Command.row (sub : Sub) (order : Order) : Command → Instr
  | .getStatus => .getStatus sub
  | .readJournal => .readJournal sub
  | .readSeed => .readSeed sub
  | .readGroup => .readGroup sub
  | .readMatchEntry => .readMatchEntry sub
  | .readCounters => .readCounters sub
  | .extendCall => .extendCall sub
  | .releaseJournal => .releaseJournal sub
  | .setLaneMode => .setLaneMode sub
  | .setLaneProfile => .setLaneProfile sub
  | .writeMatchEntry => .writeMatchEntry sub
  | .swapBank => .swapBank sub
  | .loadSchedule => .loadSchedule sub order
  | .clearSchedule => .clearSchedule sub
  | .setDay => .setDay sub
  | .dayRoll => .dayRoll sub
  | .loadSeed => .loadSeed sub
  | .commitSeed => .commitSeed sub
  | .setReferenceChannel => .setReferenceChannel sub
  | .setPreferredReference => .setPreferredReference sub
  | .setDiscipline => .setDiscipline sub
  | .endAcquisition => .endAcquisition sub
  | .stepTime => .stepTime sub
  | .setUtcOffset => .setUtcOffset sub
  | .setOutputs => .setOutputs sub
  | .setPermissions => .setPermissions sub
  | .restart => .restart sub

end Sys2Proof.Machine
end

