-- ==== Sys2Proof/Certificates/Slice0/Obligations.lean ====
section
/-! DEFINITION. The statements for the provers. `exec c s = .next t` says that the command completes; a next state written as `{ s with … }` says with it that
every part of the state not named there is unchanged (the frame). A management row takes the request that stands next (`State.Takes`, log entry 8), and a response carries
the FCS of log entry 5. -/

section

open Sys2Proof Sys2Proof.Machine

/-! ### The queue of commands -/

/-- A step takes the command at the front of the queue and runs it with the queue's rest; on an empty queue the part idles. The queue is the model's own
(log entry 2). -/
def Obligations.StepTakesTheFrontCommand : Prop :=
  (∀ (c : Instr) (rest : List Instr) (s : State), s.pending = c :: rest → step s = exec c { s with pending := rest }) ∧
  (∀ s : State, s.pending = [] → step s = .next s)

/-- Every command answers a next state in every state, and leaves the queue of waiting commands as it was (log entry 1). -/
def Obligations.EveryCommandAnswersAndKeepsTheQueue : Prop :=
  ∀ (c : Instr) (s : State), ∃ t : State, exec c s = .next t ∧ t.pending = s.pending

/-! ### Power and resets (Chapter 11) -/

/-- Applying power asserts the power-on reset, with every output at its reset value and ALARM asserted (R188); losing power empties the part (R140, R189). Either leaves every block, the reference channels, PPS,
DTU, lanes, stores, Match Table, groups, seed, journal, agent, alarm mask and strobes, as at a release but with an empty journal. What a block holds before the release, and that POWER_ON_RESET may come in any state, are the model's reading (log entry 12). -/
def Obligations.PowerRowsEmptyThePart : Prop :=
  ∀ s : State,
    (∃ t : State, exec .powerOnReset s = .next t ∧ t.phase = .powerOn ∧ t.osc = 0 ∧ t.ppsPin = false ∧ (∀ line, t.strobePin line = false) ∧
      (∀ p, (t.port p).sending = none ∧ (t.port p).link = false) ∧ t.dtu.state = .free ∧ t.alarmAsserted = true ∧
      t.journal.retained = []) ∧
    (∃ t : State, exec .powerLoss s = .next t ∧ t.phase = .off ∧ t.auction.seed = .absent ∧ t.auction.day = 0 ∧
      (∀ g, t.group g = GroupRecord.initial) ∧ t.journal.retained = []) ∧
    (∀ (c : Instr) (t : State), c = .powerOnReset ∨ c = .powerLoss → exec c s = .next t →
      t.osc = 0 ∧ t.time.now = { sec := 0, ns := 0 } ∧ t.time.frac = 0 ∧ t.time.addend = 34359738368 ∧ t.time.utcOffset = 0 ∧
      t.time.pendingOffset = none ∧ t.time.steps = [] ∧
      t.time.pps = { mode := .off, width := 100, compensation := 0, lastPulsed := none, due := none, pulseEnd := none } ∧
      (∀ ch, t.chan ch = RefChannel.initial 0) ∧ t.dtu = Dtu.initial s.signal.straps.prefRef ∧
      (∀ l, t.lane l = Lane.initial) ∧ (∀ p, t.port p = PortState.initial) ∧ t.table = MatchTable.initial ∧
      (∀ g, t.group g = GroupRecord.initial) ∧ t.auction.seed = .absent ∧ t.auction.day = 0 ∧ t.journal = Journal.initial ∧
      t.agent = Agent.initial s.signal.straps.cfgPort ∧ t.signal.straps = s.signal.straps ∧ t.signal.alarmMask = 0b1100001#7 ∧
      (∀ line : Line, t.signal.strobes[line] = { groups := 0, width := 100, pulseEnd := none }))

/-- The power-on reset is released once the supplies are in range, 1,024 ticks have come and RESET is high, and not before; at the release every block holds its power-on
values, spelled here for the Time Base, PPS, reference channels, DTU, lanes, ports and their stores, Match Table, groups, seed, agent, alarm mask and strobes, and the journal holds the Start record alone (R188, R169). Its instant, exactly (0 s, 0 ns), and D_entry are the model's choice (log entries 36 and 6). -/
def Obligations.PowerOnResetIsReleased : Prop :=
  ∀ (straps : Straps) (supplies high : Bool) (s : State), s.phase = .powerOn →
    ((supplies = false ∨ high = false ∨ s.osc < 1024) → exec (.powerOnResetRelease straps supplies high) s = .next s) ∧
    (1024 ≤ s.osc →
      ∃ t : State, exec (.powerOnResetRelease straps true true) s = .next t ∧ t.phase = .running ∧ t.signal.straps = straps ∧ t.osc = s.osc ∧
        t.time.sec = 0 ∧ t.time.ns = 0 ∧ t.time.frac = 0 ∧ t.time.addend = 34359738368 ∧ t.time.utcOffset = 0 ∧
        t.time.pendingOffset = none ∧ t.time.steps = [] ∧
        t.time.pps = { mode := .off, width := 100, compensation := 0, lastPulsed := none, due := none, pulseEnd := none } ∧
        (∀ ch, (t.chan ch).settings = ChannelSettings.default ∧ (t.chan ch).filter = none ∧ (t.chan ch).lastAccepted = none ∧
          (t.chan ch).receiver = .waitingForStart (8 * s.osc) ∧ (t.chan ch).buffer = [] ∧ (t.chan ch).assembler = .hunting ∧
          (t.chan ch).queue = [] ∧ (t.chan ch).delivered = none ∧ (t.chan ch).run = 0 ∧ (t.chan ch).counters = ChannelCounters.zero) ∧
        t.dtu = Dtu.initial straps.prefRef ∧ t.dtu.state = .free ∧ t.dtu.preferred = straps.prefRef ∧ t.dtu.bound = 4294967295 ∧
        t.dtu.active = none ∧ t.dtu.integral = 0 ∧ t.dtu.proportional = 0 ∧
        (∃ r, t.journal.retained = [r] ∧ r.sequence = 1 ∧ r.body = startRecord straps ∧
          r.chain = checkFrom 0xFFFF (recordHead 1 (startRecord straps))) ∧
        (∀ l, (t.lane l).mode = .pass ∧ (t.lane l).profile = LaneProfile.default ∧ (t.lane l).sequence = 0 ∧
          (t.lane l).lastStamp = { sec := 0, ns := 0 } ∧ (t.lane l).datedSince = false ∧ (t.lane l).waiting = []) ∧
        (∀ p, (t.port p).link = false ∧ (t.port p).reception = none ∧ (t.port p).fifo = [] ∧ (t.port p).own = [] ∧
          (t.port p).sending = none ∧ (t.port p).receivedPause = none ∧ (t.port p).pauseTimer = none ∧ (t.port p).episode = none) ∧
        t.table.active = 0 ∧ (∀ bank i, (t.table.slot bank i).entry.valid = false ∧ (t.table.slot bank i).hits = 0) ∧
        (∀ g, t.group g = GroupRecord.initial ∧ (t.group g).state = .idle) ∧ t.auction.seed = .absent ∧ t.auction.day = 0 ∧
        (∀ p, (t.agentPort p).level = (if p = straps.cfgPort then .configure else .none) ∧ (t.agentPort p).slot = none) ∧
        t.agent.restart = none ∧ t.agent.pointer = 0 ∧ t.signal.alarmMask = 0b1100001#7 ∧
        (∀ line : Line, t.signal.strobes[line] = { groups := 0, width := 100, pulseEnd := none }))

/-- A warm reset is asserted, by the RESET pin or by the agent after a Restart: frames in flight, stores, slots, groups and seed are given up, outputs are deasserted, the records of
the assertion are handed in some order, and device time and the DTU are kept (R16, R61, R81, R141, R173, R185, R189). -/
def Obligations.WarmResetIsAsserted : Prop :=
  ∀ (s : State) (sub : Sub) (order : Order) (c : Instr) (byCommand : Bool), s.phase = .running →
    ((∃ low, 16 ≤ low ∧ c = .warmResetAssert low sub order ∧ byCommand = false) ∨
      (∃ r, s.agent.restart = some r ∧ (r.answered = true ∨ r.takenAt + 1000000 ≤ s.oscAt sub) ∧
        c = .restartResetAssert sub order ∧ byCommand = true)) →
    ∃ t : State, exec c s = .next t ∧
      t.phase = .warm
        { byCommand := byCommand, pinLow := !byCommand, commandEnd := if byCommand then some (s.oscAt sub + 1000000) else none } ∧
      t.auction.seed = .absent ∧ t.auction.day = s.auction.day ∧ (∀ g, t.group g = GroupRecord.initial) ∧
      (∀ p, (t.agentPort p).slot = none ∧ (t.agentPort p).level = (s.agentPort p).level) ∧ t.agent.restart = none ∧
      (∀ p, (t.port p).fifo = [] ∧ (t.port p).own = [] ∧ (t.port p).reception = none ∧ (t.port p).sending = none ∧
        (t.port p).receivedPause = none ∧ (t.port p).pauseTimer = none ∧ (t.port p).episode = none ∧
        (t.port p).link = (s.port p).link) ∧
      (∀ l, (t.lane l).waiting = [] ∧ (t.lane l).lastStamp = (s.lane l).lastStamp) ∧
      t.ppsPin = false ∧ (∀ line, t.strobePin line = false) ∧ t.signal.alarmMask = 0b1100001#7 ∧
      t.time.steps = [] ∧ t.time.now = s.time.now ∧ t.time.frac = s.time.frac ∧ t.time.addend = s.time.addend ∧
      t.time.utcOffset = s.time.utcOffset ∧ t.time.pendingOffset = s.time.pendingOffset ∧
      t.dtu = s.dtu ∧ t.table = s.table ∧ t.osc = s.osc ∧
      ∃ hs : List Handed, hs.Perm ((s.auction.revealPayloads ++ s.overflowPayloads).map (s.dtu.handed (s.readingAt sub))) ∧
        t.journal = s.journal.takeAll hs

/-- A low level on RESET of fewer than 16 ticks does nothing; a longer one during a hold extends the same reset, which then lasts to the later of the pin's release and the end of an
ordered hold (R185, R189). -/
def Obligations.ResetPinHoldsTheReset : Prop :=
  ∀ (s : State) (sub : Sub) (order : Order) (straps : Straps) (low : Nat),
    (low < 16 → exec (.warmResetAssert low sub order) s = .next s) ∧
    (∀ hold, s.phase = .warm hold → 16 ≤ low →
      exec (.warmResetAssert low sub order) s = .next { s with phase := .warm { hold with pinLow := true } }) ∧
    (∀ hold ends, s.phase = .warm hold → hold.pinLow = true → hold.commandEnd = some ends →
      exec (.warmResetRelease straps sub order) s = .next { s with phase := .warm { hold with pinLow := false } } ∧
      (ends ≤ s.oscAt sub →
        exec (.restartHoldEnd straps sub order) s = .next { s with phase := .warm { hold with commandEnd := none } }))

/-- A warm reset is released, at the rise of RESET or at the end of an ordered hold: the straps are latched, the Restart record comes first, the lanes are in PASS with their last
stamps kept, and the DTU takes the state, D_entry, growth count and warning flag of its warm-reset table (R61, R82, R113, R170, R187). The quality in these records is the one after the reset (the model's reading, log entry 28).
While the reset is held, a second event grows D in HOLDOVER, with the warning flag and the move to UNTRACEABLE above L, or in UNTRACEABLE without a reference, and does nothing else in the DTU (R46, R48, R49, R61); that it counts as the previous second event is the model's choice (log entry 6). -/
def Obligations.WarmResetIsReleased : Prop :=
  (∀ (s : State) (hold : Hold) (straps : Straps) (sub : Sub) (order : Order) (c : Instr), s.phase = .warm hold →
    ((c = .warmResetRelease straps sub order ∧ hold.pinLow = true ∧ hold.commandEnd = none) ∨
      (c = .restartHoldEnd straps sub order ∧ hold.pinLow = false ∧ ∃ ends, hold.commandEnd = some ends ∧ ends ≤ s.oscAt sub)) →
    ∃ t : State, exec c s = .next t ∧ t.phase = .running ∧ t.signal.straps = straps ∧
      (∀ l, (t.lane l).mode = .pass ∧ (t.lane l).profile = LaneProfile.default ∧ (t.lane l).sequence = 0 ∧
        (t.lane l).datedSince = false ∧ (t.lane l).lastStamp = (s.lane l).lastStamp) ∧
      (∀ p, (t.port p).link = (s.port p).link ∧ (t.port p).fifo = [] ∧ (t.port p).own = []) ∧
      t.table = MatchTable.initial ∧ t.chanA = RefChannel.initial (s.oscAt sub) ∧ t.chanB = RefChannel.initial (s.oscAt sub) ∧
      (∀ p, (t.agentPort p).level = if p = straps.cfgPort then .configure else .none) ∧ t.auction = s.auction ∧
      t.time.now = s.time.now ∧ t.time.frac = s.time.frac ∧ t.time.addend = addendOf s.dtu.integral ∧
      t.dtu.integral = s.dtu.integral ∧ t.dtu.bound = s.dtu.bound ∧ t.dtu.lastTheta = s.dtu.lastTheta ∧ t.dtu.proportional = 0 ∧
      t.dtu.settings = DtuSettings.default ∧ t.dtu.active = none ∧ t.dtu.preferred = straps.prefRef ∧
      t.dtu.state =
        (match s.dtu.state with
          | .free => .free
          | .acquiring => .acquiring
          | .traceable => if 100000 < s.dtu.bound then .untraceable else .holdover
          | .holdover => if 100000 < s.dtu.bound then .untraceable else .holdover
          | .untraceable => .untraceable) ∧
      t.dtu.warning = (if t.dtu.state = .untraceable then false else s.dtu.warning) ∧
      (s.dtu.state = .free ∨ s.dtu.state = .acquiring ∨ (s.dtu.state = .holdover ∧ t.dtu.state = .holdover) →
        t.dtu.entryBound = s.dtu.entryBound ∧ t.dtu.growths = s.dtu.growths) ∧
      (s.dtu.state = .traceable ∨ s.dtu.state = .untraceable ∨ (s.dtu.state = .holdover ∧ t.dtu.state = .untraceable) →
        t.dtu.entryBound = s.dtu.bound ∧ t.dtu.growths = 0) ∧
      ∃ hs : List Handed,
        hs.Perm
          ((if t.dtu.state = s.dtu.state then []
            else [t.dtu.handed (s.readingAt sub) (.stateChange s.dtu.state t.dtu.state .warmReset s.dtu.bound none)]) ++
          (if s.dtu.active = none then []
            else [t.dtu.handed (s.readingAt sub) (.referenceSwitch s.dtu.active none .warmReset)])) ∧
        t.journal =
          (s.journal.take (t.dtu.handed (s.readingAt sub) (.restart hold.byCommand straps t.dtu.state s.auction.day))).takeAll hs) ∧
  (∀ (s : State) (hold : Hold) (order : Order) (now : Instant) (rest : List Instant), s.phase = .warm hold →
    s.time.secondEvents = now :: rest →
    let d := s.dtu
    let grown := min (d.entryBound + d.settings.growth * (d.growths + 1)) 4294967295
    let grows := { d with
      bound := grown, growths := d.growths + 1, lastSecond := now.sec
      minute := { d.minute with largestD := max d.minute.largestD grown } }
    ∃ t : State, exec (.secondEvent order) s = .next t ∧
      t = { s with time := { s.time with secondEvents := rest }, dtu := t.dtu, journal := t.journal } ∧
      (d.state = .holdover → grown ≤ d.settings.limit → t.journal = s.journal ∧
        t.dtu = { grows with
          warning :=
            if d.settings.warn < grown then true else if grown ≤ d.settings.warn - d.settings.warn / 8 then false else d.warning }) ∧
      (d.state = .holdover → d.settings.limit < grown →
        t.dtu = { grows with
          state := .untraceable, warning := false, qualifying := 0
          entryBound := if d.active = none then grown else d.entryBound, growths := if d.active = none then 0 else d.growths + 1 } ∧
        t.journal = s.journal.take (t.dtu.handed now (.stateChange .holdover .untraceable .holdoverLimit grown d.active))) ∧
      (d.state = .untraceable → d.active = none → t.dtu = grows ∧ t.journal = s.journal) ∧
      (d.state = .free ∨ d.state = .acquiring ∨ d.state = .traceable ∨ (d.state = .untraceable ∧ d.active ≠ none) →
        t.dtu = { d with lastSecond := now.sec } ∧ t.journal = s.journal))

/-! ### The Time Base (Chapter 1) -/

/-- At a tick of counting the addend is added to device time, counted in units of 2^−32 ns and wrapping at 2^48 s, and a second event is given when the seconds count
changes (R1, R3). A pulse point that device time reaches makes its second's pulse due unless it is the last-pulsed second (R13); a waiting marker request is reached when device time comes from before its point to it, and a point that lies ahead is not reached (R143). That a frame then no longer holds it is the model's choice (log entry 30). -/
def Obligations.TickAddsTheAddend : Prop :=
  ∀ s : State, s.counting = true → s.time.steps = [] → s.time.InRange →
    let second (i : Instant) : Nat := (toNs i + s.time.pps.compensation) / 1000000000
    ∃ t : State, exec .tick s = .next t ∧ t.time.units = (s.time.units + s.time.addend) % unitsModulus ∧ t.time.InRange ∧
      t.time.secondEvents = s.time.secondEvents ++ (if t.time.sec = s.time.sec then [] else [t.time.now]) ∧
      t.time.addend = s.time.addend ∧ t.time.utcOffset = s.time.utcOffset ∧ t.time.pendingOffset = s.time.pendingOffset ∧
      t.time.steps = [] ∧
      t.time.pps = { s.time.pps with
        due :=
          if second s.time.now < second t.time.now ∧ s.time.pps.lastPulsed ≠ some (second t.time.now) then some (second t.time.now)
          else s.time.pps.due } ∧
      t = { s with osc := s.osc + 1, time := t.time, lanes := t.lanes } ∧
      ∀ l, t.lane l = { s.lane l with
        waiting := (s.lane l).waiting.map fun r =>
          let point := addNs r.close (s.lane l).profile.latency
          { r with
            reached := decide (AtOrAfter t.time.now point ∧ (r.reached = true ∨ Before s.time.now point))
            afterFrame := decide (AtOrAfter t.time.now point ∧ r.afterFrame = true) } }

/-- A waiting step is applied at its tick: the addend first, then the amount, saturating at (0, 0); the last-pulsed second becomes none and no pulse becomes due, the DTU is told, a pending change of UTC offset is kept, a second event is given for a
new seconds count, and the Step record carries the requested and the applied amount (R3, R6, R7, R8, R9, R13). The model's readings: a TICK of a waiting step is the same step (log entry 10), a step that ends in the old second gives no second event (log entry 32), and a marker point put ahead again is waited for anew (log entry 30). -/
def Obligations.StepIsAppliedAtItsTick : Prop :=
  ∀ (s : State) (r : StepRequest) (rest : List StepRequest), s.counting = true → s.time.steps = r :: rest →
    exec .tick s = exec .stepApplied s ∧
    ∃ t : State, exec .stepApplied s = .next t ∧ t.time.steps = rest ∧ t.time.pps = { s.time.pps with lastPulsed := none } ∧
      t.time.addend = s.time.addend ∧ t.time.utcOffset = s.time.utcOffset ∧ t.time.pendingOffset = s.time.pendingOffset ∧
      t.time.secondEvents = s.time.secondEvents ++ (if t.time.sec = s.time.sec then [] else [t.time.now]) ∧
      t.time.stepSpan = some { before := s.time.now, after := t.time.now } ∧
      t = { s with
        osc := s.osc + 1, time := t.time, lanes := t.lanes, dtu := { s.dtu with steppedAt := some (8 * (s.osc + 1)) },
        journal := t.journal } ∧
      (∀ l, t.lane l = { s.lane l with
        waiting := (s.lane l).waiting.map fun r =>
          let point := addNs r.close (s.lane l).profile.latency
          { r with
            reached := decide (AtOrAfter t.time.now point ∧ (r.reached = true ∨ Before s.time.now point))
            afterFrame := decide (AtOrAfter t.time.now point ∧ r.afterFrame = true) } }) ∧
      let counted := s.time.device.advance s.time.addend
      let target : Int := toNs counted.instant + r.amount
      (target < 0 → t.time.now = { sec := 0, ns := 0 } ∧ t.time.frac = 0 ∧
        t.journal = s.journal.take (s.dtu.handed { sec := 0, ns := 0 } (.step r.source r.amount (-(toNs counted.instant : Int)) true))) ∧
      (0 ≤ target → (toNs t.time.now : Int) = target % (secondsModulus * nsPerSecond : Nat) ∧ t.time.frac = counted.frac ∧
        t.journal = s.journal.take (s.dtu.handed t.time.now (.step r.source r.amount r.amount false)))

/-- A pending change of UTC offset takes effect once device time has reached its instant, and not before, with its OffsetChange record (R12). -/
def Obligations.OffsetChangeTakesEffect : Prop :=
  ∀ (s : State) (change : OffsetChange), s.counting = true → s.time.pendingOffset = some change →
    (Before s.time.now change.effective → exec .offsetChange s = .next s) ∧
    (AtOrAfter s.time.now change.effective →
      exec .offsetChange s = .next
        { s with
          time := { s.time with utcOffset := change.newOffset, pendingOffset := none, absences := s.time.absences + 1 }
          journal := s.journal.take
            (s.dtu.handed ((s.time.reachedByStep change.effective).getD change.effective)
              (.offsetChange s.time.utcOffset change.newOffset change.effective change.source)) })

/-- A due pulse is driven by the mode and the quality, and holds the pin for its width in ticks; its second becomes the last-pulsed second whether or not it is driven (R13 to R15). -/
def Obligations.PulseIsDrivenForItsWidth : Prop :=
  (∀ (s : State) (second : Nat), s.phase = .running → s.time.pps.due = some second → s.time.pps.lastPulsed ≠ some second →
    exec .pulsePointReached s = .next
      { s with
        time := { s.time with
          pps := { s.time.pps with
            due := none
            lastPulsed := some second
            pulseEnd :=
              if s.time.pps.mode = .always ∨ (s.time.pps.mode = .traceableOnly ∧
                  (s.dtu.quality = .traceable ∨ s.dtu.quality = .warning ∨ s.dtu.quality = .holdover)) then
                some (s.osc + 125 * s.time.pps.width)
              else s.time.pps.pulseEnd } } }) ∧
  (∀ (s : State) (ends : Nat), s.time.pps.pulseEnd = some ends →
    (s.osc < ends → exec .ppsPulseEnd s = .next s) ∧
    (ends ≤ s.osc → exec .ppsPulseEnd s = .next { s with time := { s.time with pps := { s.time.pps with pulseEnd := none } } }))

/-! ### Reference channels (Chapter 2) -/

/-- A rising transition of an enabled channel with a filter width waits in its filter; a fall before the width drops it as a glitch, and one from the width on drops nothing; a disabled channel captures
nothing, and an edge is not qualified before its width (R19, R20). -/
def Obligations.PulseLineIsFiltered : Prop :=
  ∀ (s : State) (ch : Channel) (sub : Sub) (order : Order), s.phase = .running →
    ((s.chan ch).settings.enabled = false → exec (.pulseEdge ch sub order) s = .next s) ∧
    ((s.chan ch).settings.enabled = true → (s.chan ch).filter = none → (s.chan ch).settings.filterTicks ≠ 0 →
      exec (.pulseEdge ch sub order) s = .next
        (s.withChan ch { s.chan ch with
          filter := some { capture := s.readingAt sub, risen := s.oscAt sub, width := (s.chan ch).settings.filterTicks } })) ∧
    (∀ edge, (s.chan ch).filter = some edge → s.oscAt sub < edge.risen + 8 * edge.width →
      exec (.edgeQualified ch sub order) s = .next s ∧
      exec (.pulseGlitch ch sub) s = .next
        (s.withChan ch { s.chan ch with
          filter := none
          counters := { (s.chan ch).counters with glitch := (s.chan ch).counters.glitch + 1 } })) ∧
    (∀ edge, (s.chan ch).filter = some edge → edge.risen + 8 * edge.width ≤ s.oscAt sub → exec (.pulseGlitch ch sub) s = .next s)

/-- A qualified edge within 500 ms of the last accepted one is an extra edge; where a window applies, one outside it about its expected instant is rejected early or late. The window is the configured one in TRACEABLE; in HOLDOVER and UNTRACEABLE each limit
is the larger of its configured value and D. Each rejected edge is counted and changes nothing else (R21 to R23). -/
def Obligations.QualifiedEdgeIsRejected : Prop :=
  ∀ (s : State) (ch : Channel) (sub : Sub) (order : Order) (edge : FilterEdge), s.phase = .running →
    (s.chan ch).filter = some edge → edge.risen + 8 * edge.width ≤ s.oscAt sub →
    let c := s.chan ch
    let extra := ∃ last, c.lastAccepted = some last ∧ edge.risen < last + 500000000
    let expected := (toNs edge.capture + 500000000 - c.settings.cable) / 1000000000 * 1000000000 + c.settings.cable
    let unit := if c.settings.wideRange then 4096 else 16
    let limit (configured : Nat) : Nat := if s.dtu.state = .traceable then configured * unit else max (configured * unit) s.dtu.bound
    let windowed := s.dtu.state = .traceable ∨ s.dtu.state = .holdover ∨ s.dtu.state = .untraceable
    (extra → exec (.edgeQualified ch sub order) s = .next
      (s.withChan ch { c with filter := none, counters := { c.counters with extra := c.counters.extra + 1 } })) ∧
    (¬ extra → windowed → toNs edge.capture + limit c.settings.early < expected →
      exec (.edgeQualified ch sub order) s = .next
        (s.withChan ch { c with filter := none, counters := { c.counters with early := c.counters.early + 1 } })) ∧
    (¬ extra → windowed → expected ≤ toNs edge.capture + limit c.settings.early → expected + limit c.settings.late < toNs edge.capture →
      exec (.edgeQualified ch sub order) s = .next
        (s.withChan ch { c with filter := none, counters := { c.counters with late := c.counters.late + 1 } }))

/-- An edge accepted, where no window applies or inside the window that does, is labelled by the newest queued message that completed at least 10 ms before it, the older ones being duplicates and later ones staying queued, and flagged as a
jump where its label is not the predicted one; with no such message it is delivered under the predicted label or withheld. The record delivered goes to the DTU, whose records are handed in their order, and where the quality is then fit every suspended group resumes, its Resume record and the last of the DTU's in either order (R20, R23, R32 to R35, R50, R128, R162).
The predicted label is taken modulo 2^48 (the model's choice, log entry 26), and that an earlier record of the DTU stands first is its reading (log entry 29). -/
def Obligations.AcceptedEdgeIsLabelled : Prop :=
  ∀ (s : State) (ch : Channel) (sub : Sub) (order : Order) (edge : FilterEdge), s.phase = .running →
    (s.chan ch).filter = some edge → edge.risen + 8 * edge.width ≤ s.oscAt sub →
    (∀ last, (s.chan ch).lastAccepted = some last → last + 500000000 ≤ edge.risen) →
    let c := s.chan ch
    let expected := (toNs edge.capture + 500000000 - c.settings.cable) / 1000000000 * 1000000000 + c.settings.cable
    let unit := if c.settings.wideRange then 4096 else 16
    let limit (configured : Nat) : Nat := if s.dtu.state = .traceable then configured * unit else max (configured * unit) s.dtu.bound
    (s.dtu.state = .free ∨ s.dtu.state = .acquiring ∨
      (expected ≤ toNs edge.capture + limit c.settings.early ∧ toNs edge.capture ≤ expected + limit c.settings.late)) →
    let accepted := { c.counters with accepted := c.counters.accepted + 1 }
    let predicted (d : Delivered) : Nat := (d.label + (edge.risen - d.risen + 500000000) / 1000000000) % 281474976710656
    let early := c.queue.filter fun m => decide (m.completion + 10000000 ≤ edge.risen)
    let record (label : Nat) (unlabelled jump : Bool) (source : SourceState) : EdgeRecord :=
      { channel := ch, capture := edge.capture, label := label, unlabelled := unlabelled, jump := jump, source := source, cable := c.settings.cable }
    let delivers (c' : RefChannel) (r : EdgeRecord) : Prop :=
      let e := s.dtu.takeRecord r (s.readingAt sub) (s.oscAt sub)
      let fit := e.dtu.quality = .traceable ∨ e.dtu.quality = .warning ∨ e.dtu.quality = .holdover
      ∃ t : State, exec (.edgeQualified ch sub order) s = .next t ∧ t.chan ch = c' ∧ t.dtu = e.dtu ∧ t.time = s.time.takeEffect e ∧
        t = { s.withChan ch c' with time := t.time, dtu := t.dtu, auction := t.auction, journal := t.journal } ∧
        t.auction.seed = s.auction.seed ∧ t.auction.day = s.auction.day ∧
        (∀ g, fit → (s.group g).state = .suspended → t.group g = { s.group g with
          state := .call, windowStart := laterOf (s.group g).windowStart (addMs (s.readingAt sub) (s.group g).deferRestart)
          k := min ((s.group g).k + 1) 255, deferrals := min ((s.group g).deferrals + 1) 255 }) ∧
        (∀ g, ¬ fit ∨ (s.group g).state ≠ .suspended → t.group g = s.group g) ∧
        (¬ fit → t.journal = s.journal.takeAll e.out) ∧
        (fit →
          let resumed : List Handed := (List.finRange 16).filterMap fun (g : Group) =>
            if (s.group g).state = .suspended then
              some (e.dtu.handed (s.readingAt sub) (.resume g (t.group g).k (t.group g).deferrals (t.group g).windowStart))
            else none
          ∃ last : List Handed, last.Perm (e.out.getLast?.toList ++ resumed) ∧ t.journal = s.journal.takeAll (e.out.dropLast ++ last))
    (∀ m, early.getLast? = some m →
      let jump := match c.delivered with
        | some d => decide (m.edgeSecond ≠ predicted d)
        | none => false
      delivers
        { c with
          filter := none, lastAccepted := some edge.risen, run := 0
          queue := c.queue.filter fun m => !decide (m.completion + 10000000 ≤ edge.risen)
          delivered := some { label := m.edgeSecond, risen := edge.risen, source := m.source }
          counters := { accepted with
            duplicate := accepted.duplicate + BitVec.ofNat 32 (early.length - 1)
            labelJump := if jump then accepted.labelJump + 1 else accepted.labelJump } }
        (record m.edgeSecond false jump m.source)) ∧
    (∀ d, early = [] → c.delivered = some d → c.run < 4 →
      delivers
        { c with
          filter := none, lastAccepted := some edge.risen, run := c.run + 1
          counters := { accepted with unlabelledDelivery := accepted.unlabelledDelivery + 1 }
          delivered := some { label := predicted d, risen := edge.risen, source := d.source } }
        (record (predicted d) true false d.source)) ∧
    (early = [] → (c.delivered = none ∨ 4 ≤ c.run) →
      exec (.edgeQualified ch sub order) s = .next
        (s.withChan ch { c with
          filter := none, lastAccepted := some edge.risen, counters := { accepted with withheld := accepted.withheld + 1 } })) ∧
    (∀ u : State, u.phase = .running → (u.chan ch).settings.enabled = true → (u.chan ch).filter = none →
      (u.chan ch).settings.filterTicks = 0 →
      exec (.pulseEdge ch sub order) u = exec (.edgeQualified ch sub order)
        (u.withChan ch { u.chan ch with filter := some { capture := u.readingAt sub, risen := u.oscAt sub, width := 0 } }))

/-- The three time-outs of a channel in oscillator time: a prediction after 16 s, a queued message after 1,500 ms, a message in assembly after its gap (R27, R31, R34).
That the 16 s run from the rising transition of the last delivered edge, and that a timer has run at its limit, are the model's readings (log entry 15). -/
def Obligations.ChannelTimersExpire : Prop :=
  ∀ (s : State) (ch : Channel) (sub : Sub), s.phase = .running →
    let c := s.chan ch
    (∀ d, c.delivered = some d →
      (s.oscAt sub < d.risen + 16000000000 → exec (.predictionExpiry ch sub) s = .next s) ∧
      (d.risen + 16000000000 ≤ s.oscAt sub → exec (.predictionExpiry ch sub) s = .next (s.withChan ch { c with delivered := none }))) ∧
    (∀ m rest, c.queue = m :: rest →
      (s.oscAt sub ≤ m.completion + 1500000000 → exec (.messageStale ch sub) s = .next s) ∧
      (m.completion + 1500000000 < s.oscAt sub →
        exec (.messageStale ch sub) s = .next
          (s.withChan ch { c with queue := rest, counters := { c.counters with stale := c.counters.stale + 1 } }))) ∧
    (∀ bytes last, c.assembler = .assembling bytes last →
      let gap := 20 * (9 + (if c.settings.parity = .none then 0 else 1) + c.settings.stopBits) *
        (8 * ((if c.settings.doubleSpeed then 8 else 16) * (c.settings.divisor + 1)))
      (s.oscAt sub < last + gap → exec (.gapTimerExpiry ch sub) s = .next s) ∧
      (last + gap ≤ s.oscAt sub → c.buffer = [] →
        exec (.gapTimerExpiry ch sub) s = .next
          (s.withChan ch { c with
            assembler := .hunting, counters := { c.counters with gapAbort := c.counters.gapAbort + 1 } })))

/-- A character that completes goes through the buffer to the assembler, which hunts for the sync byte, extends its message, completes it at the fourteenth byte after the sync, or abandons it on a
flagged character; a character that completes at a full buffer is lost (R24 to R27). A completion is that of a character in reception only where its start bit, half a bit period and nine or ten bit periods earlier, began after the receiver came to look for one, and after a framing error later still; any other completes nothing (R19, R24). The sampled bits are the row's operands, and the start is told by the completion (the model's choice, log entry 24). -/
def Obligations.CharacterIsAssembled : Prop :=
  ∀ (s : State) (ch : Channel) (data : Byte) (parityBit : Bool) (sub : Sub), s.phase = .running →
    (s.chan ch).settings.enabled = true →
    let c := s.chan ch
    let bit := 8 * ((if c.settings.doubleSpeed then 8 else 16) * (c.settings.divisor + 1))
    let span := bit / 2 + (9 + (if c.settings.parity = .none then 0 else 1)) * bit
    let looking := (∃ since, c.receiver = .waitingForStart since ∧ since + span ≤ s.oscAt sub) ∨
      (∃ since, c.receiver = .waitingForHigh since ∧ since + span < s.oscAt sub)
    let ones := ((List.range 8).filter fun i => data.getLsbD i).length + (if parityBit then 1 else 0)
    let wrong := (c.settings.parity = .even ∧ ones % 2 = 1) ∨ (c.settings.parity = .odd ∧ ones % 2 = 0)
    let run (stopBit : Bool) := exec (.characterComplete ch data parityBit stopBit sub) s
    let ready : Receiver := .waitingForStart (s.oscAt sub)
    (∀ stopBit, ¬ looking → run stopBit = .next s) ∧
    (looking → c.buffer = [] → c.assembler = .hunting →
      (¬ wrong → data = 0xC3 → run true = .next
        (s.withChan ch { c with receiver := ready, assembler := .assembling [] (s.oscAt sub) })) ∧
      (¬ wrong → data ≠ 0xC3 → run true = .next
        (s.withChan ch { c with receiver := ready, counters := { c.counters with skippedByte := c.counters.skippedByte + 1 } })) ∧
      (wrong → run true = .next
        (s.withChan ch { c with receiver := ready, counters := { c.counters with parityError := c.counters.parityError + 1 } })) ∧
      (¬ wrong → run false = .next
        (s.withChan ch { c with
          receiver := .waitingForHigh (s.oscAt sub), counters := { c.counters with framingError := c.counters.framingError + 1 } }))) ∧
    (∀ bytes last, looking → c.buffer = [] → c.assembler = .assembling bytes last →
      (¬ wrong → bytes.length ≠ 13 → run true = .next
        (s.withChan ch { c with receiver := ready, assembler := .assembling (bytes ++ [data]) (s.oscAt sub) })) ∧
      (¬ wrong → bytes.length = 13 → run true = .next
        (s.withChan ch { c with receiver := ready, assembler := .validating (bytes ++ [data]) (s.oscAt sub) })) ∧
      (¬ wrong → run false = .next
        (s.withChan ch { c with
          receiver := .waitingForHigh (s.oscAt sub), assembler := .hunting
          counters := { c.counters with framingError := c.counters.framingError + 1, lineAbort := c.counters.lineAbort + 1 } }))) ∧
    (∀ x y bytes last, looking → c.buffer = [x, y] → c.assembler = .validating bytes last → ¬ wrong →
      run true = .next
        (s.withChan ch { c with
          receiver := ready, buffer := [x, { y with overrun := true }]
          counters := { c.counters with overrun := c.counters.overrun + 1 } }))

/-- A complete message that fails its check, or names no leap notice or source state, is discarded and counted; a valid one is queued, or discarded at a full queue. One with a leap notice and a non-zero count of seconds to the leap also schedules the change of
UTC offset at that second, or raises the leap-refused counter where the new offset lies outside −128 to 127; one whose count is 0 schedules nothing (R11, R12, R29, R30, R31). A schedule is compared with the 1 ns reading of the moment (log entry 33). -/
def Obligations.MessageIsValidated : Prop :=
  ∀ (s : State) (ch : Channel) (sub : Sub) (bytes : List Byte) (completion : Nat), s.phase = .running →
    (s.chan ch).assembler = .validating bytes completion → (s.chan ch).buffer = [] →
    let c := s.chan ch
    let correct := (check (bytes.take 12)).toNat = beNat (slice bytes 12 2)
    let notice := beNat (slice bytes 7 1)
    let toLeap := beNat (slice bytes 8 3)
    let run := exec (.messageValidation ch sub) s
    (¬ correct → run = .next
      (s.withChan ch { c with assembler := .hunting, counters := { c.counters with checkFailure := c.counters.checkFailure + 1 } })) ∧
    (correct → 2 < notice ∨ 2 < beNat (slice bytes 11 1) → run = .next
      (s.withChan ch { c with assembler := .hunting, counters := { c.counters with fieldFailure := c.counters.fieldFailure + 1 } })) ∧
    (∀ source, correct → notice ≤ 2 → sourceOf (beNat (slice bytes 11 1)) = some source →
      let valid := { c.counters with validMessage := c.counters.validMessage + 1 }
      let queued (u : State) (k : ChannelCounters) : Host.Outcome State Fault Refusal := .next (u.withChan ch
        (if c.queue.length < 2 then
          { c with
            assembler := .hunting
            queue := c.queue ++ [{ edgeSecond := beNat (slice bytes 0 6), source := source, completion := completion }]
            counters := k }
        else { c with assembler := .hunting, counters := { k with messageOverrun := k.messageOverrun + 1 } }))
      let offset := if notice = 1 then fieldInt bytes 6 1 + 1 else fieldInt bytes 6 1 - 1
      let effective : Instant := { sec := (beNat (slice bytes 0 6) + toLeap) % 281474976710656, ns := 0 }
      let scheduled := notice ≠ 0 ∧ toLeap ≠ 0
      let taken := -128 ≤ offset ∧ offset ≤ 127
      (¬ scheduled → run = queued s valid) ∧
      (scheduled → ¬ taken → run = queued s { valid with leapRefused := valid.leapRefused + 1 }) ∧
      (scheduled → taken → Before (s.readingAt sub) effective →
        run = queued { s with time := { s.time with
          pendingOffset := some { newOffset := offset, effective := effective, source := .reference ch } } } valid) ∧
      (scheduled → taken → AtOrAfter (s.readingAt sub) effective →
        run = queued
          { s with
            time := { s.time with utcOffset := offset, pendingOffset := none, absences := s.time.absences + 1 }
            journal := s.journal.take
              (s.dtu.handed (s.readingAt sub) (.offsetChange s.time.utcOffset offset effective (.reference ch))) } valid))

/-! ### The DTU (Chapter 3) -/

/-- What a delivered record does in the DTU. For the active reference, a Locked record without a jump and not within 10 ms of a step is an applied measurement of θ (in FREE only a labelled one): FREE moves to ACQUIRING; ACQUIRING, HOLDOVER and UNTRACEABLE run the loop and count towards Q,
at which the DTU is TRACEABLE with D = |θ| + U; ACQUIRING steps by −θ above the step threshold; TRACEABLE keeps the warning flag and counts persistence above L; any other record of it is rejected (R38 to R40, R42, R43, R45, R47 to R49, R50, R52, R58). A rate r handed to the Time Base gives the addend 34,359,738,368 plus r × 2^31 / 10^9 rounded, r clamped to ±3,200,000, and a step requested waits for its tick (R4 to R6). That 10 ms includes its limit and FREE's record carries the old D are the model's readings (log entries 15, 14). -/
def Obligations.MeasurementIsApplied : Prop :=
  (∀ r : Int, |((addendOf r : Int) - 34359738368) * 1000000000 - max (-3200000) (min 3200000 r) * 2147483648| * 2 < 1000000000) ∧
  (∀ (tb : TimeBase) (e : DtuEffect), tb.takeEffect e = { tb with
    addend := match e.rate with | some r => addendOf r | none => tb.addend
    steps := match e.step with | some amount => tb.steps ++ [{ source := .dtu, amount := amount }] | none => tb.steps }) ∧
  (∀ (d : Dtu) (r : EdgeRecord) (t : Instant) (osc : Nat),
    let e := d.takeRecord r t osc
    let afterStep := ∃ stepped, d.steppedAt = some stepped ∧ osc ≤ stepped + 10000000
    let theta := max (-500000000) (min 500000000 ((toNs r.capture : Int) - (r.label * 1000000000 : Nat) - r.cable))
    let clamp (limit x : Int) : Int := max (-limit) (min limit x)
    let bound := theta.natAbs + d.settings.uncertainty
    let counted (n : Nat) : Nat := if bound ≤ d.settings.limit then n + 1 else 0
    let loop (ki kp : Nat) : Prop :=
      let f := clamp 3200000 (d.integral - theta * 16 / 2 ^ ki)
      let p := clamp d.settings.sMax (-(theta * 16 / 2 ^ kp))
      e.dtu.integral = f ∧ e.dtu.proportional = p ∧ e.rate = some (clamp 3200000 (f + p)) ∧ e.step = none
    let qualified : Prop :=
      e.dtu.state = .traceable ∧ e.dtu.bound = bound ∧ e.dtu.persistent = 0 ∧ e.dtu.warning = decide (d.settings.warn < bound)
    let j := d.ref r.channel
    (e.dtu.ref r.channel =
        { j with
          edgeAge := if r.unlabelled = false ∧ r.jump = false then some 0 else j.edgeAge
          jumpAge := if r.jump then some 0 else j.jumpAge
          source := some r.source
          theta := (e.dtu.ref r.channel).theta, fresh := (e.dtu.ref r.channel).fresh } ∧
      (r.jump = true ∨ afterStep → (e.dtu.ref r.channel).theta = j.theta ∧ (e.dtu.ref r.channel).fresh = j.fresh) ∧
      (r.jump = false → ¬ afterStep → (e.dtu.ref r.channel).theta = some theta ∧ (e.dtu.ref r.channel).fresh = true) ∧
      e.dtu.ref (otherRef r.channel) = d.ref (otherRef r.channel)) ∧
    (d.active ≠ some r.channel → e.dtu = d.withRef r.channel (e.dtu.ref r.channel) ∧ e.out = [] ∧ e.rate = none ∧ e.step = none) ∧
    (d.active = some r.channel →
      ((r.source ≠ .locked ∨ r.jump = true ∨ afterStep) → d.state ≠ .free →
        e.dtu = { d.withRef r.channel (e.dtu.ref r.channel) with minute := { d.minute with rejected := min (d.minute.rejected + 1) 255 } } ∧
          e.out = [] ∧ e.rate = none ∧ e.step = none) ∧
      (d.state = .free → (r.source ≠ .locked ∨ r.jump = true ∨ afterStep ∨ r.unlabelled = true) →
        e.dtu = d.withRef r.channel (e.dtu.ref r.channel) ∧ e.out = [] ∧ e.rate = none ∧ e.step = none) ∧
      (r.source = .locked → r.jump = false → ¬ afterStep → (d.state = .free → r.unlabelled = false) →
        e.dtu.lastTheta = theta ∧ e.dtu.unlabelled = r.unlabelled ∧ e.dtu.sinceApplied = 0 ∧ e.dtu.active = d.active ∧
        e.dtu.settings = d.settings ∧ e.dtu.minute.accepted = min (d.minute.accepted + 1) 255 ∧
        e.dtu.minute.smallest = (if d.minute.accepted = 0 then theta else min d.minute.smallest theta) ∧
        e.dtu.minute.largest = (if d.minute.accepted = 0 then theta else max d.minute.largest theta) ∧
        (d.state = .free ∨ d.state = .acquiring →
          let start : List Payload := if d.state = .free then [.stateChange .free .acquiring .referenceEdge d.bound d.active] else []
          let n := if d.state = .free then 0 else d.qualifying
          (d.settings.stepThreshold < theta.natAbs →
            e.dtu.state = .acquiring ∧ e.dtu.integral = d.integral ∧ e.dtu.proportional = 0 ∧ e.dtu.qualifying = 0 ∧
              e.rate = some (clamp 3200000 d.integral) ∧ e.step = some (-theta) ∧ e.dtu.bound = bound ∧ e.out.map Handed.payload = start) ∧
          (theta.natAbs ≤ d.settings.stepThreshold →
            loop d.settings.acqKi d.settings.acqKp ∧ e.dtu.bound = bound ∧
              (d.settings.qualify ≤ counted n → qualified ∧
                e.out.map Handed.payload = start ++ [.stateChange .acquiring .traceable .qualified bound d.active]) ∧
              (counted n < d.settings.qualify → e.dtu.state = .acquiring ∧ e.dtu.qualifying = counted n ∧ e.out.map Handed.payload = start))) ∧
        (d.state = .traceable →
          let above := d.settings.limit < bound
          let n := if above then d.persistent + 1 else 0
          loop d.settings.trackKi d.settings.trackKp ∧ e.dtu.bound = bound ∧
            (above ∧ d.settings.persistence ≤ n →
              e.dtu.state = .untraceable ∧ e.dtu.warning = false ∧ e.dtu.qualifying = 0 ∧
                e.out.map Handed.payload = [.stateChange .traceable .untraceable .persistence bound d.active]) ∧
            (¬ (above ∧ d.settings.persistence ≤ n) →
              e.dtu.state = .traceable ∧ e.dtu.persistent = n ∧ e.out = [] ∧
                e.dtu.warning =
                  (if d.settings.warn < bound then true
                  else if bound ≤ d.settings.warn - d.settings.warn / 8 then false
                  else d.warning))) ∧
        (d.state = .holdover ∨ d.state = .untraceable →
          loop d.settings.trackKi d.settings.trackKp ∧
            (d.settings.qualify ≤ counted d.qualifying → qualified ∧
              e.out.map Handed.payload = [.stateChange d.state .traceable .qualified bound d.active]) ∧
            (counted d.qualifying < d.settings.qualify →
              e.dtu.state = d.state ∧ e.dtu.qualifying = counted d.qualifying ∧ e.out = [] ∧
                e.dtu.bound = (if d.state = .holdover then d.bound else bound))))))

/-- A second event is taken by the DTU: a MinuteSummary in a new minute; growth of D in HOLDOVER, above L to UNTRACEABLE, and in UNTRACEABLE without a reference; both references age and are judged; pairs of θ set or clear the disagreement flag; failover, revert, loss and selection of the active reference;
the rest rate (R41, R45 to R49, R52 to R59). After the MinuteSummary it hands, in this order, the StateChange record of the growth, the ReferenceDisagree record of the pair counts, the ReferenceSwitch record with its cause (at a loss in TRACEABLE with the StateChange record, in either order) and the ReferenceDisagree record of a disqualification (R50, R53, R57, R162). A MinuteSummary is omitted, appended, or appended after a Gap record by the free space and the shortage counts (R160, R161). That the loss of a reference has cause holdover also where UNTRACEABLE replaces HOLDOVER is the model's reading (log entry 16). That the event at hand counts among R41's two is the model's reading (log entry 15). -/
def Obligations.SecondEventIsTaken : Prop :=
  (∀ (s : State) (order : Order) (now : Instant) (rest : List Instant), s.phase = .running → s.time.secondEvents = now :: rest →
    let d := s.dtu
    ∃ (t : State) (flagged : Bool), exec (.secondEvent order) s = .next t ∧
      t = { s with time := { s.time with secondEvents := rest, addend := t.time.addend }, dtu := t.dtu, journal := t.journal } ∧
      t.dtu.lastSecond = now.sec ∧ t.dtu.settings = d.settings ∧ t.dtu.integral = d.integral ∧ t.dtu.preferred = d.preferred ∧
      t.dtu.lastTheta = d.lastTheta ∧ t.dtu.unlabelled = d.unlabelled ∧ t.dtu.steppedAt = d.steppedAt ∧
      t.dtu.sinceApplied = min (d.sinceApplied + 1) 2 ∧
      (∀ ch,
        let r := d.ref ch
        let m := d.settings.age
        let qualifies := (∃ n, r.edgeAge = some n ∧ min (n + 1) 255 ≤ m) ∧ r.source = some .locked ∧
          (∀ n, r.jumpAge = some n → m < min (n + 1) 255)
        (qualifies → (t.dtu.ref ch).run = r.run + 1) ∧ (¬ qualifies → (t.dtu.ref ch).run = 0) ∧
        t.dtu.ref ch =
          { edgeAge := r.edgeAge.map fun n => min (n + 1) 255, jumpAge := r.jumpAge.map fun n => min (n + 1) 255, source := r.source
            run := (t.dtu.ref ch).run, theta := r.theta, fresh := false }) ∧
      let fit (ch : Channel) : Prop := (t.dtu.ref ch).run ≠ 0
      let lost : Prop := ∃ ch, d.active = some ch ∧ ¬ fit ch ∧ (¬ fit (otherRef ch) ∨ flagged = true)
      -- the disagreement flag
      (∀ a b, fit .A → fit .B → d.refA.fresh = true → d.refB.fresh = true → d.refA.theta = some a → d.refB.theta = some b →
        let apart := d.settings.crossLimit < (a - b).natAbs
        let x := if apart then d.disagreeing + 1 else 0
        let y := if apart then 0 else d.agreeing + 1
        t.dtu.disagreeing = x ∧ t.dtu.agreeing = y ∧
          flagged = (if d.disagreement then !decide (d.settings.qualify ≤ y) else decide (d.settings.persistence ≤ x))) ∧
      (¬ fit .A ∨ ¬ fit .B ∨ d.refA.fresh = false ∨ d.refB.fresh = false → flagged = d.disagreement) ∧
      (fit .A → fit .B → d.refA.fresh = false ∨ d.refB.fresh = false →
        t.dtu.disagreeing = d.disagreeing ∧ t.dtu.agreeing = d.agreeing) ∧
      (fit .A → fit .B → t.dtu.disagreement = flagged) ∧
      (¬ fit .A ∨ ¬ fit .B → t.dtu.disagreement = false ∧ t.dtu.disagreeing = 0 ∧ t.dtu.agreeing = 0) ∧
      -- the active reference
      t.dtu.active =
        (match d.active with
          | some ch =>
            if fit ch then
              if ch ≠ d.preferred ∧ d.settings.revertDelay ≤ (t.dtu.ref d.preferred).run ∧ flagged = false then some d.preferred else some ch
            else if fit (otherRef ch) ∧ flagged = false then some (otherRef ch)
            else none
          | none =>
            if flagged = true then none
            else if fit d.preferred then some d.preferred
            else if fit (otherRef d.preferred) then some (otherRef d.preferred)
            else none) ∧
      -- the discipline state, D, its growth and the warning flag
      let grown := min (d.entryBound + d.settings.growth * (d.growths + 1)) 4294967295
      let exceeds : Prop := d.state = .holdover ∧ d.settings.limit < grown
      (d.state = .holdover → t.dtu.bound = grown ∧
        (¬ exceeds → t.dtu.state = .holdover ∧ t.dtu.entryBound = d.entryBound ∧ t.dtu.growths = d.growths + 1 ∧
          t.dtu.warning =
            (if d.settings.warn < grown then true else if grown ≤ d.settings.warn - d.settings.warn / 8 then false else d.warning)) ∧
        (exceeds → t.dtu.state = .untraceable ∧ t.dtu.warning = false ∧
          (d.active = none ∨ lost → t.dtu.entryBound = grown ∧ t.dtu.growths = 0) ∧
          (d.active ≠ none → ¬ lost → t.dtu.entryBound = d.entryBound ∧ t.dtu.growths = d.growths + 1))) ∧
      (d.state = .untraceable → t.dtu.state = .untraceable ∧ t.dtu.warning = d.warning ∧
        t.dtu.bound = (if d.active = none then grown else d.bound) ∧
        (d.active = none → t.dtu.entryBound = d.entryBound ∧ t.dtu.growths = d.growths + 1) ∧
        (lost → t.dtu.entryBound = d.bound ∧ t.dtu.growths = 0) ∧
        (d.active ≠ none → ¬ lost → t.dtu.entryBound = d.entryBound ∧ t.dtu.growths = d.growths)) ∧
      (d.state = .traceable → t.dtu.bound = d.bound ∧
        (¬ lost → t.dtu.state = .traceable ∧ t.dtu.warning = d.warning ∧ t.dtu.entryBound = d.entryBound ∧ t.dtu.growths = d.growths) ∧
        (lost → t.dtu.state = (if d.settings.limit < d.bound then .untraceable else .holdover) ∧
          t.dtu.warning = (if d.settings.limit < d.bound then false else d.warning) ∧ t.dtu.entryBound = d.bound ∧ t.dtu.growths = 0)) ∧
      (d.state = .free ∨ d.state = .acquiring → t.dtu.bound = d.bound ∧ t.dtu.state = d.state ∧ t.dtu.warning = d.warning ∧
        t.dtu.entryBound = d.entryBound ∧ t.dtu.growths = d.growths) ∧
      -- the qualifying and the persistence count
      t.dtu.persistent = (if t.dtu.active = d.active then d.persistent else 0) ∧
      (exceeds → t.dtu.qualifying = 0) ∧
      (¬ exceeds → t.dtu.active = d.active → t.dtu.qualifying = d.qualifying) ∧
      (¬ exceeds → t.dtu.active ≠ d.active →
        t.dtu.qualifying =
          (if d.state = .traceable ∧ d.active ≠ none ∧ t.dtu.active ≠ none then d.qualifying
          else if (d.state = .free ∨ d.state = .acquiring) ∧ t.dtu.active = none then d.qualifying
          else 0)) ∧
      -- the proportional term and the addend
      (lost → t.dtu.proportional = 0 ∧ t.time.addend = addendOf d.integral) ∧
      (¬ lost → 1 ≤ d.sinceApplied → t.dtu.proportional = 0 ∧
        t.time.addend = if d.proportional = 0 then s.time.addend else addendOf d.integral) ∧
      (¬ lost → d.sinceApplied = 0 → t.dtu.proportional = d.proportional ∧ t.time.addend = s.time.addend) ∧
      -- the records and the minute
      let grew : List Handed :=
        if d.state = .holdover ∧ d.settings.limit < grown then
          [t.dtu.handed now (.stateChange .holdover .untraceable .holdoverLimit grown d.active)]
        else []
      let paired : List Handed :=
        if flagged = d.disagreement then []
        else [(if d.state = .traceable then d else t.dtu).handed now (.referenceDisagree flagged false d.refA.theta d.refB.theta)]
      let switched (cause : SwitchCause) : Handed := t.dtu.handed now (.referenceSwitch d.active t.dtu.active cause)
      let ended : Handed := t.dtu.handed now (.stateChange .traceable t.dtu.state .referenceLost d.bound none)
      let switch : List Handed :=
        match d.active with
        | none => if t.dtu.active = none then [] else [switched .selection]
        | some ch =>
          if t.dtu.active = some ch then []
          else if fit ch then [switched .revert]
          else if t.dtu.active ≠ none then [switched .failover]
          else if d.state ≠ .traceable then [switched .loss]
          else if order.headD 0 % 2 = 0 then [switched .holdover, ended]
          else [ended, switched .holdover]
      let cleared : List Handed :=
        if flagged = true ∧ (¬ fit .A ∨ ¬ fit .B) then [t.dtu.handed now (.referenceDisagree false true d.refA.theta d.refB.theta)] else []
      let out := grew ++ paired ++ switch ++ cleared
      (now.sec / 60 ≠ d.lastSecond / 60 →
        t.journal = (s.journal.take (d.handed now (.minuteSummary d.minute d.state d.active))).takeAll out ∧
          t.dtu.minute = { smallest := 0, largest := 0, accepted := 0, rejected := 0, largestD := max d.bound t.dtu.bound }) ∧
      (now.sec / 60 = d.lastSecond / 60 → t.journal = s.journal.takeAll out ∧
        t.dtu.minute = { d.minute with largestD := t.dtu.minute.largestD })) ∧
  (∀ (j : Journal) (h : Handed) (minute : Minute) (state : DState) (active : Option Channel), h.payload = .minuteSummary minute state active →
    let shortage := j.omitted ≠ 0 ∨ j.lost ≠ 0
    let omitted := { j with
      omitted := min (j.omitted + 1) 4294967295, shortageStart := if shortage then j.shortageStart else j.next - 1 }
    (j.free < 64 → j.take h = omitted) ∧
    (64 ≤ j.free → ¬ shortage → j.take h = j.append h) ∧
    (64 ≤ j.free → j.free < 128 → shortage → j.take h = omitted) ∧
    (128 ≤ j.free → shortage →
      j.take h = Journal.append h
        { j.append { h with payload := .gap j.omitted j.lost j.shortageStart } with omitted := 0, lost := 0 }))

/-- The seven alarm conditions are live as their owners' states say, and ALARM is driven while one of them is marked in the mask (R190, R191). The published quality follows the table of R51. That ALARM is
not asserted without power is the model's reading (log entry 23). -/
def Obligations.AlarmShowsMarkedConditions : Prop :=
  ∀ s : State,
    (s.alarmAsserted = true ↔ s.phase ≠ .off ∧ ∃ i, s.liveConditions.getLsbD i = true ∧ s.signal.alarmMask.getLsbD i = true) ∧
    (s.liveConditions.getLsbD 0 = true ↔ s.dtu.state = .free ∨ s.dtu.state = .acquiring ∨ s.dtu.state = .untraceable) ∧
    (s.liveConditions.getLsbD 1 = true ↔ s.dtu.warning = true) ∧
    (s.liveConditions.getLsbD 2 = true ↔ s.dtu.state = .holdover) ∧
    (s.liveConditions.getLsbD 3 = true ↔ s.dtu.disagreement = true) ∧
    (s.liveConditions.getLsbD 4 = true ↔ s.journal.free < 64) ∧
    (s.liveConditions.getLsbD 5 = true ↔ s.journal.lost ≠ 0) ∧
    (s.liveConditions.getLsbD 6 = true ↔ ∃ p, (s.port p).episode.isSome = true) ∧
    s.dtu.quality =
      (match s.dtu.state with
        | .traceable => if s.dtu.warning then .warning else .traceable
        | .holdover => .holdover
        | .untraceable => .untraceable
        | .acquiring => .untraceable
        | .free => .unset)

/-! ### The frame path (Chapters 4 to 6) -/

/-- The start of a frame is detected on a port with link and no frame in reception: its detection record is taken; on a gateway-side port the waiting requests whose close instant its
compensated instant has reached leave the list, and the marker of a single one is put into the engine-side FIFO of a lane in STAMP with fewer than 16 markers, before the frame (R64, R78, R143, R144). A reading is the last tick's device time and the whole nanoseconds since, with the carry of R1 (R2), and with it stands the pending offset from its effective instant on, and the current one before (R10). -/
def Obligations.FrameStartIsDetected : Prop :=
  ∀ (s : State) (p : Port) (sub : Sub) (order : Order), s.phase = .running →
    s.readingAt sub =
      (if 1000000000 ≤ s.time.ns + sub.val then { sec := (s.time.sec + 1) % 281474976710656, ns := s.time.ns + sub.val - 1000000000 }
      else { sec := s.time.sec, ns := s.time.ns + sub.val }) ∧
    ((s.port p).link = false → exec (.frameStartDetected p sub order) s = .next s) ∧
    ((s.port p).link = true → (s.port p).reception = none →
      let lane := s.lane (laneOf p)
      let record : DetectionRecord :=
        { instant := s.readingAt sub
          utcOffset := match s.time.pendingOffset with
            | some change => if AtOrAfter (s.readingAt sub) change.effective then change.newOffset else s.time.utcOffset
            | none => s.time.utcOffset
          quality := match s.dtu.state with
            | .traceable => if s.dtu.warning then .warning else .traceable
            | .holdover => .holdover
            | .untraceable => .untraceable
            | .acquiring => .untraceable
            | .free => .unset
          unlabelled := s.dtu.unlabelled, mode := lane.mode, bank := s.table.active, profile := lane.profile }
      let begun := s.withPort p { s.port p with
        reception := some { detection := record, bytes := [], kind := none, lookup := none, oversize := false } }
      let compensated := lessNs (s.readingAt sub) lane.profile.latency
      let out := s.port (enginePort (laneOf p))
      (4 ≤ p.val → exec (.frameStartDetected p sub order) s = .next begun) ∧
      (p.val < 4 → ∃ t : State, exec (.frameStartDetected p sub order) s = .next t ∧ t = { s with lanes := t.lanes, ports := t.ports } ∧
        t.port p = begun.port p ∧
        (t.lane (laneOf p)).waiting = lane.waiting.filter fun r => decide (Before compensated r.close)) ∧
      (∀ r, p.val < 4 → lane.waiting = [r] → AtOrAfter compensated r.close → lane.mode = .stamp → markersIn out.fifo < 16 →
        exec (.frameStartDetected p sub order) s = .next
          ((begun.withLane (laneOf p) { lane with waiting := [], markers := { lane.markers with placed := lane.markers.placed + 1 } }).withPort
            (enginePort (laneOf p))
            { out with
              fifo := out.fifo ++ [.marker
                { group := r.group, close := r.close, k := r.k, quality := r.quality, address := lane.profile.markerAddress
                  lastSequence := if lane.datedSince then lane.sequence else 0xFFFFFFFF#32 }] })))

/-- A frame is recognised by its first fourteen bytes; a frame whose length passes 9,216 bytes is stored no further (R63, R67, R68, R85). The bytes are the rows' operands (the model's choice, log entry 9). -/
def Obligations.FrameIsRecognised : Prop :=
  ∀ (s : State) (p : Port) (f : Reception), s.phase = .running → (s.port p).reception = some f →
    (∀ header : List Byte, f.kind = none → header.length = 14 →
      let etherType := BitVec.ofNat 16 (fieldNat header 12 2)
      exec (.etherTypeReceived p header) s = .next
        (s.withPort p { s.port p with
          reception := some { f with
            bytes := header
            kind := some
              (if BitVec.ofNat 48 (fieldNat header 0 6) = s.signal.managementAddress ∧ etherType = 0x88B5#16 then .management
              else if etherType = 0x8808#16 then .macControl
              else if p.val < 4 ∧ f.detection.mode = .stamp then
                (if etherType = f.detection.profile.orderEtherType then .order else .other)
              else .plain) } })) ∧
    (∀ more : List Byte, f.kind ≠ none → 9216 < f.bytes.length + more.length →
      exec (.oversizeDetected p more) s = .next
        (s.withPort p { s.port p with reception := some { f with bytes := (f.bytes ++ more).take 9216, oversize := true } }))

/-- At its classification point an order frame's key and kind are looked up in the bank of its detection record: the valid entry of lowest index that matches under its masks, or none
(R86, R89, R90). -/
def Obligations.LowestMatchingEntryIsFound : Prop :=
  ∀ (s : State) (p : Port) (f : Reception) (more : List Byte), s.phase = .running → (s.port p).reception = some f →
    f.kind = some .order → f.lookup = none → f.oversize = false →
    f.bytes.length + more.length = 14 + max (f.detection.profile.keyOffset + 4) (f.detection.profile.kindOffset + 1) →
    let frame := f.bytes ++ more
    let key := BitVec.ofNat 32 (fieldNat frame (14 + f.detection.profile.keyOffset) 4)
    let kind : Byte := BitVec.ofNat 8 (fieldNat frame (14 + f.detection.profile.kindOffset) 1)
    let fits (i : Fin 64) : Prop :=
      let e := (s.table.slot f.detection.bank i).entry
      e.valid = true ∧ key &&& e.keyMask = e.keyValue &&& e.keyMask ∧ kind &&& e.kindMask = e.kindValue &&& e.kindMask
    ∃ found : Lookup, exec (.classificationPoint p more) s = .next
        (s.withPort p { s.port p with reception := some { f with bytes := frame, lookup := some found } }) ∧
      ((∀ i, ¬ fits i) → found = .defaulted) ∧
      (∀ i, fits i → (∀ j, j < i → ¬ fits j) →
        found = .matched i (s.table.slot f.detection.bank i).entry.action (s.table.slot f.detection.bank i).entry.group)

/-- An ordinary frame of the engine side, or of a lane in PASS, is forwarded unchanged into the passing FIFO of the lane's other port if it fits, and is dropped whole, opening or counting in an overflow
episode, if it does not; so is a frame with a wrong FCS or a receive error, whatever its lane's mode, with no dating and no classification (R63, R66, R69 to R71). A frame forwarded keeps its detection record (R64). A frame that leaves the fill above the high watermark asserts a clear pause state and offers a pause of 65,535 quanta to the feeder port (R76). The FCS is the one the model presumes (log entry 5). -/
def Obligations.OrdinaryFrameIsForwardedOrDropped : Prop :=
  (∀ (s : State) (p : Port) (f : Reception) (rest : List Byte) (sub : Sub) (order : Order), s.phase = .running →
    (s.port p).reception = some f → f.kind = some .plain → f.oversize = false → (p.val < 4 → f.detection.mode = .pass) →
    let frame := f.bytes ++ rest
    64 ≤ frame.length → frame.length ≤ 9216 → fcsCorrect frame = true →
    (∀ r ∈ (s.lane (laneOf p)).waiting, r.afterFrame = false) →
    ∃ t : State, exec (.frameEnd p rest false sub order) s = .next t ∧ (t.port p).reception = none ∧
      (t.port p).ingress = { (s.port p).ingress with received := (s.port p).ingress.received + 1 } ∧
      t = { s with lanes := t.lanes, ports := t.ports, journal := t.journal } ∧
      t.lane (laneOf p) = { s.lane (laneOf p) with
        passForwarded := if p.val < 4 then (s.lane (laneOf p)).passForwarded + 1 else (s.lane (laneOf p)).passForwarded } ∧
      (fillOf (s.port (mate p)).fifo + frame.length ≤ 32768 →
        (t.port (mate p)).fifo = (s.port (mate p)).fifo ++ [.frame frame f.detection] ∧ t.journal = s.journal) ∧
      (32768 < fillOf (s.port (mate p)).fifo + frame.length →
        (t.port (mate p)).fifo = (s.port (mate p)).fifo ∧ (t.port (mate p)).egress.drop = (s.port (mate p)).egress.drop + 1 ∧
        ((s.port (mate p)).episode = none →
          (t.port (mate p)).episode = some
            { drops := 1, openedBelow := decide (fillOf (s.port (mate p)).fifo < (s.lane (laneOf p)).profile.low) } ∧
          t.journal = s.journal.take (s.dtu.handed (s.readingAt sub) (.laneOverflow (laneOf p) (mate p) false 1 false))) ∧
        (∀ e, (s.port (mate p)).episode = some e →
          (t.port (mate p)).episode = some { e with drops := min (e.drops + 1) 4294967295 } ∧ t.journal = s.journal)) ∧
      t = (({ s with lanes := t.lanes } : State).withPort p { s.port p with
        reception := none, ingress := (t.port p).ingress }).offerFrame (mate p) frame f.detection (s.readingAt sub) (s.oscAt sub)) ∧
  (∀ (s : State) (p : Port) (f : Reception) (rest : List Byte) (bad : Bool) (sub : Sub) (order : Order), s.phase = .running →
    (s.port p).reception = some f → f.kind ≠ some .management → f.kind ≠ some .macControl → f.oversize = false →
    let frame := f.bytes ++ rest
    f.complete frame = true → 64 ≤ frame.length → frame.length ≤ 9216 → (fcsCorrect frame = false ∨ bad = true) →
    (∀ r ∈ (s.lane (laneOf p)).waiting, r.afterFrame = false) →
    exec (.frameEnd p rest bad sub order) s = .next
      ((s.withPort p { s.port p with
        reception := none
        ingress := { (s.port p).ingress with received := (s.port p).ingress.received + 1, bad := (s.port p).ingress.bad + 1 } }).offerFrame
        (mate p) frame f.detection (s.readingAt sub) (s.oscAt sub))) ∧
  (∀ (v : State) (p : Port) (bytes : List Byte) (detection : DetectionRecord) (t : Instant) (osc : Nat),
    let x := v.port p
    let above := (v.lane (laneOf p)).profile.high < fillOf x.fifo + bytes.length ∧ x.pauseTimer = none
    (fillOf x.fifo + bytes.length ≤ 32768 →
      (¬ above → v.offerFrame p bytes detection t osc = v.withPort p { x with fifo := x.fifo ++ [.frame bytes detection] }) ∧
      (above → v.offerFrame p bytes detection t osc =
        (v.withPort p { x with fifo := x.fifo ++ [.frame bytes detection], pauseTimer := some osc }).withPort (mate p)
          ((v.port (mate p)).offerPause 65535))) ∧
    (32768 < fillOf x.fifo + bytes.length →
      (x.episode = none → v.offerFrame p bytes detection t osc =
        { v.withPort p { x with
            egress := { x.egress with drop := x.egress.drop + 1 }
            episode := some { drops := 1, openedBelow := decide (fillOf x.fifo < (v.lane (laneOf p)).profile.low) } } with
          journal := v.journal.take (v.dtu.handed t (.laneOverflow (laneOf p) p false 1 false)) }) ∧
      (∀ e, x.episode = some e → v.offerFrame p bytes detection t osc =
        v.withPort p { x with
          egress := { x.egress with drop := x.egress.drop + 1 }, episode := some { e with drops := min (e.drops + 1) 4294967295 } })))

/-- An order frame whose entry says STAMP is dated at its end: stamp by the floor over the lane's last stamp, the next sequence number, the entry's group and index, the values of its detection record, and
the trailer before a new FCS; so, without a group, are one matched STAMP_NO_GROUP, one whose key is absent, and one defaulted under STAMP_NO_GROUP, while a frame of another EtherType, one matched PASS and one defaulted under PASS pass unchanged. Each raises one classification counter, a match its entry's hit count, and each is offered to the
engine-side FIFO, which may be full (R66, R85, R87, R91, R92, R97, R99 to R104, R107, R108, R110, R112). The phase follows the five rows of R105. The FCS is presumed (log entry 5); a floor at 2^48 s is not wrapped (log entry 26). -/
def Obligations.OrderFrameIsDated : Prop :=
  (∀ (s : State) (p : Port) (f : Reception) (rest : List Byte) (sub : Sub) (order : Order) (i : Fin 64) (g : Option Group),
    s.phase = .running → p.val < 4 → (s.port p).reception = some f → f.kind = some .order → f.oversize = false →
    f.detection.mode = .stamp → f.lookup = some (.matched i .stamp g) →
    let frame := f.bytes ++ rest
    let lane := s.lane (laneOf p)
    let raw := lessNs f.detection.instant f.detection.profile.latency
    64 ≤ frame.length → frame.length ≤ 9216 → fcsCorrect frame = true →
    18 + max (f.detection.profile.keyOffset + 4) (f.detection.profile.kindOffset + 1) ≤ frame.length →
    (∀ r ∈ lane.waiting, r.afterFrame = false) → fillOf (s.port (mate p)).fifo + frame.length + 24 ≤ 32768 →
    ∃ (t : State) (trailer : Trailer), exec (.frameEnd p rest false sub order) s = .next t ∧
      trailer.stamp = (if Before lane.lastStamp raw then raw else addNs lane.lastStamp 1) ∧
      (trailer.clamped = true ↔ ¬ Before lane.lastStamp raw) ∧ Before lane.lastStamp trailer.stamp ∧
      trailer.sequence = lane.sequence + 1 ∧ trailer.group = g ∧ trailer.index = some i ∧ trailer.keyAbsent = false ∧
      trailer.phase = s.auction.phaseOf g raw ∧ trailer.quality = f.detection.quality ∧
      trailer.unlabelled = f.detection.unlabelled ∧ trailer.utcOffset = f.detection.utcOffset ∧
      (t.port (mate p)).fifo =
        (s.port (mate p)).fifo ++ [.frame (withFcs (frame.take (frame.length - 4) ++ trailer.bytes)) f.detection] ∧
      t.lane (laneOf p) = { lane with
        lastStamp := trailer.stamp, sequence := trailer.sequence, datedSince := true, dated := lane.dated + 1
        clamped := if trailer.clamped then lane.clamped + 1 else lane.clamped
        classes := { lane.classes with matchedStamp := lane.classes.matchedStamp + 1 } } ∧
      (t.table.slot f.detection.bank i).hits = (s.table.slot f.detection.bank i).hits + 1 ∧
      t = { s with lanes := t.lanes, ports := t.ports, table := t.table }) ∧
  (∀ (s : State) (p : Port) (f : Reception) (rest : List Byte) (sub : Sub) (order : Order), s.phase = .running → p.val < 4 →
    (s.port p).reception = some f → f.oversize = false → f.detection.mode = .stamp →
    let frame := f.bytes ++ rest
    let lane := s.lane (laneOf p)
    let k := lane.classes
    let bank := f.detection.bank
    let raw := lessNs f.detection.instant f.detection.profile.latency
    let needed := max (f.detection.profile.keyOffset + 4) (f.detection.profile.kindOffset + 1)
    64 ≤ frame.length → frame.length ≤ 9216 → fcsCorrect frame = true → (∀ r ∈ lane.waiting, r.afterFrame = false) →
    let run := exec (.frameEnd p rest false sub order) s
    let ended := s.withPort p { s.port p with
      reception := none, ingress := { (s.port p).ingress with received := (s.port p).ingress.received + 1 } }
    let hit (i : Fin 64) : MatchTable :=
      let slots := s.table.banks[bank]
      { s.table with banks := s.table.banks.set bank (slots.set i { slots[i] with hits := (slots[i]).hits + 1 }) }
    let offered (table : MatchTable) (l : Lane) (bytes : List Byte) : Host.Outcome State Fault Refusal :=
      .next (({ ended.withLane (laneOf p) l with table := table } : State).offerFrame (mate p) bytes f.detection (s.readingAt sub) (s.oscAt sub))
    let passed (table : MatchTable) (classes : ClassCounters) := offered table { lane with classes := classes } frame
    let dated (table : MatchTable) (classes : ClassCounters) (group : Option Group) (index : Option (Fin 64)) (keyAbsent : Bool) :=
      let trailer : Trailer :=
        { stamp := if Before lane.lastStamp raw then raw else addNs lane.lastStamp 1, sequence := lane.sequence + 1, group := group
          phase := s.auction.phaseOf group raw, quality := f.detection.quality, clamped := decide (¬ Before lane.lastStamp raw)
          keyAbsent := keyAbsent, unlabelled := f.detection.unlabelled, utcOffset := f.detection.utcOffset, index := index }
      offered table
        { lane with
          lastStamp := trailer.stamp, sequence := trailer.sequence, datedSince := true, dated := lane.dated + 1, classes := classes
          clamped := if Before lane.lastStamp raw then lane.clamped else lane.clamped + 1 }
        (withFcs (frame.take (frame.length - 4) ++ trailer.bytes))
    (f.kind = some .other → run = passed s.table { k with other := k.other + 1 }) ∧
    (f.kind = some .order → frame.length < 18 + needed → run = dated s.table { k with keyAbsent := k.keyAbsent + 1 } none none true) ∧
    (f.kind = some .order → 18 + needed ≤ frame.length →
      (∀ i g, f.lookup = some (.matched i .stamp g) → run = dated (hit i) { k with matchedStamp := k.matchedStamp + 1 } g (some i) false) ∧
      (∀ i g, f.lookup = some (.matched i .stampNoGroup g) →
        run = dated (hit i) { k with matchedNoGroup := k.matchedNoGroup + 1 } none (some i) false) ∧
      (∀ i g, f.lookup = some (.matched i .pass g) → run = passed (hit i) { k with matchedPass := k.matchedPass + 1 }) ∧
      (f.lookup = some .defaulted → f.detection.profile.defaultAction = .stampNoGroup →
        run = dated s.table { k with defaultedDated := k.defaultedDated + 1 } none none false) ∧
      (f.lookup = some .defaulted → f.detection.profile.defaultAction ≠ .stampNoGroup →
        run = passed s.table { k with defaultedPassed := k.defaultedPassed + 1 }))) ∧
  (∀ (a : AuctionTimer) (raw : Instant), a.phaseOf none raw = .none ∧ ∀ g : Group,
    let r := a.groups[g]
    let late := r.state = .closed ∧ ∃ c, r.close = some c ∧ AtOrAfter raw c
    (r.state = .idle → a.phaseOf (some g) raw = .continuous) ∧
    (r.state ≠ .idle → Before raw r.callStart → a.phaseOf (some g) raw = .continuous) ∧
    (AtOrAfter raw r.callStart → late → a.phaseOf (some g) raw = .late) ∧
    (r.state ≠ .idle → AtOrAfter raw r.callStart → ¬ late → a.phaseOf (some g) raw = .call)) ∧
  (∀ x : Trailer,
    let head : List Byte :=
      beBytes 2 0xEA16 ++ beBytes 6 x.stamp.sec ++ beBytes 4 x.stamp.ns ++ beBytes 4 x.sequence.toNat ++
        [match x.group with | some g => BitVec.ofNat 8 g.val | none => 0xFF,
          match x.phase with | .continuous => 0 | .call => 1 | .late => 2 | .none => 3,
          match x.quality with | .traceable => 0 | .warning => 1 | .holdover => 2 | .untraceable => 3 | .unset => 4,
          (if x.clamped then 1 else 0) ||| (if x.keyAbsent then 2 else 0) ||| (if x.unlabelled then 4 else 0)] ++
        signedBytes 1 x.utcOffset ++ [match x.index with | some i => BitVec.ofNat 8 i.val | none => 0xFF]
    x.bytes = head ++ beBytes 2 (check head).toNat ∧ x.bytes.length = 24)

/-- Runts and oversize frames are discarded and counted; a management frame goes to its port's intake slot, is discarded at a full slot, or is discarded and counted bad with a wrong FCS or a receive error; an honoured pause runs or ends the port's received pause, and a MAC control frame
that is not honoured does nothing further (R63, R67, R68, R173). The FCS is the one the model presumes, a receive error does not keep a pause from being honoured, and opcode and quanta lie where IEEE 802.3 has them (log entries 5, 22 and 34). -/
def Obligations.FrameIsSortedAtItsEnd : Prop :=
  ∀ (s : State) (p : Port) (f : Reception) (rest : List Byte) (bad : Bool) (sub : Sub) (order : Order), s.phase = .running →
    (s.port p).reception = some f → (∀ r ∈ (s.lane (laneOf p)).waiting, r.afterFrame = false) →
    let frame := f.bytes ++ rest
    let k := (s.port p).ingress
    let ended (k : IngressCounters) : State := s.withPort p { s.port p with reception := none, ingress := k }
    let run := exec (.frameEnd p rest bad sub order) s
    (frame.length < 64 → f.complete frame = true → run = .next (ended { k with received := k.received + 1, runt := k.runt + 1 })) ∧
    (64 ≤ frame.length → f.oversize = true ∨ 9216 < frame.length → f.complete frame = true →
      run = .next (ended { k with received := k.received + 1, oversize := k.oversize + 1 })) ∧
    (64 ≤ frame.length → frame.length ≤ 9216 → f.oversize = false → f.kind = some .management → fcsCorrect frame = true → bad = false →
      let managed := ended { k with received := k.received + 1, management := k.management + 1 }
      ((s.agentPort p).slot = none → run = .next
        (managed.withAgentPort p { s.agentPort p with slot := some frame, intake := (s.agentPort p).intake + 1 })) ∧
      (∀ other, (s.agentPort p).slot = some other → run = .next
        (managed.withAgentPort p { s.agentPort p with slotFull := (s.agentPort p).slotFull + 1 }))) ∧
    (64 ≤ frame.length → frame.length ≤ 9216 → f.oversize = false → f.kind = some .management → fcsCorrect frame = false ∨ bad = true →
      run = .next (ended { k with received := k.received + 1, bad := k.bad + 1 })) ∧
    (64 ≤ frame.length → frame.length ≤ 9216 → f.oversize = false → f.kind = some .macControl → fcsCorrect frame = true →
      fieldNat frame 14 2 = 1 →
      let quanta := fieldNat frame 16 2
      run = .next (s.withPort p { s.port p with
        reception := none
        ingress := { k with received := k.received + 1, macControl := k.macControl + 1 }
        receivedPause := if quanta = 0 then none else some (10 * s.oscAt sub + 512 * quanta) })) ∧
    (64 ≤ frame.length → frame.length ≤ 9216 → f.oversize = false → f.kind = some .macControl →
      fcsCorrect frame = false ∨ fieldNat frame 14 2 ≠ 1 →
      run = .next (ended { k with received := k.received + 1, macControl := k.macControl + 1 }))

/-- The arbitration of an egress port at a frame boundary: an own head is passed over at most four times (R73, R74, R78). That the passing head goes first on an idle
port also where one row makes both sides eligible at the same moment, where R74 lets either, is the model's choice (log entry 38). -/
def Obligations.ItemIsChosenByArbitration : Prop :=
  ∀ (s : State) (p : Port), s.phase = .running → (s.port p).sending = none →
    let x := s.port p
    let passing := x.fifo ≠ [] ∧ x.receivedPause = none
    let own := x.own ≠ []
    (x.link = false → exec (.itemStart p) s = .next s) ∧
    (x.link = true →
      (¬ passing → ¬ own → exec (.itemStart p) s = .next s) ∧
      (passing → ¬ own → exec (.itemStart p) s = .next (s.withPort p { x with sending := some .passing })) ∧
      (¬ passing → own → exec (.itemStart p) s = .next (s.withPort p { x with sending := some .own })) ∧
      (passing → own → x.passedOver < 4 →
        exec (.itemStart p) s = .next (s.withPort p { x with sending := some .passing, passedOver := x.passedOver + 1 })) ∧
      (passing → own → 4 ≤ x.passedOver → exec (.itemStart p) s = .next (s.withPort p { x with sending := some .own })))

/-- At the end of a transmission the item leaves its store and is counted; the fall of the fill below the low watermark ends the pause state, offering a pause of 0 quanta to the feeder port, and the overflow episode, which ends at any fall where it opened below that watermark, and the end of a Restart's response is told
to the agent (R70 to R76, R80, R185). -/
def Obligations.TransmittedItemLeavesItsStore : Prop :=
  ∀ (s : State) (p : Port) (sub : Sub), s.phase = .running →
    let x := s.port p
    let low := (s.lane (laneOf p)).profile.low
    (∀ m rest, x.sending = some .passing → x.fifo = .marker m :: rest →
      exec (.transmissionEnd p sub) s = .next
        (s.withPort p { x with fifo := rest, sending := none, egress := { x.egress with marker := x.egress.marker + 1 } })) ∧
    (∀ bytes detection rest, x.sending = some .passing → x.fifo = .frame bytes detection :: rest →
      ∃ t : State, exec (.transmissionEnd p sub) s = .next t ∧
        t.port p = { x with
          fifo := rest, sending := none, egress := { x.egress with passing := x.egress.passing + 1 }
          pauseTimer := if fillOf rest < low then none else x.pauseTimer
          episode := match x.episode with
            | some e => if e.openedBelow = true ∨ fillOf rest < low then none else some e
            | none => none } ∧
        t.port (mate p) =
          (if fillOf rest < low ∧ x.pauseTimer ≠ none then (s.port (mate p)).offerPause 0 else s.port (mate p)) ∧
        (∀ k, k ≠ p → k ≠ mate p → t.port k = s.port k) ∧
        t = { s with ports := t.ports, journal := t.journal } ∧
        t.journal =
          (match x.episode with
            | some e =>
              if e.openedBelow = true ∨ fillOf rest < low then
                s.journal.take (s.dtu.handed (s.readingAt sub) (.laneOverflow (laneOf p) p true e.drops false))
              else s.journal
            | none => s.journal)) ∧
    (∀ bytes ofRestart rest, x.sending = some .own → x.own = .response bytes ofRestart :: rest →
      let sent := s.withPort p { x with own := rest, passedOver := 0, sending := none, egress := { x.egress with own := x.egress.own + 1 } }
      (ofRestart = false → exec (.transmissionEnd p sub) s = .next sent) ∧
      (∀ r, ofRestart = true → s.agent.restart = some r →
        exec (.transmissionEnd p sub) s = .next { sent with agent := { s.agent with restart := some { r with answered := true } } })) ∧
    (∀ quanta rest, x.sending = some .own → x.own = .pause quanta :: rest →
      exec (.transmissionEnd p sub) s = .next
        (s.withPort p { x with
          own := rest, passedOver := 0, sending := none
          egress := { x.egress with own := x.egress.own + 1, pauseSent := x.egress.pauseSent + 1 } }))

/-- The two pause timers of a port: the repeat timer asks again while the fill is above the high watermark and is restarted in both cases; the received pause ends when it has run (R68, R76). A pause frame offered to a port replaces the quanta of one that waits there and has not been started, or enters at the back, or is discarded and counted at a
full queue (R72). -/
def Obligations.PauseTimersExpire : Prop :=
  (∀ (s : State) (p : Port) (sub : Sub), s.phase = .running →
    (∀ started, (s.port p).pauseTimer = some started →
      let restarted := s.withPort p { s.port p with pauseTimer := some (s.oscAt sub) }
      let high := (s.lane (laneOf p)).profile.high
      (s.oscAt sub < started + 100000 → exec (.pauseRepeatTimer p sub) s = .next s) ∧
      (started + 100000 ≤ s.oscAt sub → fillOf (s.port p).fifo ≤ high → exec (.pauseRepeatTimer p sub) s = .next restarted) ∧
      (started + 100000 ≤ s.oscAt sub → high < fillOf (s.port p).fifo →
        exec (.pauseRepeatTimer p sub) s = .next (restarted.withPort (mate p) ((s.port (mate p)).offerPause 65535)))) ∧
    (∀ ends, (s.port p).receivedPause = some ends →
      (10 * s.oscAt sub < ends → exec (.receivedPauseExpiry p sub) s = .next s) ∧
      (ends ≤ 10 * s.oscAt sub →
        exec (.receivedPauseExpiry p sub) s = .next (s.withPort p { s.port p with receivedPause := none })))) ∧
  (∀ (x : PortState) (quanta : Nat),
    let started := if x.sending = some .own then 1 else 0
    (∀ before old after, x.own = before ++ OwnFrame.pause old :: after → started ≤ before.length →
      (∀ frame ∈ before.drop started, ∀ n, frame ≠ OwnFrame.pause n) →
      x.offerPause quanta = { x with own := before ++ OwnFrame.pause quanta :: after }) ∧
    ((∀ frame ∈ x.own.drop started, ∀ n, frame ≠ OwnFrame.pause n) →
      (x.own.length < 8 → x.offerPause quanta = { x with own := x.own ++ [.pause quanta] }) ∧
      (8 ≤ x.own.length → x.offerPause quanta = { x with egress := { x.egress with pauseDiscard := x.egress.pauseDiscard + 1 } })))

/-- A change of a port's link is counted and recorded; a port that goes down loses its reception, its item in transmission, which leaves its store, and its received pause; the fall of the fill that this is may end the pause state and the overflow episode, whose record and the
LinkChange stand in either order (R71, R76, R77, R79, R162). With no marker waiting on the frame cut short, every other port and every lane stays as it was. -/
def Obligations.LinkChangeIsRecorded : Prop :=
  ∀ (s : State) (p : Port) (sub : Sub) (order : Order), s.counting = true →
    let x := s.port p
    (x.link = true → exec (.linkUp p sub) s = .next s) ∧ (x.link = false → exec (.linkDown p sub order) s = .next s) ∧
    (x.link = false → exec (.linkUp p sub) s = .next
      { s.withPort p { x with link := true, linkChanges := x.linkChanges + 1 } with
        journal := s.journal.take (s.dtu.handed (s.readingAt sub) (.linkChange p true)) }) ∧
    (x.link = true → ∃ t : State, exec (.linkDown p sub order) s = .next t ∧ (t.port p).link = false ∧
      (t.port p).linkChanges = x.linkChanges + 1 ∧ (t.port p).reception = none ∧ (t.port p).sending = none ∧
      (t.port p).receivedPause = none ∧
      (t.port p).ingress.aborted = (if x.reception.isSome then x.ingress.aborted + 1 else x.ingress.aborted) ∧
      (t.port p).egress.abort = (if x.sending.isSome then x.egress.abort + 1 else x.egress.abort) ∧
      t = { s with lanes := t.lanes, ports := t.ports, journal := t.journal } ∧
      (x.episode = none → t.journal = s.journal.take (s.dtu.handed (s.readingAt sub) (.linkChange p false)))) ∧
    (x.link = true → (∀ r ∈ (s.lane (laneOf p)).waiting, r.afterFrame = false) →
      let low := (s.lane (laneOf p)).profile.low
      let left := if x.sending = some .passing then x.fifo.tail else x.fifo
      let falls := ∃ bytes detection rest, x.sending = some .passing ∧ x.fifo = .frame bytes detection :: rest
      let clears := falls ∧ fillOf left < low ∧ x.pauseTimer ≠ none
      let closes (e : Episode) := x.episode = some e ∧ falls ∧ (e.openedBelow = true ∨ fillOf left < low)
      ∃ t : State, exec (.linkDown p sub order) s = .next t ∧ t = { s with ports := t.ports, journal := t.journal } ∧
        (t.port p).fifo = left ∧ (t.port p).own = (if x.sending = some .own then x.own.tail else x.own) ∧
        (t.port p).passedOver = (if x.sending = some .own then 0 else x.passedOver) ∧
        (∀ k, k ≠ p → k ≠ mate p → t.port k = s.port k) ∧
        (¬ clears → t.port (mate p) = s.port (mate p) ∧ (t.port p).pauseTimer = x.pauseTimer) ∧
        (clears → t.port (mate p) = (s.port (mate p)).offerPause 0 ∧ (t.port p).pauseTimer = none) ∧
        ((∀ e, ¬ closes e) → (t.port p).episode = x.episode ∧
          t.journal = s.journal.take (s.dtu.handed (s.readingAt sub) (.linkChange p false))) ∧
        (∀ e, closes e → (t.port p).episode = none ∧
          let change := s.dtu.handed (s.readingAt sub) (.linkChange p false)
          let closed := s.dtu.handed (s.readingAt sub) (.laneOverflow (laneOf p) p true e.drops false)
          t.journal = if order.headD 0 % 2 = 0 then s.journal.takeAll [change, closed] else s.journal.takeAll [closed, change]))

/-! ### Closing auctions, markers and strobe lines (Chapters 7 and 8) -/

/-- A group enters CALL at its call start; in CALL it enters WINDOW at its window start and draws: d is the whole part of V × (W + 1) / 2^32 with
V = ((S xor key) × 2,654,435,761) mod 2^32, S the committed seed or else the nanoseconds of the reading, marked uncommitted. A drawn instant that lies before the draw instant, which a step may have moved past the window start, gives the earlier of the draw instant and the window end, marked advanced; where the close is reached at the draw it is decided at once, as at its own moment (R116, R120 to R123). -/
def Obligations.GroupOpensAndDraws : Prop :=
  (∀ (s : State) (g : Group) (sub : Sub), s.phase = .running →
    let r := s.group g
    (r.state = .armed →
      (Before s.time.now r.callStart → exec (.callStartReached g) s = .next s) ∧
      (AtOrAfter s.time.now r.callStart → exec (.callStartReached g) s = .next (s.withGroup g { r with state := .call }))) ∧
    (r.state = .call →
      (Before s.time.now r.windowStart → exec (.windowStartReached g sub) s = .next s) ∧
      (AtOrAfter s.time.now r.windowStart →
        let reading := s.readingAt sub
        let moment : Instant := match s.time.stepSpan with
          | some span => if Before span.before r.windowStart ∧ AtOrAfter span.after r.windowStart then span.after else r.windowStart
          | none => r.windowStart
        let source : BitVec 32 × Bool := match s.auction.seed with
          | .committed seed => (seed, false)
          | _ => (BitVec.ofNat 32 reading.ns, true)
        let v := (source.1 ^^^ BitVec.ofNat 32 (s.auction.day * 65536 + g.val * 256 + r.k)).toNat * 2654435761 % 4294967296
        let d := v * (r.window + 1) / 4294967296
        let drawn := addMs r.windowStart d
        let c := if AtOrAfter drawn moment then drawn else earlierOf moment (addMs r.windowStart r.window)
        let opened := s.withGroup g { r with
          state := .window, close := some c, draw := some { d := d, uncommitted := source.2, advanced := decide (Before drawn moment) } }
        (Before reading c → exec (.windowStartReached g sub) s = .next opened) ∧
        (AtOrAfter reading c → exec (.windowStartReached g sub) s = .next (opened.decideClose g reading))))) ∧
  (∀ (s : State) (g : Group) (sub : Sub) (c : Instant), s.phase = .running → (s.group g).state = .window → (s.group g).close = some c →
    (Before s.time.now c → exec (.closeInstantReached g sub) s = .next s) ∧
    (AtOrAfter s.time.now c → exec (.closeInstantReached g sub) s = .next (s.decideClose g (s.readingAt sub))))

/-- A close fires, at its moment or at its draw, under PROCEED, or under DEFER with a fit quality and a free place in the journal: the group is CLOSED with its c and draw result kept, the Close record is written at c, the strobe lines that name
the group are pulsed, the lanes of its set in STAMP each take a marker request, and the seed is revealed when no group waits any more. A request is lost at a full list, placed at once before a frame whose compensated instant is at or after c or, with no frame in reception, once its point is reached, and otherwise waits, for the end of the frame in reception where its point is reached (R124 to R126, R139, R142 to R144, R151). That the point is compared with the 1 ns reading is the model's choice (log entry 33). -/
def Obligations.CloseFires : Prop :=
  ∀ (s : State) (g : Group) (c : Instant) (draw : Draw) (moment : Instant), s.phase = .running → (s.group g).state = .window →
    (s.group g).close = some c → (s.group g).draw = some draw →
    ((s.group g).policy = .proceed ∨
      ((s.dtu.quality = .traceable ∨ s.dtu.quality = .warning ∨ s.dtu.quality = .holdover) ∧ 1 ≤ s.journal.free)) →
    let r := s.group g
    ∃ (t : State) (mask : BitVec 4), s.decideClose g moment = t ∧
      (∀ sub, AtOrAfter s.time.now c → moment = s.readingAt sub → exec (.closeInstantReached g sub) s = .next t) ∧
      t.group g = { r with state := .closed } ∧
      (∀ k, k ≠ g → t.group k = s.group k) ∧ t.auction.day = s.auction.day ∧
      (∀ l : LaneId, mask.getLsbD l.val = true ↔ r.lanes.getLsbD l.val = true ∧ (s.lane l).mode = .stamp) ∧
      (∀ l : LaneId, (t.lane l).markers.requested =
        if mask.getLsbD l.val then (s.lane l).markers.requested + 1 else (s.lane l).markers.requested) ∧
      (∀ p : Port, p.val < 4 → t.port p = s.port p) ∧
      (∀ l : LaneId, mask.getLsbD l.val = false → t.lane l = s.lane l ∧ t.port (enginePort l) = s.port (enginePort l)) ∧
      (∀ l : LaneId, mask.getLsbD l.val = true →
        let x := s.lane l
        let out := s.port (enginePort l)
        let k := { x.markers with requested := x.markers.requested + 1 }
        let passed := AtOrAfter moment (addNs c x.profile.latency)
        let now := (∃ f, (s.port (gatewayPort l)).reception = some f ∧ AtOrAfter (lessNs f.detection.instant f.detection.profile.latency) c) ∨
          ((s.port (gatewayPort l)).reception = none ∧ passed)
        (16 ≤ x.waiting.length → t.lane l = { x with markers := { k with lost := k.lost + 1 } } ∧ t.port (enginePort l) = out) ∧
        (x.waiting.length < 16 → now → 16 ≤ markersIn out.fifo →
          t.lane l = { x with markers := { k with lost := k.lost + 1 } } ∧ t.port (enginePort l) = out) ∧
        (x.waiting.length < 16 → now → markersIn out.fifo < 16 →
          t.lane l = { x with markers := { k with placed := k.placed + 1 } } ∧
          t.port (enginePort l) = { out with fifo := out.fifo ++ [.marker
            { group := g, close := c, k := r.k, quality := s.dtu.quality, address := x.profile.markerAddress
              lastSequence := if x.datedSince then x.sequence else 0xFFFFFFFF#32 }] }) ∧
        (x.waiting.length < 16 → ¬ now →
          t.lane l = { x with
            markers := k
            waiting := x.waiting ++
              [{ group := g, close := c, k := r.k, quality := s.dtu.quality, reached := false, afterFrame := decide passed }] } ∧
          t.port (enginePort l) = out)) ∧
      (∀ line : Line, t.signal.strobes[line] =
        if (s.signal.strobes[line]).groups.getLsbD g.val then
          { s.signal.strobes[line] with pulseEnd := some (s.osc + 125 * (s.signal.strobes[line]).width) }
        else s.signal.strobes[line]) ∧
      t = { s with auction := t.auction, journal := t.journal, signal := t.signal, lanes := t.lanes, ports := t.ports } ∧
      let closed := s.journal.take (s.dtu.handed c
        (.close g r.k draw r.window s.dtu.quality r.policy r.extUsed r.deferrals mask))
      ((∃ k, k ≠ g ∧ (s.group k).state ≠ .idle ∧ (s.group k).state ≠ .closed) →
        t.auction.seed = s.auction.seed ∧ t.journal = closed) ∧
      ((∀ k, k ≠ g → (s.group k).state = .idle ∨ (s.group k).state = .closed) →
        (∀ seed, s.auction.seed = .committed seed → t.auction.seed = .revealed seed ∧
          t.journal = closed.take (s.dtu.handed moment (.seedReveal seed (check (beBytes 4 seed.toNat))))) ∧
        ((∀ seed, s.auction.seed ≠ .committed seed) → t.auction.seed = s.auction.seed ∧ t.journal = closed))

/-- A DEFER close, at its moment or at its draw, whose quality is Untraceable or Unset suspends the group: c and the draw result are discarded and a Suspend record is written at c; no strobe, no marker (R125, R127). With a fit quality and a
full journal the group resumes at once, the Suspend and Resume records lost (R127, R128, R159). -/
def Obligations.DeferredCloseSuspends : Prop :=
  ∀ (s : State) (g : Group) (c : Instant) (draw : Draw) (moment : Instant), s.phase = .running → (s.group g).state = .window →
    (s.group g).close = some c → (s.group g).draw = some draw → (s.group g).policy = .defer →
    let r := s.group g
    (∀ sub, AtOrAfter s.time.now c → moment = s.readingAt sub →
      exec (.closeInstantReached g sub) s = .next (s.decideClose g moment)) ∧
    ((s.dtu.quality = .untraceable ∨ s.dtu.quality = .unset) →
      s.decideClose g moment =
        { s.withGroup g { r with state := .suspended, close := none, draw := none } with
          journal := s.journal.take (s.dtu.handed c (.suspend g r.k draw.d r.window s.dtu.quality false)) }) ∧
    ((s.dtu.quality = .traceable ∨ s.dtu.quality = .warning ∨ s.dtu.quality = .holdover) → s.journal.free = 0 →
      ∃ t : State, s.decideClose g moment = t ∧
        t.group g = { r with
          state := .call, close := none, draw := none
          windowStart := laterOf r.windowStart (addMs moment r.deferRestart)
          k := min (r.k + 1) 255, deferrals := min (r.deferrals + 1) 255 } ∧
        t.journal.retained = s.journal.retained ∧ t.journal.lost = min (min (s.journal.lost + 1) 4294967295 + 1) 4294967295 ∧
        t = { s with auction := t.auction, journal := t.journal })

/-- A marker whose point is reached while no frame is in reception enters the FIFO of the lane's engine-side port, is withdrawn on a lane in PASS, or is lost at 16 markers; with a frame in reception it will follow
that frame: at that frame's end, after all that the end itself does, its sequence number among it, or at its abort at the loss of link (the model's reading, log entry 20), it is placed, withdrawn or lost in the same way; a strobe pulse ends when its width has run (R143 to R145, R151). -/
def Obligations.MarkerAndStrobeMoments : Prop :=
  (∀ (s : State) (l : LaneId) (order : Order) (r : MarkerRequest), s.phase = .running → (s.lane l).waiting = [r] →
    r.reached = true → r.afterFrame = false →
    let lane := s.lane l
    let out := s.port (enginePort l)
    let left (k : MarkerCounters) : State := s.withLane l { lane with waiting := [], markers := k }
    let marker : Marker :=
      { group := r.group, close := r.close, k := r.k, quality := r.quality, address := lane.profile.markerAddress
        lastSequence := if lane.datedSince then lane.sequence else 0xFFFFFFFF#32 }
    ((s.port (gatewayPort l)).reception = none →
      (lane.mode = .pass → exec (.markerPointReached l order) s = .next
        (left { lane.markers with withdrawn := lane.markers.withdrawn + 1 })) ∧
      (lane.mode = .stamp → markersIn out.fifo < 16 → exec (.markerPointReached l order) s = .next
        ((left { lane.markers with placed := lane.markers.placed + 1 }).withPort (enginePort l)
          { out with fifo := out.fifo ++ [.marker marker] })) ∧
      (lane.mode = .stamp → 16 ≤ markersIn out.fifo → exec (.markerPointReached l order) s = .next
        (left { lane.markers with lost := lane.markers.lost + 1 }))) ∧
    ((s.port (gatewayPort l)).reception ≠ none →
      exec (.markerPointReached l order) s = .next
        (s.withLane l { lane with waiting := [{ r with reached := false, afterFrame := true }] }))) ∧
  (∀ (s : State) (l : LaneId) (sub : Sub) (order : Order) (r : MarkerRequest) (f : Reception) (c : Instr), s.phase = .running →
    (s.lane l).waiting = [r] → r.afterFrame = true → (s.port (gatewayPort l)).reception = some f →
    ((∃ rest bad, f.complete (f.bytes ++ rest) = true ∧ c = .frameEnd (gatewayPort l) rest bad sub order) ∨
      ((s.port (gatewayPort l)).link = true ∧ c = .linkDown (gatewayPort l) sub order)) →
    ∃ t : State, exec c (s.withLane l { s.lane l with waiting := [] }) = .next t ∧
      let lane := t.lane l
      let out := t.port (enginePort l)
      let marker : Marker :=
        { group := r.group, close := r.close, k := r.k, quality := r.quality, address := lane.profile.markerAddress
          lastSequence := if lane.datedSince then lane.sequence else 0xFFFFFFFF#32 }
      lane.waiting = [] ∧ lane.mode = (s.lane l).mode ∧ (t.port (gatewayPort l)).reception = none ∧
      (lane.mode = .pass → exec c s = .next
        (t.withLane l { lane with markers := { lane.markers with withdrawn := lane.markers.withdrawn + 1 } })) ∧
      (lane.mode = .stamp → markersIn out.fifo < 16 → exec c s = .next
        ((t.withLane l { lane with markers := { lane.markers with placed := lane.markers.placed + 1 } }).withPort (enginePort l)
          { out with fifo := out.fifo ++ [.marker marker] })) ∧
      (lane.mode = .stamp → 16 ≤ markersIn out.fifo → exec c s = .next
        (t.withLane l { lane with markers := { lane.markers with lost := lane.markers.lost + 1 } }))) ∧
  (∀ (s : State) (line : Line) (ends : Nat), (s.signal.strobes[line]).pulseEnd = some ends →
    (s.osc < ends → exec (.strobePulseEnd line) s = .next s) ∧
    (ends ≤ s.osc → exec (.strobePulseEnd line) s = .next
      { s with signal := { s.signal with
        strobes := s.signal.strobes.set line { s.signal.strobes[line] with pulseEnd := none } } }))

/-! ### The Management Agent (Chapter 10) -/

/-- The agent, free to take, takes the full slot that comes first in the cyclic order from the pointer, and the pointer then names the port after the one served (R174, R185). -/
def Obligations.SlotsAreTakenInRoundRobin : Prop :=
  ∀ (s : State) (sub : Sub),
    (∀ q, s.nextTake sub = some q →
      s.phase = .running ∧ s.agent.restart = none ∧ (s.agentPort q.port).slot = some q.frame ∧ q.level = (s.agentPort q.port).level ∧
      q.now = s.readingAt sub ∧ q.osc = s.oscAt sub ∧
      (∃ n, n < 8 ∧ q.port = portAfter s.agent.pointer n ∧ ∀ m, m < n → (s.agentPort (portAfter s.agent.pointer m)).slot = none) ∧
      ((s.emptySlot q.port).agentPort q.port).slot = none ∧ (s.emptySlot q.port).agent.pointer = portAfter q.port 1 ∧
      (∀ p, p ≠ q.port → (s.emptySlot q.port).agentPort p = s.agentPort p) ∧
      s.emptySlot q.port = { s with agent := (s.emptySlot q.port).agent }) ∧
    (s.phase = .running → s.agent.restart = none → (∃ p, (s.agentPort p).slot.isSome = true) → (s.nextTake sub).isSome = true)

/-- A request is judged by the first test of R175 that applies: no-permission, not-request, MALFORMED for version or lengths, UNKNOWN, DENIED, MALFORMED for the command's body length. It is judged to be a command exactly when it passes every test: level, kind, version, lengths, code and class. -/
def Obligations.JudgementPassesEveryTest : Prop :=
  (∀ (level : Level) (frame : List Byte) (c : Command),
    judgeRequest level frame = .command c ↔
      level ≠ .none ∧ fieldNat frame 15 1 = 1 ∧ fieldNat frame 14 1 = 1 ∧
      8 + fieldNat frame 20 2 ≤ frame.length - 18 ∧ (64 < frame.length → 8 + fieldNat frame 20 2 = frame.length - 18) ∧
      BitVec.ofNat 8 (fieldNat frame 16 1) = c.code ∧ Level.code c.level ≤ Level.code level ∧ fieldNat frame 20 2 = c.bodyLength) ∧
  (∀ (level : Level) (frame : List Byte),
    let f := fieldNat frame
    let payload := frame.length - 18
    let badShape := f 14 1 ≠ 1 ∨ payload < 8 + f 20 2 ∨ (64 < frame.length ∧ 8 + f 20 2 ≠ payload)
    (level = .none → judgeRequest level frame = .noPermission) ∧
    (level ≠ .none →
      (f 15 1 ≠ 1 → judgeRequest level frame = .notRequest) ∧
      (f 15 1 = 1 →
        (badShape → judgeRequest level frame = .malformed) ∧
        (¬ badShape →
          ((∀ c : Command, BitVec.ofNat 8 (f 16 1) ≠ c.code) → judgeRequest level frame = .unknown) ∧
          (∀ c : Command, BitVec.ofNat 8 (f 16 1) = c.code →
            (Level.code level < Level.code c.level → judgeRequest level frame = .denied) ∧
            (Level.code c.level ≤ Level.code level → f 20 2 ≠ c.bodyLength → judgeRequest level frame = .malformed))))))

/-- A frame that R175 rejects is discarded and counted, or answered with its status and counted; a response enters a queue of fewer than 8 frames and is discarded and counted at a full one; it is at least 64 bytes
long (R72, R175, R177, R186). -/
def Obligations.RejectedFrameIsCounted : Prop :=
  (∀ (s : State) (sub : Sub) (q : Take), s.nextTake sub = some q →
    let u := s.emptySlot q.port
    let run := exec (.managementFrameRejected sub) s
    (q.judgement = .noPermission → run = .next
      (u.withAgentPort q.port { u.agentPort q.port with noPermission := (u.agentPort q.port).noPermission + 1 })) ∧
    (q.judgement = .notRequest → run = .next
      (u.withAgentPort q.port { u.agentPort q.port with notRequest := (u.agentPort q.port).notRequest + 1 })) ∧
    (q.judgement = .malformed → run = .next
      (({ u with agent := { u.agent with malformed := u.agent.malformed + 1 } } : State).respond q .malformed [] false)) ∧
    (q.judgement = .unknown → run = .next
      (({ u with agent := { u.agent with unknown := u.agent.unknown + 1 } } : State).respond q .unknown [] false)) ∧
    (q.judgement = .denied → run = .next
      (({ u with agent := { u.agent with denied := u.agent.denied + 1 } } : State).respond q .denied [] false)) ∧
    (∀ c, q.judgement = .command c → run = .next s)) ∧
  (∀ (v : State) (q : Take) (status : Status) (body : List Byte) (ofRestart : Bool),
    let bytes := responseFrame v.signal.managementAddress q.frame status body
    let port := v.port q.port
    let seen := v.agentPort q.port
    64 ≤ bytes.length ∧
    (port.own.length < 8 → v.respond q status body ofRestart =
      (v.withPort q.port { port with own := port.own ++ [.response bytes ofRestart] }).withAgentPort q.port
        { seen with responses := seen.responses + 1 }) ∧
    (8 ≤ port.own.length → v.respond q status body ofRestart =
      v.withAgentPort q.port { seen with responseDiscard := seen.responseDiscard + 1 }))

/-- Every command whose request is next taken is applied by its own rule and answered; a refused command changes no state of the part and is answered without a body (R176, R177). -/
def Obligations.CommandIsAppliedOrRefused : Prop :=
  ∀ (c : Command) (sub : Sub) (order : Order) (s : State) (q : Take),
    (s.Takes sub q c →
      let reply := c.rule order q (s.emptySlot q.port)
      exec (c.row sub order) s = .next (reply.state.respond q reply.status reply.body (c == .restart))) ∧
    ((c.rule order q s).status ≠ .ok → (c.rule order q s).status ≠ .mismatch →
      (c.rule order q s).state = s ∧ (c.rule order q s).body = [])

/-- The Observe commands complete in every state, answer from the state of the take and change nothing: GetStatus with the 93 bytes of its layout, ReadJournal with the records from a sequence on, ReadSeed with a seed in REVEALED alone, ReadGroup with 56 bytes, the close hidden in WINDOW, returned in CLOSED and absent elsewhere,
ReadMatchEntry with 20 bytes, ReadCounters with 44, 22 or 43 counters in their order (R94, R115, R137, R166, R179, R180). A pending change's bytes while none is pending, and the two bytes before a check, are free values (the model's, log entries 4 and 31); the device time of GetStatus is the 1 ns reading of the take (its choice, log entry 33). -/
def Obligations.ObserveCommandsChangeNothing : Prop :=
  ∀ (s : State) (sub : Sub) (q : Take),
    let u := s.emptySlot q.port
    let answer (body : List Byte) : Host.Outcome State Fault Refusal := .next (u.respond q .ok body false)
    let invalid : Host.Outcome State Fault Refusal := .next (u.respond q .invalid [] false)
    let first := fieldNat q.body 0 1
    let oldest := s.journal.next - BitVec.ofNat 32 s.journal.retained.length
    let groupState (g : Group) : Byte := match (s.group g).state with
      | .idle => 0 | .armed => 1 | .call => 2 | .window => 3 | .suspended => 4 | .closed => 5
    (s.Takes sub q .getStatus → ∃ modes live links : Byte,
      let theta (ch : Channel) := signedBytes 4 ((s.dtu.ref ch).theta.getD (-2147483648))
      let body : List Byte :=
        [match s.dtu.state with | .free => 0 | .acquiring => 1 | .traceable => 2 | .holdover => 3 | .untraceable => 4,
          match s.dtu.quality with | .traceable => 0 | .warning => 1 | .holdover => 2 | .untraceable => 3 | .unset => 4,
          (if s.dtu.warning then 1 else 0) ||| (if s.dtu.disagreement then 2 else 0) ||| (if s.dtu.unlabelled then 4 else 0),
          match s.dtu.active with | some .A => 0 | some .B => 1 | none => 0xFF,
          match s.dtu.preferred with | .A => 0 | .B => 1] ++
        beBytes 4 s.dtu.bound ++ signedBytes 4 s.dtu.lastTheta ++ signedBytes 4 s.dtu.integral ++ theta .A ++ theta .B ++
        instantBytes q.now ++ signedBytes 1 s.time.utcOffset ++
        (match s.time.pendingOffset with
          | some change => 1 :: signedBytes 1 change.newOffset ++ instantBytes change.effective
          | none => 0 :: beBytes 11 (Config.absentPending s.time.absences).toNat) ++
        (List.finRange 16).map groupState ++
        [match s.auction.seed with | .absent => 0 | .loaded _ => 1 | .committed _ => 2 | .revealed _ => 3] ++ beBytes 2 s.auction.day ++
        beBytes 4 oldest.toNat ++ beBytes 4 (s.journal.next - 1).toNat ++ beBytes 2 (8192 - s.journal.retained.length) ++
        beBytes 4 s.journal.omitted ++ beBytes 4 s.journal.lost ++ beBytes 4 s.journal.shortageStart.toNat ++
        [modes, BitVec.ofNat 8 s.table.active.val, live, links]
      exec (.getStatus sub) s = answer body ∧ body.length = 93 ∧
        (∀ l : LaneId, modes.getLsbD l.val = true ↔ (s.lane l).mode = .stamp) ∧ modes.toNat < 16 ∧
        (∀ i, live.getLsbD i = s.liveConditions.getLsbD i) ∧ (∀ p : Port, links.getLsbD p.val = (s.port p).link)) ∧
    (s.Takes sub q .readJournal →
      let j := s.journal
      let head := beBytes 4 oldest.toNat ++ beBytes 4 (j.next - 1).toNat ++ beBytes 2 (8192 - j.retained.length)
      match j.place (BitVec.ofNat 32 (fieldNat q.body 0 4)) with
      | .retained i =>
        let records := (j.retained.drop i).take (max 1 (min (fieldNat q.body 4 1) 32))
        exec (.readJournal sub) s = answer (head ++ beBytes 1 records.length ++ (records.map JournalRecord.bytes).flatten)
      | .beyondNewest => exec (.readJournal sub) s = answer (head ++ [0])
      | .belowOldest => exec (.readJournal sub) s = invalid) ∧
    (s.Takes sub q .readSeed →
      let value (seed : BitVec 32) : List Byte :=
        beBytes 2 (Config.seedValueHigh q.osc q.frame).toNat ++ beBytes 2 (check (beBytes 4 seed.toNat)).toNat
      exec (.readSeed sub) s = answer
        (match s.auction.seed with
          | .absent => [0, 0, 0, 0, 0]
          | .loaded seed => 1 :: value seed
          | .committed seed => 2 :: value seed
          | .revealed seed => 3 :: beBytes 4 seed.toNat)) ∧
    (s.Takes sub q .readGroup →
      (16 ≤ first → exec (.readGroup sub) s = invalid) ∧
      (∀ g : Group, g.val = first → ∃ (strobes : BitVec 4) (shown : List Byte),
        let r := s.group g
        let body : List Byte :=
          beBytes 1 first ++ [groupState g] ++ instantBytes r.callStart ++ instantBytes r.windowStart ++ beBytes 4 r.window ++
          beBytes 4 r.extLength ++ beBytes 1 r.extLimit ++ beBytes 1 r.extUsed ++ [(match r.policy with | .proceed => 0 | .defer => 1 : Byte)] ++
          beBytes 4 r.deferRestart ++ [r.lanes.setWidth 8, strobes.setWidth 8] ++ beBytes 1 r.k ++ beBytes 1 r.deferrals ++ shown
        exec (.readGroup sub) s = answer body ∧ body.length = 56 ∧
        (∀ line : Line, strobes.getLsbD line.val = (s.signal.strobes[line]).groups.getLsbD g.val) ∧
        (r.state = .window → shown = 1 :: List.replicate 14 0) ∧
        (∀ c draw, r.state = .closed → r.close = some c → r.draw = some draw →
          shown = 2 :: instantBytes c ++ beBytes 3 draw.d ++ [((if draw.uncommitted then 1 else 0) ||| (if draw.advanced then 2 else 0) : Byte)]) ∧
        (r.state ≠ .window → r.state ≠ .closed → shown = List.replicate 15 0))) ∧
    (s.Takes sub q .readMatchEntry →
      (2 ≤ first ∨ 64 ≤ fieldNat q.body 1 1 → exec (.readMatchEntry sub) s = invalid) ∧
      (∀ (bank : Fin 2) (i : Fin 64), bank.val = first → i.val = fieldNat q.body 1 1 →
        let e := (s.table.slot bank i).entry
        exec (.readMatchEntry sub) s = answer
          (beBytes 1 first ++ beBytes 1 i.val ++ [(if e.valid then 1 else 0 : Byte)] ++ beBytes 4 e.keyValue.toNat ++ beBytes 4 e.keyMask.toNat ++
            [e.kindValue, e.kindMask, match e.group with | some g => BitVec.ofNat 8 g.val | none => 0xFF,
              match e.action with | .pass => 0 | .stamp => 1 | .stampNoGroup => 2] ++
            beBytes 4 (s.table.slot bank i).hits.toNat ++ [(if s.table.active = bank then 1 else 0 : Byte)]))) ∧
    (s.Takes sub q .readCounters →
      let read (counters : List Counter) : Host.Outcome State Fault Refusal := answer
        (beBytes 1 first ++ beBytes 1 counters.length ++ (counters.map fun (k : Counter) => beBytes 4 k.toNat).flatten)
      let ingress (k : IngressCounters) : List Counter := [k.received, k.aborted, k.runt, k.oversize, k.bad, k.management, k.macControl]
      let egress (k : EgressCounters) : List Counter := [k.drop, k.passing, k.marker, k.own, k.pauseSent, k.pauseDiscard, k.abort]
      let agentPort (p : Port) : List Counter :=
        let a := s.agentPort p
        [a.intake, a.slotFull, a.noPermission, a.notRequest, a.responseDiscard]
      (6 < first → exec (.readCounters sub) s = invalid) ∧
      (∀ l : LaneId, l.val = first →
        let x := s.lane l
        let gate := s.port (gatewayPort l)
        let engine := s.port (enginePort l)
        let counters : List Counter :=
          ingress gate.ingress ++ ingress engine.ingress ++ egress gate.egress ++ egress engine.egress ++
          [gate.linkChanges, engine.linkChanges, x.passForwarded, x.classes.other, x.classes.keyAbsent, x.classes.matchedStamp,
            x.classes.matchedNoGroup, x.classes.matchedPass, x.classes.defaultedDated, x.classes.defaultedPassed, x.dated, x.clamped,
            x.markers.requested, x.markers.placed, x.markers.withdrawn, x.markers.lost]
        exec (.readCounters sub) s = read counters ∧ counters.length = 44) ∧
      (∀ ch, first = (if ch = .A then 4 else 5) →
        let k := (s.chan ch).counters
        let counters : List Counter :=
          [k.glitch, k.extra, k.accepted, k.early, k.late, k.framingError, k.parityError, k.overrun, k.skippedByte, k.lineAbort,
            k.gapAbort, k.settingsAbort, k.checkFailure, k.fieldFailure, k.validMessage, k.leapRefused, k.messageOverrun, k.stale,
            k.duplicate, k.unlabelledDelivery, k.withheld, k.labelJump]
        exec (.readCounters sub) s = read counters ∧ counters.length = 22) ∧
      (first = 6 →
        let counters : List Counter :=
          agentPort 0 ++ agentPort 1 ++ agentPort 2 ++ agentPort 3 ++ agentPort 4 ++ agentPort 5 ++ agentPort 6 ++ agentPort 7 ++
          [s.agent.malformed, s.agent.unknown, s.agent.denied]
        exec (.readCounters sub) s = read counters ∧ counters.length = 43))

/-- ReleaseJournal releases every retained record up to the sequence it names, all of them beyond the newest, none below the oldest, and answers with what is left (R165). A sequence is placed by its distance from the oldest retained one, modulo 2^32 (R155).
An event record handed to the journal is appended with the next sequence and the check of its first 30 bytes from the chain value, or, with no place free, raises the lost count and, out of a shortage, sets its start to the newest sequence (R155, R156, R158, R159). -/
def Obligations.ReleaseJournalFreesRecords : Prop :=
  (∀ (j : Journal) (n : BitVec 32),
    let distance := (n.toNat + (4294967296 - (j.next - BitVec.ofNat 32 j.retained.length).toNat)) % 4294967296
    (distance < j.retained.length → j.place n = .retained distance) ∧
    (j.retained.length ≤ distance → distance < 2147483648 → j.place n = .beyondNewest) ∧
    (j.retained.length ≤ distance → 2147483648 ≤ distance → j.place n = .belowOldest)) ∧
  (∀ (j : Journal) (h : Handed), (∀ minute state active, h.payload ≠ .minuteSummary minute state active) →
    let chain := checkFrom j.chain (recordHead j.next h)
    (recordHead j.next h).length = 30 ∧
    (1 ≤ j.free → j.take h = { j with
      retained := j.retained ++ [{ sequence := j.next, body := h, chain := chain }], next := j.next + 1, chain := chain }) ∧
    (j.free = 0 → j.take h = { j with
      lost := min (j.lost + 1) 4294967295
      shortageStart := if j.omitted = 0 ∧ j.lost = 0 then j.next - 1 else j.shortageStart })) ∧
  (∀ (s : State) (sub : Sub) (q : Take), s.Takes sub q .releaseJournal →
    ∃ kept, exec (.releaseJournal sub) s = .next
        (({ s.emptySlot q.port with journal := { s.journal with retained := kept } } : State).respond q .ok
          (beBytes 4 (s.journal.next - BitVec.ofNat 32 kept.length).toNat ++ beBytes 2 (8192 - kept.length)) false) ∧
      kept = (match s.journal.place (BitVec.ofNat 32 (fieldNat q.body 0 4)) with
        | .retained i => s.journal.retained.drop (i + 1)
        | .beyondNewest => []
        | .belowOldest => s.journal.retained))

/-- ExtendCall is refused or accepted by the table of R129, and an accepted one is applied as R130 orders. -/
def Obligations.ExtendCallMovesTheWindow : Prop :=
  ∀ (s : State) (sub : Sub) (q : Take), s.Takes sub q .extendCall →
    let u := s.emptySlot q.port
    let refused (status : Status) : Host.Outcome State Fault Refusal := .next (u.respond q status [] false)
    let run := exec (.extendCall sub) s
    (16 ≤ fieldNat q.body 0 1 → run = refused .invalid) ∧
    (∀ g : Group, g.val = fieldNat q.body 0 1 →
      let r := s.group g
      let late := r.state = .window ∧ ∃ c, r.close = some c ∧ AtOrAfter q.now c
      (r.state = .idle ∨ r.state = .armed → run = refused .wrongState) ∧
      (r.state = .closed ∨ late → run = refused .tooLate) ∧
      (r.state = .call ∨ r.state = .suspended ∨ (r.state = .window ∧ ¬ late) → r.extUsed = r.extLimit → run = refused .limit) ∧
      (r.state = .call ∨ r.state = .suspended ∨ (r.state = .window ∧ ¬ late) → r.extUsed ≠ r.extLimit →
        let moved := laterOf r.windowStart (addMs q.now r.extLength)
        let k := min (r.k + 1) 255
        run = .next
          (({ u.withGroup g { r with
                state := .call, windowStart := moved, extUsed := r.extUsed + 1, k := k, close := none, draw := none } with
              journal := s.journal.take (s.dtu.handed q.now (.extension g (r.extUsed + 1) k moved)) } : State).respond q .ok
            (instantBytes moved ++ beBytes 1 (r.extUsed + 1) ++ beBytes 1 k) false)))

/-- SetLaneMode sets a lane's mode, and its sequence number and indication where the flag asks for it; SetLaneProfile replaces a lane's profile, moves the points of its waiting requests with its latency, and tests both watermarks on both its FIFOs, a fill above the high one asserting a clear pause state with 65,535 quanta and one below the low one ending it with 0; each is
refused with INVALID on a bad body and writes its ConfigChange record where something changed (R65, R75, R76, R83, R84, R104, R143). That a point which a new latency puts ahead is waited for anew, that points are compared with the 1 ns reading of the take, and that the pause frames are queued before the command's response are the model's (log entries 30, 33 and 18). -/
def Obligations.LaneCommandsSetTheLane : Prop :=
  (∀ (s : State) (sub : Sub) (q : Take),
    let u := s.emptySlot q.port
    let invalid : Host.Outcome State Fault Refusal := .next (u.respond q .invalid [] false)
    (s.Takes sub q .setLaneMode →
      (4 ≤ fieldNat q.body 0 1 ∨ 2 ≤ fieldNat q.body 1 1 ∨ 2 ≤ fieldNat q.body 2 1 → exec (.setLaneMode sub) s = invalid) ∧
      (∀ (l : LaneId) (mode : LaneMode) (reset : Bool), l.val = fieldNat q.body 0 1 →
        fieldNat q.body 1 1 = (if mode = .stamp then 1 else 0) → fieldNat q.body 2 1 = (if reset then 1 else 0) →
        let x := s.lane l
        let set := u.withLane l { x with
          mode := mode, sequence := if reset then 0 else x.sequence, datedSince := if reset then false else x.datedSince }
        exec (.setLaneMode sub) s = .next
          (({ set with
            journal :=
              if x.mode = mode ∧ reset = false then s.journal
              else s.journal.take (s.dtu.handed q.now
                (.configChange 0x41 q.port (BitVec.ofNat 16 (l.val * 256)) [LaneMode.code mode, if reset then 1 else 0])) } : State).respond
            q .ok [] false))) ∧
    (s.Takes sub q .setLaneProfile →
      let f := fieldNat q.body
      let high := max 1 (min (f 16 4) 32768)
      let bad := 4 ≤ f 0 1 ∨ f 1 2 < 0x0600 ∨ f 1 2 = 0x8808 ∨ 56 < f 3 1 ∨ 63 < f 4 1 ∨ ¬ (f 5 1 = 0 ∨ f 5 1 = 2) ∨ 65535 < f 6 4
      (bad → exec (.setLaneProfile sub) s = invalid) ∧
      (∀ l : LaneId, ¬ bad → l.val = f 0 1 →
        let profile : LaneProfile :=
          { orderEtherType := BitVec.ofNat 16 (f 1 2), keyOffset := f 3 1, kindOffset := f 4 1
            defaultAction := if f 5 1 = 0 then .pass else .stampNoGroup, latency := f 6 4
            markerAddress := BitVec.ofNat 48 (f 10 6), high := high, low := min (max 1 (min (f 20 4) 32768)) high }
        let taken := u.withLane l { s.lane l with
          profile := profile
          waiting := (s.lane l).waiting.map fun r =>
            let passed := decide (AtOrAfter q.now (addNs r.close profile.latency))
            { r with reached := r.reached && passed, afterFrame := r.afterFrame && passed } }
        let tested := (((taken.testHigh (enginePort l) q.osc).testLow (enginePort l)).testHigh (gatewayPort l) q.osc).testLow (gatewayPort l)
        exec (.setLaneProfile sub) s = .next
          (({ tested with
            journal :=
              if (s.lane l).profile = profile then s.journal
              else s.journal.take (s.dtu.handed q.now
                (.configChange 0x42 q.port (BitVec.ofNat 16 (l.val * 256)) [LaneProfile.changed (s.lane l).profile profile])) } : State).respond
            q .ok [] false)))) ∧
  (∀ (v : State) (p : Port) (osc : Nat),
    let x := v.port p
    let profile := (v.lane (laneOf p)).profile
    let told (timer : Option Nat) (quanta : Nat) := (v.withPort p { x with pauseTimer := timer }).withPort (mate p)
      ((v.port (mate p)).offerPause quanta)
    v.testHigh p osc = (if profile.high < fillOf x.fifo ∧ x.pauseTimer = none then told (some osc) 65535 else v) ∧
    v.testLow p = (if fillOf x.fifo < profile.low ∧ x.pauseTimer ≠ none then told none 0 else v))

/-- WriteMatchEntry writes an entry of the shadow bank with a hit count of 0 and is refused at the active bank; SwapBank makes the shadow bank the active one and is refused with WRONG_STATE when the named bank already is
(R92, R93, R95). -/
def Obligations.MatchTableIsWrittenAndSwapped : Prop :=
  ∀ (s : State) (sub : Sub) (q : Take),
    let u := s.emptySlot q.port
    let refused (status : Status) : Host.Outcome State Fault Refusal := .next (u.respond q status [] false)
    let f := fieldNat q.body
    (s.Takes sub q .writeMatchEntry →
      let bad := 2 ≤ f 0 1 ∨ 64 ≤ f 1 1 ∨ 2 ≤ f 2 1 ∨ (16 ≤ f 13 1 ∧ f 13 1 ≠ 255) ∨ 3 ≤ f 14 1
      (bad → exec (.writeMatchEntry sub) s = refused .invalid) ∧
      (¬ bad → f 0 1 = s.table.active.val → exec (.writeMatchEntry sub) s = refused .wrongState) ∧
      (∀ (bank : Fin 2) (i : Fin 64) (group : Option Group) (action : Action), ¬ bad → bank ≠ s.table.active → bank.val = f 0 1 →
        i.val = f 1 1 → f 13 1 = (match group with | some g => g.val | none => 255) → f 14 1 = (Action.code action).toNat →
        ∃ t : State, exec (.writeMatchEntry sub) s = .next (t.respond q .ok [] false) ∧
          t.table.slot bank i =
            { entry :=
                { valid := decide (f 2 1 = 1), keyValue := BitVec.ofNat 32 (f 3 4), keyMask := BitVec.ofNat 32 (f 7 4)
                  kindValue := BitVec.ofNat 8 (f 11 1), kindMask := BitVec.ofNat 8 (f 12 1), group := group, action := action }
              hits := 0 } ∧
          (∀ b j, (b, j) ≠ (bank, i) → t.table.slot b j = s.table.slot b j) ∧ t.table.active = s.table.active ∧
          t = { u with table := t.table, journal := t.journal } ∧
          t.journal =
            if (s.table.slot bank i).entry = (t.table.slot bank i).entry then s.journal
            else s.journal.take (s.dtu.handed q.now (.configChange 0x43 q.port (BitVec.ofNat 16 (bank.val * 256 + i.val)) [])))) ∧
    (s.Takes sub q .swapBank →
      (2 ≤ f 0 1 → exec (.swapBank sub) s = refused .invalid) ∧
      (f 0 1 = s.table.active.val → exec (.swapBank sub) s = refused .wrongState) ∧
      (∀ bank : Fin 2, bank.val = f 0 1 → bank ≠ s.table.active →
        exec (.swapBank sub) s = .next
          (({ u with
            table := { s.table with active := bank }
            journal := s.journal.take (s.dtu.handed q.now (.configChange 0x44 q.port 0xFFFF#16 (beBytes 1 bank.val))) } : State).respond
            q .ok [] false)))

/-- LoadSchedule is refused by the table of R117 and otherwise loads the group, W and the extension limit clamped: ARMED or CALL where its window start lies ahead, and where it is reached WINDOW, with a draw at the take whose close is decided at once where it is reached too (R117, R118). The ConfigChange record and a close's records stand in the order the row names (log entry 7), and it carries the command's own window start, also where a suspension at once moves the group's (the model's choice, log entry 37). -/
def Obligations.LoadScheduleArmsTheGroup : Prop :=
  ∀ (s : State) (sub : Sub) (order : Order) (q : Take), s.Takes sub q .loadSchedule →
    let u := s.emptySlot q.port
    let refused (status : Status) : Host.Outcome State Fault Refusal := .next (u.respond q status [] false)
    let run := exec (.loadSchedule sub order) s
    let f := fieldNat q.body
    let bad := 16 ≤ f 0 1 ∨ 1000000000 ≤ f 7 4 ∨ 1000000000 ≤ f 17 4 ∨ 2 ≤ f 30 1 ∨ f 25 4 = 0 ∨ 3600000 < f 25 4 ∨ f 31 4 = 0 ∨
      600000 < f 31 4 ∨ 16 ≤ f 35 1
    (bad → run = refused .invalid) ∧
    (∀ (g : Group) (policy : Policy), ¬ bad → g.val = f 0 1 → f 30 1 = (if policy = .proceed then 0 else 1) →
      let callStart : Instant := { sec := f 1 6, ns := f 7 4 }
      let windowStart : Instant := { sec := f 11 6, ns := f 17 4 }
      let window := min (f 21 4) 600000
      let windowEnd := addMs windowStart window
      let loaded : GroupRecord :=
        { state := if Before q.now callStart then .armed else .call, callStart := callStart, windowStart := windowStart, window := window
          extLength := f 25 4, extLimit := min (f 29 1) 7, extUsed := 0, policy := policy, deferRestart := f 31 4
          lanes := BitVec.ofNat 4 (f 35 1), k := 0, deferrals := 0, close := none, draw := none }
      let recorded (v : State) : State := { v with journal := v.journal.take (s.dtu.handed q.now
        (.configChange 0x45 q.port (BitVec.ofNat 16 (g.val * 256)) (instantBytes windowStart))) }
      let inCall := (s.group g).state = .call ∨ (s.group g).state = .window ∨ (s.group g).state = .suspended
      (inCall → run = refused .wrongState) ∧
      (¬ inCall → s.dtu.state = .free → run = refused .notSet) ∧
      (¬ inCall → s.dtu.state ≠ .free →
        (AtOrAfter callStart windowStart ∨ AtOrAfter q.now windowEnd → run = refused .invalid) ∧
        (Before callStart windowStart → Before q.now windowStart →
          run = .next ((recorded (u.withGroup g loaded)).respond q .ok [if Before q.now callStart then 1 else 2] false)) ∧
        (Before callStart windowStart → AtOrAfter q.now windowStart → Before q.now windowEnd →
          let source : BitVec 32 × Bool := match s.auction.seed with
            | .committed seed => (seed, false)
            | _ => (BitVec.ofNat 32 q.now.ns, true)
          let v := (source.1 ^^^ BitVec.ofNat 32 (s.auction.day * 65536 + g.val * 256)).toNat * 2654435761 % 4294967296
          let d := v * (window + 1) / 4294967296
          let drawn := addMs windowStart d
          let c := if AtOrAfter drawn q.now then drawn else q.now
          let opened (v : State) : State := v.withGroup g { loaded with
            state := .window, close := some c, draw := some { d := d, uncommitted := source.2, advanced := decide (Before drawn q.now) } }
          let decided (v : State) : State := if AtOrAfter q.now c then (opened v).decideClose g q.now else opened v
          let t := if order.headD 0 % 2 = 0 then recorded (decided u) else decided (recorded u)
          run = .next (t.respond q .ok [GroupState.code (t.group g).state] false))))

/-- ClearSchedule, SetDay and DayRoll: accepted in the states their rules name and refused with WRONG_STATE in the others (R119, R132, R133). -/
def Obligations.DayAndScheduleAreCleared : Prop :=
  ∀ (s : State) (sub : Sub) (q : Take),
    let u := s.emptySlot q.port
    let refused (status : Status) : Host.Outcome State Fault Refusal := .next (u.respond q status [] false)
    let config (code : Byte) (object : BitVec 16) (detail : List Byte) : Journal :=
      s.journal.take (s.dtu.handed q.now (.configChange code q.port object detail))
    (s.Takes sub q .clearSchedule →
      (16 ≤ fieldNat q.body 0 1 → exec (.clearSchedule sub) s = refused .invalid) ∧
      (∀ g : Group, g.val = fieldNat q.body 0 1 →
        ((s.group g).state = .armed ∨ (s.group g).state = .closed → exec (.clearSchedule sub) s = .next
          (({ u.withGroup g { s.group g with state := .idle, close := none, draw := none } with
            journal := config 0x46 (BitVec.ofNat 16 (g.val * 256)) [] } : State).respond q .ok [] false)) ∧
        ((s.group g).state ≠ .armed → (s.group g).state ≠ .closed → exec (.clearSchedule sub) s = refused .wrongState))) ∧
    (s.Takes sub q .setDay →
      ((∃ g, (s.group g).state ≠ .idle) → exec (.setDay sub) s = refused .wrongState) ∧
      ((∀ g, (s.group g).state = .idle) → exec (.setDay sub) s = .next
        (({ u with
          auction := { s.auction with day := fieldNat q.body 0 2 }
          journal := config 0x47 0xFFFF#16 (beBytes 2 s.auction.day ++ beBytes 2 (fieldNat q.body 0 2)) } : State).respond q .ok [] false))) ∧
    (s.Takes sub q .dayRoll →
      let inCall := ∃ g, (s.group g).state = .call ∨ (s.group g).state = .window ∨ (s.group g).state = .suspended
      (inCall → exec (.dayRoll sub) s = refused .wrongState) ∧
      (¬ inCall → ∃ t : State, exec (.dayRoll sub) s = .next (t.respond q .ok [] false) ∧
        (∀ g, t.group g = { s.group g with state := .idle, close := none, draw := none }) ∧ t.auction.seed = .absent ∧
        t.auction.day = (s.auction.day + 1) % 65536 ∧ t = { u with auction := t.auction, journal := t.journal } ∧
        let rolled := s.dtu.handed q.now (.dayRoll s.auction.day ((s.auction.day + 1) % 65536) s.auction.seed)
        (∀ seed, s.auction.seed = .committed seed →
          t.journal =
            (s.journal.take (s.dtu.handed q.now (.seedReveal seed (check (beBytes 4 seed.toNat))))).take rolled) ∧
        ((∀ seed, s.auction.seed ≠ .committed seed) → t.journal = s.journal.take rolled)))

/-- LoadSeed and CommitSeed on the four states of the seed slot: a committed seed is locked, a loaded one is committed where its check is the expected one and discarded with MISMATCH where it is not
(R134, R135, R136). -/
def Obligations.SeedIsLoadedAndCommitted : Prop :=
  ∀ (s : State) (sub : Sub) (q : Take),
    let u := s.emptySlot q.port
    let refused (status : Status) : Host.Outcome State Fault Refusal := .next (u.respond q status [] false)
    (s.Takes sub q .loadSeed →
      (∀ seed, s.auction.seed = .committed seed → exec (.loadSeed sub) s = refused .locked) ∧
      ((∀ seed, s.auction.seed ≠ .committed seed) → exec (.loadSeed sub) s = .next
        (({ u with
          auction := { s.auction with seed := .loaded (BitVec.ofNat 32 (fieldNat q.body 0 4)) }
          journal := s.journal.take (s.dtu.handed q.now (.configChange 0x49 q.port 0xFFFF#16 [])) } : State).respond q .ok [] false))) ∧
    (s.Takes sub q .commitSeed →
      (∀ seed, s.auction.seed = .committed seed → exec (.commitSeed sub) s = refused .locked) ∧
      (s.auction.seed = .absent ∨ (∃ seed, s.auction.seed = .revealed seed) → exec (.commitSeed sub) s = refused .wrongState) ∧
      (∀ seed, s.auction.seed = .loaded seed →
        let sum := check (beBytes 4 seed.toNat)
        (sum.toNat = fieldNat q.body 0 2 → exec (.commitSeed sub) s = .next
          (({ u with
            auction := { s.auction with seed := .committed seed }
            journal := s.journal.take (s.dtu.handed q.now (.seedCommit sum)) } : State).respond q .ok [] false)) ∧
        (sum.toNat ≠ fieldNat q.body 0 2 → exec (.commitSeed sub) s = .next
          (({ u with auction := { s.auction with seed := .absent } } : State).respond q .mismatch [] false))))

/-- SetReferenceChannel replaces a channel's settings within the ranges of R18, flushing its serial path when a serial setting changes or the channel is disabled, and starting afresh when it is enabled; SetPreferredReference and SetDiscipline replace what they carry; each is refused with
INVALID on a value that is not clamped (R18, R19, R21, R37, R56, R182). That a complete message not yet validated counts as aborted, and that a flush leaves the receiver waiting for a start bit, are the model's readings (log entries 19 and 24). -/
def Obligations.ReferenceSettingsAreReplaced : Prop :=
  ∀ (s : State) (sub : Sub) (q : Take),
    let u := s.emptySlot q.port
    let invalid : Host.Outcome State Fault Refusal := .next (u.respond q .invalid [] false)
    let config (code : Byte) (object : BitVec 16) (detail : List Byte) : Journal :=
      s.journal.take (s.dtu.handed q.now (.configChange code q.port object detail))
    let f := fieldNat q.body
    (s.Takes sub q .setReferenceChannel →
      let bad := 2 ≤ f 0 1 ∨ 2 ≤ f 1 1 ∨ 4 ≤ f 2 1 ∨ 1000000 < f 3 4 ∨ 2 ≤ f 11 1 ∨ 4095 < f 12 2 ∨ 2 ≤ f 14 1 ∨ 3 ≤ f 15 1 ∨
        f 16 1 = 0 ∨ 2 < f 16 1
      (bad → exec (.setReferenceChannel sub) s = invalid) ∧
      (∀ ch : Channel, ¬ bad → f 0 1 = (if ch = .A then 0 else 1) →
        let c := s.chan ch
        let new : ChannelSettings :=
          { enabled := decide (f 1 1 = 1)
            filterTicks := if f 2 1 = 0 then 0 else if f 2 1 = 1 then 8 else if f 2 1 = 2 then 64 else 512
            cable := f 3 4, early := min (f 7 2) 4095, late := min (f 9 2) 4095, wideRange := decide (f 11 1 = 1), divisor := f 12 2
            doubleSpeed := decide (f 14 1 = 1), parity := if f 15 1 = 0 then .none else if f 15 1 = 1 then .even else .odd
            stopBits := f 16 1 }
        let serial := new.divisor ≠ c.settings.divisor ∨ new.doubleSpeed ≠ c.settings.doubleSpeed ∨ new.parity ≠ c.settings.parity ∨
          new.stopBits ≠ c.settings.stopBits
        let flushed : RefChannel := { c with
          settings := new, receiver := .waitingForStart q.osc, buffer := [], assembler := .hunting, queue := []
          counters := { c.counters with
            settingsAbort := if c.assembler = .hunting then c.counters.settingsAbort else c.counters.settingsAbort + 1 } }
        ∃ c' : RefChannel,
          exec (.setReferenceChannel sub) s = .next
            (({ u.withChan ch c' with
              journal := if new = c.settings then s.journal else config 0x4B (BitVec.ofNat 16 ((if ch = .A then 0 else 1) * 256)) [] } :
              State).respond q .ok [] false) ∧
          (new = c.settings → c' = c) ∧
          (c.settings.enabled = true → new.enabled = true → serial → c' = flushed) ∧
          (c.settings.enabled = new.enabled → ¬ serial → c' = { c with settings := new }) ∧
          (c.settings.enabled = true → new.enabled = false → c' = { flushed with delivered := none, run := 0, filter := none }) ∧
          (c.settings.enabled = false → new.enabled = true → c' = { c with
            settings := new, receiver := .waitingForStart q.osc, assembler := .hunting, buffer := [], queue := [], delivered := none
            run := 0, lastAccepted := none }))) ∧
    (s.Takes sub q .setPreferredReference →
      (2 ≤ fieldNat q.body 0 1 → exec (.setPreferredReference sub) s = invalid) ∧
      (∀ ch, fieldNat q.body 0 1 = (if ch = .A then 0 else 1) → exec (.setPreferredReference sub) s = .next
        (({ u with
          dtu := { s.dtu with preferred := ch }
          journal := config 0x4C 0xFFFF#16 [if ch = .A then 0 else 1] } : State).respond q .ok [] false))) ∧
    (s.Takes sub q .setDiscipline →
      (f 8 4 < 1000 → exec (.setDiscipline sub) s = invalid) ∧
      (1000 ≤ f 8 4 →
        let limit := min (f 8 4) 1000000000
        let n := f 22 1
        let settings : DtuSettings :=
          { acqKi := min (f 0 1) 15, acqKp := min (f 1 1) 15, trackKi := min (f 2 1) 15, trackKp := min (f 3 1) 15
            sMax := min (f 4 4) 3200000, limit := limit, warn := min (f 12 4) limit, uncertainty := min (f 16 4) 1000000
            qualify := max 1 (min (f 20 1) 64), age := max 2 (min (f 21 1) 16)
            persistence := if n < 2 then 1 else if n < 4 then 2 else if n < 8 then 4 else 8
            growth := min (f 23 4) 100000, stepThreshold := max 1000 (min (f 27 4) 500000000)
            revertDelay := max 10 (min (f 31 2) 3600), crossLimit := max 1000 (min (f 33 4) 1000000000) }
        exec (.setDiscipline sub) s = .next
          (({ u with
            dtu := { s.dtu with settings := settings }
            journal := if s.dtu.settings = settings then s.journal else config 0x4D 0xFFFF#16 [] } : State).respond q .ok [] false)))

/-- EndAcquisition moves ACQUIRING to UNTRACEABLE and is refused with WRONG_STATE elsewhere; StepTime hands its step to the Time Base, with s at 0 and r = f, and moves the DTU to ACQUIRING, and is refused with INVALID above
86,400,000,000,000 ns (R43, R44, R183). -/
def Obligations.AcquisitionIsEndedOrEntered : Prop :=
  ∀ (s : State) (sub : Sub) (q : Take),
    let u := s.emptySlot q.port
    (s.Takes sub q .endAcquisition →
      (s.dtu.state ≠ .acquiring → exec (.endAcquisition sub) s = .next (u.respond q .wrongState [] false)) ∧
      (s.dtu.state = .acquiring → ∃ t : State, exec (.endAcquisition sub) s = .next (t.respond q .ok [] false) ∧
        t = { u with dtu := t.dtu, journal := t.journal } ∧ t.dtu.state = .untraceable ∧ t.dtu.active = s.dtu.active ∧
        t.dtu.bound = s.dtu.bound ∧ t.dtu.qualifying = 0 ∧ t.dtu.warning = false ∧
        t.journal = s.journal.take (t.dtu.handed q.now
          (.stateChange .acquiring .untraceable .endAcquisition s.dtu.bound s.dtu.active)))) ∧
    (s.Takes sub q .stepTime →
      let amount := fieldInt q.body 0 8
      (86400000000000 < amount.natAbs → exec (.stepTime sub) s = .next (u.respond q .invalid [] false)) ∧
      (amount.natAbs ≤ 86400000000000 → ∃ t : State, exec (.stepTime sub) s = .next (t.respond q .ok [] false) ∧
        t = { u with
          time := { s.time with
            addend := addendOf s.dtu.integral, steps := s.time.steps ++ [{ source := .command, amount := amount }] }
          dtu := t.dtu, journal := t.journal } ∧
        t.dtu.state = .acquiring ∧ t.dtu.qualifying = 0 ∧ t.dtu.warning = false ∧ t.dtu.proportional = 0 ∧
        t.dtu.active = s.dtu.active ∧ t.dtu.integral = s.dtu.integral ∧
        (s.dtu.state = .acquiring → t.dtu.bound = s.dtu.bound ∧ t.journal = s.journal) ∧
        (s.dtu.state ≠ .acquiring →
          t.journal = s.journal.take (t.dtu.handed q.now
            (.stateChange s.dtu.state .acquiring .stepTime t.dtu.bound s.dtu.active)))))

/-- SetUtcOffset records its schedule and makes it the pending change, or applies it at once where its instant is not ahead; an instant of 1,000,000,000 ns or more is refused (R11, R12, R176, R181).
The instant is compared with the 1 ns reading of the take (the model's choice, log entry 33), and the ConfigChange record stands before an OffsetChange applied at once (its reading, log entry 17). -/
def Obligations.UtcOffsetIsScheduled : Prop :=
  ∀ (s : State) (sub : Sub) (q : Take), s.Takes sub q .setUtcOffset →
    let u := s.emptySlot q.port
    let offset := fieldInt q.body 0 1
    let effective := fieldInstant q.body 1
    let recorded := s.journal.take (s.dtu.handed q.now
      (.configChange 0x50 q.port 0xFFFF#16 (signedBytes 1 offset ++ beBytes 6 effective.sec)))
    (1000000000 ≤ effective.ns → exec (.setUtcOffset sub) s = .next (u.respond q .invalid [] false)) ∧
    (effective.ns < 1000000000 →
      (Before q.now effective → exec (.setUtcOffset sub) s = .next
        (({ u with
          time := { s.time with pendingOffset := some { newOffset := offset, effective := effective, source := .command } }
          journal := recorded } : State).respond q .ok [] false)) ∧
      (AtOrAfter q.now effective → exec (.setUtcOffset sub) s = .next
        (({ u with
          time := { s.time with utcOffset := offset, pendingOffset := none, absences := s.time.absences + 1 }
          journal := recorded.take (s.dtu.handed q.now (.offsetChange s.time.utcOffset offset effective .command)) } : State).respond
          q .ok [] false)))

/-- SetOutputs replaces the PPS settings, the strobe lines' group sets and widths and the alarm mask, widths of 0 taken as 1, and leaves pulses in progress; a bad mode or mask is refused (R15, R150, R182, R191). -/
def Obligations.OutputsAreReplaced : Prop :=
  ∀ (s : State) (sub : Sub) (q : Take), s.Takes sub q .setOutputs →
    let u := s.emptySlot q.port
    let f := fieldNat q.body
    (3 ≤ f 0 1 ∨ 128 ≤ f 21 1 → exec (.setOutputs sub) s = .next (u.respond q .invalid [] false)) ∧
    (f 0 1 < 3 → f 21 1 < 128 → ∃ t : State, exec (.setOutputs sub) s = .next (t.respond q .ok [] false) ∧
      t = { u with
        time := { s.time with pps := { s.time.pps with
          mode := if f 0 1 = 0 then .off else if f 0 1 = 1 then .always else .traceableOnly
          width := max 1 (f 1 2), compensation := f 3 2 } }
        signal := t.signal, journal := t.journal } ∧
      t.signal.straps = s.signal.straps ∧ t.signal.alarmMask = BitVec.ofNat 7 (f 21 1) ∧
      (∀ line : Line, t.signal.strobes[line] = { s.signal.strobes[line] with
        groups := BitVec.ofNat 16 (f (5 + 4 * line.val) 2), width := max 1 (f (7 + 4 * line.val) 2) }) ∧
      t.journal =
        if t.time.pps = s.time.pps ∧ t.signal = s.signal then s.journal
        else s.journal.take (s.dtu.handed q.now (.configChange 0x51 q.port 0xFFFF#16 [])))

/-- SetPermissions replaces all eight levels at once, refused with INVALID where a code is above 3 or no port would hold Configure (R178). -/
def Obligations.PermissionsAreReplacedTogether : Prop :=
  ∀ (s : State) (sub : Sub) (q : Take), s.Takes sub q .setPermissions →
    let u := s.emptySlot q.port
    let code (p : Port) := fieldNat q.body p.val 1
    let bad := (∃ p, 3 < code p) ∨ ∀ p, code p ≠ 3
    (bad → exec (.setPermissions sub) s = .next (u.respond q .invalid [] false)) ∧
    (¬ bad → ∃ t : State, exec (.setPermissions sub) s = .next (t.respond q .ok [] false) ∧
      (∀ p, t.agentPort p = { u.agentPort p with level := (t.agentPort p).level } ∧ Level.code (t.agentPort p).level = code p) ∧
      t = { u with agent := t.agent, journal := t.journal } ∧ t.agent.pointer = u.agent.pointer ∧ t.agent.restart = none ∧
      t.journal =
        if ∀ p, (t.agentPort p).level = (s.agentPort p).level then s.journal
        else s.journal.take (s.dtu.handed q.now (.configChange 0x52 q.port 0xFFFF#16
          ((List.finRange 8).map fun (p : Port) => BitVec.ofNat 8 (code p)))))

/-- Restart is always accepted: its response is offered, and from its take until the warm reset it orders the agent takes nothing: every command but the power rows and the assertion of a reset leaves the pending Restart pending, at most learning that its response has been sent (R174, R185). -/
def Obligations.RestartStopsTheAgent : Prop :=
  (∀ (s : State) (sub : Sub) (q : Take), s.Takes sub q .restart →
    ∃ t : State, exec (.restart sub) s = .next t ∧ t.agent.restart = some { takenAt := s.oscAt sub, answered := false } ∧
      t = { s with agent := t.agent, ports := t.ports } ∧ (∀ later, t.nextTake later = none) ∧
      (∀ p, p ≠ q.port → t.port p = s.port p) ∧
      ((s.port q.port).own.length < 8 → t.port q.port = { s.port q.port with
        own := (s.port q.port).own ++ [.response (responseFrame s.signal.managementAddress q.frame .ok []) true] }) ∧
      (8 ≤ (s.port q.port).own.length → t.port q.port = s.port q.port)) ∧
  (∀ (c : Instr) (s : State) (r : RestartOrder), s.phase = .running → s.agent.restart = some r →
    c ≠ .powerOnReset → c ≠ .powerLoss → (∀ low sub order, c ≠ .warmResetAssert low sub order) →
    (∀ sub order, c ≠ .restartResetAssert sub order) →
    ∃ (t : State) (r' : RestartOrder), exec c s = .next t ∧ t.phase = .running ∧ t.agent.restart = some r' ∧ r'.takenAt = r.takenAt ∧
      (r.answered = true → r'.answered = true) ∧ (∀ later, t.nextTake later = none))

/-! ### Invariants -/

/-- Every step keeps the journal sound: at most 8,192 retained records, consecutive in sequence and chained, whatever was appended, lost, omitted or released (R155 to R161, R165). -/
def Obligations.JournalStaysSound : Prop :=
  ∀ s t : State, s.journal.Sound → step s = .next t → t.journal.Sound

/-- Every step keeps device time in its counts, the addend within what an applied rate gives, and the UTC offsets within −128 to 127 (R1, R4, R11). -/
def Obligations.TimeBaseStaysInRange : Prop :=
  ∀ s t : State, s.time.InRange → step s = .next t → t.time.InRange

/-- Every step keeps every store within its capacity: FIFOs, own-frame queues, waiting lists, character buffers, message queues, and the two bounded counts (R25, R31, R33, R70, R72, R74, R142). -/
def Obligations.StoresStayWithinCapacity : Prop :=
  ∀ s t : State, s.WithinCapacity → step s = .next t → t.WithinCapacity

/-- Every step keeps every group record in its ranges, with a close instant and a draw result in WINDOW and CLOSED alone (R114). -/
def Obligations.GroupsStayInRange : Prop :=
  ∀ s t : State, (∀ g, (s.group g).InRange) → step s = .next t → ∀ g, (t.group g).InRange

/-- Every step leaves some port holding Configure (R178). -/
def Obligations.SomePortStaysConfigurable : Prop :=
  ∀ s t : State, s.Configurable → step s = .next t → t.Configurable

/-- The state after reset meets every invariant. Its straps are the model's choice (log entry 3). -/
def Obligations.ResetMeetsTheInvariants : Prop :=
  State.reset.journal.Sound ∧ State.reset.time.InRange ∧ State.reset.WithinCapacity ∧ (∀ g, (State.reset.group g).InRange) ∧
    State.reset.Configurable

/-- No lane's last stamp ever moves backward, but by a loss of power (R101, R102, R113). -/
def Obligations.LastStampNeverMovesBack : Prop :=
  ∀ (c : Instr) (s t : State), ¬ PowerRow c → exec c s = .next t → ∀ l, AtOrAfter (t.lane l).lastStamp (s.lane l).lastStamp

/-- A committed seed is used unchanged until it is revealed: a step leaves it committed or revealed, or, at a DayRoll, the assertion of a warm reset or a loss of power, absent (R134, R138, R141). -/
def Obligations.CommittedSeedStaysUntilRevealed : Prop :=
  ∀ (c : Instr) (s t : State) (seed : BitVec 32), s.auction.seed = .committed seed → exec c s = .next t →
    t.auction.seed = .committed seed ∨ t.auction.seed = .revealed seed ∨
    (t.auction.seed = .absent ∧
      (PowerRow c ∨ (∃ sub, c = .dayRoll sub) ∨ (∃ low sub order, c = .warmResetAssert low sub order) ∨
        ∃ sub order, c = .restartResetAssert sub order))

end
end

