-- ==== Sys2Proof/Laws/Bits.lean ====
section
/-! SUPPORT. Lengths of the byte layouts, and what an order does: the lemmas that proofs cite in place of unfolding Bits and Records. -/

namespace Sys2Proof.Machine

@[simp] theorem beBytes_length (len n : Nat) : (beBytes len n).length = len := by
  induction len generalizing n with
  | zero => rfl
  | succ len ih => simp [beBytes, ih]

@[simp] theorem signedBytes_length (len : Nat) (x : Int) : (signedBytes len x).length = len := by
  simp [signedBytes]

@[simp] theorem padTo_length (len : Nat) (bytes : List Byte) : (padTo len bytes).length = len := by
  simp [padTo]; omega

@[simp] theorem instantBytes_length (i : Instant) : (instantBytes i).length = 10 := by
  simp [instantBytes]

@[simp] theorem fcsBytes_length (bytes : List Byte) : (fcsBytes bytes).length = 4 := by
  simp [fcsBytes]

@[simp] theorem withFcs_length (bytes : List Byte) : (withFcs bytes).length = bytes.length + 4 := by
  simp [withFcs]

@[simp] theorem Payload.bytes_length (p : Payload) : (Payload.bytes p).length = 14 := by
  simp [Payload.bytes]

/-- The chain check is computed over 30 bytes (R156). -/
@[simp] theorem recordHead_length (n : BitVec 32) (h : Handed) : (recordHead n h).length = 30 := by
  simp [recordHead]

/-- A record is read out as 32 bytes (R153). -/
@[simp] theorem JournalRecord.bytes_length (r : JournalRecord) : r.bytes.length = 32 := by
  simp [JournalRecord.bytes]

/-- A stamp trailer is 24 bytes (R108). -/
@[simp] theorem Trailer.bytes_length (t : Trailer) : t.bytes.length = 24 := by
  simp [Trailer.bytes, Trailer.head]

/-- A close marker frame is 64 bytes (R147). -/
@[simp] theorem Marker.frame_length (m : Marker) (source : BitVec 48) : (m.frame source).length = 64 := by
  simp [Marker.frame]

/-- A pause frame is 64 bytes (R76). -/
@[simp] theorem pauseFrame_length (source : BitVec 48) (quanta : Nat) : (pauseFrame source quanta).length = 64 := by
  simp [pauseFrame]

theorem pickInOrder_perm {α : Type} (fuel : Nat) (order : Order) (xs : List α) : (pickInOrder fuel order xs).Perm xs := by
  induction fuel generalizing order xs with
  | zero => exact List.Perm.refl _
  | succ fuel ih =>
    simp only [pickInOrder]
    split
    · rename_i x hx
      have hi := (List.getElem?_eq_some_iff.mp hx)
      obtain ⟨hlt, hx⟩ := hi
      exact ((ih order.tail _).cons x).trans (hx ▸ List.getElem_cons_eraseIdx_perm hlt)
    · exact List.Perm.refl _

/-- An order only rearranges what is handed over at one moment (R162). -/
theorem inOrder_perm {α : Type} (order : Order) (xs : List α) : (inOrder order xs).Perm xs :=
  pickInOrder_perm _ _ _

/-- A fill is the sum over the items (R70). -/
@[simp] theorem fillOf_append (xs ys : List PassingItem) : fillOf (xs ++ ys) = fillOf xs + fillOf ys := by
  induction xs with
  | nil => simp [fillOf]
  | cons x xs ih => simp only [fillOf, List.cons_append, List.foldr_cons] at ih ⊢; omega

@[simp] theorem fillOf_nil : fillOf [] = 0 := rfl

@[simp] theorem fillOf_cons (x : PassingItem) (xs : List PassingItem) : fillOf (x :: xs) = PassingItem.fillLength x + fillOf xs := rfl

@[simp] theorem markersIn_append (xs ys : List PassingItem) : markersIn (xs ++ ys) = markersIn xs + markersIn ys := by
  simp [markersIn]

theorem clampTo_bounds (limit x : Int) (h : 0 ≤ limit) : -limit ≤ clampTo limit x ∧ clampTo limit x ≤ limit := by
  unfold clampTo; omega

/-- A drawn d lies within W (R123). -/
theorem drawDelay_le (seed : BitVec 32) (key window : Nat) : drawDelay seed key window ≤ window := by
  have hv : drawValue seed key < 4294967296 := Nat.mod_lt _ (by decide)
  have : drawValue seed key * (window + 1) < 4294967296 * (window + 1) := Nat.mul_lt_mul_of_pos_right hv (Nat.succ_pos _)
  unfold drawDelay
  exact Nat.lt_succ_iff.mp (Nat.div_lt_of_lt_mul this)

end Sys2Proof.Machine
end

