-- ==== Sys2Proof/Laws/Clock.lean ====
section
/-! SUPPORT. What a tick and a step leave in each field of the Time Base, said once, so that no proof unfolds the arithmetic of a tick to see that a field is kept. -/

namespace Sys2Proof.Machine

/-! ### A tick of counting -/

/-- A pulse point reached makes a pulse due and changes nothing else of the output (R13). -/
theorem Pps.counted_only (pps : Pps) (before after : Instant) : ∃ due, pps.counted before after = { pps with due := due } := by
  unfold Pps.counted
  split
  · split
    · exact ⟨pps.due, rfl⟩
    · exact ⟨_, rfl⟩
  · exact ⟨pps.due, rfl⟩

@[simp] theorem TimeBase.counted_device (tb : TimeBase) : tb.counted.device = tb.device.advance tb.addend := rfl
@[simp] theorem TimeBase.counted_addend (tb : TimeBase) : tb.counted.addend = tb.addend := rfl
@[simp] theorem TimeBase.counted_steps (tb : TimeBase) : tb.counted.steps = tb.steps := rfl
@[simp] theorem TimeBase.counted_stepSpan (tb : TimeBase) : tb.counted.stepSpan = tb.stepSpan := rfl
@[simp] theorem TimeBase.counted_utcOffset (tb : TimeBase) : tb.counted.utcOffset = tb.utcOffset := rfl
@[simp] theorem TimeBase.counted_pendingOffset (tb : TimeBase) : tb.counted.pendingOffset = tb.pendingOffset := rfl
@[simp] theorem TimeBase.counted_absences (tb : TimeBase) : tb.counted.absences = tb.absences := rfl
@[simp] theorem TimeBase.counted_secondEvents (tb : TimeBase) :
    tb.counted.secondEvents = tb.secondEvents ++ secondEventOf tb.now tb.counted.now := rfl
@[simp] theorem TimeBase.counted_pps (tb : TimeBase) : tb.counted.pps = tb.pps.counted tb.now tb.counted.now := rfl

@[simp] theorem State.countTick_phase (s : State) : s.countTick.phase = s.phase := rfl
@[simp] theorem State.countTick_osc (s : State) : s.countTick.osc = s.osc + 1 := rfl
@[simp] theorem State.countTick_time (s : State) : s.countTick.time = s.time.counted := rfl
@[simp] theorem State.countTick_lanes (s : State) : s.countTick.lanes = ticked s.lanes s.time.now s.time.counted.now := rfl

/-! ### A step tick -/

@[simp] theorem TimeBase.stepped_device (tb : TimeBase) (r : StepRequest) (rest : List StepRequest) :
    (tb.stepped r rest).device = (tb.stepResult r).time := rfl
@[simp] theorem TimeBase.stepped_addend (tb : TimeBase) (r : StepRequest) (rest : List StepRequest) :
    (tb.stepped r rest).addend = tb.addend := rfl
@[simp] theorem TimeBase.stepped_steps (tb : TimeBase) (r : StepRequest) (rest : List StepRequest) : (tb.stepped r rest).steps = rest := rfl
@[simp] theorem TimeBase.stepped_utcOffset (tb : TimeBase) (r : StepRequest) (rest : List StepRequest) :
    (tb.stepped r rest).utcOffset = tb.utcOffset := rfl
@[simp] theorem TimeBase.stepped_pendingOffset (tb : TimeBase) (r : StepRequest) (rest : List StepRequest) :
    (tb.stepped r rest).pendingOffset = tb.pendingOffset := rfl
@[simp] theorem TimeBase.stepped_pps (tb : TimeBase) (r : StepRequest) (rest : List StepRequest) :
    (tb.stepped r rest).pps = { tb.pps with lastPulsed := none } := rfl
@[simp] theorem TimeBase.stepped_secondEvents (tb : TimeBase) (r : StepRequest) (rest : List StepRequest) :
    (tb.stepped r rest).secondEvents = tb.secondEvents ++ secondEventOf tb.now (tb.stepped r rest).now := rfl

@[simp] theorem State.stepTick_time (s : State) (r : StepRequest) (rest : List StepRequest) :
    (s.stepTick r rest).time = s.time.stepped r rest := rfl
@[simp] theorem State.stepTick_journal (s : State) (r : StepRequest) (rest : List StepRequest) :
    (s.stepTick r rest).journal = s.journal.take (s.dtu.handed (s.time.stepped r rest).now (s.time.stepPayload r)) := rfl

/-! ### A lane at a tick -/

/-- A tick keeps everything of a lane but the reached flags of its waiting requests (R3, R143). -/
@[simp] theorem ticked_lane (s : State) (before after : Instant) (l : LaneId) :
    (State.lane { s with lanes := ticked s.lanes before after } l) = (s.lane l).ticked before after := by
  simp [State.lane, ticked]

@[simp] theorem Lane.ticked_waiting_length (before after : Instant) (l : Lane) :
    (Lane.ticked before after l).waiting.length = l.waiting.length := by
  simp [Lane.ticked]

end Sys2Proof.Machine
end

