-- ==== Sys2Proof/Laws/Journal.lean ====
section
/-! SUPPORT. What each operation of the journal can do, said once: append, take, release, read-out. -/

namespace Sys2Proof.Machine

/-- A record appended is the last retained one; it takes the next sequence and chains to the chain value (R155, R156). -/
theorem Journal.append_spec (h : Handed) (j : Journal) :
    ∃ chain, chain = checkFrom j.chain (recordHead j.next h) ∧
      (j.append h).retained = j.retained ++ [{ sequence := j.next, body := h, chain := chain }] ∧
      (j.append h).next = j.next + 1 ∧ (j.append h).chain = chain ∧
      (j.append h).omitted = j.omitted ∧ (j.append h).lost = j.lost ∧ (j.append h).shortageStart = j.shortageStart :=
  ⟨_, rfl, rfl, rfl, rfl, rfl, rfl, rfl⟩

@[simp] theorem Journal.append_length (h : Handed) (j : Journal) : (j.append h).retained.length = j.retained.length + 1 := by
  simp [Journal.append]

/-- An event record is appended at a free space of at least 1, and counted as lost otherwise (R159). -/
theorem Journal.takeEvent_cases (h : Handed) (j : Journal) :
    (1 ≤ j.free ∧ j.takeEvent h = j.append h) ∨ (j.free = 0 ∧ j.takeEvent h = j.lose) := by
  by_cases hf : 1 ≤ j.free
  · exact .inl ⟨hf, by simp [Journal.takeEvent, Journal.canTake, hf]⟩
  · exact .inr ⟨by omega, by simp [Journal.takeEvent, Journal.canTake, hf]⟩

/-- A MinuteSummary is appended, appended after a Gap record, or omitted (R160, R161). -/
theorem Journal.takeRoutine_cases (h : Handed) (j : Journal) :
    (64 ≤ j.free ∧ j.inShortage = false ∧ j.takeRoutine h = j.append h) ∨
    (128 ≤ j.free ∧ j.inShortage = true ∧ j.takeRoutine h = (j.appendGap h).append h) ∨
    (j.takeRoutine h = j.omit ∧ (j.free < 64 ∨ (j.free < 128 ∧ j.inShortage = true))) := by
  unfold Journal.takeRoutine
  by_cases h1 : j.free < 64
  · simp [h1]
  · by_cases h2 : j.inShortage = true
    · by_cases h3 : j.free < 128
      · simp [h1, h2, h3]
      · simp [h1, h2, h3]; omega
    · simp [h1, h2]; omega

/-- A record handed is an event record or a routine record. -/
theorem Journal.take_cases (h : Handed) (j : Journal) : j.take h = j.takeEvent h ∨ j.take h = j.takeRoutine h := by
  unfold Journal.take; split <;> simp

@[simp] theorem Journal.takeAll_nil (j : Journal) : j.takeAll [] = j := rfl
@[simp] theorem Journal.takeAll_cons (h : Handed) (hs : List Handed) (j : Journal) :
    j.takeAll (h :: hs) = (j.take h).takeAll hs := rfl
@[simp] theorem Journal.takeAll_append (xs ys : List Handed) (j : Journal) :
    j.takeAll (xs ++ ys) = (j.takeAll xs).takeAll ys := by simp [Journal.takeAll]

/-- A release drops retained records from the front and nothing else (R165). -/
theorem Journal.release_spec (n : BitVec 32) (j : Journal) : ∃ k, j.release n = { j with retained := j.retained.drop k } := by
  unfold Journal.release
  split
  · exact ⟨_, rfl⟩
  · exact ⟨j.retained.length, by simp⟩
  · exact ⟨0, by simp⟩

/-- A read-out returns at most 32 records (R166). -/
theorem Journal.readFrom_length (n : BitVec 32) (count : Nat) (j : Journal) (rs : List JournalRecord)
    (h : j.readFrom n count = some rs) : rs.length ≤ 32 := by
  unfold Journal.readFrom at h
  split at h
  · cases h
    have : clampReadCount count ≤ 32 := by unfold clampReadCount; omega
    exact (List.length_take_le _ _).trans this
  · cases h; simp
  · cases h

end Sys2Proof.Machine
end

