-- ==== Sys2Proof/Laws/State.lean ====
section
/-! SUPPORT. What each update of the state leaves in each field: one lemma per field per update, all true by rfl, so that no proof unfolds a record update. -/

namespace Sys2Proof.Machine

/-! ### State.withTime -/

@[simp] theorem State.withTime_phase (s : State) (tb : TimeBase) : (s.withTime tb).phase = s.phase := rfl
@[simp] theorem State.withTime_osc (s : State) (tb : TimeBase) : (s.withTime tb).osc = s.osc := rfl
@[simp] theorem State.withTime_time (s : State) (tb : TimeBase) : (s.withTime tb).time = tb := rfl
@[simp] theorem State.withTime_chanA (s : State) (tb : TimeBase) : (s.withTime tb).chanA = s.chanA := rfl
@[simp] theorem State.withTime_chanB (s : State) (tb : TimeBase) : (s.withTime tb).chanB = s.chanB := rfl
@[simp] theorem State.withTime_dtu (s : State) (tb : TimeBase) : (s.withTime tb).dtu = s.dtu := rfl
@[simp] theorem State.withTime_lanes (s : State) (tb : TimeBase) : (s.withTime tb).lanes = s.lanes := rfl
@[simp] theorem State.withTime_ports (s : State) (tb : TimeBase) : (s.withTime tb).ports = s.ports := rfl
@[simp] theorem State.withTime_table (s : State) (tb : TimeBase) : (s.withTime tb).table = s.table := rfl
@[simp] theorem State.withTime_auction (s : State) (tb : TimeBase) : (s.withTime tb).auction = s.auction := rfl
@[simp] theorem State.withTime_journal (s : State) (tb : TimeBase) : (s.withTime tb).journal = s.journal := rfl
@[simp] theorem State.withTime_agent (s : State) (tb : TimeBase) : (s.withTime tb).agent = s.agent := rfl
@[simp] theorem State.withTime_signal (s : State) (tb : TimeBase) : (s.withTime tb).signal = s.signal := rfl
@[simp] theorem State.withTime_pending (s : State) (tb : TimeBase) : (s.withTime tb).pending = s.pending := rfl

/-! ### State.withDtu -/

@[simp] theorem State.withDtu_phase (s : State) (d : Dtu) : (s.withDtu d).phase = s.phase := rfl
@[simp] theorem State.withDtu_osc (s : State) (d : Dtu) : (s.withDtu d).osc = s.osc := rfl
@[simp] theorem State.withDtu_time (s : State) (d : Dtu) : (s.withDtu d).time = s.time := rfl
@[simp] theorem State.withDtu_chanA (s : State) (d : Dtu) : (s.withDtu d).chanA = s.chanA := rfl
@[simp] theorem State.withDtu_chanB (s : State) (d : Dtu) : (s.withDtu d).chanB = s.chanB := rfl
@[simp] theorem State.withDtu_dtu (s : State) (d : Dtu) : (s.withDtu d).dtu = d := rfl
@[simp] theorem State.withDtu_lanes (s : State) (d : Dtu) : (s.withDtu d).lanes = s.lanes := rfl
@[simp] theorem State.withDtu_ports (s : State) (d : Dtu) : (s.withDtu d).ports = s.ports := rfl
@[simp] theorem State.withDtu_table (s : State) (d : Dtu) : (s.withDtu d).table = s.table := rfl
@[simp] theorem State.withDtu_auction (s : State) (d : Dtu) : (s.withDtu d).auction = s.auction := rfl
@[simp] theorem State.withDtu_journal (s : State) (d : Dtu) : (s.withDtu d).journal = s.journal := rfl
@[simp] theorem State.withDtu_agent (s : State) (d : Dtu) : (s.withDtu d).agent = s.agent := rfl
@[simp] theorem State.withDtu_signal (s : State) (d : Dtu) : (s.withDtu d).signal = s.signal := rfl
@[simp] theorem State.withDtu_pending (s : State) (d : Dtu) : (s.withDtu d).pending = s.pending := rfl

/-! ### State.withJournal -/

@[simp] theorem State.withJournal_phase (s : State) (j : Journal) : (s.withJournal j).phase = s.phase := rfl
@[simp] theorem State.withJournal_osc (s : State) (j : Journal) : (s.withJournal j).osc = s.osc := rfl
@[simp] theorem State.withJournal_time (s : State) (j : Journal) : (s.withJournal j).time = s.time := rfl
@[simp] theorem State.withJournal_chanA (s : State) (j : Journal) : (s.withJournal j).chanA = s.chanA := rfl
@[simp] theorem State.withJournal_chanB (s : State) (j : Journal) : (s.withJournal j).chanB = s.chanB := rfl
@[simp] theorem State.withJournal_dtu (s : State) (j : Journal) : (s.withJournal j).dtu = s.dtu := rfl
@[simp] theorem State.withJournal_lanes (s : State) (j : Journal) : (s.withJournal j).lanes = s.lanes := rfl
@[simp] theorem State.withJournal_ports (s : State) (j : Journal) : (s.withJournal j).ports = s.ports := rfl
@[simp] theorem State.withJournal_table (s : State) (j : Journal) : (s.withJournal j).table = s.table := rfl
@[simp] theorem State.withJournal_auction (s : State) (j : Journal) : (s.withJournal j).auction = s.auction := rfl
@[simp] theorem State.withJournal_journal (s : State) (j : Journal) : (s.withJournal j).journal = j := rfl
@[simp] theorem State.withJournal_agent (s : State) (j : Journal) : (s.withJournal j).agent = s.agent := rfl
@[simp] theorem State.withJournal_signal (s : State) (j : Journal) : (s.withJournal j).signal = s.signal := rfl
@[simp] theorem State.withJournal_pending (s : State) (j : Journal) : (s.withJournal j).pending = s.pending := rfl

/-! ### State.withAuction -/

@[simp] theorem State.withAuction_phase (s : State) (a : AuctionTimer) : (s.withAuction a).phase = s.phase := rfl
@[simp] theorem State.withAuction_osc (s : State) (a : AuctionTimer) : (s.withAuction a).osc = s.osc := rfl
@[simp] theorem State.withAuction_time (s : State) (a : AuctionTimer) : (s.withAuction a).time = s.time := rfl
@[simp] theorem State.withAuction_chanA (s : State) (a : AuctionTimer) : (s.withAuction a).chanA = s.chanA := rfl
@[simp] theorem State.withAuction_chanB (s : State) (a : AuctionTimer) : (s.withAuction a).chanB = s.chanB := rfl
@[simp] theorem State.withAuction_dtu (s : State) (a : AuctionTimer) : (s.withAuction a).dtu = s.dtu := rfl
@[simp] theorem State.withAuction_lanes (s : State) (a : AuctionTimer) : (s.withAuction a).lanes = s.lanes := rfl
@[simp] theorem State.withAuction_ports (s : State) (a : AuctionTimer) : (s.withAuction a).ports = s.ports := rfl
@[simp] theorem State.withAuction_table (s : State) (a : AuctionTimer) : (s.withAuction a).table = s.table := rfl
@[simp] theorem State.withAuction_auction (s : State) (a : AuctionTimer) : (s.withAuction a).auction = a := rfl
@[simp] theorem State.withAuction_journal (s : State) (a : AuctionTimer) : (s.withAuction a).journal = s.journal := rfl
@[simp] theorem State.withAuction_agent (s : State) (a : AuctionTimer) : (s.withAuction a).agent = s.agent := rfl
@[simp] theorem State.withAuction_signal (s : State) (a : AuctionTimer) : (s.withAuction a).signal = s.signal := rfl
@[simp] theorem State.withAuction_pending (s : State) (a : AuctionTimer) : (s.withAuction a).pending = s.pending := rfl

/-! ### State.withAgent -/

@[simp] theorem State.withAgent_phase (s : State) (a : Agent) : (s.withAgent a).phase = s.phase := rfl
@[simp] theorem State.withAgent_osc (s : State) (a : Agent) : (s.withAgent a).osc = s.osc := rfl
@[simp] theorem State.withAgent_time (s : State) (a : Agent) : (s.withAgent a).time = s.time := rfl
@[simp] theorem State.withAgent_chanA (s : State) (a : Agent) : (s.withAgent a).chanA = s.chanA := rfl
@[simp] theorem State.withAgent_chanB (s : State) (a : Agent) : (s.withAgent a).chanB = s.chanB := rfl
@[simp] theorem State.withAgent_dtu (s : State) (a : Agent) : (s.withAgent a).dtu = s.dtu := rfl
@[simp] theorem State.withAgent_lanes (s : State) (a : Agent) : (s.withAgent a).lanes = s.lanes := rfl
@[simp] theorem State.withAgent_ports (s : State) (a : Agent) : (s.withAgent a).ports = s.ports := rfl
@[simp] theorem State.withAgent_table (s : State) (a : Agent) : (s.withAgent a).table = s.table := rfl
@[simp] theorem State.withAgent_auction (s : State) (a : Agent) : (s.withAgent a).auction = s.auction := rfl
@[simp] theorem State.withAgent_journal (s : State) (a : Agent) : (s.withAgent a).journal = s.journal := rfl
@[simp] theorem State.withAgent_agent (s : State) (a : Agent) : (s.withAgent a).agent = a := rfl
@[simp] theorem State.withAgent_signal (s : State) (a : Agent) : (s.withAgent a).signal = s.signal := rfl
@[simp] theorem State.withAgent_pending (s : State) (a : Agent) : (s.withAgent a).pending = s.pending := rfl

/-! ### State.withSignal -/

@[simp] theorem State.withSignal_phase (s : State) (b : SignalBlock) : (s.withSignal b).phase = s.phase := rfl
@[simp] theorem State.withSignal_osc (s : State) (b : SignalBlock) : (s.withSignal b).osc = s.osc := rfl
@[simp] theorem State.withSignal_time (s : State) (b : SignalBlock) : (s.withSignal b).time = s.time := rfl
@[simp] theorem State.withSignal_chanA (s : State) (b : SignalBlock) : (s.withSignal b).chanA = s.chanA := rfl
@[simp] theorem State.withSignal_chanB (s : State) (b : SignalBlock) : (s.withSignal b).chanB = s.chanB := rfl
@[simp] theorem State.withSignal_dtu (s : State) (b : SignalBlock) : (s.withSignal b).dtu = s.dtu := rfl
@[simp] theorem State.withSignal_lanes (s : State) (b : SignalBlock) : (s.withSignal b).lanes = s.lanes := rfl
@[simp] theorem State.withSignal_ports (s : State) (b : SignalBlock) : (s.withSignal b).ports = s.ports := rfl
@[simp] theorem State.withSignal_table (s : State) (b : SignalBlock) : (s.withSignal b).table = s.table := rfl
@[simp] theorem State.withSignal_auction (s : State) (b : SignalBlock) : (s.withSignal b).auction = s.auction := rfl
@[simp] theorem State.withSignal_journal (s : State) (b : SignalBlock) : (s.withSignal b).journal = s.journal := rfl
@[simp] theorem State.withSignal_agent (s : State) (b : SignalBlock) : (s.withSignal b).agent = s.agent := rfl
@[simp] theorem State.withSignal_signal (s : State) (b : SignalBlock) : (s.withSignal b).signal = b := rfl
@[simp] theorem State.withSignal_pending (s : State) (b : SignalBlock) : (s.withSignal b).pending = s.pending := rfl

/-! ### State.withTable -/

@[simp] theorem State.withTable_phase (s : State) (t : MatchTable) : (s.withTable t).phase = s.phase := rfl
@[simp] theorem State.withTable_osc (s : State) (t : MatchTable) : (s.withTable t).osc = s.osc := rfl
@[simp] theorem State.withTable_time (s : State) (t : MatchTable) : (s.withTable t).time = s.time := rfl
@[simp] theorem State.withTable_chanA (s : State) (t : MatchTable) : (s.withTable t).chanA = s.chanA := rfl
@[simp] theorem State.withTable_chanB (s : State) (t : MatchTable) : (s.withTable t).chanB = s.chanB := rfl
@[simp] theorem State.withTable_dtu (s : State) (t : MatchTable) : (s.withTable t).dtu = s.dtu := rfl
@[simp] theorem State.withTable_lanes (s : State) (t : MatchTable) : (s.withTable t).lanes = s.lanes := rfl
@[simp] theorem State.withTable_ports (s : State) (t : MatchTable) : (s.withTable t).ports = s.ports := rfl
@[simp] theorem State.withTable_table (s : State) (t : MatchTable) : (s.withTable t).table = t := rfl
@[simp] theorem State.withTable_auction (s : State) (t : MatchTable) : (s.withTable t).auction = s.auction := rfl
@[simp] theorem State.withTable_journal (s : State) (t : MatchTable) : (s.withTable t).journal = s.journal := rfl
@[simp] theorem State.withTable_agent (s : State) (t : MatchTable) : (s.withTable t).agent = s.agent := rfl
@[simp] theorem State.withTable_signal (s : State) (t : MatchTable) : (s.withTable t).signal = s.signal := rfl
@[simp] theorem State.withTable_pending (s : State) (t : MatchTable) : (s.withTable t).pending = s.pending := rfl

/-! ### State.withPhase -/

@[simp] theorem State.withPhase_phase (s : State) (p : Phase) : (s.withPhase p).phase = p := rfl
@[simp] theorem State.withPhase_osc (s : State) (p : Phase) : (s.withPhase p).osc = s.osc := rfl
@[simp] theorem State.withPhase_time (s : State) (p : Phase) : (s.withPhase p).time = s.time := rfl
@[simp] theorem State.withPhase_chanA (s : State) (p : Phase) : (s.withPhase p).chanA = s.chanA := rfl
@[simp] theorem State.withPhase_chanB (s : State) (p : Phase) : (s.withPhase p).chanB = s.chanB := rfl
@[simp] theorem State.withPhase_dtu (s : State) (p : Phase) : (s.withPhase p).dtu = s.dtu := rfl
@[simp] theorem State.withPhase_lanes (s : State) (p : Phase) : (s.withPhase p).lanes = s.lanes := rfl
@[simp] theorem State.withPhase_ports (s : State) (p : Phase) : (s.withPhase p).ports = s.ports := rfl
@[simp] theorem State.withPhase_table (s : State) (p : Phase) : (s.withPhase p).table = s.table := rfl
@[simp] theorem State.withPhase_auction (s : State) (p : Phase) : (s.withPhase p).auction = s.auction := rfl
@[simp] theorem State.withPhase_journal (s : State) (p : Phase) : (s.withPhase p).journal = s.journal := rfl
@[simp] theorem State.withPhase_agent (s : State) (p : Phase) : (s.withPhase p).agent = s.agent := rfl
@[simp] theorem State.withPhase_signal (s : State) (p : Phase) : (s.withPhase p).signal = s.signal := rfl
@[simp] theorem State.withPhase_pending (s : State) (p : Phase) : (s.withPhase p).pending = s.pending := rfl

/-! ### State.withLane -/

@[simp] theorem State.withLane_phase (s : State) (l : LaneId) (x : Lane) : (s.withLane l x).phase = s.phase := rfl
@[simp] theorem State.withLane_osc (s : State) (l : LaneId) (x : Lane) : (s.withLane l x).osc = s.osc := rfl
@[simp] theorem State.withLane_time (s : State) (l : LaneId) (x : Lane) : (s.withLane l x).time = s.time := rfl
@[simp] theorem State.withLane_chanA (s : State) (l : LaneId) (x : Lane) : (s.withLane l x).chanA = s.chanA := rfl
@[simp] theorem State.withLane_chanB (s : State) (l : LaneId) (x : Lane) : (s.withLane l x).chanB = s.chanB := rfl
@[simp] theorem State.withLane_dtu (s : State) (l : LaneId) (x : Lane) : (s.withLane l x).dtu = s.dtu := rfl
@[simp] theorem State.withLane_lanes (s : State) (l : LaneId) (x : Lane) : (s.withLane l x).lanes = s.lanes.set l x := rfl
@[simp] theorem State.withLane_ports (s : State) (l : LaneId) (x : Lane) : (s.withLane l x).ports = s.ports := rfl
@[simp] theorem State.withLane_table (s : State) (l : LaneId) (x : Lane) : (s.withLane l x).table = s.table := rfl
@[simp] theorem State.withLane_auction (s : State) (l : LaneId) (x : Lane) : (s.withLane l x).auction = s.auction := rfl
@[simp] theorem State.withLane_journal (s : State) (l : LaneId) (x : Lane) : (s.withLane l x).journal = s.journal := rfl
@[simp] theorem State.withLane_agent (s : State) (l : LaneId) (x : Lane) : (s.withLane l x).agent = s.agent := rfl
@[simp] theorem State.withLane_signal (s : State) (l : LaneId) (x : Lane) : (s.withLane l x).signal = s.signal := rfl
@[simp] theorem State.withLane_pending (s : State) (l : LaneId) (x : Lane) : (s.withLane l x).pending = s.pending := rfl

/-! ### State.withPort -/

@[simp] theorem State.withPort_phase (s : State) (p : Port) (x : PortState) : (s.withPort p x).phase = s.phase := rfl
@[simp] theorem State.withPort_osc (s : State) (p : Port) (x : PortState) : (s.withPort p x).osc = s.osc := rfl
@[simp] theorem State.withPort_time (s : State) (p : Port) (x : PortState) : (s.withPort p x).time = s.time := rfl
@[simp] theorem State.withPort_chanA (s : State) (p : Port) (x : PortState) : (s.withPort p x).chanA = s.chanA := rfl
@[simp] theorem State.withPort_chanB (s : State) (p : Port) (x : PortState) : (s.withPort p x).chanB = s.chanB := rfl
@[simp] theorem State.withPort_dtu (s : State) (p : Port) (x : PortState) : (s.withPort p x).dtu = s.dtu := rfl
@[simp] theorem State.withPort_lanes (s : State) (p : Port) (x : PortState) : (s.withPort p x).lanes = s.lanes := rfl
@[simp] theorem State.withPort_ports (s : State) (p : Port) (x : PortState) : (s.withPort p x).ports = s.ports.set p x := rfl
@[simp] theorem State.withPort_table (s : State) (p : Port) (x : PortState) : (s.withPort p x).table = s.table := rfl
@[simp] theorem State.withPort_auction (s : State) (p : Port) (x : PortState) : (s.withPort p x).auction = s.auction := rfl
@[simp] theorem State.withPort_journal (s : State) (p : Port) (x : PortState) : (s.withPort p x).journal = s.journal := rfl
@[simp] theorem State.withPort_agent (s : State) (p : Port) (x : PortState) : (s.withPort p x).agent = s.agent := rfl
@[simp] theorem State.withPort_signal (s : State) (p : Port) (x : PortState) : (s.withPort p x).signal = s.signal := rfl
@[simp] theorem State.withPort_pending (s : State) (p : Port) (x : PortState) : (s.withPort p x).pending = s.pending := rfl

/-! ### State.withGroup -/

@[simp] theorem State.withGroup_phase (s : State) (g : Group) (r : GroupRecord) : (s.withGroup g r).phase = s.phase := rfl
@[simp] theorem State.withGroup_osc (s : State) (g : Group) (r : GroupRecord) : (s.withGroup g r).osc = s.osc := rfl
@[simp] theorem State.withGroup_time (s : State) (g : Group) (r : GroupRecord) : (s.withGroup g r).time = s.time := rfl
@[simp] theorem State.withGroup_chanA (s : State) (g : Group) (r : GroupRecord) : (s.withGroup g r).chanA = s.chanA := rfl
@[simp] theorem State.withGroup_chanB (s : State) (g : Group) (r : GroupRecord) : (s.withGroup g r).chanB = s.chanB := rfl
@[simp] theorem State.withGroup_dtu (s : State) (g : Group) (r : GroupRecord) : (s.withGroup g r).dtu = s.dtu := rfl
@[simp] theorem State.withGroup_lanes (s : State) (g : Group) (r : GroupRecord) : (s.withGroup g r).lanes = s.lanes := rfl
@[simp] theorem State.withGroup_ports (s : State) (g : Group) (r : GroupRecord) : (s.withGroup g r).ports = s.ports := rfl
@[simp] theorem State.withGroup_table (s : State) (g : Group) (r : GroupRecord) : (s.withGroup g r).table = s.table := rfl
@[simp] theorem State.withGroup_auction (s : State) (g : Group) (r : GroupRecord) : (s.withGroup g r).auction = { s.auction with groups := s.auction.groups.set g r } := rfl
@[simp] theorem State.withGroup_journal (s : State) (g : Group) (r : GroupRecord) : (s.withGroup g r).journal = s.journal := rfl
@[simp] theorem State.withGroup_agent (s : State) (g : Group) (r : GroupRecord) : (s.withGroup g r).agent = s.agent := rfl
@[simp] theorem State.withGroup_signal (s : State) (g : Group) (r : GroupRecord) : (s.withGroup g r).signal = s.signal := rfl
@[simp] theorem State.withGroup_pending (s : State) (g : Group) (r : GroupRecord) : (s.withGroup g r).pending = s.pending := rfl

/-! ### State.withAgentPort -/

@[simp] theorem State.withAgentPort_phase (s : State) (p : Port) (x : AgentPort) : (s.withAgentPort p x).phase = s.phase := rfl
@[simp] theorem State.withAgentPort_osc (s : State) (p : Port) (x : AgentPort) : (s.withAgentPort p x).osc = s.osc := rfl
@[simp] theorem State.withAgentPort_time (s : State) (p : Port) (x : AgentPort) : (s.withAgentPort p x).time = s.time := rfl
@[simp] theorem State.withAgentPort_chanA (s : State) (p : Port) (x : AgentPort) : (s.withAgentPort p x).chanA = s.chanA := rfl
@[simp] theorem State.withAgentPort_chanB (s : State) (p : Port) (x : AgentPort) : (s.withAgentPort p x).chanB = s.chanB := rfl
@[simp] theorem State.withAgentPort_dtu (s : State) (p : Port) (x : AgentPort) : (s.withAgentPort p x).dtu = s.dtu := rfl
@[simp] theorem State.withAgentPort_lanes (s : State) (p : Port) (x : AgentPort) : (s.withAgentPort p x).lanes = s.lanes := rfl
@[simp] theorem State.withAgentPort_ports (s : State) (p : Port) (x : AgentPort) : (s.withAgentPort p x).ports = s.ports := rfl
@[simp] theorem State.withAgentPort_table (s : State) (p : Port) (x : AgentPort) : (s.withAgentPort p x).table = s.table := rfl
@[simp] theorem State.withAgentPort_auction (s : State) (p : Port) (x : AgentPort) : (s.withAgentPort p x).auction = s.auction := rfl
@[simp] theorem State.withAgentPort_journal (s : State) (p : Port) (x : AgentPort) : (s.withAgentPort p x).journal = s.journal := rfl
@[simp] theorem State.withAgentPort_agent (s : State) (p : Port) (x : AgentPort) : (s.withAgentPort p x).agent = { s.agent with ports := s.agent.ports.set p x } := rfl
@[simp] theorem State.withAgentPort_signal (s : State) (p : Port) (x : AgentPort) : (s.withAgentPort p x).signal = s.signal := rfl
@[simp] theorem State.withAgentPort_pending (s : State) (p : Port) (x : AgentPort) : (s.withAgentPort p x).pending = s.pending := rfl

/-! ### State.hand -/

@[simp] theorem State.hand_phase (s : State) (t : Instant) (p : Payload) : (s.hand t p).phase = s.phase := rfl
@[simp] theorem State.hand_osc (s : State) (t : Instant) (p : Payload) : (s.hand t p).osc = s.osc := rfl
@[simp] theorem State.hand_time (s : State) (t : Instant) (p : Payload) : (s.hand t p).time = s.time := rfl
@[simp] theorem State.hand_chanA (s : State) (t : Instant) (p : Payload) : (s.hand t p).chanA = s.chanA := rfl
@[simp] theorem State.hand_chanB (s : State) (t : Instant) (p : Payload) : (s.hand t p).chanB = s.chanB := rfl
@[simp] theorem State.hand_dtu (s : State) (t : Instant) (p : Payload) : (s.hand t p).dtu = s.dtu := rfl
@[simp] theorem State.hand_lanes (s : State) (t : Instant) (p : Payload) : (s.hand t p).lanes = s.lanes := rfl
@[simp] theorem State.hand_ports (s : State) (t : Instant) (p : Payload) : (s.hand t p).ports = s.ports := rfl
@[simp] theorem State.hand_table (s : State) (t : Instant) (p : Payload) : (s.hand t p).table = s.table := rfl
@[simp] theorem State.hand_auction (s : State) (t : Instant) (p : Payload) : (s.hand t p).auction = s.auction := rfl
@[simp] theorem State.hand_journal (s : State) (t : Instant) (p : Payload) : (s.hand t p).journal = s.journal.take (s.dtu.handed t p) := rfl
@[simp] theorem State.hand_agent (s : State) (t : Instant) (p : Payload) : (s.hand t p).agent = s.agent := rfl
@[simp] theorem State.hand_signal (s : State) (t : Instant) (p : Payload) : (s.hand t p).signal = s.signal := rfl
@[simp] theorem State.hand_pending (s : State) (t : Instant) (p : Payload) : (s.hand t p).pending = s.pending := rfl

/-! ### State.handAll -/

@[simp] theorem State.handAll_phase (s : State) (hs : List Handed) : (s.handAll hs).phase = s.phase := rfl
@[simp] theorem State.handAll_osc (s : State) (hs : List Handed) : (s.handAll hs).osc = s.osc := rfl
@[simp] theorem State.handAll_time (s : State) (hs : List Handed) : (s.handAll hs).time = s.time := rfl
@[simp] theorem State.handAll_chanA (s : State) (hs : List Handed) : (s.handAll hs).chanA = s.chanA := rfl
@[simp] theorem State.handAll_chanB (s : State) (hs : List Handed) : (s.handAll hs).chanB = s.chanB := rfl
@[simp] theorem State.handAll_dtu (s : State) (hs : List Handed) : (s.handAll hs).dtu = s.dtu := rfl
@[simp] theorem State.handAll_lanes (s : State) (hs : List Handed) : (s.handAll hs).lanes = s.lanes := rfl
@[simp] theorem State.handAll_ports (s : State) (hs : List Handed) : (s.handAll hs).ports = s.ports := rfl
@[simp] theorem State.handAll_table (s : State) (hs : List Handed) : (s.handAll hs).table = s.table := rfl
@[simp] theorem State.handAll_auction (s : State) (hs : List Handed) : (s.handAll hs).auction = s.auction := rfl
@[simp] theorem State.handAll_journal (s : State) (hs : List Handed) : (s.handAll hs).journal = s.journal.takeAll hs := rfl
@[simp] theorem State.handAll_agent (s : State) (hs : List Handed) : (s.handAll hs).agent = s.agent := rfl
@[simp] theorem State.handAll_signal (s : State) (hs : List Handed) : (s.handAll hs).signal = s.signal := rfl
@[simp] theorem State.handAll_pending (s : State) (hs : List Handed) : (s.handAll hs).pending = s.pending := rfl

/-! ### State.withChan -/

@[simp] theorem State.withChan_phase (s : State) (ch : Channel) (c : RefChannel) : (s.withChan ch c).phase = s.phase := by cases ch <;> rfl
@[simp] theorem State.withChan_osc (s : State) (ch : Channel) (c : RefChannel) : (s.withChan ch c).osc = s.osc := by cases ch <;> rfl
@[simp] theorem State.withChan_time (s : State) (ch : Channel) (c : RefChannel) : (s.withChan ch c).time = s.time := by cases ch <;> rfl
@[simp] theorem State.withChan_dtu (s : State) (ch : Channel) (c : RefChannel) : (s.withChan ch c).dtu = s.dtu := by cases ch <;> rfl
@[simp] theorem State.withChan_lanes (s : State) (ch : Channel) (c : RefChannel) : (s.withChan ch c).lanes = s.lanes := by cases ch <;> rfl
@[simp] theorem State.withChan_ports (s : State) (ch : Channel) (c : RefChannel) : (s.withChan ch c).ports = s.ports := by cases ch <;> rfl
@[simp] theorem State.withChan_table (s : State) (ch : Channel) (c : RefChannel) : (s.withChan ch c).table = s.table := by cases ch <;> rfl
@[simp] theorem State.withChan_auction (s : State) (ch : Channel) (c : RefChannel) : (s.withChan ch c).auction = s.auction := by cases ch <;> rfl
@[simp] theorem State.withChan_journal (s : State) (ch : Channel) (c : RefChannel) : (s.withChan ch c).journal = s.journal := by cases ch <;> rfl
@[simp] theorem State.withChan_agent (s : State) (ch : Channel) (c : RefChannel) : (s.withChan ch c).agent = s.agent := by cases ch <;> rfl
@[simp] theorem State.withChan_signal (s : State) (ch : Channel) (c : RefChannel) : (s.withChan ch c).signal = s.signal := by cases ch <;> rfl
@[simp] theorem State.withChan_pending (s : State) (ch : Channel) (c : RefChannel) : (s.withChan ch c).pending = s.pending := by cases ch <;> rfl
@[simp] theorem State.withChan_A_chanA (s : State) (c : RefChannel) : (s.withChan .A c).chanA = c := rfl
@[simp] theorem State.withChan_A_chanB (s : State) (c : RefChannel) : (s.withChan .A c).chanB = s.chanB := rfl
@[simp] theorem State.withChan_B_chanA (s : State) (c : RefChannel) : (s.withChan .B c).chanA = s.chanA := rfl
@[simp] theorem State.withChan_B_chanB (s : State) (c : RefChannel) : (s.withChan .B c).chanB = c := rfl

/-! ### The parts of the state read after an update -/

@[simp] theorem State.chan_withChan_self (s : State) (ch : Channel) (c : RefChannel) : (s.withChan ch c).chan ch = c := by
  cases ch <;> rfl

theorem State.chan_withChan_other (s : State) (a b : Channel) (c : RefChannel) (h : a ≠ b) : (s.withChan a c).chan b = s.chan b := by
  cases a <;> cases b <;> first | rfl | exact absurd rfl h

@[simp] theorem State.lane_withLane_self (s : State) (l : LaneId) (x : Lane) : (s.withLane l x).lane l = x := by
  simp [State.lane]

theorem State.lane_withLane_other (s : State) (l m : LaneId) (x : Lane) (h : l ≠ m) : (s.withLane l x).lane m = s.lane m := by
  simpa [State.lane] using Vector.getElem_set_ne l.isLt m.isLt fun e => h (Fin.ext e)

@[simp] theorem State.port_withPort_self (s : State) (p : Port) (x : PortState) : (s.withPort p x).port p = x := by
  simp [State.port]

theorem State.port_withPort_other (s : State) (p q : Port) (x : PortState) (h : p ≠ q) : (s.withPort p x).port q = s.port q := by
  simpa [State.port] using Vector.getElem_set_ne p.isLt q.isLt fun e => h (Fin.ext e)

@[simp] theorem State.group_withGroup_self (s : State) (g : Group) (r : GroupRecord) : (s.withGroup g r).group g = r := by
  simp [State.group]

theorem State.group_withGroup_other (s : State) (g k : Group) (r : GroupRecord) (h : g ≠ k) : (s.withGroup g r).group k = s.group k := by
  simpa [State.group] using Vector.getElem_set_ne g.isLt k.isLt fun e => h (Fin.ext e)

@[simp] theorem State.agentPort_withAgentPort_self (s : State) (p : Port) (x : AgentPort) : (s.withAgentPort p x).agentPort p = x := by
  simp [State.agentPort]

theorem State.agentPort_withAgentPort_other (s : State) (p q : Port) (x : AgentPort) (h : p ≠ q) :
    (s.withAgentPort p x).agentPort q = s.agentPort q := by
  simpa [State.agentPort] using Vector.getElem_set_ne p.isLt q.isLt fun e => h (Fin.ext e)

@[simp] theorem State.lane_withPort (s : State) (p : Port) (x : PortState) (l : LaneId) : (s.withPort p x).lane l = s.lane l := rfl
@[simp] theorem State.lane_withGroup (s : State) (g : Group) (x : GroupRecord) (l : LaneId) : (s.withGroup g x).lane l = s.lane l := rfl
@[simp] theorem State.lane_withAgentPort (s : State) (p : Port) (x : AgentPort) (l : LaneId) : (s.withAgentPort p x).lane l = s.lane l := rfl
@[simp] theorem State.port_withLane (s : State) (l : LaneId) (x : Lane) (p : Port) : (s.withLane l x).port p = s.port p := rfl
@[simp] theorem State.port_withGroup (s : State) (l : Group) (x : GroupRecord) (p : Port) : (s.withGroup l x).port p = s.port p := rfl
@[simp] theorem State.port_withAgentPort (s : State) (l : Port) (x : AgentPort) (p : Port) : (s.withAgentPort l x).port p = s.port p := rfl
@[simp] theorem State.lane_withTime (s : State) (x : TimeBase) (l : LaneId) : (s.withTime x).lane l = s.lane l := rfl
@[simp] theorem State.port_withTime (s : State) (x : TimeBase) (p : Port) : (s.withTime x).port p = s.port p := rfl
@[simp] theorem State.lane_withDtu (s : State) (x : Dtu) (l : LaneId) : (s.withDtu x).lane l = s.lane l := rfl
@[simp] theorem State.port_withDtu (s : State) (x : Dtu) (p : Port) : (s.withDtu x).port p = s.port p := rfl
@[simp] theorem State.lane_withJournal (s : State) (x : Journal) (l : LaneId) : (s.withJournal x).lane l = s.lane l := rfl
@[simp] theorem State.port_withJournal (s : State) (x : Journal) (p : Port) : (s.withJournal x).port p = s.port p := rfl
@[simp] theorem State.lane_withAuction (s : State) (x : AuctionTimer) (l : LaneId) : (s.withAuction x).lane l = s.lane l := rfl
@[simp] theorem State.port_withAuction (s : State) (x : AuctionTimer) (p : Port) : (s.withAuction x).port p = s.port p := rfl
@[simp] theorem State.lane_withAgent (s : State) (x : Agent) (l : LaneId) : (s.withAgent x).lane l = s.lane l := rfl
@[simp] theorem State.port_withAgent (s : State) (x : Agent) (p : Port) : (s.withAgent x).port p = s.port p := rfl
@[simp] theorem State.lane_withSignal (s : State) (x : SignalBlock) (l : LaneId) : (s.withSignal x).lane l = s.lane l := rfl
@[simp] theorem State.port_withSignal (s : State) (x : SignalBlock) (p : Port) : (s.withSignal x).port p = s.port p := rfl
@[simp] theorem State.lane_withTable (s : State) (x : MatchTable) (l : LaneId) : (s.withTable x).lane l = s.lane l := rfl
@[simp] theorem State.port_withTable (s : State) (x : MatchTable) (p : Port) : (s.withTable x).port p = s.port p := rfl
@[simp] theorem State.lane_hand (s : State) (t : Instant) (x : Payload) (l : LaneId) : (s.hand t x).lane l = s.lane l := rfl
@[simp] theorem State.lane_handAll (s : State) (hs : List Handed) (l : LaneId) : (s.handAll hs).lane l = s.lane l := rfl
@[simp] theorem State.port_hand (s : State) (t : Instant) (x : Payload) (l : Port) : (s.hand t x).port l = s.port l := rfl
@[simp] theorem State.port_handAll (s : State) (hs : List Handed) (l : Port) : (s.handAll hs).port l = s.port l := rfl
@[simp] theorem State.group_hand (s : State) (t : Instant) (x : Payload) (l : Group) : (s.hand t x).group l = s.group l := rfl
@[simp] theorem State.group_handAll (s : State) (hs : List Handed) (l : Group) : (s.handAll hs).group l = s.group l := rfl
@[simp] theorem State.agentPort_hand (s : State) (t : Instant) (x : Payload) (l : Port) : (s.hand t x).agentPort l = s.agentPort l := rfl
@[simp] theorem State.agentPort_handAll (s : State) (hs : List Handed) (l : Port) : (s.handAll hs).agentPort l = s.agentPort l := rfl

/-! ### Pins, time and running after an update -/

@[simp] theorem State.running_withChan (s : State) (ch : Channel) (c : RefChannel) : (s.withChan ch c).running = s.running := by cases ch <;> rfl
@[simp] theorem State.oscAt_withChan (s : State) (ch : Channel) (c : RefChannel) (sub : Sub) : (s.withChan ch c).oscAt sub = s.oscAt sub := by cases ch <;> rfl
@[simp] theorem State.readingAt_withChan (s : State) (ch : Channel) (c : RefChannel) (sub : Sub) : (s.withChan ch c).readingAt sub = s.readingAt sub := by cases ch <;> rfl
@[simp] theorem State.running_withLane (s : State) (l : LaneId) (x : Lane) : (s.withLane l x).running = s.running := rfl
@[simp] theorem State.oscAt_withLane (s : State) (l : LaneId) (x : Lane) (sub : Sub) : (s.withLane l x).oscAt sub = s.oscAt sub := rfl
@[simp] theorem State.readingAt_withLane (s : State) (l : LaneId) (x : Lane) (sub : Sub) : (s.withLane l x).readingAt sub = s.readingAt sub := rfl
@[simp] theorem State.running_withPort (s : State) (p : Port) (x : PortState) : (s.withPort p x).running = s.running := rfl
@[simp] theorem State.oscAt_withPort (s : State) (p : Port) (x : PortState) (sub : Sub) : (s.withPort p x).oscAt sub = s.oscAt sub := rfl
@[simp] theorem State.readingAt_withPort (s : State) (p : Port) (x : PortState) (sub : Sub) : (s.withPort p x).readingAt sub = s.readingAt sub := rfl
@[simp] theorem State.running_withGroup (s : State) (g : Group) (r : GroupRecord) : (s.withGroup g r).running = s.running := rfl
@[simp] theorem State.oscAt_withGroup (s : State) (g : Group) (r : GroupRecord) (sub : Sub) : (s.withGroup g r).oscAt sub = s.oscAt sub := rfl
@[simp] theorem State.readingAt_withGroup (s : State) (g : Group) (r : GroupRecord) (sub : Sub) : (s.withGroup g r).readingAt sub = s.readingAt sub := rfl
@[simp] theorem State.running_withAgentPort (s : State) (p : Port) (x : AgentPort) : (s.withAgentPort p x).running = s.running := rfl
@[simp] theorem State.oscAt_withAgentPort (s : State) (p : Port) (x : AgentPort) (sub : Sub) : (s.withAgentPort p x).oscAt sub = s.oscAt sub := rfl
@[simp] theorem State.readingAt_withAgentPort (s : State) (p : Port) (x : AgentPort) (sub : Sub) : (s.withAgentPort p x).readingAt sub = s.readingAt sub := rfl
@[simp] theorem State.running_hand (s : State) (t : Instant) (p : Payload) : (s.hand t p).running = s.running := rfl
@[simp] theorem State.oscAt_hand (s : State) (t : Instant) (p : Payload) (sub : Sub) : (s.hand t p).oscAt sub = s.oscAt sub := rfl
@[simp] theorem State.readingAt_hand (s : State) (t : Instant) (p : Payload) (sub : Sub) : (s.hand t p).readingAt sub = s.readingAt sub := rfl
@[simp] theorem State.running_handAll (s : State) (hs : List Handed) : (s.handAll hs).running = s.running := rfl
@[simp] theorem State.oscAt_handAll (s : State) (hs : List Handed) (sub : Sub) : (s.handAll hs).oscAt sub = s.oscAt sub := rfl
@[simp] theorem State.readingAt_handAll (s : State) (hs : List Handed) (sub : Sub) : (s.handAll hs).readingAt sub = s.readingAt sub := rfl
@[simp] theorem State.running_withDtu (s : State) (d : Dtu) : (s.withDtu d).running = s.running := rfl
@[simp] theorem State.oscAt_withDtu (s : State) (d : Dtu) (sub : Sub) : (s.withDtu d).oscAt sub = s.oscAt sub := rfl
@[simp] theorem State.readingAt_withDtu (s : State) (d : Dtu) (sub : Sub) : (s.withDtu d).readingAt sub = s.readingAt sub := rfl
@[simp] theorem State.running_withJournal (s : State) (j : Journal) : (s.withJournal j).running = s.running := rfl
@[simp] theorem State.oscAt_withJournal (s : State) (j : Journal) (sub : Sub) : (s.withJournal j).oscAt sub = s.oscAt sub := rfl
@[simp] theorem State.readingAt_withJournal (s : State) (j : Journal) (sub : Sub) : (s.withJournal j).readingAt sub = s.readingAt sub := rfl
@[simp] theorem State.running_withAuction (s : State) (a : AuctionTimer) : (s.withAuction a).running = s.running := rfl
@[simp] theorem State.oscAt_withAuction (s : State) (a : AuctionTimer) (sub : Sub) : (s.withAuction a).oscAt sub = s.oscAt sub := rfl
@[simp] theorem State.readingAt_withAuction (s : State) (a : AuctionTimer) (sub : Sub) : (s.withAuction a).readingAt sub = s.readingAt sub := rfl
@[simp] theorem State.running_withAgent (s : State) (a : Agent) : (s.withAgent a).running = s.running := rfl
@[simp] theorem State.oscAt_withAgent (s : State) (a : Agent) (sub : Sub) : (s.withAgent a).oscAt sub = s.oscAt sub := rfl
@[simp] theorem State.readingAt_withAgent (s : State) (a : Agent) (sub : Sub) : (s.withAgent a).readingAt sub = s.readingAt sub := rfl
@[simp] theorem State.running_withSignal (s : State) (b : SignalBlock) : (s.withSignal b).running = s.running := rfl
@[simp] theorem State.oscAt_withSignal (s : State) (b : SignalBlock) (sub : Sub) : (s.withSignal b).oscAt sub = s.oscAt sub := rfl
@[simp] theorem State.readingAt_withSignal (s : State) (b : SignalBlock) (sub : Sub) : (s.withSignal b).readingAt sub = s.readingAt sub := rfl
@[simp] theorem State.running_withTable (s : State) (t : MatchTable) : (s.withTable t).running = s.running := rfl
@[simp] theorem State.oscAt_withTable (s : State) (t : MatchTable) (sub : Sub) : (s.withTable t).oscAt sub = s.oscAt sub := rfl
@[simp] theorem State.readingAt_withTable (s : State) (t : MatchTable) (sub : Sub) : (s.withTable t).readingAt sub = s.readingAt sub := rfl

@[simp] theorem State.withChan_withChan (s : State) (ch : Channel) (c d : RefChannel) : (s.withChan ch c).withChan ch d = s.withChan ch d := by
  cases ch <;> rfl

@[simp] theorem State.withLane_lane (s : State) (l : LaneId) : s.withLane l (s.lane l) = s := by
  simp [State.withLane, State.lane]

@[simp] theorem State.withPort_port (s : State) (p : Port) : s.withPort p (s.port p) = s := by
  simp [State.withPort, State.port]

end Sys2Proof.Machine
end

