-- ==== Sys2Proof/Laws/Only.lean ====
section
/-! SUPPORT. Which blocks each shared operation can change: one lemma per operation. What the lemma does not name is unchanged. -/

namespace Sys2Proof.Machine

/-! ### Time Base -/

theorem State.applyOffset_only (s : State) (change : OffsetChange) (t : Instant) :
    ∃ time journal, s.applyOffset change t = { s with time := time, journal := journal } := ⟨_, _, rfl⟩

theorem State.takeSchedule_only (s : State) (change : OffsetChange) (t : Instant) :
    ∃ time journal, s.takeSchedule change t = { s with time := time, journal := journal } := by
  unfold State.takeSchedule; split
  · exact s.applyOffset_only change t
  · exact ⟨_, s.journal, rfl⟩

theorem State.countTick_only (s : State) :
    ∃ osc time lanes, s.countTick = { s with osc := osc, time := time, lanes := lanes } := by
  cases s; exact ⟨_, _, _, rfl⟩

theorem State.stepTick_only (s : State) (r : StepRequest) (rest : List StepRequest) :
    ∃ osc time dtu lanes journal,
      s.stepTick r rest = { s with osc := osc, time := time, dtu := dtu, lanes := lanes, journal := journal } := by
  cases s; exact ⟨_, _, _, _, _, rfl⟩

/-! ### Markers -/

theorem State.placeMarker_only (s : State) (l : LaneId) (r : MarkerRequest) :
    ∃ lanes ports, s.placeMarker l r = { s with lanes := lanes, ports := ports } := by
  unfold State.placeMarker
  dsimp only
  split
  · exact ⟨_, s.ports, rfl⟩
  · split
    · exact ⟨_, _, rfl⟩
    · exact ⟨_, s.ports, rfl⟩

theorem State.placeMarkers_only (s : State) (l : LaneId) (rs : List MarkerRequest) :
    ∃ lanes ports, s.placeMarkers l rs = { s with lanes := lanes, ports := ports } := by
  induction rs generalizing s with
  | nil => exact ⟨s.lanes, s.ports, rfl⟩
  | cons r rs ih =>
    obtain ⟨a, b, h⟩ := s.placeMarker_only l r
    obtain ⟨c, d, h'⟩ := ih (s.placeMarker l r)
    exact ⟨c, d, h'.trans (by rw [h])⟩

theorem State.placeWaiting_only (s : State) (l : LaneId) (f : MarkerRequest → Bool) (order : Order) :
    ∃ lanes ports, s.placeWaiting l f order = { s with lanes := lanes, ports := ports } :=
  State.placeMarkers_only (s.withLane l _) l _

theorem State.dealRequest_only (s : State) (l : LaneId) (r : MarkerRequest) (t : Instant) :
    ∃ lanes ports, s.dealRequest l r t = { s with lanes := lanes, ports := ports } := by
  unfold State.dealRequest
  split <;> (repeat' split) <;>
    first
    | exact s.placeMarker_only l r
    | exact ⟨_, s.ports, rfl⟩

theorem State.takeRequest_only (s : State) (l : LaneId) (r : MarkerRequest) (t : Instant) :
    ∃ lanes ports, s.takeRequest l r t = { s with lanes := lanes, ports := ports } := by
  unfold State.takeRequest
  dsimp only
  split
  · exact State.dealRequest_only (s.withLane l _) l r t
  · exact ⟨_, s.ports, rfl⟩

theorem State.askLanes_only (s : State) (mask : BitVec 4) (r : MarkerRequest) (t : Instant) :
    ∃ lanes ports, s.askLanes mask r t = { s with lanes := lanes, ports := ports } := by
  unfold State.askLanes
  generalize List.finRange 4 = ls
  induction ls generalizing s with
  | nil => exact ⟨s.lanes, s.ports, rfl⟩
  | cons l ls ih =>
    rw [List.foldl_cons]
    split
    · obtain ⟨a, b, h⟩ := s.takeRequest_only l r t
      rw [h]
      exact ih _
    · exact ih s

theorem State.reachMarkerPoint_only (s : State) (l : LaneId) (order : Order) :
    ∃ lanes ports, s.reachMarkerPoint l order = { s with lanes := lanes, ports := ports } := by
  unfold State.reachMarkerPoint
  dsimp only
  split
  · exact s.placeWaiting_only l _ order
  · exact ⟨_, s.ports, rfl⟩

/-! ### Auction Timer -/

theorem State.revealSeed_only (s : State) (t : Instant) :
    ∃ auction journal, s.revealSeed t = { s with auction := auction, journal := journal } := by
  unfold State.revealSeed
  split
  · exact ⟨_, _, rfl⟩
  · exact ⟨s.auction, s.journal, rfl⟩

theorem State.fireClose_only (s : State) (g : Group) (c : Instant) (draw : Draw) (t : Instant) :
    ∃ auction journal signal lanes ports,
      s.fireClose g c draw t = { s with auction := auction, journal := journal, signal := signal, lanes := lanes, ports := ports } := by
  unfold State.fireClose
  dsimp only
  generalize hs : ((s.withGroup g _).hand c _).withSignal _ = u
  obtain ⟨lanes, ports, h⟩ := u.askLanes_only (s.askedLanes (s.group g).lanes) ((s.group g).request g c s.dtu.quality) t
  rw [h]
  split
  · subst hs; exact ⟨_, _, _, lanes, ports, rfl⟩
  · obtain ⟨a, j, h'⟩ := State.revealSeed_only { u with lanes := lanes, ports := ports } t
    rw [h']
    subst hs; exact ⟨a, j, _, lanes, ports, rfl⟩

theorem State.resumeGroup_only (s : State) (g : Group) (t : Instant) :
    ∃ auction journal, s.resumeGroup g t = { s with auction := auction, journal := journal } := ⟨_, _, rfl⟩

theorem State.suspendGroup_only (s : State) (g : Group) (c : Instant) (draw : Draw) (t : Instant) :
    ∃ auction journal, s.suspendGroup g c draw t = { s with auction := auction, journal := journal } := by
  unfold State.suspendGroup
  dsimp only
  split <;> exact ⟨_, _, rfl⟩

theorem State.decideClose_only (s : State) (g : Group) (t : Instant) :
    ∃ auction journal signal lanes ports,
      s.decideClose g t = { s with auction := auction, journal := journal, signal := signal, lanes := lanes, ports := ports } := by
  unfold State.decideClose
  dsimp only
  split
  · split
    · exact s.fireClose_only g _ _ t
    · split
      · exact s.fireClose_only g _ _ t
      · obtain ⟨a, j, h⟩ := s.suspendGroup_only g _ _ t
        exact ⟨a, j, s.signal, s.lanes, s.ports, h⟩
  · exact ⟨s.auction, s.journal, s.signal, s.lanes, s.ports, rfl⟩

theorem State.openWindow_only (s : State) (g : Group) (drawInstant reading : Instant) :
    ∃ auction journal signal lanes ports,
      s.openWindow g drawInstant reading =
        { s with auction := auction, journal := journal, signal := signal, lanes := lanes, ports := ports } := by
  unfold State.openWindow
  dsimp only
  split
  · split
    · exact (s.withGroup g _).decideClose_only g reading
    · exact ⟨_, s.journal, s.signal, s.lanes, s.ports, rfl⟩
  · exact ⟨_, s.journal, s.signal, s.lanes, s.ports, rfl⟩

/-! ### DTU and reference channels -/

theorem State.withEffect_only (s : State) (e : DtuEffect) :
    ∃ time dtu, s.withEffect e = { s with time := time, dtu := dtu } := ⟨_, _, rfl⟩

theorem State.takeEffect_only (s : State) (e : DtuEffect) :
    ∃ time dtu journal, s.takeEffect e = { s with time := time, dtu := dtu, journal := journal } := ⟨_, _, _, rfl⟩

theorem State.deliverEdge_only (s : State) (r : EdgeRecord) (t : Instant) (osc : Nat) (order : Order) :
    ∃ time dtu auction journal,
      s.deliverEdge r t osc order = { s with time := time, dtu := dtu, auction := auction, journal := journal } := by
  unfold State.deliverEdge
  dsimp only
  split
  · exact ⟨_, _, _, _, rfl⟩
  · exact ⟨_, _, s.auction, _, rfl⟩

theorem State.withChan_only (s : State) (ch : Channel) (c : RefChannel) :
    ∃ a b, s.withChan ch c = { s with chanA := a, chanB := b } := by
  cases ch
  · exact ⟨c, s.chanB, rfl⟩
  · exact ⟨s.chanA, c, rfl⟩

theorem State.qualifyEdge_only (s : State) (ch : Channel) (edge : FilterEdge) (t : Instant) (osc : Nat) (order : Order) :
    ∃ time a b dtu auction journal,
      s.qualifyEdge ch edge t osc order =
        { s with time := time, chanA := a, chanB := b, dtu := dtu, auction := auction, journal := journal } := by
  have stays (c : RefChannel) : ∃ time a b dtu auction journal,
      s.withChan ch c = { s with time := time, chanA := a, chanB := b, dtu := dtu, auction := auction, journal := journal } := by
    obtain ⟨a, b, h⟩ := s.withChan_only ch c
    exact ⟨s.time, a, b, s.dtu, s.auction, s.journal, h⟩
  unfold State.qualifyEdge
  dsimp only
  split
  · exact stays _
  · exact stays _
  · exact stays _
  · split
    · rename_i r _
      generalize (RefChannel.label _ ch edge).channel = c
      obtain ⟨a, b, h⟩ := s.withChan_only ch c
      obtain ⟨ti, d, au, j, h'⟩ := (s.withChan ch c).deliverEdge_only r t osc order
      exact ⟨ti, a, b, d, au, j, h'.trans (by rw [h])⟩
    · exact stays _

theorem State.scheduleLeap_only (s : State) (ch : Channel) (change : OffsetChange) (t : Instant) :
    ∃ time a b journal, s.scheduleLeap ch change t = { s with time := time, chanA := a, chanB := b, journal := journal } := by
  unfold State.scheduleLeap
  split
  · obtain ⟨ti, j, h⟩ := s.takeSchedule_only change t
    exact ⟨ti, s.chanA, s.chanB, j, h⟩
  · obtain ⟨a, b, h⟩ := s.withChan_only ch _
    exact ⟨s.time, a, b, s.journal, h⟩

theorem State.validateMessage_only (s : State) (ch : Channel) (bytes : List Byte) (completion : Nat) (t : Instant) :
    ∃ time a b journal,
      s.validateMessage ch bytes completion t = { s with time := time, chanA := a, chanB := b, journal := journal } := by
  have chans (u : State) (c : RefChannel) : ∃ time a b journal,
      u.withChan ch c = { u with time := time, chanA := a, chanB := b, journal := journal } := by
    obtain ⟨a, b, h⟩ := u.withChan_only ch c
    exact ⟨u.time, a, b, u.journal, h⟩
  unfold State.validateMessage
  dsimp only
  split
  · exact chans s _
  · split
    · generalize s.withChan ch _ = valid, s.withChan_only ch _ = hv
      obtain ⟨a, b, hv⟩ := hv
      split
      · rename_i change _
        obtain ⟨ti, a', b', j, h⟩ := valid.scheduleLeap_only ch change t
        obtain ⟨ti2, a2, b2, j2, h2⟩ := chans (valid.scheduleLeap ch change t) _
        exact ⟨ti2, a2, b2, j2, h2.trans (by rw [h, hv])⟩
      · obtain ⟨ti2, a2, b2, j2, h2⟩ := chans valid _
        exact ⟨ti2, a2, b2, j2, h2.trans (by rw [hv])⟩
    · exact chans s _

/-! ### Ports -/

theorem State.testHigh_only (s : State) (p : Port) (osc : Nat) : ∃ ports, s.testHigh p osc = { s with ports := ports } := by
  unfold State.testHigh
  split
  · exact ⟨_, rfl⟩
  · exact ⟨s.ports, rfl⟩

theorem State.testLow_only (s : State) (p : Port) : ∃ ports, s.testLow p = { s with ports := ports } := by
  unfold State.testLow
  split
  · exact ⟨_, rfl⟩
  · exact ⟨s.ports, rfl⟩

theorem State.testEpisode_only (s : State) (p : Port) (t : Instant) :
    ∃ ports journal, s.testEpisode p t = { s with ports := ports, journal := journal } := by
  unfold State.testEpisode
  split
  · split
    · exact ⟨_, _, rfl⟩
    · exact ⟨s.ports, s.journal, rfl⟩
  · exact ⟨s.ports, s.journal, rfl⟩

theorem State.afterFall_only (s : State) (p : Port) (t : Instant) :
    ∃ ports journal, s.afterFall p t = { s with ports := ports, journal := journal } := by
  obtain ⟨a, h⟩ := s.testLow_only p
  obtain ⟨b, j, h'⟩ := (s.testLow p).testEpisode_only p t
  exact ⟨b, j, h'.trans (by rw [h])⟩

theorem State.dropFrame_only (s : State) (p : Port) (t : Instant) :
    ∃ ports journal, s.dropFrame p t = { s with ports := ports, journal := journal } := by
  unfold State.dropFrame
  dsimp only
  split
  · exact ⟨_, s.journal, rfl⟩
  · exact ⟨_, _, rfl⟩

theorem State.offerFrame_only (s : State) (p : Port) (bytes : List Byte) (detection : DetectionRecord) (t : Instant) (osc : Nat) :
    ∃ ports journal, s.offerFrame p bytes detection t osc = { s with ports := ports, journal := journal } := by
  unfold State.offerFrame
  split
  · obtain ⟨a, h⟩ := (s.withPort p { s.port p with fifo := (s.port p).fifo ++ [.frame bytes detection] }).testHigh_only p osc
    exact ⟨a, s.journal, h⟩
  · exact s.dropFrame_only p t

theorem State.noteAnswered_only (s : State) (frame : OwnFrame) : ∃ agent, s.noteAnswered frame = { s with agent := agent } := by
  unfold State.noteAnswered
  split
  · exact ⟨_, rfl⟩
  · exact ⟨s.agent, rfl⟩

theorem State.endTransmission_only (s : State) (p : Port) (t : Instant) :
    ∃ ports journal agent, s.endTransmission p t = { s with ports := ports, journal := journal, agent := agent } := by
  unfold State.endTransmission
  dsimp only
  split
  · split
    · exact ⟨_, s.journal, s.agent, rfl⟩
    · obtain ⟨a, j, h⟩ := (s.withPort p _).afterFall_only p t
      exact ⟨a, j, s.agent, h⟩
  · obtain ⟨a, h⟩ := (s.withPort p _).noteAnswered_only _
    exact ⟨_, s.journal, a, h⟩
  · exact ⟨s.ports, s.journal, s.agent, rfl⟩

theorem State.linkLost_only (s : State) (p : Port) (t : Instant) (order : Order) :
    ∃ ports journal lanes, s.linkLost p t order = { s with ports := ports, journal := journal, lanes := lanes } := by
  have fallen (u : State) (b : Bool) : ∃ ports journal,
      (if b = true then u.afterFall p t else u) = { u with ports := ports, journal := journal } := by
    split
    · exact u.afterFall_only p t
    · exact ⟨u.ports, u.journal, rfl⟩
  have noted : ∃ ports journal,
      (if order.headD 0 % 2 = 0 then
        (if (s.port p).abortFalls = true then ((s.withPort p (s.port p).cut).noteLink p false t).afterFall p t
         else (s.withPort p (s.port p).cut).noteLink p false t)
       else (if (s.port p).abortFalls = true then (s.withPort p (s.port p).cut).afterFall p t
         else s.withPort p (s.port p).cut).noteLink p false t) = { s with ports := ports, journal := journal } := by
    split
    · obtain ⟨a, j, h⟩ := fallen ((s.withPort p (s.port p).cut).noteLink p false t) (s.port p).abortFalls
      exact ⟨a, j, h⟩
    · obtain ⟨a, j, h⟩ := fallen (s.withPort p (s.port p).cut) (s.port p).abortFalls
      rw [h]
      exact ⟨_, _, rfl⟩
  obtain ⟨a, j, h⟩ := noted
  unfold State.linkLost
  dsimp only
  rw [h]
  split
  · obtain ⟨l, b, h'⟩ := State.placeWaiting_only { s with ports := a, journal := j } (laneOf p) (fun r => r.afterFrame) order.tail
    exact ⟨b, j, l, h'⟩
  · exact ⟨a, j, s.lanes, rfl⟩

/-! ### Frames -/

theorem State.startFrame_only (s : State) (p : Port) (t : Instant) (order : Order) :
    ∃ lanes ports, s.startFrame p t order = { s with lanes := lanes, ports := ports } := by
  unfold State.startFrame
  dsimp only
  split
  · exact (s.withPort p _).placeWaiting_only _ _ order
  · exact ⟨s.lanes, _, rfl⟩

theorem State.endOrder_only (s : State) (p : Port) (f : Reception) (frame : List Byte) (t : Instant) (osc : Nat) :
    ∃ lanes ports table journal,
      s.endOrder p f frame t osc = { s with lanes := lanes, ports := ports, table := table, journal := journal } := by
  unfold State.endOrder
  split
  · exact ⟨s.lanes, s.ports, s.table, s.journal, rfl⟩
  · dsimp only
    split
    · obtain ⟨a, j, h⟩ := ((s.withTable _).withLane (laneOf p) _).offerFrame_only (mate p) frame f.detection t osc
      exact ⟨_, a, _, j, h⟩
    · obtain ⟨a, j, h⟩ := (((s.withTable _).withLane (laneOf p) _).withLane (laneOf p) _).offerFrame_only (mate p) _ f.detection t osc
      exact ⟨_, a, _, j, h⟩

theorem State.endOrdinary_only (s : State) (p : Port) (f : Reception) (frame : List Byte) (t : Instant) (osc : Nat) :
    ∃ lanes ports table journal,
      s.endOrdinary p f frame t osc = { s with lanes := lanes, ports := ports, table := table, journal := journal } := by
  unfold State.endOrdinary
  split
  · split
    · exact s.endOrder_only p f frame t osc
    · obtain ⟨a, j, h⟩ := (s.withLane (laneOf p) _).offerFrame_only (mate p) frame f.detection t osc
      exact ⟨_, a, s.table, j, h⟩
  · obtain ⟨a, j, h⟩ := s.offerFrame_only (mate p) frame f.detection t osc
    exact ⟨s.lanes, a, s.table, j, h⟩

theorem State.dispose_only (s : State) (p : Port) (f : Reception) (frame : List Byte) (c : FrameClass) (t : Instant) (osc : Nat) :
    ∃ lanes ports table journal agent,
      s.dispose p f frame c t osc =
        { s with lanes := lanes, ports := ports, table := table, journal := journal, agent := agent } := by
  unfold State.dispose
  split
  case h_1 => exact ⟨s.lanes, s.ports, s.table, s.journal, s.agent, rfl⟩
  case h_2 => exact ⟨s.lanes, s.ports, s.table, s.journal, s.agent, rfl⟩
  case h_3 => exact ⟨s.lanes, s.ports, s.table, s.journal, s.agent, rfl⟩
  case h_4 => exact ⟨s.lanes, s.ports, s.table, s.journal, _, rfl⟩
  case h_5 =>
    split
    · exact ⟨s.lanes, _, s.table, s.journal, s.agent, rfl⟩
    · exact ⟨s.lanes, s.ports, s.table, s.journal, s.agent, rfl⟩
  case h_6 =>
    obtain ⟨a, j, h⟩ := s.offerFrame_only (mate p) frame f.detection t osc
    exact ⟨s.lanes, a, s.table, j, s.agent, h⟩
  case h_7 =>
    obtain ⟨l, a, tb, j, h⟩ := s.endOrdinary_only p f frame t osc
    exact ⟨l, a, tb, j, s.agent, h⟩

theorem State.endFrame_only (s : State) (p : Port) (f : Reception) (frame : List Byte) (receiveError : Bool) (t : Instant) (osc : Nat)
    (order : Order) :
    ∃ lanes ports table journal agent,
      s.endFrame p f frame receiveError t osc order =
        { s with lanes := lanes, ports := ports, table := table, journal := journal, agent := agent } := by
  unfold State.endFrame
  dsimp only
  obtain ⟨l, a, tb, j, ag, h⟩ := (s.withPort p _).dispose_only p f frame (f.classOf frame receiveError) t osc
  rw [h]
  split
  · obtain ⟨l', a', h'⟩ := State.placeWaiting_only _ (laneOf p) (fun r => r.afterFrame) order
    exact ⟨l', a', tb, j, ag, h'⟩
  · exact ⟨l, a, tb, j, ag, rfl⟩

/-! ### Management -/

theorem State.emptySlot_only (s : State) (p : Port) : ∃ agent, s.emptySlot p = { s with agent := agent } := ⟨_, rfl⟩

theorem State.offerResponse_only (s : State) (p : Port) (bytes : List Byte) (ofRestart : Bool) :
    ∃ ports agent, s.offerResponse p bytes ofRestart = { s with ports := ports, agent := agent } := by
  unfold State.offerResponse
  split
  · exact ⟨_, _, rfl⟩
  · exact ⟨s.ports, _, rfl⟩

theorem State.respond_only (s : State) (q : Take) (status : Status) (body : List Byte) (ofRestart : Bool) :
    ∃ ports agent, s.respond q status body ofRestart = { s with ports := ports, agent := agent } :=
  s.offerResponse_only _ _ _

theorem State.testWatermarks_only (s : State) (l : LaneId) (osc : Nat) :
    ∃ ports, s.testWatermarks l osc = { s with ports := ports } := by
  obtain ⟨a, ha⟩ := s.testHigh_only (enginePort l) osc
  obtain ⟨b, hb⟩ := (s.testHigh (enginePort l) osc).testLow_only (enginePort l)
  obtain ⟨c, hc⟩ := ((s.testHigh (enginePort l) osc).testLow (enginePort l)).testHigh_only (gatewayPort l) osc
  obtain ⟨d, hd⟩ := (((s.testHigh (enginePort l) osc).testLow (enginePort l)).testHigh (gatewayPort l) osc).testLow_only (gatewayPort l)
  exact ⟨d, hd.trans (by rw [hc, hb, ha])⟩

theorem State.loadGroup_only (s : State) (b : ScheduleBody) (t : Instant) :
    ∃ auction journal signal lanes ports,
      s.loadGroup b t = { s with auction := auction, journal := journal, signal := signal, lanes := lanes, ports := ports } := by
  unfold State.loadGroup
  dsimp only
  split
  · exact (s.withGroup b.group _).openWindow_only b.group t t
  · exact ⟨_, s.journal, s.signal, s.lanes, s.ports, rfl⟩

theorem State.rollDay_only (s : State) (t : Instant) :
    ∃ auction journal, s.rollDay t = { s with auction := auction, journal := journal } := by
  obtain ⟨a, j, h⟩ := s.revealSeed_only t
  unfold State.rollDay
  dsimp only
  rw [h]
  exact ⟨_, _, rfl⟩

end Sys2Proof.Machine
end

