-- ==== Sys2Proof/Laws/Takes.lean ====
section
/-! SUPPORT. The take of a command, said once: what a row does where the request next taken is judged to be its command, and where it is not. -/

namespace Sys2Proof.Machine

/-- Where the request next taken is the command, the row serves it (R174, R176, R177). -/
theorem State.takeCommand_of_takes {s : State} {sub : Sub} {q : Take} {c : Command} (apply : Take → State → Reply) (h : s.Takes sub q c) :
    s.takeCommand c sub apply = s.serve q apply (c == .restart) := by
  obtain ⟨h1, h2⟩ := h
  simp [State.takeCommand, h1, h2]

/-- Where it is not, the row leaves the state as it is (log entry 8). -/
theorem State.takeCommand_of_not {s : State} {sub : Sub} {c : Command} (apply : Take → State → Reply) (h : ∀ q, ¬ s.Takes sub q c) :
    s.takeCommand c sub apply = s := by
  unfold State.takeCommand
  split
  · rename_i q hq
    split
    · rename_i hj; exact absurd ⟨hq, hj⟩ (h q)
    · rfl
  · rfl

/-- A row of a command either serves the request next taken or leaves the state as it is. -/
theorem State.takeCommand_cases (s : State) (c : Command) (sub : Sub) (apply : Take → State → Reply) :
    (∃ q, s.Takes sub q c ∧ s.takeCommand c sub apply = s.serve q apply (c == .restart)) ∨ s.takeCommand c sub apply = s := by
  by_cases h : ∃ q, s.Takes sub q c
  · obtain ⟨q, hq⟩ := h; exact .inl ⟨q, hq, State.takeCommand_of_takes apply hq⟩
  · exact .inr (State.takeCommand_of_not apply fun q hq => h ⟨q, hq⟩)

@[simp] theorem groupNamed_val (g : Group) : groupNamed g.val = some g := by simp [groupNamed]
@[simp] theorem laneNamed_val (l : LaneId) : laneNamed l.val = some l := by simp [laneNamed]
@[simp] theorem bankNamed_val (b : Fin 2) : bankNamed b.val = some b := by simp only [bankNamed, dif_pos b.isLt]
@[simp] theorem indexNamed_val (i : Fin 64) : indexNamed i.val = some i := by simp [indexNamed]

theorem groupNamed_of_le {n : Nat} (h : 16 ≤ n) : groupNamed n = none := by simp [groupNamed, Nat.not_lt.mpr h]
theorem laneNamed_of_le {n : Nat} (h : 4 ≤ n) : laneNamed n = none := by simp [laneNamed, Nat.not_lt.mpr h]
theorem bankNamed_of_le {n : Nat} (h : 2 ≤ n) : bankNamed n = none := by simp [bankNamed, Nat.not_lt.mpr h]
theorem indexNamed_of_le {n : Nat} (h : 64 ≤ n) : indexNamed n = none := by simp [indexNamed, Nat.not_lt.mpr h]

end Sys2Proof.Machine
end

