-- ==== Sys2Proof/Tests/Slice0.lean ====
section
/-! SUPPORT. Checks of the model against the worked examples of the manual, the refusals of WellFormed, and a state that meets the hypotheses of each
statement. Every expected value is the manual's or is computed by hand from its rule. -/

namespace Sys2Proof.Tests

open Sys2Proof.Machine

set_option Elab.async false

/-! ### Small states -/

/-- The state after a command. -/
def after (c : Instr) (s : State) : State :=
  match exec c s with
  | .next t => t
  | _ => s

/-- A state at a device time. -/
def dated (sec ns : Nat) (s : State) : State := s.withTime { s.time with sec := sec, ns := ns }

/-- A state at an oscillator tick. -/
def ticking (osc : Nat) (s : State) : State := { s with osc := osc }

/-- A state whose DTU is changed. -/
def withDtu (f : Dtu → Dtu) (s : State) : State := s.withDtu (f s.dtu)

/-- A state whose DTU stands in a state. -/
def inDState (d : DState) (s : State) : State := withDtu (fun x => { x with state := d }) s

/-- A state with a change to one group. -/
def withGroup (g : Group) (f : GroupRecord → GroupRecord) (s : State) : State := s.withGroup g (f (s.group g))

/-- A state with a change to one port. -/
def withPort (p : Port) (f : PortState → PortState) (s : State) : State := s.withPort p (f (s.port p))

/-- A state with a change to one lane. -/
def withLane (l : LaneId) (f : Lane → Lane) (s : State) : State := s.withLane l (f (s.lane l))

/-- A state with a change to reference channel A. -/
def withA (f : RefChannel → RefChannel) (s : State) : State := s.withChan .A (f s.chanA)

/-- A state with a change to a seed slot. -/
def seeded (slot : SeedSlot) (s : State) : State := s.withAuction { s.auction with seed := slot }

/-- A request frame of 64 bytes: header of section 10.8, body, zeros. -/
def request (version kind code bodyLength : Nat) (body : List Byte) : List Byte :=
  padTo 64
    (beBytes 6 0x025747420000 ++ beBytes 6 0x020000000001 ++ beBytes 2 0x88B5 ++ beBytes 1 version ++ beBytes 1 kind ++
      beBytes 1 code ++ [0] ++ beBytes 2 0x1234 ++ beBytes 2 bodyLength ++ body)

/-- A well-formed request of a command. -/
def requestOf (c : Command) (body : List Byte) : List Byte := request 1 1 c.code.toNat body.length body

/-- A state with a frame in the slot of G0. -/
def slotted (frame : List Byte) (s : State) : State := s.withAgentPort 0 { s.agentPort 0 with slot := some frame }

/-- A state with a request in the slot of G0, which holds Configure after reset. -/
def asked (c : Command) (body : List Byte) (s : State) : State := slotted (requestOf c body) s

/-- The take of that request. -/
def takeOf (c : Command) (body : List Byte) (s : State) : Take :=
  { port := 0, level := .configure, frame := requestOf c body, now := s.readingAt 0, osc := s.oscAt 0 }

/-- The status of the last frame in the own-frame queue of G0: byte 17 of a response (section 10.8). -/
def answered (s : State) : Option Byte :=
  match (s.port 0).own.getLast? with
  | some (.response bytes _) => bytes[17]?
  | _ => none

/-- The body of the last response in the own-frame queue of G0, as long as its length field says. -/
def answer (s : State) : List Byte :=
  match (s.port 0).own.getLast? with
  | some (.response bytes _) => slice bytes 22 (fieldNat bytes 20 2)
  | _ => []

/-- The payload of the newest record. -/
def newest (s : State) : Option Payload := s.journal.retained.getLast?.map fun r => r.body.payload

/-! ### WellFormed refuses ill-formed commands -/

theorem test_wf_header : Instr.WellFormed (.etherTypeReceived 0 (List.replicate 13 0)) = false := by decide
theorem test_wf_oversize : Instr.WellFormed (.oversizeDetected 0 []) = false := by decide
theorem test_wf_point_empty : Instr.WellFormed (.classificationPoint 0 []) = false := by decide
theorem test_wf_point_long : Instr.WellFormed (.classificationPoint 0 (List.replicate 65 0)) = false := by decide
theorem test_wf_frame_end : Instr.WellFormed (.frameEnd 0 (List.replicate 9217 0) false 0 []) = false := by decide +kernel
theorem test_wf_good : Instr.WellFormed (.frameEnd 0 (List.replicate 64 0) false 0 []) = true := by decide

/-! ### The queue and the table word -/

theorem test_no_row_has_bits : decodeTableWord 16 0x1234 = none := rfl
theorem test_empty_queue_idles : step State.reset = .next State.reset := rfl

/-! ### Power and resets -/

theorem test_power_on_released :
    (after (.powerOnResetRelease resetStraps true true) (ticking 1024 (after .powerOnReset State.reset))).journal.next = 2 := by
  decide +kernel
theorem test_power_on_held :
    (after (.powerOnResetRelease resetStraps true true) (ticking 1023 (after .powerOnReset State.reset))).phase = .powerOn := by
  decide +kernel
theorem test_power_loss : (after .powerLoss State.reset).phase = .off := by decide +kernel
/-- The records of the manual's warm reset (section 11.3, Example: records around a warm reset), at the assertion: the journal's newest is the LaneOverflow. -/
theorem test_warm_assert :
    newest (after (.warmResetAssert 250000 0 []) (withPort 7 (fun p => { p with episode := some { drops := 5, openedBelow := false } }) (seeded (.committed 7) State.reset))) =
      some (.laneOverflow 3 7 true 5 true) := by decide +kernel
/-- The same example at the release: TRACEABLE with D = 1,250 ns comes back in HOLDOVER. -/
theorem test_warm_release :
    (after (.warmResetRelease resetStraps 0 []) { inDState .traceable (withDtu (fun d => { d with bound := 1250 }) State.reset) with
      phase := .warm { byCommand := false, pinLow := true, commandEnd := none } }).dtu.state = .holdover := by decide +kernel
theorem test_restart_assert :
    (after (.restartResetAssert 0 []) (State.reset.withAgent { State.reset.agent with restart := some { takenAt := 0, answered := true } })).phase =
      .warm { byCommand := true, pinLow := false, commandEnd := some 1008192 } := by decide +kernel
theorem test_restart_hold_end :
    (after (.restartHoldEnd resetStraps 0 []) { ticking 125000 State.reset with
      phase := .warm { byCommand := true, pinLow := false, commandEnd := some 1000000 } }).phase = .running := by decide +kernel

/-! ### The Time Base -/

/-- The worked case of section 1.2: r = −650 fu. -/
theorem test_addend : addendOf (-650) = 34359736972 := by decide +kernel
theorem test_tick_carries : (after .tick (dated 5 999999992 State.reset)).time.now = { sec := 6, ns := 0 } := by decide +kernel
theorem test_tick_wraps : (after .tick (dated 281474976710655 999999992 State.reset)).time.now = { sec := 0, ns := 0 } := by decide +kernel

/-- A state in which a step of `amount` waits. -/
def stepping (amount : Int) (s : State) : State := s.withTime { s.time with steps := [{ source := .command, amount := amount }] }

/-- R6's examples: the advanced value is (1,000 s, 400,000,000 ns). -/
theorem test_step_back : (after .stepApplied (stepping (-600000000) (dated 1000 399999992 State.reset))).time.now = { sec := 999, ns := 800000000 } := by
  decide +kernel
theorem test_step_forward : (after .tick (stepping 1700000000 (dated 1000 399999992 State.reset))).time.now = { sec := 1002, ns := 100000000 } := by
  decide +kernel
/-- R7's example: from an advanced value of (2 s, 100 ns), −5,000,000,000 ns is saturated. -/
theorem test_step_saturates : newest (after .stepApplied (stepping (-5000000000) (dated 2 92 State.reset))) =
    some (.step .command (-5000000000) (-2000000100) true) := by decide +kernel

/-- The leap second of section 1.4: 37 becomes 38 at (1,003 s, 0 ns). -/
def leaping (s : State) : State :=
  s.withTime { s.time with utcOffset := 37, pendingOffset := some { newOffset := 38, effective := { sec := 1003, ns := 0 }, source := .reference .A } }
theorem test_offset_read : (leaping State.reset).time.offsetAt { sec := 1002, ns := 999999999 } = 37 ∧
    (leaping State.reset).time.offsetAt { sec := 1003, ns := 0 } = 38 := by decide +kernel
theorem test_offset_change : newest (after .offsetChange (leaping (dated 1003 0 State.reset))) =
    some (.offsetChange 37 38 { sec := 1003, ns := 0 } (.reference .A)) := by decide +kernel

/-- A state whose PPS output is set. -/
def withPps (f : Pps → Pps) (s : State) : State := s.withTime { s.time with pps := f s.time.pps }
/-- R13: a compensation of 2,000 ns puts the pulse point of second 10 at (9 s, 999,998,000 ns). -/
theorem test_pulse_point : (after .tick (withPps (fun p => { p with compensation := 2000 }) (dated 9 999997992 State.reset))).time.pps.due = some 10 := by
  decide +kernel
theorem test_pulse_driven :
    (after .pulsePointReached (withPps (fun p => { p with mode := .always, due := some 10 }) State.reset)).time.pps.pulseEnd = some 13524 := by decide +kernel
theorem test_pulse_end : (after .ppsPulseEnd (withPps (fun p => { p with pulseEnd := some 1024 }) State.reset)).ppsPin = false := by decide +kernel

/-! ### Reference channels -/

/-- R28's two reference values. -/
theorem test_check_zero : check [0x00] = 0xE1F0#16 := by decide +kernel
theorem test_check_digits : check [0x31, 0x32, 0x33, 0x34, 0x35, 0x36, 0x37, 0x38, 0x39] = 0x29B1#16 := by decide +kernel

/-- An edge in the filter of channel A, captured at an instant and risen at an oscillator time. -/
def filtering (sec ns risen : Nat) (s : State) : State :=
  withA (fun c => { c with filter := some { capture := { sec := sec, ns := ns }, risen := risen, width := 64 } }) s
/-- A state at which the edges of these tests have stood for their filter width. -/
def settled (s : State) : State := ticking 200000000000 s

/-- Section 2.3's example: cable compensation 3,500 ns, captured at (512 s, 4,600 ns). -/
def example512 (s : State) : State := settled (withA (fun c => { c with settings := { c.settings with cable := 3500 } }) (filtering 512 4600 1000 s))
theorem test_window_traceable : (after (.edgeQualified .A 0 []) (example512 (inDState .traceable State.reset))).chanA.counters.late = 1 := by decide +kernel
theorem test_window_holdover :
    (after (.edgeQualified .A 0 []) (example512 (inDState .holdover (withDtu (fun d => { d with bound := 20000 }) State.reset)))).chanA.counters.accepted = 1 := by
  decide +kernel
theorem test_edge_waits : ((after (.pulseEdge .A 3 []) (dated 7 100 State.reset)).chanA.filter.map fun e => e.capture) = some { sec := 7, ns := 103 } := by
  decide +kernel
theorem test_glitch : (after (.pulseGlitch .A 0) (filtering 1 0 8192 State.reset)).chanA.counters.glitch = 1 ∧
    (after (.pulseGlitch .A 0) (ticking 1088 (filtering 1 0 8192 State.reset))).chanA.counters.glitch = 0 := by decide +kernel

/-- The sequence of section 2.6: both messages for 1,001 stand in the queue, edge 1,000 has been delivered, and the edge rises at (1,001 s, 150 ns). -/
def example1001 : State :=
  settled (withA (fun c => { c with
    queue := [{ edgeSecond := 1001, source := .locked, completion := 1000520000000 }, { edgeSecond := 1001, source := .locked, completion := 1000700000000 }]
    delivered := some { label := 1000, risen := 1000000000000, source := .locked } }) (filtering 1001 150 1001000000150 State.reset))
theorem test_newest_message_labels : (after (.edgeQualified .A 0 []) example1001).chanA.delivered =
    some { label := 1001, risen := 1001000000150, source := .locked } := by decide +kernel
theorem test_older_message_is_duplicate : (after (.edgeQualified .A 0 []) example1001).chanA.counters.duplicate = 1 := by decide +kernel
theorem test_prediction_expires :
    (after (.predictionExpiry .A 0) (settled (withA (fun c => { c with delivered := some { label := 1, risen := 0, source := .locked } }) State.reset))).chanA.delivered =
      none := by decide +kernel
theorem test_message_stale :
    (after (.messageStale .A 0) (settled (withA (fun c => { c with queue := [{ edgeSecond := 1, source := .locked, completion := 0 }] }) State.reset))).chanA.counters.stale =
      1 := by decide +kernel
theorem test_sync_byte : (after (.characterComplete .A 0xC3 false true 0) (ticking 124752 State.reset)).chanA.assembler = .assembling [] 998016 := by decide +kernel
theorem test_framing_error : (after (.characterComplete .A 0xC3 false false 0) (ticking 124752 State.reset)).chanA.receiver = .waitingForHigh 998016 := by
  decide +kernel
theorem test_gap_timer :
    (after (.gapTimerExpiry .A 0) (settled (withA (fun c => { c with assembler := .assembling [1] 0 }) State.reset))).chanA.counters.gapAbort = 1 := by decide +kernel

/-- The first twelve bytes of a message for edge second 1,001, offset 37, insert in 2 s, locked. -/
def leapMessage : List Byte := beBytes 6 1001 ++ [37, 1] ++ beBytes 3 2 ++ [0]
theorem test_message_leap :
    ((after (.messageValidation .A 0) (withA (fun c => { c with assembler := .validating (leapMessage ++ beBytes 2 (check leapMessage).toNat) 100 }) State.reset)).time.pendingOffset.map
      fun change => (change.newOffset, change.effective)) = some (38, { sec := 1003, ns := 0 }) := by decide +kernel
theorem test_message_check :
    (after (.messageValidation .A 0) (withA (fun c => { c with assembler := .validating (leapMessage ++ [0, 0]) 100 }) State.reset)).chanA.counters.checkFailure = 1 := by
  decide +kernel

/-! ### The DTU -/

/-- The worked case of section 3.3: TRACEABLE, f = 1,600 fu, tracking gains 4 and 1, θ = +250 ns. -/
def tracking (f : Int) (ki kp : Nat) (ns : Nat) (label : Nat) (capture : Nat) : State :=
  settled (withDtu (fun d => { d with
    state := .traceable, integral := f, bound := 1250, active := some .A, settings := { d.settings with trackKi := ki, trackKp := kp } })
    (withA (fun c => { c with queue := [{ edgeSecond := label, source := .locked, completion := 0 }] }) (filtering capture ns 2000000000 State.reset)))
theorem test_loop : let d := (after (.edgeQualified .A 0 []) (tracking 1600 4 1 250 1000 1000)).dtu
    d.integral = 1350 ∧ d.proportional = -2000 ∧ d.bound = 1250 ∧ d.lastTheta = 250 := by decide +kernel
theorem test_loop_addend : (after (.edgeQualified .A 0 []) (tracking 1600 4 1 250 1000 1000)).time.addend = 34359736972 := by decide +kernel
/-- The shift towards minus infinity: θ = −35 ns under the default gains. -/
theorem test_loop_negative : let d := (after (.edgeQualified .A 0 []) (tracking 0 6 2 999999965 1000 999)).dtu
    d.integral = 9 ∧ d.proportional = 140 := by decide +kernel

/-- The long holdover of section 3.4 at its n-th second event. -/
def holding (n : Nat) : State :=
  let s := withDtu (fun d => { d with state := .holdover, entryBound := 1250, growths := n - 1, bound := 1250 + 20 * (n - 1), warning := decide (2438 < n), lastSecond := n }) State.reset
  s.withTime { s.time with secondEvents := [{ sec := n, ns := 0 }] }
theorem test_holdover_warns : let d := (after (.secondEvent []) (holding 2438)).dtu
    d.bound = 50010 ∧ d.warning = true ∧ d.state = .holdover := by decide +kernel
theorem test_holdover_ends : let d := (after (.secondEvent []) (holding 4938)).dtu
    d.bound = 100010 ∧ d.warning = false ∧ d.state = .untraceable := by decide +kernel

/-! ### The frame path -/

/-- Sixty bytes of an order frame: EtherType 0x88B6, key 0x00010042 at offset 8, kind 0x4E at offset 2. -/
def orderBytes : List Byte :=
  padTo 60 (List.replicate 12 0x11 ++ beBytes 2 0x88B6 ++ [0, 0, 0x4E, 0, 0, 0, 0, 0] ++ beBytes 4 0x00010042)
/-- The profile of section 5.2's example, with L_lane = 600 ns. -/
def exampleProfile : LaneProfile := { LaneProfile.default with keyOffset := 8, kindOffset := 2, latency := 600 }
/-- The four entries of section 5.3's example. -/
def exampleEntry (i : Nat) : MatchEntry :=
  if i = 0 then { valid := true, keyValue := 0, keyMask := 0, kindValue := 0x48, kindMask := 0xFF, group := none, action := .pass }
  else if i = 1 then { valid := true, keyValue := 0x00010000, keyMask := 0xFFFF0000, kindValue := 0, kindMask := 0, group := some 2, action := .stamp }
  else if i = 2 then { valid := true, keyValue := 0x00020000, keyMask := 0xFFFE0000, kindValue := 0, kindMask := 0, group := some 5, action := .stamp }
  else if i = 3 then { valid := true, keyValue := 0, keyMask := 0, kindValue := 0, kindMask := 0, group := some 2, action := .stampNoGroup }
  else MatchEntry.initial
/-- The table of that example. -/
def exampleTable : MatchTable :=
  { banks := Vector.ofFn fun _ => Vector.ofFn fun i => { entry := exampleEntry i.val, hits := 0 }, active := 0 }
/-- Section 5.3, one bank, six frames: frames 1 to 5. -/
theorem test_bank_example :
    exampleTable.lookup 0 0x00010042 0x4E = .matched 1 .stamp (some 2) ∧ exampleTable.lookup 0 0x00010042 0x48 = .matched 0 .pass none ∧
    exampleTable.lookup 0 0x0003000A 0x4E = .matched 2 .stamp (some 5) ∧ exampleTable.lookup 0 0x00040001 0x43 = .matched 3 .stampNoGroup (some 2) ∧
    exampleTable.lookup 0 0x00000000 0x48 = .matched 0 .pass none := by decide +kernel

/-- A detection record of lane 0 in STAMP mode at (100 s, `ns`). -/
def detected (ns : Nat) : DetectionRecord :=
  { instant := { sec := 100, ns := ns }, utcOffset := 37, quality := .traceable, unlabelled := false, mode := .stamp, bank := 0, profile := exampleProfile }
/-- A frame of a passing FIFO. -/
def framed (bytes : List Byte) : PassingItem := .frame bytes (detected 0)
/-- A frame in reception on G0. -/
def receiving (ns : Nat) (kind : Option FrameKind) (lookup : Option Lookup) (bytes : List Byte) (s : State) : State :=
  withPort 0 (fun p => { p with link := true, reception := some { detection := detected ns, bytes := bytes, kind := kind, lookup := lookup, oversize := false } }) s
/-- Lane 0 of the backward-step example (section 6.2): STAMP, L_lane 600, last stamp (100 s, 499,990,000 ns), sequence 40; group 2 in CALL. -/
def stamping (s : State) : State :=
  withGroup 2 (fun r => { r with state := .call, callStart := { sec := 90, ns := 0 } })
    (withLane 0 (fun l => { l with mode := .stamp, profile := exampleProfile, lastStamp := { sec := 100, ns := 499990000 }, sequence := 40 }) s)
/-- Frame a of that example at its end. -/
def frameA : State :=
  after (.frameEnd 0 ((withFcs orderBytes).drop 26) false 0 [])
    (receiving 500000000 (some .order) (some (.matched 1 .stamp (some 2))) (orderBytes.take 26) (stamping { State.reset with table := exampleTable }))
theorem test_frame_dated : (frameA.lane 0).lastStamp = { sec := 100, ns := 499999400 } ∧ (frameA.lane 0).sequence = 41 ∧ (frameA.lane 0).clamped = 0 := by
  decide +kernel
/-- The trailer stands before the FCS: the tag at byte 60, phase Call and quality Traceable; the frame is 24 bytes longer (R108, R110). -/
theorem test_frame_trailer : ((frameA.port 4).fifo.map fun item => match item with
    | .frame bytes _ => (bytes.length, slice bytes 60 2, slice bytes 76 6)
    | .marker _ => (0, [], [])) = [(88, [0xEA, 0x16], [2, 1, 0, 0, 37, 1])] := by decide +kernel
/-- The frame keeps its detection record in the passing FIFO (R64). -/
theorem test_frame_keeps_its_record : ((frameA.port 4).fifo.map fun item => match item with
    | .frame _ detection => some detection.instant
    | .marker _ => none) = [some { sec := 100, ns := 500000000 }] := by decide +kernel
/-- Frames b to e: the stamp floor over their raw stamps. -/
theorem test_stamp_floor :
    stampOver { sec := 100, ns := 499999400 } { sec := 100, ns := 500000400 } = { sec := 100, ns := 500000400 } ∧
    stampOver { sec := 100, ns := 500000400 } { sec := 100, ns := 499999600 } = { sec := 100, ns := 500000401 } ∧
    stampOver { sec := 100, ns := 500000401 } { sec := 100, ns := 500000300 } = { sec := 100, ns := 500000402 } ∧
    stampOver { sec := 100, ns := 500000402 } { sec := 100, ns := 500000500 } = { sec := 100, ns := 500000500 } := by decide +kernel
/-- R100's example of the borrow, and the phases of frames g and h at a call start of (200 s, 0 ns) (section 6.4). -/
theorem test_raw_stamp : lessNs { sec := 200, ns := 400 } 600 = { sec := 199, ns := 999999800 } ∧ lessNs { sec := 0, ns := 400 } 600 = { sec := 0, ns := 0 } := by
  decide +kernel
theorem test_phases :
    let r := { GroupRecord.initial with state := .call, callStart := { sec := 200, ns := 0 } }
    r.phase { sec := 199, ns := 999999800 } = .continuous ∧ r.phase { sec := 200, ns := 0 } = .call := by decide +kernel
theorem test_start_detected :
    (((after (.frameStartDetected 0 5 []) (withPort 0 (fun p => { p with link := true }) (stamping (dated 100 500000000 State.reset)))).port 0).reception.map fun f =>
      (f.detection.instant, f.detection.mode, f.kind)) = some ({ sec := 100, ns := 500000005 }, .stamp, none) := by decide +kernel
theorem test_order_recognised : (((after (.etherTypeReceived 0 (orderBytes.take 14)) (receiving 0 none none [] State.reset)).port 0).reception.map fun f => f.kind) =
    some (some .order) := by decide +kernel
theorem test_classified :
    (((after (.classificationPoint 0 (slice orderBytes 14 12)) (receiving 0 (some .order) none (orderBytes.take 14) { State.reset with table := exampleTable })).port 0).reception.map
      fun f => f.lookup) = some (some (.matched 1 .stamp (some 2))) := by decide +kernel
theorem test_oversize :
    (((after (.oversizeDetected 0 (List.replicate 9203 0)) (receiving 0 (some .plain) none (orderBytes.take 14) State.reset)).port 0).reception.map fun f => f.oversize) =
      some true := by decide +kernel
/-- Key offset 48 on lane 1 of section 5.2's example: 69 bytes are too few, 70 are enough. -/
def keyFar : Reception :=
  { detection := { detected 0 with profile := { exampleProfile with keyOffset := 48, kindOffset := 0 } }
    bytes := []
    kind := some .order
    lookup := some .defaulted
    oversize := false }
theorem test_key_absent : keyFar.classification (List.replicate 69 0) = some .keyAbsent ∧
    keyFar.classification (List.replicate 70 0) = some (.looked .defaulted) := by decide +kernel
/-- A response among orders (section 4.6): the fifth passing frame is not started before the own head. -/
theorem test_own_head_passed_over_four_times :
    let s := withPort 6 (fun p => { p with link := true, fifo := [framed [1]], own := [.pause 0], passedOver := 4 }) State.reset
    ((after (.itemStart 6) s).port 6).sending = some .own := by decide +kernel
theorem test_response_counted :
    ((after (.transmissionEnd 6 0) (withPort 6 (fun p => { p with link := true, own := [.response [] false], sending := some .own }) State.reset)).port 6).egress.own = 1 := by
  decide +kernel
/-- An episode that opened with the fill already below the low watermark closes at the next fall of the fill, wherever that fall ends (R71). -/
theorem test_episode_closes_at_the_next_fall :
    let s (openedBelow : Bool) := withPort 6 (fun p => { p with
        link := true, sending := some .passing, fifo := [framed [1], framed [2, 2]]
        episode := some { drops := 3, openedBelow := openedBelow } })
      (withLane 2 (fun l => { l with profile := { l.profile with low := 1 } }) State.reset)
    ((after (.transmissionEnd 6 0) (s true)).port 6).episode = none ∧
      newest (after (.transmissionEnd 6 0) (s true)) = some (.laneOverflow 2 6 true 3 false) ∧
      ((after (.transmissionEnd 6 0) (s false)).port 6).episode = some { drops := 3, openedBelow := false } := by decide +kernel
theorem test_pause_repeats :
    let s := withPort 5 (fun p => { p with fifo := [framed [1, 2]], pauseTimer := some 0 }) (withLane 1 (fun l => { l with profile := { l.profile with high := 1 } }) (ticking 12500 State.reset))
    ((after (.pauseRepeatTimer 5 0) s).port 1).own = [.pause 65535] := by decide +kernel
/-- One quantum is 51.2 ns: a pause of 5 quanta from 0 ends at 256 ns. -/
theorem test_received_pause : ((after (.receivedPauseExpiry 0 0) (withPort 0 (fun p => { p with receivedPause := some 2560 }) (ticking 32 State.reset))).port 0).receivedPause = none := by
  decide +kernel
theorem test_link_up : newest (after (.linkUp 3 0) State.reset) = some (.linkChange 3 true) := by decide +kernel
theorem test_link_down : ((after (.linkDown 0 0 []) (receiving 0 none none [] State.reset)).port 0).ingress.aborted = 1 := by decide +kernel

/-! ### Closing auctions, markers, strobes -/

/-- The draws of sections 7.5 and 7.7: S = 1,000,000, day 3, group 2, W = 30,000 ms. -/
theorem test_draws : drawDelay 1000000 (drawKey 3 2 0) 30000 = 3819 ∧ drawDelay 1000000 (drawKey 3 2 1) 30000 = 22360 ∧
    drawDelay 1000000 (drawKey 3 2 2) 30000 = 10901 := by decide +kernel
/-- Group 2 of the worked sequence of section 7.7, in a given state with its window start at (1,700,000,000 s, 0 ns). -/
def exampleGroup (state : GroupState) (s : State) : State :=
  let s := withGroup 2 (fun r => { r with
    state := state, callStart := { sec := 1699999700, ns := 0 }, windowStart := { sec := 1700000000, ns := 0 }, window := 30000, extLength := 60000
    extLimit := 2, policy := .defer, deferRestart := 5000, lanes := 0b0011 }) s
  s.withAuction { s.auction with seed := .committed 1000000, day := 3 }
/-- The same group in WINDOW with its first draw. -/
def drawnGroup (s : State) : State :=
  withGroup 2 (fun r => { r with close := some { sec := 1700000003, ns := 819000000 }, draw := some { d := 3819, uncommitted := false, advanced := false } })
    (exampleGroup .window s)
theorem test_call_start : ((after (.callStartReached 2) (exampleGroup .armed (dated 1699999700 0 State.reset))).group 2).state = .call := by decide +kernel
theorem test_window_start : ((after (.windowStartReached 2 0) (exampleGroup .call (dated 1700000000 0 State.reset))).group 2).close =
    some { sec := 1700000003, ns := 819000000 } := by decide +kernel
theorem test_close_fires :
    let t := after (.closeInstantReached 2 0) (drawnGroup (inDState .traceable (dated 1700000003 819000000 State.reset)))
    (t.group 2).state = .closed ∧ t.auction.seed = .revealed 1000000 := by decide +kernel
theorem test_close_suspends :
    newest (after (.closeInstantReached 2 0) (drawnGroup (inDState .untraceable (dated 1700000003 819000000 State.reset)))) =
      some (.suspend 2 0 3819 30000 .untraceable false) := by decide +kernel
/-- Lane 1 of section 8.4's sequence: its marker point reached with nothing in reception, last sequence 877. -/
def markedLane (s : State) : State :=
  withLane 1 (fun l => { l with
    mode := .stamp, sequence := 877, datedSince := true
    waiting := [{ group := 2, close := { sec := 1700000003, ns := 819000000 }, k := 2, quality := .traceable, reached := true, afterFrame := false }] }) s
theorem test_marker_placed : ((after (.markerPointReached 1 []) (markedLane State.reset)).port 5).fifo.map
    (fun item => match item with | .marker m => m.lastSequence | .frame _ _ => 0) = [877] := by decide +kernel
theorem test_strobe_end :
    (after (.strobePulseEnd 0) (State.reset.withSignal { State.reset.signal with
      strobes := State.reset.signal.strobes.set 0 { groups := 4, width := 100, pulseEnd := some 1024 } })).strobePin 0 = false := by decide +kernel

/-! ### The Management Agent -/

/-- A request with version 2 is MALFORMED: status 1 (R175, R176). -/
theorem test_malformed : answered (after (.managementFrameRejected 0) (slotted (request 2 1 1 0 []) State.reset)) = some 1 := by decide +kernel
/-- A Configure command from a port that holds Observe is DENIED (section 10.7, take 1). -/
theorem test_denied : judgeRequest .observe (requestOf .swapBank [1]) = .denied := by decide +kernel
theorem test_response_is_64_bytes : (responseFrame 0x025747420000 (requestOf .loadSeed [0, 0, 0, 0]) .ok []).length = 64 := by decide +kernel
theorem test_get_status : slice (answer (after (.getStatus 0) (asked .getStatus [] (dated 7 9 State.reset)))) 25 10 = [0, 0, 0, 0, 0, 7, 0, 0, 0, 9] := by decide +kernel
/-- After reset the journal holds the Start record alone, of 32 bytes, its sequence 1 (R153, R169). -/
theorem test_read_journal : (let b := answer (after (.readJournal 0) (asked .readJournal [0, 0, 0, 1, 1] State.reset)); (b.length, slice b 8 7)) =
    (43, [0x1F, 0xFF, 1, 0, 0, 0, 1]) := by decide +kernel
theorem test_read_seed : answer (after (.readSeed 0) (asked .readSeed [] (seeded (.revealed 1000000) State.reset))) = [3, 0, 0x0F, 0x42, 0x40] := by decide +kernel
theorem test_read_group_hides_close : (answer (after (.readGroup 0) (asked .readGroup [2] (drawnGroup State.reset)))).drop 41 = 1 :: List.replicate 14 0 := by decide +kernel
theorem test_read_match_entry : answer (after (.readMatchEntry 0) (asked .readMatchEntry [0, 1] { State.reset with table := exampleTable })) =
    [0, 1, 1, 0, 1, 0, 0, 0xFF, 0xFF, 0, 0, 0, 0, 2, 1, 0, 0, 0, 0, 1] := by decide +kernel
theorem test_read_counters : (answer (after (.readCounters 0) (asked .readCounters [3] State.reset))).take 2 = [3, 44] := by decide +kernel
/-- Section 7.7: ExtendCall taken at (1,700,000,002 s, 500,000,000 ns), and one taken 3 ns after c. -/
theorem test_extend_call : let r := (after (.extendCall 0) (asked .extendCall [2] (drawnGroup (dated 1700000002 500000000 State.reset)))).group 2
    r.state = .call ∧ r.windowStart = { sec := 1700000062, ns := 500000000 } ∧ r.k = 1 ∧ r.extUsed = 1 := by decide +kernel
theorem test_extend_too_late : answered (after (.extendCall 3) (asked .extendCall [2] (drawnGroup (dated 1700000003 819000000 State.reset)))) = some 7 := by decide +kernel
/-- Section 10.7, take 2: a release through the newest empties the journal. -/
theorem test_release_journal : answer (after (.releaseJournal 0) (asked .releaseJournal [0, 0, 0, 1] State.reset)) = [0, 0, 0, 2, 0x20, 0] := by decide +kernel
theorem test_set_lane_mode : ((after (.setLaneMode 0) (asked .setLaneMode [1, 1, 0] State.reset)).lane 1).mode = .stamp := by decide +kernel
/-- A high watermark of 0 is raised to 1, and the low one brought down to it (R75). -/
theorem test_set_lane_profile :
    (let p := ((after (.setLaneProfile 0) (asked .setLaneProfile
      ([0] ++ beBytes 2 0x0800 ++ [8, 2, 2] ++ beBytes 4 600 ++ beBytes 6 1 ++ beBytes 4 0 ++ beBytes 4 9) State.reset)).lane 0).profile
    (p.keyOffset, p.defaultAction, p.latency, p.high, p.low)) = (8, .stampNoGroup, 600, 1, 1) := by decide +kernel
theorem test_write_match_entry : answered (after (.writeMatchEntry 0) (asked .writeMatchEntry ([1, 63, 1] ++ List.replicate 10 0 ++ [0xFF, 2]) State.reset)) = some 0 := by
  decide +kernel
theorem test_swap_bank : (after (.swapBank 0) (asked .swapBank [1] State.reset)).table.active = 1 := by decide +kernel
/-- The body of section 7.7's LoadSchedule. -/
def scheduleBytes : List Byte :=
  [2] ++ instantBytes { sec := 1699999700, ns := 0 } ++ instantBytes { sec := 1700000000, ns := 0 } ++ beBytes 4 30000 ++ beBytes 4 60000 ++ [2, 1] ++
    beBytes 4 5000 ++ [0b0011]
theorem test_load_schedule : answer (after (.loadSchedule 0 []) (asked .loadSchedule scheduleBytes (inDState .traceable State.reset))) = [1] := by decide +kernel
theorem test_load_not_set : answered (after (.loadSchedule 0 []) (asked .loadSchedule scheduleBytes State.reset)) = some 6 := by decide +kernel
theorem test_clear_schedule : ((after (.clearSchedule 0) (asked .clearSchedule [2] (exampleGroup .armed State.reset))).group 2).state = .idle := by decide +kernel
theorem test_set_day : newest (after (.setDay 0) (asked .setDay [1, 2] State.reset)) = some (.configChange 0x47 0 0xFFFF [0, 0, 1, 2]) := by decide +kernel
theorem test_day_roll : (let a := (after (.dayRoll 0) (asked .dayRoll [] (exampleGroup .closed State.reset))).auction; (a.day, a.seed)) = (4, .absent) := by decide +kernel
theorem test_load_seed : (after (.loadSeed 0) (asked .loadSeed [0, 0x0F, 0x42, 0x40] State.reset)).auction.seed = .loaded 1000000 := by decide +kernel
theorem test_commit_mismatch : answered (after (.commitSeed 0) (asked .commitSeed [0, 0] (seeded (.loaded 1000000) State.reset))) = some 9 := by decide +kernel
theorem test_set_channel :
    (let c := (after (.setReferenceChannel 0) (asked .setReferenceChannel ([1, 0, 3] ++ beBytes 4 3500 ++ beBytes 2 5000 ++ beBytes 2 1 ++ [1] ++ beBytes 2 4095 ++ [1, 2, 2]) State.reset)).chanB
    (c.settings.enabled, c.settings.filterTicks, c.settings.early, c.settings.parity)) = (false, 512, 4095, .odd) := by decide +kernel
theorem test_set_preferred : (after (.setPreferredReference 0) (asked .setPreferredReference [1] State.reset)).dtu.preferred = .B := by decide +kernel
/-- n_p of 7 becomes 4, W_warn is brought down to L (R37). -/
theorem test_set_discipline :
    (let d := (after (.setDiscipline 0) (asked .setDiscipline
      ([3, 1, 6, 2] ++ beBytes 4 800000 ++ beBytes 4 2000 ++ beBytes 4 9999 ++ beBytes 4 1000 ++ [8, 3, 7] ++ beBytes 4 20 ++ beBytes 4 100000 ++ beBytes 2 60 ++ beBytes 4 10000)
      State.reset)).dtu.settings
    (d.limit, d.warn, d.persistence)) = (2000, 2000, 4) := by decide +kernel
theorem test_end_acquisition : (after (.endAcquisition 0) (asked .endAcquisition [] (inDState .acquiring State.reset))).dtu.state = .untraceable := by decide +kernel
/-- StepTime of −2,000 ns (section 6.2): the DTU moves to ACQUIRING and the step waits. -/
theorem test_step_time : (let t := after (.stepTime 0) (asked .stepTime (signedBytes 8 (-2000)) (inDState .traceable State.reset)); (t.dtu.state, t.time.steps)) =
    (.acquiring, [{ source := .command, amount := -2000 }]) := by decide +kernel
theorem test_set_utc_offset : newest (after (.setUtcOffset 0) (asked .setUtcOffset ([37] ++ List.replicate 10 0) State.reset)) =
    some (.offsetChange 0 37 { sec := 0, ns := 0 } .command) := by decide +kernel
theorem test_set_outputs :
    (after (.setOutputs 0) (asked .setOutputs ([2, 0, 0, 0, 0] ++ [0, 4, 0, 10] ++ List.replicate 12 0 ++ [0x7F]) State.reset)).signal.strobeSet 2 = 0b0001 := by decide +kernel
/-- Section 10.7, take 3: no port would hold Configure. -/
theorem test_set_permissions : answered (after (.setPermissions 0) (asked .setPermissions [1, 1, 1, 1, 1, 1, 1, 1] State.reset)) = some 4 := by decide +kernel
theorem test_restart : (after (.restart 0) (asked .restart [] State.reset)).agent.restart = some { takenAt := 8192, answered := false } := by decide +kernel

/-! ### States that meet the hypotheses of the statements

One theorem for each statement that has hypotheses; its conjuncts are the clauses' hypotheses, at a boundary value where a clause has a range. -/

theorem test_hyp_StepTakesTheFrontCommand : ({ State.reset with pending := [.tick] } : State).pending = [.tick] ∧ State.reset.pending = [] := ⟨rfl, rfl⟩

theorem test_hyp_PowerRowsEmptyThePart : exec .powerLoss State.reset = .next (after .powerLoss State.reset) := rfl

theorem test_hyp_PowerOnResetIsReleased :
    (ticking 1023 (after .powerOnReset State.reset)).phase = .powerOn ∧ (ticking 1023 (after .powerOnReset State.reset)).osc < 1024 ∧
    (ticking 1024 (after .powerOnReset State.reset)).phase = .powerOn ∧ 1024 ≤ (ticking 1024 (after .powerOnReset State.reset)).osc := by decide +kernel

/-- A Restart taken at oscillator time 0 and not yet asserted, at an oscillator tick. -/
def restarting (osc : Nat) (response : Bool) : State :=
  ticking osc (State.reset.withAgent { State.reset.agent with restart := some { takenAt := 0, answered := response } })
theorem test_hyp_WarmResetIsAsserted :
    State.reset.phase = .running ∧ (16 : Nat) ≤ 16 ∧
    (restarting 1024 true).phase = .running ∧ (restarting 1024 true).agent.restart = some { takenAt := 0, answered := true } ∧
    (restarting 125000 false).phase = .running ∧ (restarting 125000 false).agent.restart = some { takenAt := 0, answered := false } ∧
      0 + 1000000 ≤ (restarting 125000 false).oscAt 0 := by decide +kernel

/-- A warm reset held. -/
def held (byCommand pinLow : Bool) (commandEnd : Option Nat) : State :=
  { ticking 125000 State.reset with phase := .warm { byCommand := byCommand, pinLow := pinLow, commandEnd := commandEnd } }
theorem test_hyp_ResetPinHoldsTheReset :
    (15 : Nat) < 16 ∧ (held true false (some 1000000)).phase = .warm { byCommand := true, pinLow := false, commandEnd := some 1000000 } ∧
    (held true true (some 1000000)).phase = .warm { byCommand := true, pinLow := true, commandEnd := some 1000000 } ∧
      1000000 ≤ (held true true (some 1000000)).oscAt 0 := by decide +kernel
theorem test_hyp_WarmResetIsReleased :
    -- D in HOLDOVER at its limit and past it, and the states of a second event while the reset is held
    let d := { State.reset.dtu with bound := 100000, entryBound := 99980, growths := 0, lastSecond := 60 }
    let second (state : DState) (active : Option Channel) (entry : Nat) : State :=
      { held false true none with
        dtu := { d with state := state, active := active, entryBound := entry }
        time := { State.reset.time with secondEvents := [{ sec := 61, ns := 0 }] } }
    let grown (s : State) : Nat := min (s.dtu.entryBound + s.dtu.settings.growth * (s.dtu.growths + 1)) 4294967295
    ({ held false true none with dtu := d }).dtu.bound = 100000 ∧ 100000 < ({ d with bound := 100001 } : Dtu).bound ∧
    (second .holdover none 99980).phase = .warm { byCommand := false, pinLow := true, commandEnd := none } ∧
      (second .holdover none 99980).time.secondEvents = [{ sec := 61, ns := 0 }] ∧
      grown (second .holdover none 99980) = (second .holdover none 99980).dtu.settings.limit ∧
      (second .holdover (some .A) 99981).dtu.settings.limit < grown (second .holdover (some .A) 99981) ∧
      (second .holdover (some .A) 99981).dtu.active ≠ none ∧
      (second .untraceable none 0).dtu.state = .untraceable ∧ (second .untraceable none 0).dtu.active = none ∧
      (second .untraceable (some .A) 0).dtu.active ≠ none ∧ (second .traceable (some .A) 0).dtu.state = .traceable ∧
      (second .free none 0).dtu.state = .free ∧ (second .acquiring none 0).dtu.state = .acquiring ∧
    (held false true none).phase = .warm { byCommand := false, pinLow := true, commandEnd := none } ∧
    (held true false (some 1000000)).phase = .warm { byCommand := true, pinLow := false, commandEnd := some 1000000 } ∧
      1000000 ≤ (held true false (some 1000000)).oscAt 0 := by decide +kernel

/-- The last tick of the counts of device time. -/
def lastInstant : State := State.reset.withTime { State.reset.time with sec := 281474976710655, ns := 999999999, frac := 4294967295 }
theorem test_hyp_TickAddsTheAddend : lastInstant.counting = true ∧ lastInstant.time.steps = [] ∧ lastInstant.time.InRange := by
  refine ⟨rfl, rfl, by decide +kernel, by decide +kernel, by decide +kernel, by decide +kernel, by decide +kernel, by decide +kernel, ?_⟩
  intro change h; cases h

theorem test_hyp_StepIsAppliedAtItsTick :
    let s := stepping (-2000000101) (dated 2 92 State.reset)
    let u := stepping (-2000000100) (dated 2 92 State.reset)
    s.counting = true ∧ s.time.steps = [{ source := .command, amount := -2000000101 }] ∧
      (toNs (s.time.device.advance s.time.addend).instant : Int) + -2000000101 < 0 ∧
    u.counting = true ∧ u.time.steps = [{ source := .command, amount := -2000000100 }] ∧
      0 ≤ (toNs (u.time.device.advance u.time.addend).instant : Int) + -2000000100 := by decide +kernel

theorem test_hyp_OffsetChangeTakesEffect :
    let change : OffsetChange := { newOffset := 38, effective := { sec := 1003, ns := 0 }, source := .reference .A }
    (leaping (dated 1002 999999999 State.reset)).counting = true ∧ (leaping (dated 1002 999999999 State.reset)).time.pendingOffset = some change ∧
      Before (leaping (dated 1002 999999999 State.reset)).time.now change.effective ∧
    (leaping (dated 1003 0 State.reset)).counting = true ∧ (leaping (dated 1003 0 State.reset)).time.pendingOffset = some change ∧
      AtOrAfter (leaping (dated 1003 0 State.reset)).time.now change.effective := by decide +kernel

theorem test_hyp_PulseIsDrivenForItsWidth :
    let s := withPps (fun p => { p with mode := .traceableOnly, due := some 10, lastPulsed := some 9, pulseEnd := some 1024 }) (inDState .holdover State.reset)
    s.phase = .running ∧ s.time.pps.due = some 10 ∧ s.time.pps.lastPulsed ≠ some 10 ∧
    s.time.pps.pulseEnd = some 1024 ∧ 1024 ≤ s.osc ∧ (ticking 1023 s).osc < 1024 := by decide +kernel

theorem test_hyp_PulseLineIsFiltered :
    let disabled := withA (fun c => { c with settings := { c.settings with enabled := false } }) State.reset
    let edge : FilterEdge := { capture := { sec := 1, ns := 0 }, risen := 0, width := 64 }
    let before := ticking 63 (filtering 1 0 0 State.reset)
    let stood := ticking 64 (filtering 1 0 0 State.reset)
    State.reset.phase = .running ∧ (disabled.chan .A).settings.enabled = false ∧
    (State.reset.chan .A).settings.enabled = true ∧ (State.reset.chan .A).filter = none ∧ (State.reset.chan .A).settings.filterTicks ≠ 0 ∧
    (before.chan .A).filter = some edge ∧ before.oscAt 7 < edge.risen + 8 * edge.width ∧
    (stood.chan .A).filter = some edge ∧ edge.risen + 8 * edge.width ≤ stood.oscAt 0 := by decide +kernel

/-- An edge of channel A that rose at oscillator time 600,000,000 and has just stood for its width, with a last accepted edge. -/
def qualifying (sec ns : Nat) (last : Option Nat) (s : State) : State :=
  ticking 75000064 (withA (fun c => { c with lastAccepted := last }) (filtering sec ns 600000000 s))
theorem test_hyp_QualifiedEdgeIsRejected :
    let extra := qualifying 512 0 (some 100000001) State.reset
    let early := qualifying 511 999998975 none (inDState .traceable State.reset)
    let late := qualifying 512 1025 (some 100000000) (inDState .traceable State.reset)
    let wide (d : DState) := inDState d (withDtu (fun x => { x with bound := 20000 }) State.reset)
    extra.phase = .running ∧ (extra.chan .A).filter = some { capture := { sec := 512, ns := 0 }, risen := 600000000, width := 64 } ∧
      600000000 + 8 * 64 ≤ extra.oscAt 0 ∧ (extra.chan .A).lastAccepted = some 100000001 ∧ 600000000 < 100000001 + 500000000 ∧
    (early.chan .A).lastAccepted = none ∧ early.dtu.state = .traceable ∧
      toNs { sec := 511, ns := 999998975 } + (early.chan .A).settings.early * 16 <
        (toNs { sec := 511, ns := 999998975 } + 500000000 - 0) / 1000000000 * 1000000000 + 0 ∧
    (late.chan .A).lastAccepted = some 100000000 ∧ ¬ 600000000 < 100000000 + 500000000 ∧ late.dtu.state = .traceable ∧
      (toNs { sec := 512, ns := 1025 } + 500000000 - 0) / 1000000000 * 1000000000 + 0 + (late.chan .A).settings.late * 16 < toNs { sec := 512, ns := 1025 } ∧
    (qualifying 511 999979999 none (wide .holdover)).dtu.state = .holdover ∧ (wide .untraceable).dtu.state = .untraceable ∧
      toNs { sec := 511, ns := 999979999 } + max (64 * 16) (wide .holdover).dtu.bound < toNs { sec := 512, ns := 0 } ∧
      toNs { sec := 512, ns := 0 } + max (64 * 16) (wide .untraceable).dtu.bound < toNs { sec := 512, ns := 20001 } := by
  decide +kernel

theorem test_hyp_AcceptedEdgeIsLabelled :
    let s := qualifying 512 0 (some 100000000) State.reset
    let m : QueuedMessage := { edgeSecond := 512, source := .locked, completion := 590000000 }
    let older : QueuedMessage := { edgeSecond := 512, source := .locked, completion := 580000000 }
    let tooLate : QueuedMessage := { edgeSecond := 513, source := .locked, completion := 590000001 }
    let d : Delivered := { label := 511, risen := 100000000, source := .locked }
    let queued (q : List QueuedMessage) := withA (fun c => { c with queue := q }) s
    let jumping := withA (fun c => { c with delivered := some { d with label := 500 } }) (queued [m])
    let predicted := withA (fun c => { c with delivered := some d, run := 3 }) s
    let spent := withA (fun c => { c with delivered := some d, run := 4 }) s
    let unfiltered := withA (fun c => { c with settings := { c.settings with filterTicks := 0 } }) State.reset
    let suspended := withGroup 2 (fun r => { r with state := .suspended }) (inDState .traceable State.reset)
    let r : EdgeRecord :=
      { channel := .A, capture := { sec := 512, ns := 0 }, label := 512, unlabelled := false, jump := false, source := .locked, cable := 0 }
    s.phase = .running ∧ (s.chan .A).filter = some { capture := { sec := 512, ns := 0 }, risen := 600000000, width := 64 } ∧ 600000000 + 8 * 64 ≤ s.oscAt 0 ∧
      s.dtu.state = .free ∧ (s.chan .A).lastAccepted = some 100000000 ∧ 100000000 + 500000000 ≤ 600000000 ∧
    toNs { sec := 512, ns := 0 } ≤ toNs { sec := 511, ns := 999998976 } + (s.chan .A).settings.early * 16 ∧
      toNs { sec := 512, ns := 1024 } ≤ toNs { sec := 512, ns := 0 } + (s.chan .A).settings.late * 16 ∧
    ((queued [older, m]).chan .A).queue = [older, m] ∧ m.completion + 10000000 ≤ 600000000 ∧ older.completion + 10000000 ≤ 600000000 ∧
      ((queued [m]).chan .A).delivered = none ∧ ((queued [m, tooLate]).chan .A).queue = [m, tooLate] ∧ ¬ tooLate.completion + 10000000 ≤ 600000000 ∧
    (jumping.chan .A).delivered = some { d with label := 500 } ∧ m.edgeSecond ≠ (500 + (600000000 - 100000000 + 500000000) / 1000000000) % 281474976710656 ∧
    (suspended.dtu.takeRecord r { sec := 512, ns := 0 } 600000000).dtu.quality = .traceable ∧ (suspended.group 2).state = .suspended ∧
    (s.dtu.takeRecord r { sec := 512, ns := 0 } 600000000).dtu.quality = .unset ∧
    (predicted.chan .A).queue = [] ∧ (predicted.chan .A).delivered = some d ∧ (predicted.chan .A).run < 4 ∧
    (spent.chan .A).queue = [] ∧ 4 ≤ (spent.chan .A).run ∧
    (unfiltered.chan .A).settings.enabled = true ∧ (unfiltered.chan .A).filter = none ∧ (unfiltered.chan .A).settings.filterTicks = 0 := by decide +kernel

theorem test_hyp_ChannelTimersExpire :
    let d : Delivered := { label := 1, risen := 0, source := .locked }
    let m : QueuedMessage := { edgeSecond := 1, source := .locked, completion := 0 }
    let s := withA (fun c => { c with delivered := some d, queue := [m], assembler := .assembling [1] 0 }) State.reset
    s.phase = .running ∧ (s.chan .A).delivered = some d ∧ (s.chan .A).queue = [m] ∧ (s.chan .A).assembler = .assembling [1] 0 ∧ (s.chan .A).buffer = [] ∧
      (ticking 1999999999 s).oscAt 7 < 0 + 16000000000 ∧ 0 + 16000000000 ≤ (ticking 2000000000 s).oscAt 0 ∧
      (ticking 187500000 s).oscAt 0 ≤ 0 + 1500000000 ∧ 0 + 1500000000 < (ticking 187500000 s).oscAt 1 ∧
      (ticking 2604799 s).oscAt 7 < 0 + 20 * (9 + 0 + 1) * (8 * (16 * (813 + 1))) ∧
      0 + 20 * (9 + 0 + 1) * (8 * (16 * (813 + 1))) ≤ (ticking 2604800 s).oscAt 0 := by decide +kernel

theorem test_hyp_CharacterIsAssembled :
    let heard := ticking 124752 State.reset
    let even := ticking 137776 (withA (fun c => { c with settings := { c.settings with parity := .even } }) State.reset)
    let high := withA (fun c => { c with receiver := .waitingForHigh 8192 }) heard
    let assembling (n : Nat) := withA (fun c => { c with assembler := .assembling (List.replicate n 7) 0 }) heard
    let x : Character := { data := 1, framingError := false, parityError := false, overrun := false, completed := 0 }
    let full := withA (fun c => { c with assembler := .validating (List.replicate 14 7) 0, buffer := [x, x] }) heard
    heard.phase = .running ∧ (heard.chan .A).settings.enabled = true ∧ (heard.chan .A).settings.parity = .none ∧
      (heard.chan .A).receiver = .waitingForStart 8192 ∧ 8192 + (8 * (16 * (813 + 1)) / 2 + 9 * (8 * (16 * (813 + 1)))) ≤ heard.oscAt 0 ∧
      (ticking 124751 State.reset).oscAt 7 < 8192 + (8 * (16 * (813 + 1)) / 2 + 9 * (8 * (16 * (813 + 1)))) ∧
      (high.chan .A).receiver = .waitingForHigh 8192 ∧ ¬ 8192 + (8 * (16 * (813 + 1)) / 2 + 9 * (8 * (16 * (813 + 1)))) < high.oscAt 0 ∧
      8192 + (8 * (16 * (813 + 1)) / 2 + 9 * (8 * (16 * (813 + 1)))) < high.oscAt 1 ∧
      (heard.chan .A).buffer = [] ∧ (heard.chan .A).assembler = .hunting ∧ (0xC2 : Byte) ≠ 0xC3 ∧
    (even.chan .A).settings.parity = .even ∧ (((List.range 8).filter fun i => (0xC3 : Byte).getLsbD i).length + 1) % 2 = 1 ∧
      8192 + (8 * (16 * (813 + 1)) / 2 + 10 * (8 * (16 * (813 + 1)))) ≤ even.oscAt 0 ∧
    ((assembling 12).chan .A).assembler = .assembling (List.replicate 12 7) 0 ∧ ((assembling 12).chan .A).buffer = [] ∧
    ((assembling 13).chan .A).assembler = .assembling (List.replicate 13 7) 0 ∧ ((assembling 13).chan .A).buffer = [] ∧
    (full.chan .A).buffer = [x, x] ∧ (full.chan .A).assembler = .validating (List.replicate 14 7) 0 := by decide +kernel

/-- A complete message: its first twelve bytes with their check. -/
def complete (first : List Byte) : List Byte := first ++ beBytes 2 (check first).toNat
theorem test_hyp_MessageIsValidated :
    let message (offset notice toLeap source : Nat) : List Byte :=
      complete (beBytes 6 1001 ++ beBytes 1 offset ++ beBytes 1 notice ++ beBytes 3 toLeap ++ beBytes 1 source)
    let s (bytes : List Byte) := withA (fun c => { c with assembler := .validating bytes 100 }) State.reset
    let plain := message 37 0 0 2
    (s plain).phase = .running ∧ ((s plain).chan .A).assembler = .validating plain 100 ∧ ((s plain).chan .A).buffer = [] ∧
    ¬ (check ((leapMessage ++ [0, 0]).take 12)).toNat = beNat (slice (leapMessage ++ [0, 0]) 12 2) ∧
    (∀ bytes ∈ [plain, message 37 3 0 0, message 37 0 0 3, message 37 1 0 0, message 127 1 2 0, message 0x80 2 2 0, message 126 1 2 0, message 0x81 2 2 0],
      (check (bytes.take 12)).toNat = beNat (slice bytes 12 2)) ∧
    2 < beNat (slice (message 37 3 0 0) 7 1) ∧ 2 < beNat (slice (message 37 0 0 3) 11 1) ∧
    beNat (slice plain 7 1) = 0 ∧ sourceOf (beNat (slice plain 11 1)) = some .unlocked ∧
    beNat (slice (message 37 1 0 0) 7 1) = 1 ∧ beNat (slice (message 37 1 0 0) 8 3) = 0 ∧
    fieldInt (message 127 1 2 0) 6 1 + 1 = 128 ∧ fieldInt (message 0x80 2 2 0) 6 1 - 1 = -129 ∧
    fieldInt (message 126 1 2 0) 6 1 + 1 = 127 ∧ fieldInt (message 0x81 2 2 0) 6 1 - 1 = -128 ∧ beNat (slice (message 126 1 2 0) 8 3) = 2 ∧
    Before ((dated 1002 999999999 State.reset).readingAt 0) { sec := 1001 + 2, ns := 0 } ∧
    AtOrAfter ((dated 1002 999999999 State.reset).readingAt 1) { sec := 1001 + 2, ns := 0 } := by
  decide +kernel

theorem test_hyp_MeasurementIsApplied :
    let d := { (tracking 0 6 2 0 0 0).dtu with steppedAt := some 0 }
    let r (ns : Nat) : EdgeRecord :=
      { channel := .A, capture := { sec := 512, ns := ns }, label := 512, unlabelled := false, jump := false, source := .locked, cable := 0 }
    let theta (ns : Nat) : Int := max (-500000000) (min 500000000 ((toNs (r ns).capture : Int) - ((r ns).label * 1000000000 : Nat) - (r ns).cable))
    let u := d.settings
    d.active = some (r 0).channel ∧ (r 0).source = .locked ∧ (r 0).jump = false ∧ d.steppedAt = some 0 ∧ 10000000 ≤ 0 + 10000000 ∧
      ¬ 10000001 ≤ 0 + 10000000 ∧ d.state = .traceable ∧ d.active ≠ some Channel.B ∧
    ({ d with state := .free } : Dtu).state = .free ∧ ({ d with state := .acquiring } : Dtu).state = .acquiring ∧
    u.stepThreshold < (theta 100001).natAbs ∧ (theta 100000).natAbs ≤ u.stepThreshold ∧
    (theta 99000).natAbs + u.uncertainty ≤ u.limit ∧ u.limit < (theta 99001).natAbs + u.uncertainty ∧
    u.qualify ≤ 7 + 1 ∧ 6 + 1 < u.qualify ∧ u.persistence ≤ 1 + 1 ∧ ¬ u.persistence ≤ 0 + 1 ∧
    u.warn < (theta 49001).natAbs + u.uncertainty ∧ (theta 42750).natAbs + u.uncertainty ≤ u.warn - u.warn / 8 ∧
      ¬ (theta 42751).natAbs + u.uncertainty ≤ u.warn - u.warn / 8 := by
  decide +kernel

theorem test_hyp_SecondEventIsTaken :
    let s := holding 4938
    let qualified : RefJudgement := { edgeAge := some 2, jumpAge := some 3, source := some .locked, run := 0, theta := none, fresh := false }
    let fit (theta : Int) : RefJudgement := { qualified with theta := some theta, fresh := true }
    let second (sec : Nat) (d : Dtu) : State :=
      { State.reset with dtu := d, time := { State.reset.time with secondEvents := [{ sec := sec, ns := 0 }] } }
    let pair (a b : Int) := second 61 { s.dtu with state := .traceable, active := some .B, refA := fit a, refB := fit b, lastSecond := 60 }
    let losing (flag : Bool) := second 60
      { s.dtu with state := .traceable, active := some .A, refB := qualified, disagreement := flag, lastSecond := 59 }
    s.phase = .running ∧ s.time.secondEvents = [{ sec := 4938, ns := 0 }] ∧ s.dtu.state = .holdover ∧
      s.dtu.settings.limit < min (s.dtu.entryBound + s.dtu.settings.growth * (s.dtu.growths + 1)) 4294967295 ∧
    min ((holding 4937).dtu.entryBound + (holding 4937).dtu.settings.growth * ((holding 4937).dtu.growths + 1)) 4294967295 ≤ (holding 4937).dtu.settings.limit ∧
    qualified.edgeAge = some 2 ∧ min (2 + 1) 255 ≤ s.dtu.settings.age ∧ qualified.jumpAge = some 3 ∧ s.dtu.settings.age < min (3 + 1) 255 ∧
    -- both references fit, with a pair apart by more than the limit and one that is not
    (∀ b ∈ [(10001 : Int), 10000], ((after (.secondEvent []) (pair 0 b)).dtu.ref .A).run ≠ 0 ∧ ((after (.secondEvent []) (pair 0 b)).dtu.ref .B).run ≠ 0) ∧
      (pair 0 10001).dtu.settings.crossLimit < ((0 : Int) - 10001).natAbs ∧ ¬ (pair 0 10000).dtu.settings.crossLimit < ((0 : Int) - 10000).natAbs ∧
      (61 : Nat) / 60 = (pair 0 0).dtu.lastSecond / 60 ∧
    -- the active reference lost, with the other fit and with it barred by the flag, in a new minute
    ((after (.secondEvent []) (losing false)).dtu.ref .A).run = 0 ∧ ((after (.secondEvent []) (losing false)).dtu.ref .B).run ≠ 0 ∧
      (losing true).dtu.disagreement = true ∧ (60 : Nat) / 60 ≠ (losing true).dtu.lastSecond / 60 ∧
    (second 1 { s.dtu with state := .untraceable }).dtu.state = .untraceable ∧ (second 1 { s.dtu with state := .acquiring }).dtu.state = .acquiring ∧
      ({ s.dtu with sinceApplied := 1 } : Dtu).sinceApplied = 1 ∧ s.dtu.sinceApplied = 0 := by
  decide +kernel

theorem test_hyp_MinuteSummaryIsTaken : ∀ kept omitted : Nat, kept ≤ 8192 →
    let j : Journal := { Journal.initial with
      retained := List.replicate kept { sequence := 0, body := startRecord resetStraps, chain := 0 }, omitted := omitted }
    j.free = 8192 - kept ∧ j.omitted = omitted ∧ j.lost = 0 := by
  intro kept omitted _
  refine ⟨?_, rfl, rfl⟩
  show 8192 - (List.replicate kept _).length = _
  rw [List.length_replicate]

theorem test_hyp_FrameStartIsDetected :
    let up (p : Port) := withPort p (fun x => { x with link := true }) State.reset
    let m : Marker := { group := 2, close := { sec := 1, ns := 0 }, k := 0, quality := .traceable, address := 1, lastSequence := 0 }
    let r : MarkerRequest := { group := 2, close := { sec := 100, ns := 400 }, k := 0, quality := .traceable, reached := false, afterFrame := false }
    let waiting := withPort 4 (fun x => { x with fifo := List.replicate 15 (.marker m) })
      (withLane 0 (fun l => { l with mode := .stamp, profile := exampleProfile, waiting := [r] }) (dated 100 1000 (up 0)))
    State.reset.phase = .running ∧ (State.reset.port 0).link = false ∧ ((up 3).port 3).link = true ∧ ((up 3).port 3).reception = none ∧ (3 : Port).val < 4 ∧
      ((up 4).port 4).link = true ∧ ((up 4).port 4).reception = none ∧ 4 ≤ (4 : Port).val ∧
    (waiting.port 0).link = true ∧ (waiting.port 0).reception = none ∧ (waiting.lane (laneOf 0)).waiting = [r] ∧
      AtOrAfter (lessNs (waiting.readingAt 0) (waiting.lane (laneOf 0)).profile.latency) r.close ∧ (waiting.lane (laneOf 0)).mode = .stamp ∧
      markersIn (waiting.port (enginePort (laneOf 0))).fifo < 16 ∧
    -- readings on both sides of a second's end
    ¬ 1000000000 ≤ (dated 100 999999992 (up 0)).time.ns + (7 : Sub).val ∧ 1000000000 ≤ (dated 100 999999993 (up 0)).time.ns + (7 : Sub).val := by
  decide +kernel

/-- The reception of G0 in these states. -/
def received (ns : Nat) (kind : Option FrameKind) (lookup : Option Lookup) (bytes : List Byte) : Reception :=
  { detection := detected ns, bytes := bytes, kind := kind, lookup := lookup, oversize := false }
theorem test_hyp_FrameIsRecognised :
    let fresh := receiving 0 none none [] State.reset
    let long := receiving 0 (some .plain) none (orderBytes.take 14) State.reset
    fresh.phase = .running ∧ (fresh.port 0).reception = some (received 0 none none []) ∧ (orderBytes.take 14).length = 14 ∧
    (long.port 0).reception = some (received 0 (some .plain) none (orderBytes.take 14)) ∧
      9216 < (orderBytes.take 14).length + (List.replicate 9203 (0 : Byte)).length := by decide +kernel

theorem test_hyp_LowestMatchingEntryIsFound :
    let s := receiving 0 (some .order) none (orderBytes.take 14) { State.reset with table := exampleTable }
    let f := received 0 (some .order) none (orderBytes.take 14)
    s.phase = .running ∧ (s.port 0).reception = some f ∧ f.kind = some .order ∧ f.lookup = none ∧ f.oversize = false ∧
      f.bytes.length + (slice orderBytes 14 12).length = 14 + max (f.detection.profile.keyOffset + 4) (f.detection.profile.kindOffset + 1) ∧
    (let e := (s.table.slot 0 1).entry
     e.valid = true ∧ (0x00010042 : BitVec 32) &&& e.keyMask = e.keyValue &&& e.keyMask ∧ (0x4E : Byte) &&& e.kindMask = e.kindValue &&& e.kindMask) ∧
    ∀ i : Fin 64, (MatchTable.initial.slot 0 i).entry.valid = false := by decide +kernel

/-- An ordinary frame of 64 bytes in reception on E0, whose lane's G0 holds `fill` bytes. -/
def offered (fill : Nat) : State :=
  withPort 0 (fun p => { p with fifo := [framed (List.replicate fill 0)] })
    (withPort 4 (fun p => { p with link := true, reception := some (received 0 (some .plain) none (orderBytes.take 26)) }) State.reset)
theorem test_hyp_OrdinaryFrameIsForwardedOrDropped :
    let frame := withFcs orderBytes
    let f := received 0 (some .plain) none (orderBytes.take 26)
    (offered 32704).phase = .running ∧ ((offered 32704).port 4).reception = some f ∧ ¬ (4 : Port).val < 4 ∧
      64 ≤ (orderBytes.take 26 ++ frame.drop 26).length ∧ (orderBytes.take 26 ++ frame.drop 26).length ≤ 9216 ∧
      fcsCorrect (orderBytes.take 26 ++ frame.drop 26) = true ∧ ((offered 32704).lane 0).waiting = [] ∧
    f.kind ≠ some .management ∧ f.kind ≠ some .macControl ∧ f.oversize = false ∧ f.complete frame = true ∧
      fcsCorrect (orderBytes ++ [0, 0, 0, 0]) = false ∧ f.complete (orderBytes ++ [0, 0, 0, 0]) = true ∧ (orderBytes ++ [0, 0, 0, 0]).length = 64 ∧
    ((offered 0).port 0).pauseTimer = none ∧ ((offered 0).port 0).episode = none ∧ ((offered 0).lane (laneOf 0)).profile.high < 24513 + 64 ∧
      ¬ ((offered 0).lane (laneOf 0)).profile.high < 24512 + 64 ∧ ((withPort 0 (fun p => { p with episode := some { drops := 7, openedBelow := false } }) (offered 0)).port 0).episode = some { drops := 7, openedBelow := false } := by
  decide +kernel
theorem test_hyp_OrdinaryFrameFits : fillOf ((offered 32704).port 0).fifo + 64 ≤ 32768 ∧ 32768 < fillOf ((offered 32705).port 0).fifo + 64 := by
  have h (n : Nat) : fillOf ((offered n).port 0).fifo = n := by
    show (List.replicate n (0 : Byte)).length + 0 = n
    simp
  rw [h, h]; decide

theorem test_hyp_OrderFrameIsDated :
    let s := receiving 500000000 (some .order) (some (.matched 1 .stamp (some 2))) (orderBytes.take 26) (stamping { State.reset with table := exampleTable })
    let f := received 500000000 (some .order) (some (.matched 1 .stamp (some 2))) (orderBytes.take 26)
    let frame := orderBytes.take 26 ++ (withFcs orderBytes).drop 26
    let needed (profile : LaneProfile) := max (profile.keyOffset + 4) (profile.kindOffset + 1)
    let g := s.group 2
    let closed : GroupRecord := { g with state := .closed, close := some { sec := 100, ns := 0 } }
    s.phase = .running ∧ (s.port 0).reception = some f ∧ f.kind = some .order ∧ f.oversize = false ∧ f.detection.mode = .stamp ∧
      64 ≤ frame.length ∧ frame.length ≤ 9216 ∧ fcsCorrect frame = true ∧
      18 + needed f.detection.profile ≤ frame.length ∧ (s.lane 0).waiting = [] ∧
      fillOf (s.port (mate 0)).fifo + frame.length + 24 ≤ 32768 ∧
    (∀ found ∈ [Lookup.matched 3 .stampNoGroup (some 2), .matched 0 .pass none, .defaulted],
      ((receiving 0 (some .order) (some found) (orderBytes.take 26) s).port 0).reception = some (received 0 (some .order) (some found) (orderBytes.take 26))) ∧
    ((receiving 0 (some .other) none (orderBytes.take 26) s).port 0).reception = some (received 0 (some .other) none (orderBytes.take 26)) ∧
    frame.length < 18 + needed { exampleProfile with keyOffset := 43 } ∧ 18 + needed { exampleProfile with keyOffset := 42 } ≤ frame.length ∧
    f.detection.profile.defaultAction ≠ .stampNoGroup ∧ ({ exampleProfile with defaultAction := .stampNoGroup } : LaneProfile).defaultAction = .stampNoGroup ∧
    (State.reset.group 2).state = .idle ∧ g.state = .call ∧ Before { sec := 89, ns := 999999999 } g.callStart ∧ AtOrAfter { sec := 90, ns := 0 } g.callStart ∧
    closed.state = .closed ∧ closed.close = some { sec := 100, ns := 0 } ∧ AtOrAfter { sec := 100, ns := 0 } closed.callStart ∧
      ¬ AtOrAfter { sec := 99, ns := 999999999 } { sec := 100, ns := 0 } := by decide +kernel

/-- A request in the order a port receives it, with a correct FCS. -/
def managementBytes : List Byte := withFcs ((requestOf .getStatus []).take 60)
/-- A pause of 0xFFFF quanta. -/
def pauseBytes : List Byte := pauseFrame 0x020000000001 0xFFFF
theorem test_hyp_FrameIsSortedAtItsEnd :
    let s := receiving 0 (some .management) none (managementBytes.take 14) State.reset
    let control := withFcs ((pauseBytes.take 15) ++ [2] ++ (pauseBytes.take 60).drop 16)
    (s.lane 0).waiting = [] ∧ s.phase = .running ∧
    (received 0 none none []).complete (List.replicate 13 0) = true ∧ (List.replicate 13 (0 : Byte)).length < 64 ∧
    (received 0 (some .plain) none []).complete (List.replicate 63 0) = true ∧ (List.replicate 63 (0 : Byte)).length < 64 ∧
    ({ received 0 (some .plain) none (List.replicate 64 0) with oversize := true } : Reception).oversize = true ∧
    managementBytes.length = 64 ∧ fcsCorrect managementBytes = true ∧ (State.reset.agentPort 0).slot = none ∧
    ((slotted [1] State.reset).agentPort 0).slot = some [1] ∧
    (managementBytes.take 60 ++ [0, 0, 0, 0]).length = 64 ∧ fcsCorrect (managementBytes.take 60 ++ [0, 0, 0, 0]) = false ∧
    pauseBytes.length = 64 ∧ fcsCorrect pauseBytes = true ∧ fieldNat pauseBytes 14 2 = 1 ∧ fieldNat pauseBytes 16 2 ≠ 0 ∧
      fieldNat (pauseFrame 0 0) 16 2 = 0 ∧ control.length = 64 ∧ fcsCorrect control = true ∧ fieldNat control 14 2 ≠ 1 ∧
      fcsCorrect (pauseBytes.take 60 ++ [0, 0, 0, 0]) = false := by decide +kernel

/-- E2 at a frame boundary with its link up. -/
def sending (fifo : List PassingItem) (own : List OwnFrame) (passed : Nat) : State :=
  withPort 6 (fun p => { p with link := true, fifo := fifo, own := own, passedOver := passed }) State.reset
theorem test_hyp_ItemIsChosenByArbitration :
    State.reset.phase = .running ∧ (State.reset.port 6).sending = none ∧ (State.reset.port 6).link = false ∧
    ((sending [] [] 0).port 6).link = true ∧ ((sending [] [] 0).port 6).fifo = [] ∧ ((sending [] [] 0).port 6).own = [] ∧
    ((sending [framed [1]] [] 0).port 6).fifo ≠ [] ∧ ((sending [framed [1]] [] 0).port 6).receivedPause = none ∧
    ((sending [] [.pause 0] 0).port 6).own ≠ [] ∧
    ((sending [framed [1]] [.pause 0] 3).port 6).passedOver < 4 ∧ 4 ≤ ((sending [framed [1]] [.pause 0] 4).port 6).passedOver := by decide +kernel

theorem test_hyp_TransmittedItemLeavesItsStore :
    let m : Marker := { group := 2, close := { sec := 1, ns := 0 }, k := 0, quality := .traceable, address := 1, lastSequence := 0 }
    let busy (side : Sending) (fifo : List PassingItem) (own : List OwnFrame) := withPort 6 (fun p => { p with sending := some side }) (sending fifo own 0)
    let falling := withLane 2 (fun l => { l with profile := { l.profile with low := 2 } })
      (withPort 6 (fun p => { p with pauseTimer := some 0, episode := some { drops := 3, openedBelow := false } }) (busy .passing [framed [1], framed [2]] []))
    State.reset.phase = .running ∧
    ((busy .passing [.marker m] []).port 6).sending = some .passing ∧ ((busy .passing [.marker m] []).port 6).fifo = [.marker m] ∧
    (falling.port 6).fifo = [framed [1], framed [2]] ∧ (falling.port 6).sending = some .passing ∧ (falling.port 6).pauseTimer ≠ none ∧
      (falling.port 6).episode = some { drops := 3, openedBelow := false } ∧ fillOf [framed [2]] < (falling.lane (laneOf 6)).profile.low ∧
      ¬ fillOf [framed [2], framed [3]] < (falling.lane (laneOf 6)).profile.low ∧
      ({ drops := 3, openedBelow := true } : Episode).openedBelow = true ∧
    ((busy .own [] [.response [1] true]).port 6).sending = some .own ∧ ((busy .own [] [.response [1] true]).port 6).own = [.response [1] true] ∧
    (restarting 1024 false).agent.restart = some { takenAt := 0, answered := false } ∧
    ((busy .own [] [.pause 0]).port 6).own = [.pause 0] := by decide +kernel

theorem test_hyp_PauseTimersExpire :
    let s := withLane 1 (fun l => { l with profile := { l.profile with high := 1 } })
      (withPort 5 (fun p => { p with fifo := [framed [1, 2]], pauseTimer := some 0, receivedPause := some 2560 }) State.reset)
    let low := withPort 5 (fun p => { p with fifo := [framed [1]] }) s
    let free (side : Option Sending) (own : List OwnFrame) : PortState := { PortState.initial with sending := side, own := own }
    s.phase = .running ∧ (s.port 5).pauseTimer = some 0 ∧ (ticking 12499 s).oscAt 7 < 0 + 100000 ∧ 0 + 100000 ≤ (ticking 12500 s).oscAt 0 ∧
      (s.lane (laneOf 5)).profile.high < fillOf (s.port 5).fifo ∧ fillOf (low.port 5).fifo ≤ (low.lane (laneOf 5)).profile.high ∧
      (s.port 5).receivedPause = some 2560 ∧ 10 * (ticking 31 s).oscAt 7 < 2560 ∧ 2560 ≤ 10 * (ticking 32 s).oscAt 0 ∧
    (free none [.response [] false, .pause 0]).own = [.response [] false] ++ .pause 0 :: [] ∧ (0 : Nat) ≤ [OwnFrame.response [] false].length ∧
    (free (some .own) [.pause 0, .pause 1]).own = [.pause 0] ++ .pause 1 :: [] ∧ (1 : Nat) ≤ [OwnFrame.pause 0].length ∧ [OwnFrame.pause 0].drop 1 = [] ∧
    (free (some .own) (.pause 0 :: List.replicate 6 (.response [] false))).own.drop 1 = List.replicate 6 (.response [] false) ∧
      (free none (List.replicate 7 (.response [] false))).own.length < 8 ∧ 8 ≤ (free none (List.replicate 8 (.response [] false))).own.length := by decide +kernel

theorem test_hyp_LinkChangeIsRecorded :
    let below := withPort 6 (fun p => { p with
        link := true, sending := some .passing, fifo := [framed [1], framed [2, 2]], episode := some { drops := 3, openedBelow := true } })
      (withLane 2 (fun l => { l with profile := { l.profile with low := 1 } }) State.reset)
    let cutShort (fifo : List PassingItem) (low : Nat) := withLane 2 (fun l => { l with profile := { l.profile with low := low } })
      (withPort 6 (fun p => { p with sending := some .passing, pauseTimer := some 0, episode := some { drops := 3, openedBelow := false } }) (sending fifo [] 0))
    State.reset.counting = true ∧ (State.reset.port 0).link = false ∧ (held false true none).counting = true ∧
    ((receiving 0 none none [] State.reset).port 0).link = true ∧ ((receiving 0 none none [] State.reset).port 0).episode = none ∧
    ((receiving 0 none none [] State.reset).lane (laneOf 0)).waiting = [] ∧
    ((cutShort [framed [1], framed [2]] 2).port 6).link = true ∧ ((cutShort [framed [1], framed [2]] 2).lane (laneOf 6)).waiting = [] ∧
      ((cutShort [framed [1], framed [2]] 2).port 6).fifo = [framed [1], framed [2]] ∧ ((cutShort [framed [1], framed [2]] 2).port 6).episode = some { drops := 3, openedBelow := false } ∧
      fillOf ([framed [1], framed [2]] : List PassingItem).tail < ((cutShort [framed [1], framed [2]] 2).lane (laneOf 6)).profile.low ∧
      ¬ fillOf ([framed [1], framed [2]] : List PassingItem).tail < ((cutShort [framed [1], framed [2]] 1).lane (laneOf 6)).profile.low ∧
    -- an episode that opened below the low watermark
    (below.port 6).link = true ∧ (below.lane (laneOf 6)).waiting = [] ∧ (below.port 6).episode = some { drops := 3, openedBelow := true } ∧
        (below.port 6).sending = some .passing ∧ ¬ fillOf (below.port 6).fifo.tail < (below.lane (laneOf 6)).profile.low := by decide +kernel

theorem test_hyp_GroupOpensAndDraws :
    let s := exampleGroup .armed (dated 1699999700 0 State.reset)
    let u := exampleGroup .call (dated 1700000000 0 State.reset)
    let stepped (before after : Nat) : State :=
      let v := exampleGroup .call (dated after 0 State.reset)
      v.withTime { v.time with stepSpan := some { before := { sec := before, ns := 0 }, after := { sec := after, ns := 0 } } }
    let w := drawnGroup State.reset
    s.phase = .running ∧ (s.group 2).state = .armed ∧ AtOrAfter s.time.now (s.group 2).callStart ∧
      Before (exampleGroup .armed (dated 1699999699 999999999 State.reset)).time.now (s.group 2).callStart ∧
    (u.group 2).state = .call ∧ AtOrAfter u.time.now (u.group 2).windowStart ∧ u.time.stepSpan = none ∧
      u.auction.seed = .committed 1000000 ∧ Before (u.readingAt 7) (addMs (u.group 2).windowStart 3819) ∧
      (seeded .absent u).auction.seed = .absent ∧
      Before (exampleGroup .call (dated 1699999999 999999999 State.reset)).time.now (u.group 2).windowStart ∧
    -- a step past the window start and past the drawn instant, where the close is reached at the draw, and one from the window start itself on
    (stepped 1699999999 1700000004).time.stepSpan = some { before := { sec := 1699999999, ns := 0 }, after := { sec := 1700000004, ns := 0 } } ∧
      Before { sec := 1699999999, ns := 0 } (u.group 2).windowStart ∧ AtOrAfter { sec := 1700000004, ns := 0 } (u.group 2).windowStart ∧
      AtOrAfter ((stepped 1699999999 1700000004).readingAt 0) { sec := 1700000004, ns := 0 } ∧
      ¬ Before { sec := 1700000000, ns := 0 } (u.group 2).windowStart ∧
    w.phase = .running ∧ (w.group 2).state = .window ∧ (w.group 2).close = some { sec := 1700000003, ns := 819000000 } ∧
      Before (dated 1700000003 818999999 w).time.now { sec := 1700000003, ns := 819000000 } ∧
      AtOrAfter (dated 1700000003 819000000 w).time.now { sec := 1700000003, ns := 819000000 } := by decide +kernel

theorem test_hyp_CloseFires :
    let s := drawnGroup (inDState .holdover (dated 1700000003 819000000 State.reset))
    let c : Instant := { sec := 1700000003, ns := 819000000 }
    let others := withGroup 5 (fun r => { r with state := .armed }) s
    let r : MarkerRequest := { group := 3, close := c, k := 0, quality := .holdover, reached := false, afterFrame := false }
    let m : Marker := { group := 2, close := c, k := 0, quality := .traceable, address := 1, lastSequence := 0 }
    let asked := withLane 1 (fun l => { l with mode := .stamp }) s
    let late := { (received 0 none none []) with detection := { detected 0 with instant := { sec := 1700000003, ns := 819000600 } } }
    let early := { (received 0 none none []) with detection := { detected 0 with instant := { sec := 1700000003, ns := 819000599 } } }
    s.phase = .running ∧ (s.group 2).state = .window ∧ (s.group 2).close = some c ∧
      (s.group 2).draw = some { d := 3819, uncommitted := false, advanced := false } ∧ AtOrAfter s.time.now c ∧
      s.dtu.quality = .holdover ∧ 1 ≤ s.journal.free ∧
      (withGroup 2 (fun r => { r with policy := .proceed }) s).group 2 = { s.group 2 with policy := .proceed } ∧
      (∀ k : Group, k ≠ 2 → (s.group k).state = .idle) ∧ s.auction.seed = .committed 1000000 ∧
      (others.group 5).state = .armed ∧ (5 : Group) ≠ 2 ∧ (seeded .absent s).auction.seed = .absent ∧
    (asked.group 2).lanes.getLsbD 1 = true ∧ (asked.lane 1).mode = .stamp ∧ (s.lane 1).mode = .pass ∧
      (asked.lane 1).waiting.length < 16 ∧ ((withLane 1 (fun l => { l with waiting := List.replicate 16 r }) asked).lane 1).waiting.length = 16 ∧
      (asked.port (gatewayPort 1)).reception = none ∧ AtOrAfter (asked.readingAt 0) (addNs c (asked.lane 1).profile.latency) ∧
      Before (asked.readingAt 0) (addNs c 1) ∧
      ((withPort 1 (fun p => { p with reception := some late }) asked).port (gatewayPort 1)).reception = some late ∧
        AtOrAfter (lessNs late.detection.instant late.detection.profile.latency) c ∧
      ¬ AtOrAfter (lessNs early.detection.instant early.detection.profile.latency) c ∧
      markersIn (asked.port (enginePort 1)).fifo < 16 ∧
      16 ≤ markersIn ((withPort 5 (fun p => { p with fifo := List.replicate 16 (.marker m) }) asked).port (enginePort 1)).fifo := by decide +kernel

/-- The group of these tests due with a journal of 8,192 records. -/
def fullJournal (s : State) : State :=
  s.withJournal { s.journal with retained := List.replicate 8192 { sequence := 0, body := startRecord resetStraps, chain := 0 } }
theorem test_hyp_DeferredCloseSuspends :
    let s := drawnGroup (inDState .untraceable (dated 1700000003 819000000 State.reset))
    let u := drawnGroup (inDState .traceable (dated 1700000003 819000000 State.reset))
    s.phase = .running ∧ (s.group 2).state = .window ∧ (s.group 2).policy = .defer ∧ s.dtu.quality = .untraceable ∧
      (s.group 2).close = some { sec := 1700000003, ns := 819000000 } ∧ (s.group 2).draw = some { d := 3819, uncommitted := false, advanced := false } ∧
      AtOrAfter s.time.now { sec := 1700000003, ns := 819000000 } ∧ u.dtu.quality = .traceable := by decide +kernel
theorem test_hyp_JournalFull : ∀ s : State, (fullJournal s).journal.free = 0 ∧ (fullJournal s).group = s.group := by
  intro s
  refine ⟨?_, rfl⟩
  show 8192 - (List.replicate 8192 _).length = 0
  rw [List.length_replicate]

theorem test_hyp_MarkerAndStrobeMoments :
    let r : MarkerRequest := { group := 2, close := { sec := 1700000003, ns := 819000000 }, k := 2, quality := .traceable, reached := true, afterFrame := false }
    let m : Marker := { group := 2, close := { sec := 1, ns := 0 }, k := 0, quality := .traceable, address := 1, lastSequence := 0 }
    let s := markedLane State.reset
    let busy := withPort 1 (fun p => { p with reception := some (received 0 none none []) }) s
    let full (n : Nat) := withPort 5 (fun p => { p with fifo := List.replicate n (.marker m) }) s
    let pulsing := State.reset.withSignal { State.reset.signal with strobes := State.reset.signal.strobes.set 0 { groups := 4, width := 100, pulseEnd := some 1024 } }
    s.phase = .running ∧ (s.lane 1).waiting = [r] ∧ r.reached = true ∧ r.afterFrame = false ∧ (s.port (gatewayPort 1)).reception = none ∧ (s.lane 1).mode = .stamp ∧
      ((withLane 1 (fun l => { l with mode := .pass }) s).lane 1).mode = .pass ∧ markersIn ((full 15).port (enginePort 1)).fifo < 16 ∧
      16 ≤ markersIn ((full 16).port (enginePort 1)).fifo ∧ (busy.port (gatewayPort 1)).reception ≠ none ∧
      (pulsing.signal.strobes[(0 : Line)]).pulseEnd = some 1024 ∧ 1024 ≤ pulsing.osc ∧ (ticking 1023 pulsing).osc < 1024 := by decide +kernel

/-- A request that follows the frame in reception on G0, with that frame's end and its abort. -/
def following (s : State) : State :=
  receiving 500000000 (some .other) none (orderBytes.take 14) (withLane 0 (fun l => { l with
    waiting := [{ group := 2, close := { sec := 100, ns := 0 }, k := 0, quality := .traceable, reached := false, afterFrame := true }] }) s)
theorem test_hyp_MarkerFollowsItsFrame :
    let r : MarkerRequest := { group := 2, close := { sec := 100, ns := 0 }, k := 0, quality := .traceable, reached := false, afterFrame := true }
    let f := received 500000000 (some .other) none (orderBytes.take 14)
    let rest := (withFcs orderBytes).drop 14
    let stamp := withLane 0 (fun l => { l with mode := .stamp }) (following State.reset)
    let m : Marker := { group := 2, close := { sec := 1, ns := 0 }, k := 0, quality := .traceable, address := 1, lastSequence := 0 }
    let filled := withPort 4 (fun p => { p with fifo := List.replicate 16 (.marker m) }) stamp
    (following State.reset).phase = .running ∧ ((following State.reset).lane 0).waiting = [r] ∧ r.afterFrame = true ∧
      ((following State.reset).port (gatewayPort 0)).reception = some f ∧ ((following State.reset).port (gatewayPort 0)).link = true ∧
      f.complete (f.bytes ++ rest) = true ∧ ((following State.reset).lane 0).mode = .pass ∧
    (((after (.frameEnd 0 rest false 0 []) (following State.reset)).lane 0).markers.withdrawn,
      ((after (.linkDown 0 0 []) stamp).lane 0).markers.placed, ((after (.linkDown 0 0 []) filled).lane 0).markers.lost) = (1, 1, 1) ∧
    -- the marker follows the frame that it waited for
    (((after (.frameEnd 0 rest false 0 []) stamp).port 4).fifo.map fun item => match item with
      | .marker _ => true
      | .frame _ _ => false) = [false, true] := by decide +kernel

/-! ### Requests taken -/

theorem test_hyp_SlotsAreTakenInRoundRobin :
    let s := (slotted [1] State.reset).withAgentPort 7 { State.reset.agentPort 7 with slot := some [2] }
    let late := s.withAgent { s.agent with pointer := 1 }
    s.nextTake 0 = some { port := 0, level := .configure, frame := [1], now := { sec := 0, ns := 0 }, osc := 8192 } ∧
    late.nextTake 0 = some { port := 7, level := .none, frame := [2], now := { sec := 0, ns := 0 }, osc := 8192 } ∧ late.phase = .running ∧
      late.agent.restart = none ∧ (late.agentPort 7).slot.isSome = true := by decide +kernel

theorem test_hyp_RejectedFrameIsCounted :
    let q (level : Level) (frame : List Byte) : Take := { port := 0, level := level, frame := frame, now := { sec := 0, ns := 0 }, osc := 0 }
    (slotted (request 2 1 1 0 []) State.reset).nextTake 0 =
        some { port := 0, level := .configure, frame := request 2 1 1 0 [], now := { sec := 0, ns := 0 }, osc := 8192 } ∧
    (q .none (requestOf .getStatus [])).judgement = .noPermission ∧ (q .observe (request 1 2 1 0 [])).judgement = .notRequest ∧
    (q .observe (request 2 1 1 0 [])).judgement = .malformed ∧ (q .observe (request 1 1 1 39 [])).judgement = .malformed ∧
    (q .observe (request 1 1 7 0 [])).judgement = .unknown ∧ (q .observe (requestOf .extendCall [0])).judgement = .denied ∧
    (q .operate (requestOf .extendCall [0])).judgement = .command .extendCall := by decide +kernel

/-- A request of a command is taken from these states as that command. -/
theorem takes_asked (c : Command) (body : List Byte) (s : State) (h : (asked c body s).nextTake 0 = some (takeOf c body s))
    (h2 : judgeRequest .configure (requestOf c body) = .command c) : (asked c body s).Takes 0 (takeOf c body s) c := ⟨h, h2⟩

/-- Every command can be taken: with any body of its length, here of zeros. -/
theorem test_hyp_Takes : ∀ c ∈ Command.all,
    (asked c (List.replicate c.bodyLength 0) State.reset).nextTake 0 = some (takeOf c (List.replicate c.bodyLength 0) State.reset) ∧
    (takeOf c (List.replicate c.bodyLength 0) State.reset).judgement = .command c := by decide +kernel
/-- So the hypothesis `Takes` of the statements is met by a concrete state. -/
theorem test_hyp_CommandIsAppliedOrRefused : (asked .getStatus [] State.reset).Takes 0 (takeOf .getStatus [] State.reset) .getStatus ∧
    (Command.rule [] .extendCall (takeOf .extendCall [16] State.reset) State.reset).status = .invalid :=
  ⟨takes_asked _ _ _ (by decide +kernel) (by decide +kernel), by decide +kernel⟩

/-- A request with a given body is taken as its command (a decidable form of `Takes` for `asked`). -/
def taken (c : Command) (body : List Byte) (s : State) : Bool :=
  (asked c body s).nextTake 0 == some (takeOf c body s) && (takeOf c body s).judgement == .command c

theorem test_hyp_JudgementPassesEveryTest :
    let good := requestOf .extendCall [0]
    let long := good ++ [0]
    Level.operate ≠ .none ∧ fieldNat good 15 1 = 1 ∧ fieldNat good 14 1 = 1 ∧ BitVec.ofNat 8 (fieldNat good 16 1) = Command.code .extendCall ∧
    8 + fieldNat good 20 2 ≤ good.length - 18 ∧ fieldNat good 20 2 = Command.bodyLength .extendCall ∧
    fieldNat (request 1 2 1 0 []) 15 1 ≠ 1 ∧ fieldNat (request 2 1 1 0 []) 14 1 ≠ 1 ∧
    (request 1 1 1 39 []).length - 18 < 8 + fieldNat (request 1 1 1 39 []) 20 2 ∧ ¬ (request 1 1 1 38 []).length - 18 < 8 + fieldNat (request 1 1 1 38 []) 20 2 ∧
    64 < long.length ∧ 8 + fieldNat long 20 2 ≠ long.length - 18 ∧
    (∀ c ∈ Command.all, BitVec.ofNat 8 (fieldNat (request 1 1 7 0 []) 16 1) ≠ Command.code c) ∧
    Level.code .observe < Level.code (Command.level .extendCall) ∧ Level.code (Command.level .extendCall) ≤ Level.code .operate ∧
    fieldNat (request 1 1 0x21 2 []) 20 2 ≠ Command.bodyLength .extendCall := by decide +kernel

theorem test_hyp_ObserveCommandsChangeNothing :
    let closed := withGroup 2 (fun r => { r with state := .closed }) (drawnGroup State.reset)
    taken .getStatus [] State.reset ∧ taken .readJournal [0, 0, 0, 1, 32] State.reset ∧ taken .readSeed [] State.reset ∧
    taken .readGroup [15] State.reset ∧ taken .readGroup [16] State.reset ∧ taken .readMatchEntry [1, 63] State.reset ∧
    taken .readMatchEntry [2, 0] State.reset ∧ taken .readMatchEntry [0, 64] State.reset ∧ taken .readCounters [6] State.reset ∧
    taken .readCounters [3] State.reset ∧ taken .readCounters [4] State.reset ∧ taken .readCounters [5] State.reset ∧
    taken .readCounters [7] State.reset ∧ State.reset.journal.place 1 = .retained 0 ∧ State.reset.journal.place 2 = .beyondNewest ∧
    State.reset.journal.place 0 = .belowOldest ∧ taken .readGroup [2] (drawnGroup State.reset) ∧ ((drawnGroup State.reset).group 2).state = .window ∧
    taken .readGroup [2] closed ∧ (closed.group 2).state = .closed ∧ (closed.group 2).close = some { sec := 1700000003, ns := 819000000 } ∧
      (closed.group 2).draw = some { d := 3819, uncommitted := false, advanced := false } ∧ (State.reset.group 15).state = .idle := by decide +kernel
theorem test_hyp_ReleaseJournalFreesRecords : taken .releaseJournal [0, 0, 0, 1] State.reset ∧ taken .releaseJournal [0, 0, 0, 0] State.reset ∧
    taken .releaseJournal [0, 0, 0, 2] State.reset ∧
    -- the distances of the place of a number, and a record handed with one place free
    (let j := State.reset.journal
     let distance (n : BitVec 32) : Nat := (n.toNat + (4294967296 - (j.next - BitVec.ofNat 32 j.retained.length).toNat)) % 4294967296
     distance (j.next - 1) < j.retained.length ∧ distance j.next = j.retained.length ∧ distance (j.next + 0x7FFFFFFF#32 - BitVec.ofNat 32 j.retained.length) = 2147483647 ∧
       distance (j.next + 0x80000000#32 - BitVec.ofNat 32 j.retained.length) = 2147483648) ∧
    1 ≤ State.reset.journal.free := by decide +kernel
theorem test_hyp_EventRecordIsTaken : ∀ minute state active, (Payload.linkChange 3 true) ≠ .minuteSummary minute state active := by
  intro _ _ _ h; cases h
theorem test_hyp_ExtendCallMovesTheWindow :
    let at_c := drawnGroup (dated 1700000003 819000000 State.reset)
    let beforeC := drawnGroup (dated 1700000003 818999999 State.reset)
    let spent := withGroup 2 (fun r => { r with extUsed := 2 }) beforeC
    taken .extendCall [16] State.reset ∧ taken .extendCall [15] State.reset ∧ (State.reset.group 15).state = .idle ∧ taken .extendCall [2] at_c ∧
      (at_c.group 2).state = .window ∧ (at_c.group 2).close = some { sec := 1700000003, ns := 819000000 } ∧
      AtOrAfter (takeOf .extendCall [2] at_c).now { sec := 1700000003, ns := 819000000 } ∧
    taken .extendCall [2] beforeC ∧ Before (takeOf .extendCall [2] beforeC).now { sec := 1700000003, ns := 819000000 } ∧
      (beforeC.group 2).extUsed ≠ (beforeC.group 2).extLimit ∧ taken .extendCall [2] spent ∧ (spent.group 2).extUsed = (spent.group 2).extLimit := by decide +kernel

theorem test_hyp_LaneCommandsSetTheLane :
    let body (ether key kind action latency : Nat) : List Byte :=
      [3] ++ beBytes 2 ether ++ beBytes 1 key ++ beBytes 1 kind ++ beBytes 1 action ++ beBytes 4 latency ++ beBytes 6 1 ++ beBytes 4 32768 ++ beBytes 4 1
    let rising := withPort 6 (fun p => { p with fifo := [framed [1]] }) (withLane 2 (fun l => { l with profile := { l.profile with high := 0 } }) State.reset)
    let falling := withPort 6 (fun p => { p with pauseTimer := some 0 }) State.reset
    taken .setLaneMode [4, 0, 0] State.reset ∧ taken .setLaneMode [3, 2, 0] State.reset ∧ taken .setLaneMode [3, 1, 2] State.reset ∧
    taken .setLaneMode [3, 1, 1] State.reset ∧ taken .setLaneProfile (body 0x0600 56 63 2 65535) State.reset ∧ taken .setLaneProfile (body 0x05FF 56 63 2 65535) State.reset ∧
    taken .setLaneProfile (body 0x8808 56 63 2 65535) State.reset ∧ taken .setLaneProfile (body 0x0600 57 63 2 65535) State.reset ∧
    taken .setLaneProfile (body 0x0600 56 64 2 65535) State.reset ∧ taken .setLaneProfile (body 0x0600 56 63 1 65535) State.reset ∧
    taken .setLaneProfile (body 0x0600 56 63 2 65536) State.reset ∧
    (rising.lane (laneOf 6)).profile.high < fillOf (rising.port 6).fifo ∧ (rising.port 6).pauseTimer = none ∧
    fillOf (falling.port 6).fifo < (falling.lane (laneOf 6)).profile.low ∧ (falling.port 6).pauseTimer ≠ none := by
  decide +kernel

theorem test_hyp_MatchTableIsWrittenAndSwapped :
    let body (bank index valid group action : Nat) : List Byte :=
      beBytes 1 bank ++ beBytes 1 index ++ beBytes 1 valid ++ List.replicate 10 9 ++ beBytes 1 group ++ beBytes 1 action
    taken .writeMatchEntry (body 1 63 1 15 2) State.reset ∧ taken .writeMatchEntry (body 1 63 1 255 2) State.reset ∧ taken .writeMatchEntry (body 0 63 1 15 2) State.reset ∧
    taken .writeMatchEntry (body 2 63 1 15 2) State.reset ∧ taken .writeMatchEntry (body 1 64 1 15 2) State.reset ∧ taken .writeMatchEntry (body 1 63 2 15 2) State.reset ∧
    taken .writeMatchEntry (body 1 63 1 16 2) State.reset ∧ taken .writeMatchEntry (body 1 63 1 15 3) State.reset ∧ State.reset.table.active = 0 ∧
    taken .swapBank [0] State.reset ∧ taken .swapBank [1] State.reset ∧ taken .swapBank [2] State.reset := by decide +kernel

theorem test_hyp_LoadScheduleArmsTheGroup :
    let at_ (sec ns : Nat) := inDState .traceable (dated sec ns State.reset)
    let armed := at_ 1699999699 999999999
    let now (s : State) := (takeOf .loadSchedule scheduleBytes s).now
    let windowStart : Instant := { sec := 1700000000, ns := 0 }
    let f := fieldNat scheduleBytes
    ¬ (16 ≤ f 0 1 ∨ 1000000000 ≤ f 7 4 ∨ 1000000000 ≤ f 17 4 ∨ 2 ≤ f 30 1 ∨ f 25 4 = 0 ∨ 3600000 < f 25 4 ∨ f 31 4 = 0 ∨ 600000 < f 31 4 ∨ 16 ≤ f 35 1) ∧
    f 0 1 = 2 ∧ f 30 1 = 1 ∧ taken .loadSchedule scheduleBytes armed ∧ taken .loadSchedule scheduleBytes (at_ 1699999700 0) ∧
    taken .loadSchedule scheduleBytes State.reset ∧ State.reset.dtu.state = .free ∧ taken .loadSchedule ([16] ++ scheduleBytes.tail) State.reset ∧
      16 ≤ fieldNat ([16] ++ scheduleBytes.tail) 0 1 ∧
    taken .loadSchedule scheduleBytes (drawnGroup armed) ∧ ((drawnGroup armed).group 2).state = .window ∧ (armed.group 2).state = .idle ∧
    Before { sec := f 1 6, ns := f 7 4 } { sec := f 11 6, ns := f 17 4 } ∧
    Before (now armed) { sec := 1699999700, ns := 0 } ∧ AtOrAfter (now (at_ 1699999700 0)) { sec := 1699999700, ns := 0 } ∧
    AtOrAfter (now (at_ 1700000030 0)) (addMs windowStart 30000) ∧
    taken .loadSchedule scheduleBytes (at_ 1700000000 0) ∧ AtOrAfter (now (at_ 1700000000 0)) windowStart ∧
      taken .loadSchedule scheduleBytes (at_ 1700000029 999999999) ∧ Before (now (at_ 1700000029 999999999)) (addMs windowStart 30000) ∧
      Before (now (at_ 1699999999 999999999)) windowStart := by decide +kernel

theorem test_hyp_DayAndScheduleAreCleared :
    taken .clearSchedule [16] State.reset ∧ taken .clearSchedule [2] (exampleGroup .armed State.reset) ∧ taken .clearSchedule [2] (exampleGroup .closed State.reset) ∧
    taken .clearSchedule [2] (exampleGroup .call State.reset) ∧ taken .setDay [0xFF, 0xFF] State.reset ∧ (∀ g, (State.reset.group g).state = .idle) ∧
    taken .setDay [0, 0] (exampleGroup .closed State.reset) ∧ ((exampleGroup .closed State.reset).group 2).state = .closed ∧
    taken .dayRoll [] (exampleGroup .suspended State.reset) ∧ ((exampleGroup .suspended State.reset).group 2).state = .suspended ∧
    taken .dayRoll [] (exampleGroup .armed State.reset) ∧ (exampleGroup .armed State.reset).auction.seed = .committed 1000000 ∧
    (∀ g, ¬ (((exampleGroup .armed State.reset).group g).state = .call ∨ ((exampleGroup .armed State.reset).group g).state = .window ∨
      ((exampleGroup .armed State.reset).group g).state = .suspended)) ∧ State.reset.auction.seed = .absent := by decide +kernel

theorem test_hyp_SeedIsLoadedAndCommitted :
    let sum := beBytes 2 (check (beBytes 4 1000000)).toNat
    taken .loadSeed [0, 0x0F, 0x42, 0x40] State.reset ∧ State.reset.auction.seed = .absent ∧ taken .loadSeed [0, 0, 0, 0] (seeded (.committed 1000000) State.reset) ∧
    taken .commitSeed sum (seeded (.committed 1000000) State.reset) ∧ taken .commitSeed sum State.reset ∧ taken .commitSeed sum (seeded (.revealed 1000000) State.reset) ∧
    taken .commitSeed sum (seeded (.loaded 1000000) State.reset) ∧ (check (beBytes 4 1000000)).toNat = fieldNat (takeOf .commitSeed sum State.reset).body 0 2 ∧
    taken .commitSeed [0, 0] (seeded (.loaded 1000000) State.reset) ∧ (check (beBytes 4 1000000)).toNat ≠ fieldNat (takeOf .commitSeed [0, 0] State.reset).body 0 2 := by
  decide +kernel

theorem test_hyp_ReferenceSettingsAreReplaced :
    let channel (on divisor : Nat) : List Byte := [0] ++ beBytes 1 on ++ [1] ++ beBytes 4 1000000 ++ beBytes 2 4095 ++ beBytes 2 4096 ++ [0] ++ beBytes 2 divisor ++ [0, 0, 1]
    let discipline (limit : Nat) : List Byte := [15, 16, 6, 2] ++ beBytes 4 3200001 ++ beBytes 4 limit ++ List.replicate 25 0
    let bad (body : List Byte) := 2 ≤ fieldNat body 0 1 ∨ 2 ≤ fieldNat body 1 1 ∨ 4 ≤ fieldNat body 2 1 ∨ 1000000 < fieldNat body 3 4 ∨ 2 ≤ fieldNat body 11 1 ∨
      4095 < fieldNat body 12 2 ∨ 2 ≤ fieldNat body 14 1 ∨ 3 ≤ fieldNat body 15 1 ∨ fieldNat body 16 1 = 0 ∨ 2 < fieldNat body 16 1
    let off := withA (fun c => { c with settings := { c.settings with enabled := false } }) State.reset
    taken .setReferenceChannel (channel 1 4095) State.reset ∧ ¬ bad (channel 1 4095) ∧ taken .setReferenceChannel (channel 1 4096) State.reset ∧
    bad (channel 1 4096) ∧ bad (channel 2 0) ∧ (State.reset.chan .A).settings.enabled = true ∧ (State.reset.chan .A).settings.divisor ≠ 4095 ∧
    (State.reset.chan .A).settings.divisor = 813 ∧ taken .setReferenceChannel (channel 1 813) State.reset ∧ taken .setReferenceChannel (channel 0 813) State.reset ∧
    taken .setReferenceChannel (channel 1 813) off ∧ (off.chan .A).settings.enabled = false ∧
    taken .setPreferredReference [1] State.reset ∧ taken .setPreferredReference [2] State.reset ∧
    taken .setDiscipline (discipline 1000) State.reset ∧ fieldNat (takeOf .setDiscipline (discipline 1000) State.reset).body 8 4 = 1000 ∧
    taken .setDiscipline (discipline 999) State.reset ∧ fieldNat (takeOf .setDiscipline (discipline 999) State.reset).body 8 4 < 1000 := by decide +kernel

theorem test_hyp_AcquisitionIsEndedOrEntered :
    taken .endAcquisition [] State.reset ∧ State.reset.dtu.state ≠ .acquiring ∧ taken .endAcquisition [] (inDState .acquiring State.reset) ∧
    taken .stepTime (signedBytes 8 (-86400000000000)) State.reset ∧ taken .stepTime (signedBytes 8 (-86400000000001)) State.reset ∧
    (fieldInt (takeOf .stepTime (signedBytes 8 (-86400000000000)) State.reset).body 0 8).natAbs ≤ 86400000000000 ∧
    86400000000000 < (fieldInt (takeOf .stepTime (signedBytes 8 (-86400000000001)) State.reset).body 0 8).natAbs ∧
    taken .stepTime (signedBytes 8 5) (inDState .acquiring State.reset) := by decide +kernel

theorem test_hyp_UtcOffsetIsScheduled :
    let body (sec ns : Nat) : List Byte := [0x80] ++ beBytes 6 sec ++ beBytes 4 ns
    taken .setUtcOffset (body 7 999999999) (dated 7 999999999 State.reset) ∧ taken .setUtcOffset (body 8 0) (dated 7 999999999 State.reset) ∧
    taken .setUtcOffset (body 7 1000000000) State.reset ∧
    AtOrAfter (takeOf .setUtcOffset (body 7 999999999) (dated 7 999999999 State.reset)).now { sec := 7, ns := 999999999 } ∧
    Before (takeOf .setUtcOffset (body 8 0) (dated 7 999999999 State.reset)).now { sec := 8, ns := 0 } := by decide +kernel

theorem test_hyp_OutputsAreReplaced :
    let body (mode mask : Nat) : List Byte := beBytes 1 mode ++ List.replicate 20 0 ++ beBytes 1 mask
    taken .setOutputs (body 2 127) State.reset ∧ taken .setOutputs (body 3 127) State.reset ∧ taken .setOutputs (body 2 128) State.reset := by decide +kernel

theorem test_hyp_PermissionsAreReplacedTogether :
    taken .setPermissions [0, 1, 2, 3, 0, 0, 0, 0] State.reset ∧ taken .setPermissions [4, 1, 2, 3, 0, 0, 0, 0] State.reset ∧
    taken .setPermissions [0, 1, 2, 2, 0, 0, 0, 0] State.reset := by decide +kernel

theorem test_hyp_RestartStopsTheAgent :
    let full := withPort 0 (fun p => { p with own := List.replicate 8 (.pause 0) }) State.reset
    let free := withPort 0 (fun p => { p with own := List.replicate 7 (.pause 0) }) State.reset
    taken .restart [] free ∧ (free.port 0).own.length < 8 ∧ taken .restart [] full ∧ 8 ≤ (full.port 0).own.length ∧
    (restarting 1024 true).phase = .running ∧ (restarting 1024 true).agent.restart = some { takenAt := 0, answered := true } ∧ Instr.tick ≠ .powerOnReset := by
  decide +kernel

/-! ### States that meet the invariants -/

theorem test_hyp_JournalStaysSound : State.reset.journal.Sound ∧ (step { State.reset with pending := [.linkUp 0 0] } = .next (after (.linkUp 0 0) State.reset)) :=
  ⟨⟨by decide +kernel, by decide +kernel, by decide +kernel, by decide +kernel, by decide +kernel⟩, rfl⟩
theorem test_hyp_TimeBaseStaysInRange : State.reset.time.InRange := by
  refine ⟨by decide +kernel, by decide +kernel, by decide +kernel, by decide +kernel, by decide +kernel, by decide +kernel, ?_⟩
  intro change h; cases h
theorem test_hyp_StoresStayWithinCapacity : State.reset.WithinCapacity := by
  refine ⟨by decide +kernel, by decide +kernel, ?_⟩
  intro ch; cases ch <;> decide +kernel
theorem test_hyp_GroupsStayInRange : ∀ g, ((drawnGroup State.reset).group g).InRange := by
  intro g
  refine ⟨?_, ?_, ?_, ?_, ?_, ?_, ?_, ?_, ?_, ?_, ?_, ?_⟩
  iterate 11 (revert g; decide +kernel)
  · intro draw h
    have : ∀ g : Group, (((drawnGroup State.reset).group g).draw.map fun d => d.d).getD 0 ≤ ((drawnGroup State.reset).group g).window := by decide +kernel
    have := this g
    rw [h] at this
    exact this
theorem test_hyp_SomePortStaysConfigurable : State.reset.Configurable := ⟨0, by decide +kernel⟩
theorem test_hyp_LastStampNeverMovesBack : ¬ PowerRow .tick ∧ exec .tick State.reset = .next (after .tick State.reset) := by
  refine ⟨?_, rfl⟩
  rintro (h | ⟨_, _, _, h⟩ | h) <;> cases h
theorem test_hyp_CommittedSeedStaysUntilRevealed :
    (seeded (.committed 7) State.reset).auction.seed = .committed 7 ∧ exec .tick (seeded (.committed 7) State.reset) = .next (after .tick (seeded (.committed 7) State.reset)) :=
  ⟨rfl, rfl⟩

end Sys2Proof.Tests
end

