-- ==== Sys2Proof/Proofs/MatchTable.lean ====
section
/-! PROOF. The two commands of the Match Table: what their body fields name, what an entry written leaves in each slot, and what WRITE_MATCH_ENTRY and
SWAP_BANK do where they are taken. -/

namespace Sys2Proof.Machine

/-! ### The serve of a take, by its reply -/

section

variable {s : State} {q : Take} {apply : Take → State → Reply} {ofRestart : Bool}

/-- A refused take is answered from the state whose slot is empty, and nothing else changes (R176). -/
theorem State.serve_of_refuse {status : Status} (h : apply q (s.emptySlot q.port) = .refuse (s.emptySlot q.port) status) :
    s.serve q apply ofRestart = (s.emptySlot q.port).respond q status [] ofRestart := by
  simp only [State.serve, h, Reply.refuse]

/-- A take accepted without a response body is answered from the state it makes. -/
theorem State.serve_of_done {t : State} (h : apply q (s.emptySlot q.port) = .done t) :
    s.serve q apply ofRestart = t.respond q .ok [] ofRestart := by
  simp only [State.serve, h, Reply.done]

end

/-! ### The values that a WriteMatchEntry body names (R93, R176, R184) -/

theorem bankNamed_eq_none_iff (n : Nat) : bankNamed n = none ↔ 2 ≤ n := by
  simp only [bankNamed]; split_ifs <;> simp <;> omega

theorem indexNamed_eq_none_iff (n : Nat) : indexNamed n = none ↔ 64 ≤ n := by
  simp [indexNamed]

theorem flagOf_of_lt {n : Nat} (h : n < 2) : flagOf n = some (decide (n = 1)) := by
  interval_cases n <;> rfl

theorem flagOf_eq_none_iff (n : Nat) : flagOf n = none ↔ 2 ≤ n := by
  simp only [flagOf]; split_ifs <;> simp <;> omega

theorem groupOrNone_eq_none_iff (n : Nat) : groupOrNone n = none ↔ 16 ≤ n ∧ n ≠ 255 := by
  simp only [groupOrNone, groupNamed]; split_ifs <;> simp <;> omega

theorem groupOrNone_val (g : Group) : groupOrNone g.val = some (some g) := by
  have hg : g.val ≠ 255 := by omega
  simp [groupOrNone, hg]

theorem groupOrNone_NONE : groupOrNone 255 = some none := rfl

theorem actionNamed_eq_none_iff (n : Nat) : actionNamed n = none ↔ 3 ≤ n := by
  simp only [actionNamed]; split_ifs <;> simp <;> omega

theorem actionNamed_code (action : Action) : actionNamed (Action.code action).toNat = some action := by
  cases action <;> rfl

/-! ### The body of a WriteMatchEntry -/

/-- The entry that a body carries, its flag, group and action already read. -/
def entryOfBody (body : List Byte) (valid : Bool) (group : Option Group) (action : Action) : MatchEntry :=
  { valid := valid, keyValue := BitVec.ofNat 32 (fieldNat body 3 4), keyMask := BitVec.ofNat 32 (fieldNat body 7 4)
    kindValue := BitVec.ofNat 8 (fieldNat body 11 1), kindMask := BitVec.ofNat 8 (fieldNat body 12 1), group := group, action := action }

/-- A body is accepted exactly where each of its five restricted fields names a value. -/
theorem matchEntryBody_eq_some_iff (body : List Byte) (b : MatchEntryBody) :
    matchEntryBody body = some b ↔
      ∃ bank index valid group action, bankNamed (fieldNat body 0 1) = some bank ∧ indexNamed (fieldNat body 1 1) = some index ∧
        flagOf (fieldNat body 2 1) = some valid ∧ groupOrNone (fieldNat body 13 1) = some group ∧
        actionNamed (fieldNat body 14 1) = some action ∧
        b = { bank := bank, index := index, entry := entryOfBody body valid group action } := by
  simp only [matchEntryBody, entryOfBody, bind, Option.bind_eq_some_iff, pure, Option.some.injEq]
  grind

theorem matchEntryBody_eq_none_iff (body : List Byte) :
    matchEntryBody body = none ↔
      2 ≤ fieldNat body 0 1 ∨ 64 ≤ fieldNat body 1 1 ∨ 2 ≤ fieldNat body 2 1 ∨
        (16 ≤ fieldNat body 13 1 ∧ fieldNat body 13 1 ≠ 255) ∨ 3 ≤ fieldNat body 14 1 := by
  rw [← bankNamed_eq_none_iff, ← indexNamed_eq_none_iff, ← flagOf_eq_none_iff, ← groupOrNone_eq_none_iff, ← actionNamed_eq_none_iff]
  constructor
  · intro hnone
    by_contra hall
    simp only [not_or, ← ne_eq, Option.ne_none_iff_exists'] at hall
    obtain ⟨⟨bank, hbank⟩, ⟨index, hindex⟩, ⟨valid, hvalid⟩, ⟨group, hgroup⟩, ⟨action, haction⟩⟩ := hall
    have hsome := (matchEntryBody_eq_some_iff body _).mpr ⟨bank, index, valid, group, action, hbank, hindex, hvalid, hgroup, haction, rfl⟩
    cases hnone.symm.trans hsome
  · intro hfield
    refine Option.eq_none_iff_forall_ne_some.mpr fun b hb => ?_
    obtain ⟨bank, index, valid, group, action, hbank, hindex, hvalid, hgroup, haction, _⟩ := (matchEntryBody_eq_some_iff body b).mp hb
    simp [hbank, hindex, hvalid, hgroup, haction] at hfield

/-- The bank of an accepted body is the one its first field names. -/
theorem matchEntryBody_bank {body : List Byte} {b : MatchEntryBody} (h : matchEntryBody body = some b) :
    bankNamed (fieldNat body 0 1) = some b.bank := by
  obtain ⟨bank, index, valid, group, action, hbank, _, _, _, _, rfl⟩ := (matchEntryBody_eq_some_iff body b).mp h
  exact hbank

/-! ### The slots of a table after a write -/

@[simp] theorem MatchTable.write_active (t : MatchTable) (b : MatchEntryBody) : (t.write b).active = t.active := rfl

@[simp] theorem MatchTable.slot_write_self (t : MatchTable) (b : MatchEntryBody) :
    (t.write b).slot b.bank b.index = { entry := b.entry, hits := 0 } := by
  simp [MatchTable.slot, MatchTable.write]

theorem MatchTable.slot_write_other (t : MatchTable) (b : MatchEntryBody) (bank : Fin 2) (index : Fin 64)
    (h : (bank, index) ≠ (b.bank, b.index)) : (t.write b).slot bank index = t.slot bank index := by
  by_cases hbank : bank = b.bank
  · subst hbank
    have hindex : b.index.val ≠ index.val := fun e => h (by rw [Fin.ext e])
    simp [MatchTable.slot, MatchTable.write, hindex]
  · have hval : b.bank.val ≠ bank.val := fun e => hbank (Fin.ext e).symm
    simp [MatchTable.slot, MatchTable.write, hval]

/-! ### WRITE_MATCH_ENTRY (R93) -/

section

variable {s : State} {sub : Sub} {q : Take}

/-- The journal after an entry is written: a ConfigChange record where its fields differ from those it replaces (R93, R171). -/
def State.journalOfWrite (s : State) (q : Take) (b : MatchEntryBody) : Journal :=
  if (s.table.slot b.bank b.index).entry = b.entry then s.journal
  else s.journal.take (s.dtu.handed q.now (.configChange 0x43 q.port (BitVec.ofNat 16 (b.bank.val * 256 + b.index.val)) []))

theorem applyWriteMatchEntry_invalid (s : State) (h : matchEntryBody q.body = none) : applyWriteMatchEntry q s = .refuse s .invalid := by
  simp only [applyWriteMatchEntry, h]

theorem applyWriteMatchEntry_active {b : MatchEntryBody} (h : matchEntryBody q.body = some b) (hb : b.bank = s.table.active) :
    applyWriteMatchEntry q s = .refuse s .wrongState := by
  simp only [applyWriteMatchEntry, h, hb, if_true]

theorem applyWriteMatchEntry_shadow {b : MatchEntryBody} (h : matchEntryBody q.body = some b) (hb : b.bank ≠ s.table.active) :
    applyWriteMatchEntry q s = .done { s with table := s.table.write b, journal := s.journalOfWrite q b } := by
  simp only [applyWriteMatchEntry, h, if_neg hb, State.journalOfWrite]
  split <;> rfl

theorem exec_writeMatchEntry_of_takes (h : s.Takes sub q .writeMatchEntry) :
    exec (.writeMatchEntry sub) s = .next (s.serve q applyWriteMatchEntry false) :=
  congrArg Host.Outcome.next (State.takeCommand_of_takes applyWriteMatchEntry h)

theorem exec_writeMatchEntry_invalid (h : s.Takes sub q .writeMatchEntry) (hbody : matchEntryBody q.body = none) :
    exec (.writeMatchEntry sub) s = .next ((s.emptySlot q.port).respond q .invalid [] false) := by
  rw [exec_writeMatchEntry_of_takes h, State.serve_of_refuse (applyWriteMatchEntry_invalid _ hbody)]

theorem exec_writeMatchEntry_active {b : MatchEntryBody} (h : s.Takes sub q .writeMatchEntry) (hbody : matchEntryBody q.body = some b)
    (hbank : b.bank = s.table.active) :
    exec (.writeMatchEntry sub) s = .next ((s.emptySlot q.port).respond q .wrongState [] false) := by
  rw [exec_writeMatchEntry_of_takes h, State.serve_of_refuse (applyWriteMatchEntry_active hbody hbank)]

theorem exec_writeMatchEntry_shadow {b : MatchEntryBody} (h : s.Takes sub q .writeMatchEntry) (hbody : matchEntryBody q.body = some b)
    (hbank : b.bank ≠ s.table.active) :
    exec (.writeMatchEntry sub) s = .next
      (({ s.emptySlot q.port with table := s.table.write b, journal := s.journalOfWrite q b } : State).respond q .ok [] false) := by
  rw [exec_writeMatchEntry_of_takes h, State.serve_of_done (applyWriteMatchEntry_shadow hbody hbank)]
  rfl

/-! ### SWAP_BANK (R95) -/

theorem applySwapBank_invalid (s : State) (h : bankNamed (fieldNat q.body 0 1) = none) : applySwapBank q s = .refuse s .invalid := by
  simp only [applySwapBank, h]

theorem applySwapBank_active (h : bankNamed (fieldNat q.body 0 1) = some s.table.active) :
    applySwapBank q s = .refuse s .wrongState := by
  simp only [applySwapBank, h, if_true]

theorem applySwapBank_shadow {bank : Fin 2} (h : bankNamed (fieldNat q.body 0 1) = some bank) (hbank : bank ≠ s.table.active) :
    applySwapBank q s = .done
      { s with
        table := { s.table with active := bank }
        journal := s.journal.take (s.dtu.handed q.now (.configChange 0x44 q.port 0xFFFF#16 (beBytes 1 bank.val))) } := by
  simp only [applySwapBank, h, if_neg hbank]
  rfl

theorem exec_swapBank_of_takes (h : s.Takes sub q .swapBank) :
    exec (.swapBank sub) s = .next (s.serve q applySwapBank false) :=
  congrArg Host.Outcome.next (State.takeCommand_of_takes applySwapBank h)

end

/-! ### The statement of both commands -/

/-- Settles O43: the body's five restricted fields decide between INVALID and an entry, its bank between WRONG_STATE and the write. -/
theorem matchTableIsWrittenAndSwapped : Obligations.MatchTableIsWrittenAndSwapped := by
  intro s sub q
  refine ⟨fun h => ⟨fun hbad => ?invalid, fun hok hactive => ?active, fun bank i group action hok hshadow hbank hi hgroup haction => ?written⟩,
    fun h => ⟨fun hbad => ?swapInvalid, fun hactive => ?swapActive, fun bank hbank hshadow => ?swapped⟩⟩
  case invalid => exact exec_writeMatchEntry_invalid h ((matchEntryBody_eq_none_iff _).mpr hbad)
  case active =>
    obtain ⟨b, hb⟩ := Option.ne_none_iff_exists'.mp (mt (matchEntryBody_eq_none_iff _).mp hok)
    have hbank : some b.bank = some s.table.active := by rw [← matchEntryBody_bank hb, hactive, bankNamed_val]
    exact exec_writeMatchEntry_active h hb (Option.some.inj hbank)
  case written =>
    have hvalid : fieldNat q.body 2 1 < 2 := by omega
    have hgroupNamed : groupOrNone (fieldNat q.body 13 1) = some group := by
      cases group with
      | none => rw [hgroup, groupOrNone_NONE]
      | some g => rw [hgroup, groupOrNone_val]
    have hbody := (matchEntryBody_eq_some_iff q.body _).mpr
      ⟨bank, i, _, group, action, hbank ▸ bankNamed_val bank, hi ▸ indexNamed_val i, flagOf_of_lt hvalid, hgroupNamed,
        haction ▸ actionNamed_code action, rfl⟩
    refine ⟨_, exec_writeMatchEntry_shadow h hbody hshadow, MatchTable.slot_write_self s.table _,
      fun b j hne => MatchTable.slot_write_other s.table _ b j hne, rfl, rfl, ?_⟩
    dsimp only
    rw [MatchTable.slot_write_self s.table ⟨bank, i, _⟩]
    rfl
  case swapInvalid =>
    rw [exec_swapBank_of_takes h, State.serve_of_refuse (applySwapBank_invalid _ (bankNamed_of_le hbad))]
  case swapActive =>
    have hnamed : bankNamed (fieldNat q.body 0 1) = some s.table.active := by rw [hactive, bankNamed_val]
    rw [exec_swapBank_of_takes h, State.serve_of_refuse (applySwapBank_active hnamed)]
  case swapped =>
    rw [exec_swapBank_of_takes h, State.serve_of_done (applySwapBank_shadow (hbank ▸ bankNamed_val bank) hshadow)]
    rfl

end Sys2Proof.Machine
end

