-- ==== Sys2Proof/Proofs/AuctionCommands.lean ====
section
/-! PROOF. The commands on the Auction Timer: when EXTEND_CALL, CLEAR_SCHEDULE, SET_DAY, DAY_ROLL, LOAD_SEED and COMMIT_SEED are refused, and what
the accepted ones leave in the groups, the day, the seed slot and the journal. -/

namespace Sys2Proof.Machine

/-! ### The row of a command, by its rule's reply -/

/-- The row of every management command is the take of that command with its own rule (R174, R176). -/
theorem exec_row (c : Command) (sub : Sub) (order : Order) (s : State) :
    exec (c.row sub order) s = .next (s.takeCommand c sub (c.rule order)) := by
  cases c <;> rfl

/-- Where its request is taken, a command is answered from the state its rule makes, with its rule's status and body (R176, R177). -/
theorem exec_row_of_reply {s : State} {sub : Sub} {order : Order} {q : Take} {c : Command} {reply : Reply} (h : s.Takes sub q c)
    (hreply : c.rule order q (s.emptySlot q.port) = reply) :
    exec (c.row sub order) s = .next (reply.state.respond q reply.status reply.body (c == .restart)) := by
  rw [exec_row, State.takeCommand_of_takes _ h, State.serve, hreply]

/-! ### LOAD_SEED and COMMIT_SEED (R135, R136) -/

section

variable {s : State} {q : Take}

theorem applyLoadSeed_committed {seed : BitVec 32} (h : s.auction.seed = .committed seed) :
    applyLoadSeed q s = .refuse s .locked := by
  simp only [applyLoadSeed, h]

theorem applyLoadSeed_open (h : ∀ seed, s.auction.seed ≠ .committed seed) :
    applyLoadSeed q s =
      .done ((s.withSeed (.loaded (BitVec.ofNat 32 (fieldNat q.body 0 4)))).recordConfig q .loadSeed noObject []) := by
  unfold applyLoadSeed
  split
  next seed hseed => exact absurd hseed (h seed)
  next => rfl

theorem applyCommitSeed_committed {seed : BitVec 32} (h : s.auction.seed = .committed seed) :
    applyCommitSeed q s = .refuse s .locked := by
  simp only [applyCommitSeed, h]

theorem applyCommitSeed_notLoaded (h : s.auction.seed = .absent ∨ ∃ seed, s.auction.seed = .revealed seed) :
    applyCommitSeed q s = .refuse s .wrongState := by
  obtain habsent | ⟨seed, hrevealed⟩ := h
  · simp only [applyCommitSeed, habsent]
  · simp only [applyCommitSeed, hrevealed]

theorem applyCommitSeed_match {seed : BitVec 32} (h : s.auction.seed = .loaded seed)
    (hsum : (check (seedBytes seed)).toNat = fieldNat q.body 0 2) :
    applyCommitSeed q s = .done ((s.withSeed (.committed seed)).hand q.now (.seedCommit (check (seedBytes seed)))) := by
  simp only [applyCommitSeed, h, if_pos hsum]

theorem applyCommitSeed_mismatch {seed : BitVec 32} (h : s.auction.seed = .loaded seed)
    (hsum : (check (seedBytes seed)).toNat ≠ fieldNat q.body 0 2) :
    applyCommitSeed q s = { state := s.withSeed .absent, status := .mismatch, body := [] } := by
  simp only [applyCommitSeed, h, if_neg hsum]

end

/-- Settles O46: the slot's state alone decides LoadSeed, and a loaded seed's check decides CommitSeed. -/
theorem seedIsLoadedAndCommitted : Obligations.SeedIsLoadedAndCommitted := by
  intro s sub q
  refine ⟨fun h => ⟨fun seed hseed => ?loadLocked, fun hopen => ?load⟩,
    fun h => ⟨fun seed hseed => ?commitLocked, fun hempty => ?commitEmpty, fun seed hseed => ⟨fun hsum => ?commit, fun hsum => ?mismatch⟩⟩⟩
  case loadLocked => exact exec_row_of_reply (order := []) h (applyLoadSeed_committed hseed)
  case load => exact exec_row_of_reply (order := []) h (applyLoadSeed_open hopen)
  case commitLocked => exact exec_row_of_reply (order := []) h (applyCommitSeed_committed hseed)
  case commitEmpty => exact exec_row_of_reply (order := []) h (applyCommitSeed_notLoaded hempty)
  case commit => exact exec_row_of_reply (order := []) h (applyCommitSeed_match hseed hsum)
  case mismatch => exact exec_row_of_reply (order := []) h (applyCommitSeed_mismatch hseed hsum)

/-! ### EXTEND_CALL (R129, R130) -/

section

variable {r : GroupRecord} {t : Instant}

/-- The close instant of a group in WINDOW is reached at the reading `t` (R129). -/
def GroupRecord.Late (r : GroupRecord) (t : Instant) : Prop :=
  r.state = .window ∧ ∃ c, r.close = some c ∧ AtOrAfter t c

/-- The group's call can still be extended at the reading `t`, its limit aside (R129). -/
def GroupRecord.Extendable (r : GroupRecord) (t : Instant) : Prop :=
  r.state = .call ∨ r.state = .suspended ∨ (r.state = .window ∧ ¬ r.Late t)

theorem GroupRecord.extendRefusal_notCalled (h : r.state = .idle ∨ r.state = .armed) : r.extendRefusal t = some .wrongState := by
  obtain hidle | harmed := h
  · simp only [GroupRecord.extendRefusal, hidle]
  · simp only [GroupRecord.extendRefusal, harmed]

theorem GroupRecord.extendRefusal_tooLate (h : r.state = .closed ∨ r.Late t) : r.extendRefusal t = some .tooLate := by
  obtain hclosed | ⟨hwindow, c, hc, hreached⟩ := h
  · simp only [GroupRecord.extendRefusal, hclosed]
  · simp only [GroupRecord.extendRefusal, hwindow, hc, if_pos hreached]

/-- Of a call that can still be extended, the limit alone decides (the last two rows of R129). -/
theorem GroupRecord.extendRefusal_extendable (h : r.Extendable t) :
    r.extendRefusal t = if r.extUsed = r.extLimit then some .limit else none := by
  obtain hcall | hsuspended | ⟨hwindow, hnotLate⟩ := h
  · simp only [GroupRecord.extendRefusal, hcall]
  · simp only [GroupRecord.extendRefusal, hsuspended]
  · cases hclose : r.close with
    | none => simp only [GroupRecord.extendRefusal, hwindow, hclose]
    | some c =>
      have hahead : ¬ AtOrAfter t c := fun hreached => hnotLate ⟨hwindow, c, hclose, hreached⟩
      simp only [GroupRecord.extendRefusal, hwindow, hclose, if_neg hahead]

end

section

variable {s : State} {q : Take}

theorem applyExtendCall_invalid (h : 16 ≤ fieldNat q.body 0 1) : applyExtendCall q s = .refuse s .invalid := by
  simp only [applyExtendCall, groupNamed_of_le h]

theorem applyExtendCall_refused {g : Group} {status : Status} (hg : g.val = fieldNat q.body 0 1)
    (h : (s.group g).extendRefusal q.now = some status) : applyExtendCall q s = .refuse s status := by
  simp only [applyExtendCall, ← hg, groupNamed_val, h]

theorem applyExtendCall_accepted {g : Group} (hg : g.val = fieldNat q.body 0 1) (h : (s.group g).extendRefusal q.now = none) :
    applyExtendCall q s =
      let r := (s.group g).extended q.now
      .give ((s.withGroup g r).hand q.now (.extension g r.extUsed r.k r.windowStart))
        (instantBytes r.windowStart ++ beBytes 1 r.extUsed ++ beBytes 1 r.k) := by
  simp only [applyExtendCall, ← hg, groupNamed_val, h]

end

/-- Settles O41: the rows of R129 are those of `extendRefusal`, and where none applies the record becomes `extended` (R130). -/
theorem extendCallMovesTheWindow : Obligations.ExtendCallMovesTheWindow := by
  intro s sub q h
  refine ⟨fun hbad => ?invalid, fun g hg => ⟨fun hstate => ?notCalled, fun hlate => ?tooLate, fun hopen hlimit => ?limit,
    fun hopen hlimit => ?extended⟩⟩
  case invalid => exact exec_row_of_reply (order := []) h (applyExtendCall_invalid hbad)
  case notCalled =>
    exact exec_row_of_reply (order := []) h (applyExtendCall_refused hg (GroupRecord.extendRefusal_notCalled hstate))
  case tooLate =>
    exact exec_row_of_reply (order := []) h (applyExtendCall_refused hg (GroupRecord.extendRefusal_tooLate hlate))
  case limit =>
    have hrefused : (s.group g).extendRefusal q.now = some .limit := by rw [GroupRecord.extendRefusal_extendable hopen, if_pos hlimit]
    exact exec_row_of_reply (order := []) h (applyExtendCall_refused hg hrefused)
  case extended =>
    have haccepted : (s.group g).extendRefusal q.now = none := by rw [GroupRecord.extendRefusal_extendable hopen, if_neg hlimit]
    exact exec_row_of_reply (order := []) h (applyExtendCall_accepted hg haccepted)

/-! ### CLEAR_SCHEDULE (R119) -/

section

variable {s : State} {q : Take}

theorem applyClearSchedule_invalid (h : 16 ≤ fieldNat q.body 0 1) : applyClearSchedule q s = .refuse s .invalid := by
  simp only [applyClearSchedule, groupNamed_of_le h]

theorem applyClearSchedule_cleared {g : Group} (hg : g.val = fieldNat q.body 0 1)
    (h : (s.group g).state = .armed ∨ (s.group g).state = .closed) :
    applyClearSchedule q s = .done ((s.withGroup g (s.group g).cleared).recordConfig q .clearSchedule (objectOf g) []) := by
  obtain harmed | hclosed := h
  · simp only [applyClearSchedule, ← hg, groupNamed_val, harmed]
  · simp only [applyClearSchedule, ← hg, groupNamed_val, hclosed]

theorem applyClearSchedule_refused {g : Group} (hg : g.val = fieldNat q.body 0 1) (harmed : (s.group g).state ≠ .armed)
    (hclosed : (s.group g).state ≠ .closed) : applyClearSchedule q s = .refuse s .wrongState := by
  unfold applyClearSchedule
  rw [← hg, groupNamed_val]
  dsimp only
  split
  next hstate => exact absurd hstate harmed
  next hstate => exact absurd hstate hclosed
  next => rfl

/-! ### SET_DAY (R132) -/

theorem AuctionTimer.allIdle_iff (s : State) : s.auction.allIdle = true ↔ ∀ g, (s.group g).state = .idle := by
  simp [AuctionTimer.allIdle, State.group]

theorem applySetDay_idle (h : ∀ g, (s.group g).state = .idle) :
    applySetDay q s =
      .done ((s.withAuction { s.auction with day := fieldNat q.body 0 2 }).recordConfig q .setDay noObject
        (beBytes 2 s.auction.day ++ beBytes 2 (fieldNat q.body 0 2))) := by
  rw [applySetDay, if_pos ((AuctionTimer.allIdle_iff s).mpr h)]

theorem applySetDay_refused (h : ∃ g, (s.group g).state ≠ .idle) : applySetDay q s = .refuse s .wrongState := by
  obtain ⟨g, hg⟩ := h
  rw [applySetDay, if_neg fun hall => hg ((AuctionTimer.allIdle_iff s).mp hall g)]

/-! ### DAY_ROLL (R133) -/

theorem GroupState.inCall_iff (x : GroupState) : x.inCall = true ↔ x = .call ∨ x = .window ∨ x = .suspended := by
  cases x <;> simp [GroupState.inCall]

/-- The call of some group is in progress (R133). -/
def State.SomeInCall (s : State) : Prop :=
  ∃ g, (s.group g).state = .call ∨ (s.group g).state = .window ∨ (s.group g).state = .suspended

theorem AuctionTimer.anyInCall_iff (s : State) : s.auction.anyInCall = true ↔ s.SomeInCall := by
  simp [AuctionTimer.anyInCall, State.SomeInCall, State.group, GroupState.inCall_iff]

theorem applyDayRoll_refused (h : s.SomeInCall) : applyDayRoll q s = .refuse s .wrongState := by
  rw [applyDayRoll, if_pos ((AuctionTimer.anyInCall_iff s).mpr h)]

theorem applyDayRoll_rolled (h : ¬ s.SomeInCall) : applyDayRoll q s = .done (s.rollDay q.now) := by
  rw [applyDayRoll, if_neg (mt (AuctionTimer.anyInCall_iff s).mp h)]

end

section

variable (s : State) (t : Instant)

/-- A revealed seed changes the seed slot of the Auction Timer and nothing else of it (R138). -/
theorem State.revealSeed_auction : ∃ slot, (s.revealSeed t).auction = { s.auction with seed := slot } := by
  unfold State.revealSeed
  split
  · exact ⟨_, rfl⟩
  · exact ⟨s.auction.seed, rfl⟩

theorem State.revealSeed_committed {seed : BitVec 32} (h : s.auction.seed = .committed seed) :
    (s.revealSeed t).journal = s.journal.take (s.dtu.handed t (.seedReveal seed (check (seedBytes seed)))) := by
  simp only [State.revealSeed, h, State.hand_journal, State.withAuction_journal, State.withAuction_dtu]

theorem State.revealSeed_notCommitted (h : ∀ seed, s.auction.seed ≠ .committed seed) : s.revealSeed t = s := by
  unfold State.revealSeed
  split
  next seed hseed => exact absurd hseed (h seed)
  next => rfl

theorem State.rollDay_auction : (s.rollDay t).auction = s.auction.rolled := by
  obtain ⟨slot, hauction⟩ := s.revealSeed_auction t
  simp only [State.rollDay, State.hand_auction, State.withAuction_auction, hauction, AuctionTimer.rolled]

theorem State.rollDay_group (g : Group) : (s.rollDay t).group g = (s.group g).cleared := by
  simp [State.group, State.rollDay_auction, AuctionTimer.rolled]

/-- The DayRoll record as it is handed, with the seed slot that the roll found (R133). -/
def State.handedRoll : Handed := s.dtu.handed t (.dayRoll s.auction.day ((s.auction.day + 1) % 65536) s.auction.seed)

/-- The DayRoll record follows what revealing the seed records (R133). -/
theorem State.rollDay_journal : (s.rollDay t).journal = (s.revealSeed t).journal.take (s.handedRoll t) := by
  obtain ⟨auction, journal, hreveal⟩ := s.revealSeed_only t
  simp only [State.rollDay, State.handedRoll, State.hand_journal, State.withAuction_journal, State.withAuction_dtu, hreveal]

theorem State.rollDay_journal_committed {seed : BitVec 32} (h : s.auction.seed = .committed seed) :
    (s.rollDay t).journal =
      (s.journal.take (s.dtu.handed t (.seedReveal seed (check (seedBytes seed))))).take (s.handedRoll t) := by
  rw [State.rollDay_journal, State.revealSeed_committed s t h]

theorem State.rollDay_journal_notCommitted (h : ∀ seed, s.auction.seed ≠ .committed seed) :
    (s.rollDay t).journal = s.journal.take (s.handedRoll t) := by
  rw [State.rollDay_journal, State.revealSeed_notCommitted s t h]

theorem State.rollDay_frame : s.rollDay t = { s with auction := (s.rollDay t).auction, journal := (s.rollDay t).journal } := by
  obtain ⟨auction, journal, hroll⟩ := s.rollDay_only t
  rw [hroll]

end

/-- Settles O45: each command's guard, said of the groups' states, selects its refusal or its effect. -/
theorem dayAndScheduleAreCleared : Obligations.DayAndScheduleAreCleared := by
  intro s sub q
  refine ⟨fun h => ⟨fun hbad => ?clearInvalid, fun g hg => ⟨fun hstate => ?clear, fun harmed hclosed => ?clearRefused⟩⟩,
    fun h => ⟨fun hbusy => ?setDayRefused, fun hidle => ?setDay⟩, fun h => ⟨fun hcall => ?rollRefused, fun hquiet => ?roll⟩⟩
  case clearInvalid => exact exec_row_of_reply (order := []) h (applyClearSchedule_invalid hbad)
  case clear => exact exec_row_of_reply (order := []) h (applyClearSchedule_cleared hg hstate)
  case clearRefused => exact exec_row_of_reply (order := []) h (applyClearSchedule_refused hg harmed hclosed)
  case setDayRefused => exact exec_row_of_reply (order := []) h (applySetDay_refused hbusy)
  case setDay => exact exec_row_of_reply (order := []) h (applySetDay_idle hidle)
  case rollRefused => exact exec_row_of_reply (order := []) h (applyDayRoll_refused hcall)
  case roll =>
    have hauction := (s.emptySlot q.port).rollDay_auction q.now
    exact ⟨(s.emptySlot q.port).rollDay q.now, exec_row_of_reply (order := []) h (applyDayRoll_rolled hquiet), State.rollDay_group _ _,
      congrArg AuctionTimer.seed hauction, congrArg AuctionTimer.day hauction, State.rollDay_frame _ _,
      fun _ hseed => State.rollDay_journal_committed (s.emptySlot q.port) _ hseed,
      fun hopen => State.rollDay_journal_notCommitted (s.emptySlot q.port) _ hopen⟩

end Sys2Proof.Machine
end

section
/-! PROOF. The two commands on the discipline state: what END_ACQUISITION and STEP_TIME leave in the DTU, what they hand to the Time Base and to the
journal, and when each is refused. -/

namespace Sys2Proof.Machine

/-! ### A rate that is handed over clamped (R4, R41) -/

theorem clampTo_clampTo (limit x : Int) : clampTo limit (clampTo limit x) = clampTo limit x := by
  unfold clampTo; omega

/-- The addend clamps its rate itself, so a rate clamped before makes no difference (R4). -/
theorem addendOf_clampTo (r : Int) : addendOf (clampTo rateLimit r) = addendOf r := by
  simp only [addendOf, clampTo_clampTo]

/-! ### The effect of a step of the DTU on the machine -/

section

variable (s : State) (e : DtuEffect)

theorem State.takeEffect_dtu : (s.takeEffect e).dtu = e.dtu := rfl

theorem State.takeEffect_journal : (s.takeEffect e).journal = s.journal.takeAll e.out := rfl

theorem State.takeEffect_frame :
    s.takeEffect e =
      { s with time := s.time.takeEffect e, dtu := (s.takeEffect e).dtu, journal := (s.takeEffect e).journal } := rfl

/-- A step of the DTU that hands neither a rate nor a step leaves the Time Base as it is. -/
theorem TimeBase.takeEffect_of_none (tb : TimeBase) (hrate : e.rate = none) (hstep : e.step = none) : tb.takeEffect e = tb := by
  simp only [TimeBase.takeEffect, hrate, hstep]

/-- A step of the DTU that hands a rate and no step sets the addend alone (R4, R5). -/
theorem TimeBase.takeEffect_of_rate (tb : TimeBase) {r : Int} (hrate : e.rate = some r) (hstep : e.step = none) :
    tb.takeEffect e = { tb with addend := addendOf r } := by
  simp only [TimeBase.takeEffect, hrate, hstep, TimeBase.takeRate]

end

/-! ### The DTU at END_ACQUISITION (R44) -/

section

variable (d : Dtu) (t : Instant)

/-- No rate and no step is handed over, and the StateChange record carries the D and the active reference that were found: UNTRACEABLE keeps both
(R44, R50). -/
theorem Dtu.endAcquisition_eq :
    d.endAcquisition t =
      { dtu := d.enterUntraceable
        out := [d.enterUntraceable.handed t (.stateChange .acquiring .untraceable .endAcquisition d.bound d.active)]
        rate := none
        step := none } := rfl

/-! ### The DTU at STEP_TIME (R43, R44) -/

/-- D after a StepTime: kept from FREE and ACQUIRING, unset from the other states (R43). -/
def Dtu.boundOfStepTime : Nat :=
  if d.state = .free ∨ d.state = .acquiring then d.bound else unsetBound

theorem Dtu.boundOfStepTime_acquiring (h : d.state = .acquiring) : d.boundOfStepTime = d.bound := if_pos (.inr h)

/-- The DTU after a StepTime: ACQUIRING, with s at 0 (R43, R44). -/
def Dtu.steppedToAcquiring : Dtu :=
  { d.setBound d.boundOfStepTime with state := .acquiring, qualifying := 0, warning := false, proportional := 0 }

/-- In ACQUIRING there is no change of state to record; r = f is handed over (R41, R44). -/
theorem Dtu.stepTime_acquiring (h : d.state = .acquiring) :
    d.stepTime t = { dtu := d.steppedToAcquiring, out := [], rate := some (clampTo rateLimit d.integral), step := none } := by
  unfold Dtu.stepTime
  dsimp only
  rw [if_pos h]
  rfl

/-- From any other state the change is recorded, with the D after it; r = f is handed over (R41, R44, R50). -/
theorem Dtu.stepTime_entered (h : d.state ≠ .acquiring) :
    d.stepTime t =
      { dtu := d.steppedToAcquiring
        out := [d.steppedToAcquiring.handed t (.stateChange d.state .acquiring .stepTime d.boundOfStepTime d.active)]
        rate := some (clampTo rateLimit d.integral)
        step := none } := by
  unfold Dtu.stepTime
  dsimp only
  rw [if_neg h]
  rfl

/-- But for its records, a StepTime has one effect on the DTU in every state; the step is the command's, and the DTU requests none. -/
theorem Dtu.stepTime_dtu_rate_step :
    (d.stepTime t).dtu = d.steppedToAcquiring ∧ (d.stepTime t).rate = some (clampTo rateLimit d.integral) ∧
      (d.stepTime t).step = none := by
  by_cases h : d.state = .acquiring
  · rw [d.stepTime_acquiring t h]; exact ⟨rfl, rfl, rfl⟩
  · rw [d.stepTime_entered t h]; exact ⟨rfl, rfl, rfl⟩

end

/-! ### The rules of both commands -/

section

variable {s : State} {q : Take}

theorem applyEndAcquisition_refused (h : s.dtu.state ≠ .acquiring) : applyEndAcquisition q s = .refuse s .wrongState := by
  rw [applyEndAcquisition, if_neg h]

theorem applyEndAcquisition_ended (h : s.dtu.state = .acquiring) :
    applyEndAcquisition q s = .done (s.takeEffect (s.dtu.endAcquisition q.now)) := by
  rw [applyEndAcquisition, if_pos h]

theorem applyStepTime_invalid (h : stepLimit < (fieldInt q.body 0 8).natAbs) : applyStepTime q s = .refuse s .invalid := by
  rw [applyStepTime, if_pos h]

theorem applyStepTime_stepped (h : (fieldInt q.body 0 8).natAbs ≤ stepLimit) :
    applyStepTime q s = .done ((s.requestStep (fieldInt q.body 0 8)).takeEffect (s.dtu.stepTime q.now)) := by
  rw [applyStepTime, if_neg (Nat.not_lt.mpr h)]

end

/-! ### The state that each command makes -/

section

variable (s : State) (amount : Int) (t : Instant)

theorem State.takeEffect_endAcquisition_frame :
    s.takeEffect (s.dtu.endAcquisition t) =
      { s with
        dtu := (s.takeEffect (s.dtu.endAcquisition t)).dtu
        journal := (s.takeEffect (s.dtu.endAcquisition t)).journal } := by
  have htime : s.time.takeEffect (s.dtu.endAcquisition t) = s.time := by
    rw [Dtu.endAcquisition_eq, TimeBase.takeEffect_of_none _ _ rfl rfl]
  rw [State.takeEffect_frame, htime]

theorem State.takeEffect_endAcquisition_dtu : (s.takeEffect (s.dtu.endAcquisition t)).dtu = s.dtu.enterUntraceable := by
  rw [State.takeEffect_dtu, Dtu.endAcquisition_eq]

theorem State.takeEffect_endAcquisition_journal :
    (s.takeEffect (s.dtu.endAcquisition t)).journal =
      s.journal.take (s.dtu.enterUntraceable.handed t
        (.stateChange .acquiring .untraceable .endAcquisition s.dtu.bound s.dtu.active)) := by
  rw [State.takeEffect_journal, Dtu.endAcquisition_eq, Journal.takeAll_cons, Journal.takeAll_nil]

/-- The step waits in the Time Base behind those that wait already, and the ticks to come count at r = f (R5, R6). -/
theorem TimeBase.takeEffect_stepTime (d : Dtu) (tb : TimeBase) :
    (tb.takeStep { source := .command, amount := amount }).takeEffect (d.stepTime t) =
      { tb with addend := addendOf d.integral, steps := tb.steps ++ [{ source := .command, amount := amount }] } := by
  obtain ⟨_, hrate, hstep⟩ := d.stepTime_dtu_rate_step t
  rw [TimeBase.takeEffect_of_rate _ _ hrate hstep, addendOf_clampTo, TimeBase.takeStep]

theorem State.requestStep_takeEffect_frame :
    (s.requestStep amount).takeEffect (s.dtu.stepTime t) =
      { s with
        time := { s.time with
          addend := addendOf s.dtu.integral, steps := s.time.steps ++ [{ source := .command, amount := amount }] }
        dtu := ((s.requestStep amount).takeEffect (s.dtu.stepTime t)).dtu
        journal := ((s.requestStep amount).takeEffect (s.dtu.stepTime t)).journal } := by
  rw [← TimeBase.takeEffect_stepTime amount t]
  rfl

theorem State.requestStep_takeEffect_dtu :
    ((s.requestStep amount).takeEffect (s.dtu.stepTime t)).dtu = s.dtu.steppedToAcquiring := by
  obtain ⟨hdtu, _, _⟩ := s.dtu.stepTime_dtu_rate_step t
  rw [State.takeEffect_dtu, hdtu]

theorem State.requestStep_takeEffect_journal_acquiring (h : s.dtu.state = .acquiring) :
    ((s.requestStep amount).takeEffect (s.dtu.stepTime t)).journal = s.journal := by
  rw [State.takeEffect_journal, Dtu.stepTime_acquiring _ _ h, Journal.takeAll_nil]
  rfl

theorem State.requestStep_takeEffect_journal_entered (h : s.dtu.state ≠ .acquiring) :
    ((s.requestStep amount).takeEffect (s.dtu.stepTime t)).journal =
      s.journal.take (s.dtu.steppedToAcquiring.handed t
        (.stateChange s.dtu.state .acquiring .stepTime s.dtu.boundOfStepTime s.dtu.active)) := by
  rw [State.takeEffect_journal, Dtu.stepTime_entered _ _ h, Journal.takeAll_cons, Journal.takeAll_nil]
  rfl

end

/-- Settles O48: the discipline state decides EndAcquisition and the amount decides StepTime; the record of the change carries the D that the DTU
then has. -/
theorem acquisitionIsEndedOrEntered : Obligations.AcquisitionIsEndedOrEntered := by
  intro s sub q
  refine ⟨fun h => ⟨fun hstate => ?endRefused, fun hstate => ?ended⟩, fun h => ⟨fun hbad => ?stepInvalid, fun hok => ?stepped⟩⟩
  case endRefused => exact exec_row_of_reply (order := []) h (applyEndAcquisition_refused hstate)
  case ended =>
    let u := s.emptySlot q.port
    have hdtu : (u.takeEffect (s.dtu.endAcquisition q.now)).dtu = s.dtu.enterUntraceable := u.takeEffect_endAcquisition_dtu q.now
    refine ⟨u.takeEffect (s.dtu.endAcquisition q.now), exec_row_of_reply (order := []) h (applyEndAcquisition_ended hstate),
      u.takeEffect_endAcquisition_frame q.now, ?_⟩
    rw [hdtu]
    exact ⟨rfl, rfl, rfl, rfl, rfl, u.takeEffect_endAcquisition_journal q.now⟩
  case stepInvalid => exact exec_row_of_reply (order := []) h (applyStepTime_invalid hbad)
  case stepped =>
    let u := s.emptySlot q.port
    let amount := fieldInt q.body 0 8
    have hdtu : ((u.requestStep amount).takeEffect (s.dtu.stepTime q.now)).dtu = s.dtu.steppedToAcquiring :=
      u.requestStep_takeEffect_dtu amount q.now
    refine ⟨(u.requestStep amount).takeEffect (s.dtu.stepTime q.now), exec_row_of_reply (order := []) h (applyStepTime_stepped hok),
      u.requestStep_takeEffect_frame amount q.now, ?_⟩
    rw [hdtu]
    exact ⟨rfl, rfl, rfl, rfl, rfl, rfl,
      fun hstate => ⟨s.dtu.boundOfStepTime_acquiring hstate, u.requestStep_takeEffect_journal_acquiring amount q.now hstate⟩,
      u.requestStep_takeEffect_journal_entered amount q.now⟩

end Sys2Proof.Machine
end

