-- ==== Sys2Proof/Proofs/JournalSound.lean ====
section
/-! PROOF. The journal stays sound: what an append, a loss, an omission and a release leave of the sequences and of the chain. -/

namespace Sys2Proof.Machine

/-! ### Consecutive sequences (R155) -/

theorem ofNat_succ (n : Nat) : BitVec.ofNat 32 (n + 1) = BitVec.ofNat 32 n + 1 := by bv_omega

theorem consecutiveFrom_append (first : BitVec 32) (rs : List JournalRecord) (r : JournalRecord) :
    consecutiveFrom first (rs ++ [r]) = (consecutiveFrom first rs && r.sequence == first + BitVec.ofNat 32 rs.length) := by
  induction rs generalizing first with
  | nil => simp [consecutiveFrom]
  | cons x rs ih =>
    have hnext : first + 1 + BitVec.ofNat 32 rs.length = first + BitVec.ofNat 32 (rs.length + 1) := by
      rw [ofNat_succ]; ring
    simp only [List.cons_append, consecutiveFrom, ih, List.length_cons, Bool.and_assoc, hnext]

theorem consecutiveFrom_drop {first : BitVec 32} {rs : List JournalRecord} (k : Nat) (h : consecutiveFrom first rs = true) :
    consecutiveFrom (first + BitVec.ofNat 32 k) (rs.drop k) = true := by
  induction k generalizing first rs with
  | zero => simpa using h
  | succ k ih =>
    cases rs with
    | nil => rfl
    | cons x rs =>
      obtain ⟨_, hrest⟩ := Bool.and_eq_true_iff.mp h
      have hnext : first + BitVec.ofNat 32 (k + 1) = first + 1 + BitVec.ofNat 32 k := by rw [ofNat_succ]; ring
      rw [hnext]
      exact ih hrest

/-! ### The chain (R156) -/

theorem chainedTo_append {chain : BitVec 16} {rs : List JournalRecord} {r : JournalRecord} (h : chainedTo chain rs = true)
    (hr : r.chain = checkFrom chain (recordHead r.sequence r.body)) : chainedTo r.chain (rs ++ [r]) = true := by
  induction rs with
  | nil => simp [chainedTo]
  | cons x rs ih =>
    obtain ⟨hx, hrest⟩ := Bool.and_eq_true_iff.mp h
    refine Bool.and_eq_true_iff.mpr ⟨?_, ih hrest⟩
    cases rs with
    | nil => simpa [hr] using congrArg (checkFrom · (recordHead r.sequence r.body)) (beq_iff_eq.mp hx).symm
    | cons y rs => exact hx

theorem chainedTo_drop {chain : BitVec 16} {rs : List JournalRecord} (k : Nat) (h : chainedTo chain rs = true) :
    chainedTo chain (rs.drop k) = true := by
  induction k generalizing rs with
  | zero => simpa using h
  | succ k ih =>
    cases rs with
    | nil => rfl
    | cons x rs => exact ih (Bool.and_eq_true_iff.mp h).2

/-! ### The operations of the journal (R155 to R165) -/

section

variable {j : Journal}

theorem Journal.append_sound (h : Handed) (hj : j.Sound) (hfree : 1 ≤ j.free) : (j.append h).Sound := by
  obtain ⟨hlen, hseq, hchain, homitted, hlost⟩ := hj
  have hroom : j.retained.length + 1 ≤ journalPlaces := by unfold Journal.free at hfree; omega
  obtain ⟨chain, hcheck, hretained, hnext, hlast, homit, hlose, _⟩ := j.append_spec h
  have holdest : (j.append h).oldest = j.oldest := by
    rw [Journal.oldest, Journal.append_length, hnext, ofNat_succ, Journal.oldest]; ring
  refine ⟨by rwa [Journal.append_length], ?_, ?_, homit ▸ homitted, hlose ▸ hlost⟩
  · rw [holdest, hretained, consecutiveFrom_append, hseq, Bool.true_and, beq_iff_eq, Journal.oldest]; ring
  · rw [hlast, hretained]
    exact chainedTo_append (r := { sequence := j.next, body := h, chain := chain }) hchain hcheck

theorem Journal.lose_sound (hj : j.Sound) : j.lose.Sound := by
  obtain ⟨hlen, hseq, hchain, homitted, _⟩ := hj
  exact ⟨hlen, hseq, hchain, homitted, Nat.min_le_right _ _⟩

theorem Journal.omit_sound (hj : j.Sound) : j.omit.Sound := by
  obtain ⟨hlen, hseq, hchain, _, hlost⟩ := hj
  exact ⟨hlen, hseq, hchain, Nat.min_le_right _ _, hlost⟩

theorem Journal.appendGap_sound (h : Handed) (hj : j.Sound) (hfree : 1 ≤ j.free) : (j.appendGap h).Sound := by
  obtain ⟨hlen, hseq, hchain, _, _⟩ := Journal.append_sound { h with payload := .gap j.omitted j.lost j.shortageStart } hj hfree
  exact ⟨hlen, hseq, hchain, Nat.zero_le _, Nat.zero_le _⟩

theorem Journal.appendGap_free (h : Handed) (j : Journal) : (j.appendGap h).free = j.free - 1 := by
  simp only [Journal.free, Journal.appendGap, Journal.append_length]; omega

/-- Whatever becomes of a record handed, the journal stays sound (R159 to R161). -/
theorem Journal.take_sound (h : Handed) (hj : j.Sound) : (j.take h).Sound := by
  obtain htake | htake := j.take_cases h <;> rw [htake]
  · obtain ⟨hfree, hevent⟩ | ⟨_, hevent⟩ := j.takeEvent_cases h <;> rw [hevent]
    · exact Journal.append_sound h hj hfree
    · exact Journal.lose_sound hj
  · obtain ⟨hfree, _, hroutine⟩ | ⟨hfree, _, hroutine⟩ | ⟨hroutine, _⟩ := j.takeRoutine_cases h <;> rw [hroutine]
    · exact Journal.append_sound h hj (by omega)
    · refine Journal.append_sound h (Journal.appendGap_sound h hj (by omega)) ?_
      rw [Journal.appendGap_free]; omega
    · exact Journal.omit_sound hj

theorem Journal.takeAll_sound (hs : List Handed) (hj : j.Sound) : (j.takeAll hs).Sound := by
  induction hs generalizing j with
  | nil => exact hj
  | cons h hs ih => exact ih (Journal.take_sound h hj)

/-- A release keeps the sequences of what is left, counted from the newest (R157, R165). -/
theorem Journal.release_sound (n : BitVec 32) (hj : j.Sound) : (j.release n).Sound := by
  obtain ⟨hlen, hseq, hchain, homitted, hlost⟩ := hj
  obtain ⟨k, hrelease⟩ := j.release_spec n
  rw [hrelease]
  refine ⟨by simp only [List.length_drop]; omega, ?_, chainedTo_drop k hchain, homitted, hlost⟩
  by_cases hk : k ≤ j.retained.length
  · have holdest : j.oldest + BitVec.ofNat 32 k = j.next - BitVec.ofNat 32 (j.retained.drop k).length := by
      have hsplit : j.retained.length = (j.retained.length - k) + k := by omega
      rw [Journal.oldest, List.length_drop, hsplit, BitVec.ofNat_add, Nat.add_sub_cancel]; ring
    have hdrop := consecutiveFrom_drop k hseq
    rwa [holdest] at hdrop
  · simp only [List.drop_eq_nil_of_le (Nat.le_of_not_le hk)]; rfl

theorem Journal.initial_sound : Journal.initial.Sound :=
  ⟨Nat.zero_le _, rfl, rfl, Nat.zero_le _, Nat.zero_le _⟩

end

end Sys2Proof.Machine
end

