-- ==== Sys2Proof/Proofs/TimeRange.lean ====
section
/-! PROOF. The Time Base stays in range: what a tick, a step, a rate handed over and a change of UTC offset leave of its counts. -/

namespace Sys2Proof.Machine

/-! ### Device time at a tick (R1, R6, R7) -/

/-- The three counts of device time lie in their ranges (R1). -/
def DeviceTime.InRange (t : DeviceTime) : Prop :=
  t.sec < secondsModulus ∧ t.ns < nsPerSecond ∧ t.frac < fracPerNs

/-- The addend lies within what an applied rate gives (R4). -/
def AddendInRange (addend : Nat) : Prop :=
  nominalAddend ≤ addend + addendSpan ∧ addend ≤ nominalAddend + addendSpan

theorem DeviceTime.advance_inRange {t : DeviceTime} {addend : Nat} (ht : t.InRange) (ha : AddendInRange addend) :
    (t.advance addend).InRange := by
  obtain ⟨hsec, hns, hfrac⟩ := ht
  obtain ⟨_, hmost⟩ := ha
  simp only [nominalAddend, addendSpan] at hmost
  unfold DeviceTime.InRange
  simp only [DeviceTime.advance, secondsModulus, nsPerSecond, fracPerNs] at *
  split <;> refine ⟨?_, ?_, ?_⟩ <;> dsimp only <;> omega

theorem DeviceTime.step_inRange {t : DeviceTime} (amount : Int) (ht : t.InRange) : (t.step amount).time.InRange := by
  obtain ⟨hsec, hns, hfrac⟩ := ht
  unfold DeviceTime.InRange
  simp only [DeviceTime.step, secondsModulus, nsPerSecond, fracPerNs] at *
  split <;> refine ⟨?_, ?_, ?_⟩ <;> dsimp only <;> omega

/-! ### The addend of a rate (R4) -/

/-- The offset of a rate is its magnitude in units of 2^−32 ns for each tick, rounded, under the rate's sign (R4). -/
theorem addendOffset_natAbs_le {r : Int} (h : r.natAbs ≤ 3200000) : (addendOffset r).natAbs ≤ 6871948 := by
  have hmagnitude : (r.natAbs * 2147483648 + 500000000) / 1000000000 ≤ 6871948 := by omega
  have hsign : r.sign.natAbs ≤ 1 := by rw [Int.natAbs_sign]; split <;> omega
  rw [addendOffset, Int.natAbs_mul, Int.natAbs_natCast]
  exact (Nat.mul_le_mul hsign hmagnitude).trans (by omega)

theorem clampTo_rateLimit_natAbs (r : Int) : (clampTo rateLimit r).natAbs ≤ 3200000 := by
  unfold clampTo rateLimit; omega

theorem addendOf_inRange (r : Int) : AddendInRange (addendOf r) := by
  have hoffset := addendOffset_natAbs_le (clampTo_rateLimit_natAbs r)
  simp only [AddendInRange, addendOf, nominalAddend, addendSpan]; omega

/-! ### UTC offsets (R10, R11) -/

theorem offsetInRange_iff (x : Int) : offsetInRange x = true ↔ -128 ≤ x ∧ x ≤ 127 := by
  simp [offsetInRange]

/-- One byte in two's complement carries an offset that the Time Base can take (R11). -/
theorem offsetInRange_of_byte (bytes : List Byte) (off : Nat) : offsetInRange (fieldInt bytes off 1) = true := by
  rw [offsetInRange_iff, fieldInt]
  have hlen : (slice bytes off 1).length ≤ 1 := List.length_take_le _ _
  match hbyte : slice bytes off 1 with
  | [] => simp [beInt, beNat]
  | [b] => simp only [beInt, beNat, List.foldl_cons, List.foldl_nil, List.length_singleton]; have := b.isLt; split_ifs <;> omega
  | _ :: _ :: _ => simp [hbyte] at hlen

/-! ### The operations of the Time Base -/

section

variable {tb : TimeBase}

theorem TimeBase.inRange_iff (tb : TimeBase) :
    tb.InRange ↔ tb.device.InRange ∧ AddendInRange tb.addend ∧ offsetInRange tb.utcOffset = true ∧
      ∀ change, tb.pendingOffset = some change → offsetInRange change.newOffset = true := by
  simp only [TimeBase.InRange, DeviceTime.InRange, AddendInRange, TimeBase.device, and_assoc]

theorem TimeBase.counted_inRange (h : tb.InRange) : tb.counted.InRange := by
  obtain ⟨hdevice, haddend, hoffset, hpending⟩ := (tb.inRange_iff).mp h
  exact (tb.counted.inRange_iff).mpr ⟨DeviceTime.advance_inRange hdevice haddend, haddend, hoffset, hpending⟩

theorem TimeBase.stepped_inRange (r : StepRequest) (rest : List StepRequest) (h : tb.InRange) : (tb.stepped r rest).InRange := by
  obtain ⟨hdevice, haddend, hoffset, hpending⟩ := (tb.inRange_iff).mp h
  exact ((tb.stepped r rest).inRange_iff).mpr
    ⟨DeviceTime.step_inRange r.amount (DeviceTime.advance_inRange hdevice haddend), haddend, hoffset, hpending⟩

theorem TimeBase.takeRate_inRange (r : Int) (h : tb.InRange) : (tb.takeRate r).InRange := by
  obtain ⟨hdevice, _, hoffset, hpending⟩ := (tb.inRange_iff).mp h
  exact ((tb.takeRate r).inRange_iff).mpr ⟨hdevice, addendOf_inRange r, hoffset, hpending⟩

theorem TimeBase.takeEffect_inRange (e : DtuEffect) (h : tb.InRange) : (tb.takeEffect e).InRange := by
  cases hrate : e.rate <;> cases hstep : e.step <;> simp only [TimeBase.takeEffect, hrate, hstep]
  case none.none => exact h
  case none.some => exact h
  case some.none r => exact TimeBase.takeRate_inRange r h
  case some.some r _ => exact TimeBase.takeRate_inRange (tb := tb) r h

theorem TimeBase.applyOffset_inRange {x : Int} (hx : offsetInRange x = true) (h : tb.InRange) : (tb.applyOffset x).InRange := by
  obtain ⟨hdevice, haddend, _, _⟩ := (tb.inRange_iff).mp h
  exact ((tb.applyOffset x).inRange_iff).mpr ⟨hdevice, haddend, hx, fun _ hnone => nomatch hnone⟩

theorem TimeBase.pending_inRange {change : OffsetChange} (hx : offsetInRange change.newOffset = true) (h : tb.InRange) :
    ({ tb with pendingOffset := some change } : TimeBase).InRange := by
  obtain ⟨hdevice, haddend, hoffset, _⟩ := (tb.inRange_iff).mp h
  exact (TimeBase.inRange_iff _).mpr ⟨hdevice, haddend, hoffset, fun _ hsome => Option.some.inj hsome ▸ hx⟩

theorem TimeBase.initial_inRange (absences : Nat) : ({ TimeBase.initial with absences := absences } : TimeBase).InRange := by
  have hdevice : DeviceTime.InRange { sec := 0, ns := 0, frac := 0 } := by
    simp only [DeviceTime.InRange, secondsModulus, nsPerSecond, fracPerNs]; omega
  exact (TimeBase.inRange_iff _).mpr
    ⟨hdevice, ⟨Nat.le_add_right _ _, Nat.le_add_right _ _⟩, rfl, fun _ hnone => nomatch hnone⟩

end

end Sys2Proof.Machine
end

