-- ==== Sys2Proof/Proofs/StoreCapacity.lean ====
section
/-! PROOF. Stores stay within their capacity: what each operation of a port, a lane and a reference channel leaves of its stores and bounded counts. -/

namespace Sys2Proof.Machine

/-! ### What a port, a lane and a channel may hold -/

/-- The stores of a port hold no more than they may (R70, R72, R74). -/
def PortState.Fits (p : PortState) : Prop :=
  fillOf p.fifo ≤ fifoBytes ∧ markersIn p.fifo ≤ markerPlaces ∧ p.own.length ≤ ownPlaces ∧ p.passedOver ≤ passOverLimit

/-- The waiting list of a lane holds no more than it may (R142). -/
def Lane.Fits (l : Lane) : Prop := l.waiting.length ≤ markerPlaces

/-- The buffer, the message queue and the run of a channel are no longer than they may be (R25, R31, R33). -/
def RefChannel.Fits (c : RefChannel) : Prop :=
  c.buffer.length ≤ 2 ∧ c.queue.length ≤ 2 ∧ c.run ≤ unlabelledRunLimit

theorem State.withinCapacity_iff (s : State) :
    s.WithinCapacity ↔ (∀ p, (s.port p).Fits) ∧ (∀ l, (s.lane l).Fits) ∧ ∀ ch, (s.chan ch).Fits := Iff.rfl

theorem PortState.initial_fits : PortState.initial.Fits :=
  ⟨Nat.zero_le _, Nat.zero_le _, Nat.zero_le _, Nat.zero_le _⟩

theorem RefChannel.initial_fits (osc : Nat) : (RefChannel.initial osc).Fits :=
  ⟨Nat.zero_le _, Nat.zero_le _, Nat.zero_le _⟩

/-! ### Ports: passing FIFO (R70, R144) -/

section

variable {p : PortState}

theorem fillOf_tail_le (items : List PassingItem) : fillOf items.tail ≤ fillOf items := by
  cases items with
  | nil => exact Nat.le_refl _
  | cons x xs => rw [List.tail_cons, fillOf_cons]; omega

theorem markersIn_tail_le (items : List PassingItem) : markersIn items.tail ≤ markersIn items :=
  (items.tail_sublist.filter _).length_le

theorem PortState.withFrame_fits {bytes : List Byte} (detection : DetectionRecord) (h : p.Fits)
    (hroom : fillOf p.fifo + bytes.length ≤ fifoBytes) : ({ p with fifo := p.fifo ++ [.frame bytes detection] } : PortState).Fits := by
  obtain ⟨_, hmarkers, hown, hover⟩ := h
  refine ⟨?_, ?_, hown, hover⟩
  · simpa [PassingItem.fillLength] using hroom
  · simpa [markersIn, PassingItem.isMarker] using hmarkers

theorem PortState.withMarker_fits (m : Marker) (h : p.Fits) (hroom : markersIn p.fifo < markerPlaces) :
    ({ p with fifo := p.fifo ++ [.marker m] } : PortState).Fits := by
  obtain ⟨hfill, _, hown, hover⟩ := h
  refine ⟨?_, ?_, hown, hover⟩
  · simpa [PassingItem.fillLength] using hfill
  · rw [markersIn_append]; exact hroom

theorem PortState.dropPassing_fits (h : p.Fits) : p.dropPassing.Fits := by
  obtain ⟨hfill, hmarkers, hown, hover⟩ := h
  exact ⟨(fillOf_tail_le _).trans hfill, (markersIn_tail_le _).trans hmarkers, hown, hover⟩

/-! ### Ports: own-frame queue and arbitration (R72, R74) -/

theorem replacePause_length {quanta : Nat} {queue replaced : List OwnFrame} (h : replacePause quanta queue = some replaced) :
    replaced.length = queue.length := by
  induction queue generalizing replaced with
  | nil => cases h
  | cons x rest ih =>
    cases x with
    | pause _ => cases h; rfl
    | response bytes ofRestart =>
      obtain ⟨rest', hrest, rfl⟩ := Option.map_eq_some_iff.mp h
      rw [List.length_cons, ih hrest, List.length_cons]

theorem replaceWaiting_length {quanta : Nat} {sending : Option Sending} {queue replaced : List OwnFrame}
    (h : replaceWaiting quanta sending queue = some replaced) : replaced.length = queue.length := by
  unfold replaceWaiting at h
  split at h
  · obtain ⟨rest', hrest, rfl⟩ := Option.map_eq_some_iff.mp h
    rw [List.length_cons, replacePause_length hrest, List.length_cons]
  · exact replacePause_length h

/-- An offered pause frame changes the own-frame queue and the discard counter of a port, and nothing else of it (R72). -/
theorem PortState.offerPause_only (p : PortState) (quanta : Nat) :
    ∃ own egress, p.offerPause quanta = { p with own := own, egress := egress } := by
  unfold PortState.offerPause
  split
  · exact ⟨_, p.egress, rfl⟩
  · split
    · exact ⟨_, p.egress, rfl⟩
    · exact ⟨p.own, _, rfl⟩

theorem PortState.offerPause_fits (quanta : Nat) (h : p.Fits) : (p.offerPause quanta).Fits := by
  obtain ⟨hfill, hmarkers, hown, hover⟩ := h
  unfold PortState.offerPause
  split
  next queue hqueue => exact ⟨hfill, hmarkers, (replaceWaiting_length hqueue).trans_le hown, hover⟩
  next =>
    split
    next hroom => exact ⟨hfill, hmarkers, by rw [List.length_append]; exact hroom, hover⟩
    next => exact ⟨hfill, hmarkers, hown, hover⟩

theorem PortState.withResponse_fits (frame : OwnFrame) (h : p.Fits) (hroom : p.own.length < ownPlaces) :
    ({ p with own := p.own ++ [frame] } : PortState).Fits := by
  obtain ⟨hfill, hmarkers, _, hover⟩ := h
  exact ⟨hfill, hmarkers, by rw [List.length_append]; exact hroom, hover⟩

theorem PortState.dropOwn_fits (h : p.Fits) : p.dropOwn.Fits := by
  obtain ⟨hfill, hmarkers, hown, _⟩ := h
  exact ⟨hfill, hmarkers, by rw [PortState.dropOwn, List.length_tail]; omega, Nat.zero_le _⟩

/-- The count of an own head passed over rises only below its limit (R74). -/
theorem PortState.start_fits (h : p.Fits) : p.start.Fits := by
  obtain ⟨hfill, hmarkers, hown, hover⟩ := h
  unfold PortState.start
  split
  case h_3 =>
    split
    next hbelow => exact ⟨hfill, hmarkers, hown, hbelow⟩
    next => exact ⟨hfill, hmarkers, hown, hover⟩
  all_goals exact ⟨hfill, hmarkers, hown, hover⟩

theorem PortState.cut_fits (h : p.Fits) : p.cut.Fits := by
  have hreception : p.abortReception.Fits := by unfold PortState.abortReception; split <;> exact h
  unfold PortState.cut PortState.abortItem
  split
  · exact PortState.dropPassing_fits hreception
  · exact PortState.dropOwn_fits hreception
  · exact hreception

end

/-! ### Reference channels: the character buffer (R25, R26) -/

section

variable {c : RefChannel}

/-- The assembler takes a character without touching the buffer, the message queue or the run. -/
theorem RefChannel.takeCharacter_only (c : RefChannel) (x : Character) :
    ∃ assembler counters, c.takeCharacter x = { c with assembler := assembler, counters := counters } := by
  unfold RefChannel.takeCharacter
  split
  · split
    · exact ⟨c.assembler, c.counters, rfl⟩
    · split
      · exact ⟨_, c.counters, rfl⟩
      · exact ⟨c.assembler, _, rfl⟩
  · split
    · exact ⟨_, _, rfl⟩
    · split
      · exact ⟨_, c.counters, rfl⟩
      · exact ⟨_, c.counters, rfl⟩
  · exact ⟨c.assembler, c.counters, rfl⟩

/-- The characters left in the buffer are some of those that waited, and no other store is touched (R26). -/
theorem RefChannel.drain_only (waiting : List Character) (c : RefChannel) :
    ∃ assembler counters buffer, buffer.length ≤ waiting.length ∧
      c.drain waiting = { c with assembler := assembler, counters := counters, buffer := buffer } := by
  induction waiting generalizing c with
  | nil => exact ⟨c.assembler, c.counters, [], Nat.le_refl _, rfl⟩
  | cons x rest ih =>
    rw [RefChannel.drain.eq_def]
    dsimp only
    split
    · exact ⟨c.assembler, c.counters, x :: rest, Nat.le_refl _, rfl⟩
    · obtain ⟨a, k, htaken⟩ := c.takeCharacter_only x
      obtain ⟨a', k', buffer, hlen, hdrain⟩ := ih (c.takeCharacter x)
      exact ⟨a', k', buffer, hlen.trans (Nat.le_succ _), by rw [hdrain, htaken]⟩

theorem RefChannel.drain_fits {waiting : List Character} (hlen : waiting.length ≤ 2) (h : c.Fits) : (c.drain waiting).Fits := by
  obtain ⟨_, hqueue, hrun⟩ := h
  obtain ⟨a, k, buffer, hbuffer, hdrain⟩ := c.drain_only waiting
  rw [hdrain]
  exact ⟨hbuffer.trans hlen, hqueue, hrun⟩

theorem RefChannel.hunt_fits (h : c.Fits) : c.hunt.Fits :=
  RefChannel.drain_fits (c := { c with assembler := .hunting }) h.1 h

theorem flagLast_length (xs : List Character) : (flagLast xs).length = xs.length := by
  induction xs with
  | nil => rfl
  | cons x rest ih =>
    cases rest with
    | nil => rfl
    | cons y rest => simpa [flagLast] using ih

theorem RefChannel.bufferCharacter_fits (x : Character) (h : c.Fits) : (c.bufferCharacter x).Fits := by
  obtain ⟨hbuffer, hqueue, hrun⟩ := h
  unfold RefChannel.bufferCharacter
  split
  next hroom => exact ⟨by rw [List.length_append]; exact hroom, hqueue, hrun⟩
  next => exact ⟨(flagLast_length _).trans_le hbuffer, hqueue, hrun⟩

theorem RefChannel.complete_fits (x : Character) (h : c.Fits) : (c.complete x).Fits := by
  unfold RefChannel.complete
  dsimp only
  generalize hreceived : RefChannel.count _ _ = received
  have hfits : received.Fits := by subst hreceived; exact h
  have hbuffered := RefChannel.bufferCharacter_fits x hfits
  exact RefChannel.drain_fits hbuffered.1 hbuffered

/-! ### Reference channels: the message queue and the run (R31 to R34) -/

theorem RefChannel.offerMessage_fits (m : QueuedMessage) (h : c.Fits) : (c.offerMessage m).Fits := by
  obtain ⟨hbuffer, hqueue, hrun⟩ := h
  unfold RefChannel.offerMessage
  split
  next hroom => exact ⟨hbuffer, by rw [List.length_append]; exact hroom, hrun⟩
  next => exact ⟨hbuffer, hqueue, hrun⟩

theorem RefChannel.label_fits (ch : Channel) (edge : FilterEdge) (h : c.Fits) : (c.label ch edge).channel.Fits := by
  obtain ⟨hbuffer, hqueue, hrun⟩ := h
  unfold RefChannel.label
  split
  · exact ⟨hbuffer, (List.length_filter_le _ _).trans hqueue, Nat.zero_le _⟩
  · unfold RefChannel.labelNone
    split
    · split
      next hbelow => exact ⟨hbuffer, hqueue, hbelow⟩
      next => exact ⟨hbuffer, hqueue, hrun⟩
    · exact ⟨hbuffer, hqueue, hrun⟩

theorem RefChannel.takeSettings_fits (new : ChannelSettings) (osc : Nat) (h : c.Fits) : (c.takeSettings new osc).Fits := by
  obtain ⟨hbuffer, hqueue, hrun⟩ := h
  unfold RefChannel.takeSettings
  dsimp only
  split
  · exact ⟨Nat.zero_le _, Nat.zero_le _, Nat.zero_le _⟩
  · exact ⟨Nat.zero_le _, Nat.zero_le _, Nat.zero_le _⟩
  · split
    · exact ⟨Nat.zero_le _, Nat.zero_le _, hrun⟩
    · exact ⟨hbuffer, hqueue, hrun⟩

end

end Sys2Proof.Machine
end

