-- ==== Sys2Proof/Proofs/GroupRange.lean ====
section
/-! PROOF. Group records stay in range: what each transition of a group leaves of its fields, its close instant and its draw result. -/

namespace Sys2Proof.Machine

section

variable {r : GroupRecord}

/-- The fields of a group record that hold a number lie in their ranges (R114). -/
def GroupRecord.NumbersInRange (r : GroupRecord) : Prop :=
  r.window ≤ 600000 ∧ 1 ≤ r.extLength ∧ r.extLength ≤ 3600000 ∧ r.extLimit ≤ 7 ∧ r.extUsed ≤ r.extLimit ∧
    1 ≤ r.deferRestart ∧ r.deferRestart ≤ 600000 ∧ r.k ≤ 255 ∧ r.deferrals ≤ 255

theorem GroupRecord.inRange_iff (r : GroupRecord) :
    r.InRange ↔ r.NumbersInRange ∧ (r.close.isSome ↔ r.state = .window ∨ r.state = .closed) ∧
      (r.draw.isSome ↔ r.state = .window ∨ r.state = .closed) ∧ ∀ draw, r.draw = some draw → draw.d ≤ r.window := by
  simp only [GroupRecord.InRange, GroupRecord.NumbersInRange, and_assoc]

theorem GroupRecord.numbersInRange_of_inRange (h : r.InRange) : r.NumbersInRange :=
  ((r.inRange_iff).mp h).1

/-- Outside WINDOW and CLOSED a record in range has no close instant and no draw result (R114). -/
theorem GroupRecord.undrawn_of_inRange (h : r.InRange) (hw : r.state ≠ .window) (hc : r.state ≠ .closed) : r.close = none ∧ r.draw = none := by
  obtain ⟨_, hclose, hdraw, _⟩ := (r.inRange_iff).mp h
  simpa [hw, hc] using And.intro hclose hdraw

/-- A record without a close instant and without a draw result is in range where its numbers are, in a state that has neither. -/
theorem GroupRecord.inRange_of_undrawn (h : r.NumbersInRange) (hclose : r.close = none) (hdraw : r.draw = none) (hw : r.state ≠ .window)
    (hc : r.state ≠ .closed) : r.InRange := by
  refine (r.inRange_iff).mpr ⟨h, ?_, ?_, ?_⟩ <;> simp [hclose, hdraw, hw, hc]

theorem bump_le (n : Nat) : bump n ≤ 255 := Nat.min_le_right _ _

/-! ### The transitions of a group -/

theorem GroupRecord.call_inRange (h : r.InRange) (hstate : r.state = .armed) : ({ r with state := .call } : GroupRecord).InRange := by
  obtain ⟨hclose, hdraw⟩ := GroupRecord.undrawn_of_inRange h (by simp [hstate]) (by simp [hstate])
  have hnumbers := GroupRecord.numbersInRange_of_inRange h
  exact GroupRecord.inRange_of_undrawn (r := { r with state := .call }) hnumbers hclose hdraw
    (fun h => nomatch h) (fun h => nomatch h)

theorem AuctionTimer.drawClose_inRange {a : AuctionTimer} {g : Group} (drawInstant reading : Instant) (h : (a.groups[g]).InRange) :
    (a.drawClose g drawInstant reading).InRange := by
  have hnumbers := GroupRecord.numbersInRange_of_inRange h
  refine (GroupRecord.inRange_iff _).mpr ⟨hnumbers, by simp [AuctionTimer.drawClose], by simp [AuctionTimer.drawClose], fun draw hdraw => ?_⟩
  cases Option.some.inj hdraw
  exact drawDelay_le _ _ _

theorem GroupRecord.closed_inRange {c : Instant} {draw : Draw} (h : r.InRange) (hclose : r.close = some c) (hdraw : r.draw = some draw) :
    ({ r with state := .closed } : GroupRecord).InRange := by
  obtain ⟨hnumbers, _, _, hdelay⟩ := (r.inRange_iff).mp h
  exact (GroupRecord.inRange_iff _).mpr ⟨hnumbers, by simp [hclose], by simp [hdraw], hdelay⟩

theorem GroupRecord.suspended_inRange (h : r.InRange) :
    ({ r with state := .suspended, close := none, draw := none } : GroupRecord).InRange :=
  have hnumbers := GroupRecord.numbersInRange_of_inRange h
  GroupRecord.inRange_of_undrawn hnumbers rfl rfl (fun h => nomatch h) (fun h => nomatch h)

theorem GroupRecord.resumed_inRange (t : Instant) (h : r.InRange) (hstate : r.state = .suspended) : (r.resumed t).InRange := by
  obtain ⟨hclose, hdraw⟩ := GroupRecord.undrawn_of_inRange h (by simp [hstate]) (by simp [hstate])
  obtain ⟨hw, hlen, hlen', hlimit, hused, hdefer, hdefer', _, _⟩ := GroupRecord.numbersInRange_of_inRange h
  exact GroupRecord.inRange_of_undrawn (r := r.resumed t)
    ⟨hw, hlen, hlen', hlimit, hused, hdefer, hdefer', bump_le _, bump_le _⟩ hclose hdraw (fun h => nomatch h) (fun h => nomatch h)

/-- An ExtendCall that R129 does not refuse finds an extension left. -/
theorem GroupRecord.extendRefusal_none {t : Instant} (h : r.extendRefusal t = none) : r.extUsed ≠ r.extLimit := by
  intro hlimit
  simp only [GroupRecord.extendRefusal, hlimit, if_true] at h
  split at h
  case h_4 => split at h <;> cases h
  all_goals cases h

theorem GroupRecord.extended_inRange {t : Instant} (h : r.InRange) (hrefusal : r.extendRefusal t = none) : (r.extended t).InRange := by
  obtain ⟨hw, hlen, hlen', hlimit, hused, hdefer, hdefer', _, hdeferrals⟩ := GroupRecord.numbersInRange_of_inRange h
  have hleft := GroupRecord.extendRefusal_none hrefusal
  have hused' : r.extUsed + 1 ≤ r.extLimit := by omega
  exact GroupRecord.inRange_of_undrawn (r := r.extended t)
    ⟨hw, hlen, hlen', hlimit, hused', hdefer, hdefer', bump_le _, hdeferrals⟩ rfl rfl (fun h => nomatch h) (fun h => nomatch h)

theorem GroupRecord.cleared_inRange (h : r.InRange) : r.cleared.InRange :=
  have hnumbers := GroupRecord.numbersInRange_of_inRange h
  GroupRecord.inRange_of_undrawn (r := r.cleared) hnumbers rfl rfl (fun h => nomatch h) (fun h => nomatch h)

theorem GroupRecord.initial_inRange : GroupRecord.initial.InRange := by
  refine GroupRecord.inRange_of_undrawn ?_ rfl rfl (fun h => nomatch h) (fun h => nomatch h)
  simp [GroupRecord.NumbersInRange, GroupRecord.initial]

/-! ### A schedule loaded (R117, R118) -/

/-- The fields that a LoadSchedule body may carry, after the clamps of R117. -/
def ScheduleBody.InRange (b : ScheduleBody) : Prop :=
  b.window ≤ 600000 ∧ 1 ≤ b.extLength ∧ b.extLength ≤ 3600000 ∧ b.extLimit ≤ 7 ∧ 1 ≤ b.deferRestart ∧ b.deferRestart ≤ 600000

theorem scheduleBody_inRange {body : List Byte} {b : ScheduleBody} (h : scheduleBody body = some b) : b.InRange := by
  simp only [scheduleBody, bind, Option.bind_eq_some_iff] at h
  obtain ⟨group, _, callStart, _, windowStart, _, policy, _, hb⟩ := h
  split at hb
  case isFalse => cases hb
  case isTrue hranges =>
    simp only [Bool.and_eq_true, decide_eq_true_eq] at hranges
    obtain ⟨⟨⟨⟨hlen, hlen'⟩, hdefer⟩, hdefer'⟩, _⟩ := hranges
    cases Option.some.inj hb
    exact ⟨Nat.min_le_right _ _, hlen, hlen', Nat.min_le_right _ _, hdefer, hdefer'⟩

theorem ScheduleBody.record_inRange {b : ScheduleBody} (t : Instant) (h : b.InRange) : (b.record t).InRange := by
  obtain ⟨hw, hlen, hlen', hlimit, hdefer, hdefer'⟩ := h
  have hstate : (b.record t).state = .armed ∨ (b.record t).state = .call := by
    by_cases hahead : Before t b.callStart
    · exact .inl (if_pos hahead)
    · exact .inr (if_neg hahead)
  have hnumbers : (b.record t).NumbersInRange :=
    ⟨hw, hlen, hlen', hlimit, Nat.zero_le _, hdefer, hdefer', Nat.zero_le _, Nat.zero_le _⟩
  refine GroupRecord.inRange_of_undrawn hnumbers rfl rfl ?_ ?_ <;> obtain h | h := hstate <;> simp [h]

end

end Sys2Proof.Machine
end

