-- ==== Sys2Proof/Proofs/Kept.lean ====
section
/-! PROOF. What every row but the power rows keeps, said once as a relation between the state before and the state after. It is reflexive and
transitive, so a row has it where each of its operations has. -/

namespace Sys2Proof.Machine

/-! ### Instants (R101) -/

theorem atOrAfter_refl (i : Instant) : AtOrAfter i i := by
  intro h; obtain h | ⟨_, h⟩ := h <;> omega

theorem atOrAfter_trans {a b c : Instant} (hab : AtOrAfter b a) (hbc : AtOrAfter c b) : AtOrAfter c a := by
  intro h; simp only [AtOrAfter, Before] at *; omega

/-! ### The relations -/

/-- A seed slot is as it was, or its committed seed is revealed (R138). -/
def SeedSlot.KeptOrRevealed (a b : SeedSlot) : Prop :=
  b = a ∨ ∃ seed, a = .committed seed ∧ b = .revealed seed

theorem SeedSlot.KeptOrRevealed.trans {a b c : SeedSlot} (hab : a.KeptOrRevealed b) (hbc : b.KeptOrRevealed c) : a.KeptOrRevealed c := by
  obtain rfl | ⟨seed, ha, hb⟩ := hab
  · exact hbc
  · obtain rfl | ⟨seed', hb', _⟩ := hbc
    · exact .inr ⟨seed, ha, hb⟩
    · cases hb.symm.trans hb'

/-- A pending Restart is as it was, or has learnt that its response has been sent (R185). -/
def RestartKept (a b : Option RestartOrder) : Prop :=
  b = a ∨ ∃ r, a = some r ∧ b = some { r with answered := true }

theorem RestartKept.trans {a b c : Option RestartOrder} (hab : RestartKept a b) (hbc : RestartKept b c) : RestartKept a c := by
  obtain rfl | ⟨r, ha, rfl⟩ := hab
  · exact hbc
  · obtain rfl | ⟨r', hb', rfl⟩ := hbc
    · exact .inr ⟨r, ha, rfl⟩
    · cases hb'; exact .inr ⟨r, ha, rfl⟩

/-- What every row but the power rows keeps of a state: the queue, each invariant of each block, and that no last stamp moves back. -/
structure State.Keeps (s t : State) : Prop where
  pending : t.pending = s.pending
  journal : s.journal.Sound → t.journal.Sound
  time : s.time.InRange → t.time.InRange
  port : ∀ p, (s.port p).Fits → (t.port p).Fits
  lane : ∀ l, (s.lane l).Fits → (t.lane l).Fits
  chan : ∀ ch, (s.chan ch).Fits → (t.chan ch).Fits
  group : ∀ g, (s.group g).InRange → (t.group g).InRange
  configurable : s.Configurable → t.Configurable
  stamp : ∀ l, AtOrAfter (t.lane l).lastStamp (s.lane l).lastStamp

/-- What a row keeps besides that neither resets the part nor commands the seed slot, the day or a Restart: the phase, the seed until it is revealed,
and the pending Restart. -/
structure State.Moves (s t : State) : Prop extends s.Keeps t where
  phase : t.phase = s.phase
  seed : s.auction.seed.KeptOrRevealed t.auction.seed
  restart : RestartKept s.agent.restart t.agent.restart

theorem State.Keeps.trans {s t u : State} (hst : s.Keeps t) (htu : t.Keeps u) : s.Keeps u where
  pending := htu.pending.trans hst.pending
  journal h := htu.journal (hst.journal h)
  time h := htu.time (hst.time h)
  port p h := htu.port p (hst.port p h)
  lane l h := htu.lane l (hst.lane l h)
  chan ch h := htu.chan ch (hst.chan ch h)
  group g h := htu.group g (hst.group g h)
  configurable h := htu.configurable (hst.configurable h)
  stamp l := atOrAfter_trans (hst.stamp l) (htu.stamp l)

theorem State.Moves.refl (s : State) : s.Moves s where
  pending := rfl
  journal := id
  time := id
  port _ := id
  lane _ := id
  chan _ := id
  group _ := id
  configurable := id
  stamp _ := atOrAfter_refl _
  phase := rfl
  seed := .inl rfl
  restart := .inl rfl

theorem State.Moves.trans {s t u : State} (hst : s.Moves t) (htu : t.Moves u) : s.Moves u where
  toKeeps := hst.toKeeps.trans htu.toKeeps
  phase := htu.phase.trans hst.phase
  seed := hst.seed.trans htu.seed
  restart := hst.restart.trans htu.restart

/-! ### The replacement of one block -/

section

variable (s : State)

theorem State.withTime_moves {tb : TimeBase} (h : s.time.InRange → tb.InRange) : s.Moves (s.withTime tb) :=
  { State.Moves.refl s with time := h }

theorem State.withDtu_moves (d : Dtu) : s.Moves (s.withDtu d) :=
  { State.Moves.refl s with }

theorem State.withSignal_moves (b : SignalBlock) : s.Moves (s.withSignal b) :=
  { State.Moves.refl s with }

theorem State.withTable_moves (t : MatchTable) : s.Moves (s.withTable t) :=
  { State.Moves.refl s with }

theorem State.withJournal_moves {j : Journal} (h : s.journal.Sound → j.Sound) : s.Moves (s.withJournal j) :=
  { State.Moves.refl s with journal := h }

theorem State.hand_moves (t : Instant) (p : Payload) : s.Moves (s.hand t p) :=
  s.withJournal_moves (Journal.take_sound _)

theorem State.handAll_moves (hs : List Handed) : s.Moves (s.handAll hs) :=
  s.withJournal_moves (Journal.takeAll_sound hs)

theorem State.withAuction_moves {a : AuctionTimer} (hgroup : ∀ g, (s.group g).InRange → ((s.withAuction a).group g).InRange)
    (hseed : s.auction.seed.KeptOrRevealed a.seed) : s.Moves (s.withAuction a) :=
  { State.Moves.refl s with group := hgroup, seed := hseed }

theorem State.withGroup_moves {g : Group} {r : GroupRecord} (h : (s.group g).InRange → r.InRange) : s.Moves (s.withGroup g r) :=
  s.withAuction_moves (hseed := .inl rfl) fun k hk => by
    by_cases hg : g = k
    · subst hg; exact (s.group_withGroup_self g r).symm ▸ h hk
    · exact (s.group_withGroup_other g k r hg).symm ▸ hk

theorem State.withAgent_moves {a : Agent} (hlevel : ∀ p, ((s.withAgent a).agentPort p).level = (s.agentPort p).level)
    (hrestart : RestartKept s.agent.restart a.restart) : s.Moves (s.withAgent a) :=
  { State.Moves.refl s with configurable := fun ⟨p, hp⟩ => ⟨p, (hlevel p).trans hp⟩, restart := hrestart }

theorem State.withAgentPort_moves {p : Port} {x : AgentPort} (h : x.level = (s.agentPort p).level) : s.Moves (s.withAgentPort p x) :=
  s.withAgent_moves (hrestart := .inl rfl) fun k => by
    by_cases hp : p = k
    · subst hp; exact (congrArg AgentPort.level (s.agentPort_withAgentPort_self p x)).trans h
    · exact congrArg AgentPort.level (s.agentPort_withAgentPort_other p k x hp)

theorem State.withPort_moves {p : Port} {x : PortState} (h : (s.port p).Fits → x.Fits) : s.Moves (s.withPort p x) :=
  { State.Moves.refl s with
    port := fun k hk => by
      by_cases hp : p = k
      · subst hp; exact (s.port_withPort_self p x).symm ▸ h hk
      · exact (s.port_withPort_other p k x hp).symm ▸ hk }

theorem State.withLane_moves {l : LaneId} {x : Lane} (hfits : (s.lane l).Fits → x.Fits) (hstamp : AtOrAfter x.lastStamp (s.lane l).lastStamp) :
    s.Moves (s.withLane l x) :=
  { State.Moves.refl s with
    lane := fun k hk => by
      by_cases hl : l = k
      · subst hl; exact (s.lane_withLane_self l x).symm ▸ hfits hk
      · exact (s.lane_withLane_other l k x hl).symm ▸ hk
    stamp := fun k => by
      by_cases hl : l = k
      · subst hl; rw [s.lane_withLane_self]; exact hstamp
      · rw [s.lane_withLane_other l k x hl]; exact atOrAfter_refl _ }

theorem State.withChan_moves {ch : Channel} {c : RefChannel} (h : (s.chan ch).Fits → c.Fits) : s.Moves (s.withChan ch c) := by
  cases ch
  · exact { State.Moves.refl s with chan := fun | .A => h | .B => id }
  · exact { State.Moves.refl s with chan := fun | .A => id | .B => h }

end

end Sys2Proof.Machine
end

