-- ==== Sys2Proof/Proofs/OperationsKeep.lean ====
section
/-! PROOF. Each shared operation of the model keeps what every row keeps: markers, the Auction Timer, reference channels, DTU, stores, frames, links. -/

namespace Sys2Proof.Machine

section

variable (s : State)

theorem State.foldl_moves {α : Type} {f : State → α → State} (hf : ∀ (u : State) (x : α), u.Moves (f u x)) (xs : List α) : s.Moves (xs.foldl f s) := by
  induction xs generalizing s with
  | nil => exact .refl s
  | cons x xs ih => exact (hf s x).trans (ih _)

/-! ### Time Base (Chapter 1) -/

theorem State.applyOffset_moves {change : OffsetChange} (t : Instant) (hoffset : s.time.InRange → offsetInRange change.newOffset = true) :
    s.Moves (s.applyOffset change t) :=
  (s.withTime_moves fun h => TimeBase.applyOffset_inRange (hoffset h) h).trans (State.hand_moves _ _ _)

theorem State.takeSchedule_moves {change : OffsetChange} (t : Instant) (hoffset : offsetInRange change.newOffset = true) :
    s.Moves (s.takeSchedule change t) := by
  unfold State.takeSchedule
  split
  · exact s.applyOffset_moves t fun _ => hoffset
  · exact s.withTime_moves (TimeBase.pending_inRange hoffset)

theorem Lane.ticked_fits {l : Lane} (before after : Instant) (h : l.Fits) : (l.ticked before after).Fits := by
  rw [Lane.Fits, Lane.ticked_waiting_length]; exact h

theorem State.countTick_moves : s.Moves s.countTick :=
  { State.Moves.refl s with
    time := TimeBase.counted_inRange
    lane := fun l h => (ticked_lane s _ _ l).symm ▸ Lane.ticked_fits _ _ h
    stamp := fun l => (ticked_lane s _ _ l).symm ▸ atOrAfter_refl _ }

theorem State.stepTick_moves (r : StepRequest) (rest : List StepRequest) : s.Moves (s.stepTick r rest) :=
  { State.Moves.refl s with
    time := TimeBase.stepped_inRange r rest
    journal := Journal.take_sound _
    lane := fun l h => (ticked_lane s _ _ l).symm ▸ Lane.ticked_fits _ _ h
    stamp := fun l => (ticked_lane s _ _ l).symm ▸ atOrAfter_refl _ }

theorem State.tick_moves : s.Moves s.tick := by
  unfold State.tick
  split
  · exact .refl s
  · exact { State.Moves.refl s with }
  · split
    · exact s.stepTick_moves _ _
    · exact s.countTick_moves

/-! ### Markers (Chapter 8) -/

theorem State.countMarker_moves (l : LaneId) (f : MarkerCounters → MarkerCounters) : s.Moves (s.withLane l ((s.lane l).countMarker f)) :=
  s.withLane_moves id (atOrAfter_refl _)

theorem State.placeMarker_moves (l : LaneId) (r : MarkerRequest) : s.Moves (s.placeMarker l r) := by
  unfold State.placeMarker
  dsimp only
  split
  · exact s.countMarker_moves l _
  · split
    next hroom => exact (s.withPort_moves fun h => PortState.withMarker_fits _ h hroom).trans (State.countMarker_moves _ l _)
    next => exact s.countMarker_moves l _

theorem State.placeWaiting_moves (l : LaneId) (concerns : MarkerRequest → Bool) (order : Order) : s.Moves (s.placeWaiting l concerns order) :=
  .trans (s.withLane_moves (x := { s.lane l with waiting := (s.lane l).waiting.filter fun r => !concerns r })
    (fun h => Nat.le_trans (List.length_filter_le _ _) h) (atOrAfter_refl _)) (State.foldl_moves _ (fun u r => u.placeMarker_moves l r) _)

theorem State.waitMarker_moves {l : LaneId} (r : MarkerRequest) (hroom : (s.lane l).waiting.length < markerPlaces) :
    s.Moves (s.waitMarker l r) :=
  s.withLane_moves (fun _ => by rw [Lane.Fits, List.length_append]; exact hroom) (atOrAfter_refl _)

theorem State.dealRequest_moves {l : LaneId} (r : MarkerRequest) (t : Instant) (hroom : (s.lane l).waiting.length < markerPlaces) :
    s.Moves (s.dealRequest l r t) := by
  unfold State.dealRequest
  split
  · split
    · exact s.placeMarker_moves l r
    · split
      · exact s.waitMarker_moves _ hroom
      · exact s.waitMarker_moves _ hroom
  · split
    · exact s.placeMarker_moves l r
    · exact s.waitMarker_moves _ hroom

theorem State.takeRequest_moves (l : LaneId) (r : MarkerRequest) (t : Instant) : s.Moves (s.takeRequest l r t) := by
  unfold State.takeRequest
  dsimp only
  split
  next hroom =>
    refine .trans (s.countMarker_moves l _) (State.dealRequest_moves _ r t ?_)
    rw [State.lane_withLane_self]
    exact hroom
  next => exact (s.countMarker_moves l _).trans (State.countMarker_moves _ l _)

theorem State.askLanes_moves (mask : BitVec 4) (r : MarkerRequest) (t : Instant) : s.Moves (s.askLanes mask r t) :=
  s.foldl_moves (f := fun u (l : LaneId) => if mask.getLsbD l then u.takeRequest l r t else u)
    (fun u l => by
      split
      · exact u.takeRequest_moves l r t
      · exact .refl u) _

theorem State.reachMarkerPoint_moves (l : LaneId) (order : Order) : s.Moves (s.reachMarkerPoint l order) := by
  unfold State.reachMarkerPoint
  dsimp only
  split
  · exact s.placeWaiting_moves l _ order
  · exact s.withLane_moves (fun h => by rw [Lane.Fits, List.length_map]; exact h) (atOrAfter_refl _)

/-! ### Auction Timer (Chapter 7) -/

theorem State.revealSeed_moves (t : Instant) : s.Moves (s.revealSeed t) := by
  unfold State.revealSeed
  split
  next seed hseed => exact .trans (s.withAuction_moves (a := { s.auction with seed := .revealed seed }) (fun _ => id) (.inr ⟨seed, hseed, rfl⟩)) (State.hand_moves _ _ _)
  next => exact .refl s

theorem State.revealWhere_moves (t : Instant) : s.Moves (if s.auction.anyWaiting then s else s.revealSeed t) := by
  split
  · exact .refl s
  · exact s.revealSeed_moves t

theorem State.fireClose_moves {g : Group} {c : Instant} {draw : Draw} (t : Instant) (hclose : (s.group g).close = some c)
    (hdraw : (s.group g).draw = some draw) : s.Moves (s.fireClose g c draw t) := by
  unfold State.fireClose
  dsimp only
  refine .trans (.trans (.trans (.trans ?closed (State.hand_moves _ _ _)) (State.withSignal_moves _ _)) (State.askLanes_moves _ _ _ t))
    (State.revealWhere_moves _ t)
  exact s.withGroup_moves fun h => GroupRecord.closed_inRange h hclose hdraw

theorem State.resumeGroup_moves {g : Group} (t : Instant) (hstate : (s.group g).state = .suspended) : s.Moves (s.resumeGroup g t) :=
  (s.withGroup_moves fun h => GroupRecord.resumed_inRange t h hstate).trans (State.hand_moves _ _ _)

theorem State.suspendGroup_moves (g : Group) (c : Instant) (draw : Draw) (t : Instant) : s.Moves (s.suspendGroup g c draw t) := by
  unfold State.suspendGroup
  dsimp only
  have hsuspended := (s.withGroup_moves (g := g) GroupRecord.suspended_inRange).trans (State.hand_moves _ c
    (.suspend g (s.group g).k draw.d (s.group g).window s.dtu.quality (Quality.fit s.dtu.quality)))
  split
  · exact hsuspended.trans (State.resumeGroup_moves _ t (congrArg GroupRecord.state (s.group_withGroup_self g _)))
  · exact hsuspended

theorem State.decideClose_moves (g : Group) (t : Instant) : s.Moves (s.decideClose g t) := by
  unfold State.decideClose
  dsimp only
  split
  next c draw hclose hdraw =>
    split
    · exact s.fireClose_moves t hclose hdraw
    · split
      · exact s.fireClose_moves t hclose hdraw
      · exact s.suspendGroup_moves g c draw t
  next => exact .refl s

theorem State.openWindow_moves (g : Group) (drawInstant reading : Instant) : s.Moves (s.openWindow g drawInstant reading) := by
  unfold State.openWindow
  dsimp only
  have hdrawn : s.Moves (s.withGroup g (s.auction.drawClose g drawInstant reading)) :=
    s.withGroup_moves (AuctionTimer.drawClose_inRange drawInstant reading)
  split
  · split
    · exact hdrawn.trans (State.decideClose_moves _ g reading)
    · exact hdrawn
  · exact hdrawn

theorem State.loadGroup_moves {b : ScheduleBody} (t : Instant) (hb : b.InRange) : s.Moves (s.loadGroup b t) := by
  unfold State.loadGroup
  dsimp only
  have hloaded : s.Moves (s.withGroup b.group (b.record t)) := s.withGroup_moves fun _ => ScheduleBody.record_inRange t hb
  split
  · exact hloaded.trans (State.openWindow_moves _ _ _ _)
  · exact hloaded

theorem State.resumeAll_moves (t : Instant) : s.Moves (s.withAuction (s.auction.resumeAll t)) :=
  s.withAuction_moves (hseed := .inl rfl) fun g h => by
    have hgroup : (s.withAuction (s.auction.resumeAll t)).group g =
        if (s.group g).state = .suspended then (s.group g).resumed t else s.group g := by
      simp [State.group, AuctionTimer.resumeAll]
      rfl
    rw [hgroup]
    split
    next hstate => exact GroupRecord.resumed_inRange t h hstate
    next => exact h

/-! ### DTU and reference channels (Chapters 2 and 3) -/

theorem State.withEffect_moves (e : DtuEffect) : s.Moves (s.withEffect e) :=
  (s.withTime_moves (TimeBase.takeEffect_inRange e)).trans (State.withDtu_moves _ _)

theorem State.takeEffect_moves (e : DtuEffect) : s.Moves (s.takeEffect e) :=
  (s.withEffect_moves e).trans (State.handAll_moves _ _)

theorem State.deliverEdge_moves (r : EdgeRecord) (t : Instant) (osc : Nat) (order : Order) : s.Moves (s.deliverEdge r t osc order) := by
  unfold State.deliverEdge
  dsimp only
  have heffect := s.withEffect_moves (s.dtu.takeRecord r t osc)
  split
  · exact (heffect.trans (State.resumeAll_moves _ t)).trans (State.handAll_moves _ _)
  · exact heffect.trans (State.handAll_moves _ _)

theorem State.countChan_moves (ch : Channel) (f : ChannelCounters → ChannelCounters) : s.Moves (s.withChan ch ((s.chan ch).count f)) :=
  s.withChan_moves id

theorem State.qualifyEdge_moves (ch : Channel) (edge : FilterEdge) (t : Instant) (osc : Nat) (order : Order) :
    s.Moves (s.qualifyEdge ch edge t osc order) := by
  unfold State.qualifyEdge
  dsimp only
  split
  · exact s.countChan_moves ch _
  · exact s.countChan_moves ch _
  · exact s.countChan_moves ch _
  · have hlabelled : s.Moves (s.withChan ch _) := s.withChan_moves (RefChannel.label_fits (c := RefChannel.count
      { s.chan ch with lastAccepted := some edge.risen } fun k => { k with accepted := k.accepted + 1 }) ch edge)
    split
    · exact hlabelled.trans (State.deliverEdge_moves _ _ t osc order)
    · exact hlabelled

theorem State.scheduleLeap_moves (ch : Channel) (change : OffsetChange) (t : Instant) : s.Moves (s.scheduleLeap ch change t) := by
  unfold State.scheduleLeap
  split
  next hoffset => exact s.takeSchedule_moves t hoffset
  next => exact s.countChan_moves ch _

theorem State.huntChan_moves (ch : Channel) (f : ChannelCounters → ChannelCounters) :
    s.Moves (s.withChan ch ((s.chan ch).count f).hunt) :=
  s.withChan_moves (RefChannel.hunt_fits (c := (s.chan ch).count f))

theorem State.validateMessage_moves (ch : Channel) (bytes : List Byte) (completion : Nat) (t : Instant) :
    s.Moves (s.validateMessage ch bytes completion t) := by
  unfold State.validateMessage
  dsimp only
  split
  · exact s.huntChan_moves ch _
  · split
    · refine .trans ?scheduled (State.withChan_moves _ fun h => RefChannel.hunt_fits (RefChannel.offerMessage_fits _ h))
      split
      · exact .trans (s.countChan_moves ch _) (State.scheduleLeap_moves _ ch _ t)
      · exact s.countChan_moves ch _
    · exact s.huntChan_moves ch _

/-! ### Stores of the egress ports (Chapter 4) -/

theorem State.offerPause_moves (p : Port) (quanta : Nat) : s.Moves (s.withPort p ((s.port p).offerPause quanta)) :=
  s.withPort_moves (PortState.offerPause_fits quanta)

theorem State.testHigh_moves (p : Port) (osc : Nat) : s.Moves (s.testHigh p osc) := by
  unfold State.testHigh
  split
  · refine .trans ?_ (State.offerPause_moves _ _ _)
    exact s.withPort_moves id
  · exact .refl s

theorem State.testLow_moves (p : Port) : s.Moves (s.testLow p) := by
  unfold State.testLow
  split
  · refine .trans ?_ (State.offerPause_moves _ _ _)
    exact s.withPort_moves id
  · exact .refl s

theorem State.testEpisode_moves (p : Port) (t : Instant) : s.Moves (s.testEpisode p t) := by
  unfold State.testEpisode
  split
  · split
    · refine .trans ?_ (State.hand_moves _ _ _)
      exact s.withPort_moves id
    · exact .refl s
  · exact .refl s

theorem State.afterFall_moves (p : Port) (t : Instant) : s.Moves (s.afterFall p t) :=
  (s.testLow_moves p).trans (State.testEpisode_moves _ p t)

theorem State.dropFrame_moves (p : Port) (t : Instant) : s.Moves (s.dropFrame p t) := by
  unfold State.dropFrame
  dsimp only
  split
  · exact s.withPort_moves id
  · refine .trans ?_ (State.hand_moves _ _ _)
    exact s.withPort_moves id

theorem State.offerFrame_moves (p : Port) (bytes : List Byte) (detection : DetectionRecord) (t : Instant) (osc : Nat) :
    s.Moves (s.offerFrame p bytes detection t osc) := by
  unfold State.offerFrame
  split
  next hroom => exact (s.withPort_moves fun h => PortState.withFrame_fits detection h hroom).trans (State.testHigh_moves _ p osc)
  next => exact s.dropFrame_moves p t

theorem State.noteAnswered_moves (frame : OwnFrame) : s.Moves (s.noteAnswered frame) := by
  unfold State.noteAnswered
  split
  · refine s.withAgent_moves (fun _ => rfl) ?_
    cases s.agent.restart with
    | none => exact .inl rfl
    | some r => exact .inr ⟨r, rfl, rfl⟩
  · exact .refl s

theorem State.endTransmission_moves (p : Port) (t : Instant) : s.Moves (s.endTransmission p t) := by
  unfold State.endTransmission
  dsimp only
  split
  next item _ _ _ =>
    have hleft : s.Moves (s.withPort p { (s.port p).dropPassing with egress := (s.port p).egress.sentPassing item }) :=
      s.withPort_moves PortState.dropPassing_fits
    split
    · exact hleft
    · exact hleft.trans (State.afterFall_moves _ p t)
  next =>
    refine .trans ?_ (State.noteAnswered_moves _ _)
    exact s.withPort_moves PortState.dropOwn_fits
  next => exact .refl s

/-! ### Links (R77 to R79) -/

theorem State.noteLink_moves (p : Port) (up : Bool) (t : Instant) : s.Moves (s.noteLink p up t) :=
  .trans (s.withPort_moves (x := { s.port p with link := up, linkChanges := (s.port p).linkChanges + 1 }) id) (State.hand_moves _ _ _)

theorem State.fallen_moves (falls : Bool) (p : Port) (t : Instant) : s.Moves (if falls then s.afterFall p t else s) := by
  split
  · exact s.afterFall_moves p t
  · exact .refl s

theorem State.linkLost_moves (p : Port) (t : Instant) (order : Order) : s.Moves (s.linkLost p t order) := by
  unfold State.linkLost
  dsimp only
  have hcut : s.Moves (s.withPort p (s.port p).cut) := s.withPort_moves PortState.cut_fits
  have hnoted : s.Moves
      (if order.headD 0 % 2 = 0 then
        (if (s.port p).abortFalls then ((s.withPort p (s.port p).cut).noteLink p false t).afterFall p t
          else (s.withPort p (s.port p).cut).noteLink p false t)
       else (if (s.port p).abortFalls then (s.withPort p (s.port p).cut).afterFall p t
          else s.withPort p (s.port p).cut).noteLink p false t) := by
    split
    · exact (hcut.trans (State.noteLink_moves _ p false t)).trans (State.fallen_moves _ _ p t)
    · exact (hcut.trans (State.fallen_moves _ _ p t)).trans (State.noteLink_moves _ p false t)
  split
  · exact hnoted.trans (State.placeWaiting_moves _ _ _ _)
  · exact hnoted

/-! ### Frames (Chapters 4 to 6) -/

theorem State.startFrame_moves (p : Port) (t : Instant) (order : Order) : s.Moves (s.startFrame p t order) := by
  unfold State.startFrame
  dsimp only
  have hbegun : s.Moves (s.withPort p { s.port p with reception := some (Reception.begin (s.detection p t)) }) := s.withPort_moves id
  split
  · exact hbegun.trans (State.placeWaiting_moves _ _ _ _)
  · exact hbegun

theorem State.withReception_moves (p : Port) (f : Reception) : s.Moves (s.withReception p f) :=
  s.withPort_moves id

/-- The count of a smaller unit raised by one, with its carry, moves no instant back. -/
theorem atOrAfter_carry (sec ns unit : Nat) :
    AtOrAfter { sec := sec + (ns + 1) / unit, ns := (ns + 1) % unit } { sec := sec, ns := ns } := by
  have hsplit := Nat.div_add_mod (ns + 1) unit
  rintro (hsec | ⟨hsec, hns⟩)
  · exact absurd hsec (Nat.not_lt.mpr (Nat.le_add_right _ _))
  · have hcarry : (ns + 1) / unit = 0 := Nat.add_left_cancel (n := sec) hsec
    rw [hcarry, Nat.mul_zero, Nat.zero_add] at hsplit
    exact absurd (hsplit.symm.trans_lt hns) (Nat.not_lt.mpr (Nat.le_succ _))

/-- The stamp floor: a stamp never lies before the last one (R101). -/
theorem stampOver_atOrAfter (last raw : Instant) : AtOrAfter (stampOver last raw) last := by
  unfold stampOver
  split
  next h => simp only [AtOrAfter, Before] at *; omega
  next =>
    exact atOrAfter_carry last.sec last.ns nsPerSecond

theorem Lane.dateWith_fits {l : Lane} (t : Trailer) (h : l.Fits) : (l.dateWith t).Fits := h

theorem State.dateWith_moves (l : LaneId) (r : DetectionRecord) (d : Dating) :
    s.Moves (s.withLane l ((s.lane l).dateWith ((s.lane l).trailerFor s.auction r d))) :=
  s.withLane_moves (Lane.dateWith_fits _) (stampOver_atOrAfter _ _)

theorem State.endOrder_moves (p : Port) (f : Reception) (frame : List Byte) (t : Instant) (osc : Nat) :
    s.Moves (s.endOrder p f frame t osc) := by
  unfold State.endOrder
  split
  · exact .refl s
  next c _ =>
    dsimp only
    have hcounted : s.Moves ((s.withTable (s.table.hit f.detection.bank c)).withLane (laneOf p)
        { s.lane (laneOf p) with classes := (s.lane (laneOf p)).classes.raise c f.detection.profile.defaultAction }) :=
      (s.withTable_moves _).trans (State.withLane_moves _ id (atOrAfter_refl _))
    split
    · exact hcounted.trans (State.offerFrame_moves _ _ _ _ t osc)
    · exact (hcounted.trans (State.dateWith_moves _ _ _ _)).trans (State.offerFrame_moves _ _ _ _ t osc)

theorem State.endOrdinary_moves (p : Port) (f : Reception) (frame : List Byte) (t : Instant) (osc : Nat) :
    s.Moves (s.endOrdinary p f frame t osc) := by
  unfold State.endOrdinary
  split
  · split
    · exact s.endOrder_moves p f frame t osc
    · refine .trans ?_ (State.offerFrame_moves _ _ _ _ t osc)
      exact s.withLane_moves id (atOrAfter_refl _)
  · exact s.offerFrame_moves _ _ _ t osc

theorem AgentPort.intakeFrame_level (a : AgentPort) (frame : List Byte) : (a.intakeFrame frame).level = a.level := by
  unfold AgentPort.intakeFrame; split <;> rfl

theorem State.dispose_moves (p : Port) (f : Reception) (frame : List Byte) (c : FrameClass) (t : Instant) (osc : Nat) :
    s.Moves (s.dispose p f frame c t osc) := by
  cases c with
  | runt => exact .refl s
  | oversize => exact .refl s
  | badManagement => exact .refl s
  | management => exact s.withAgentPort_moves (AgentPort.intakeFrame_level _ frame)
  | macControl =>
    simp only [State.dispose]
    split
    · exact s.withPort_moves id
    · exact .refl s
  | bad => exact s.offerFrame_moves _ _ _ t osc
  | ordinary => exact s.endOrdinary_moves p f frame t osc

theorem State.endFrame_moves (p : Port) (f : Reception) (frame : List Byte) (receiveError : Bool) (t : Instant) (osc : Nat) (order : Order) :
    s.Moves (s.endFrame p f frame receiveError t osc order) := by
  unfold State.endFrame
  dsimp only
  have hdisposed := (s.withPort_moves (p := p) (x := { s.port p with
    reception := none, ingress := (s.port p).ingress.end (f.classOf frame receiveError) }) id).trans
      (State.dispose_moves _ p f frame (f.classOf frame receiveError) t osc)
  split
  · exact hdisposed.trans (State.placeWaiting_moves _ _ _ _)
  · exact hdisposed

end

end Sys2Proof.Machine
end

