-- ==== Sys2Proof/Proofs/ManagementKeeps.lean ====
section
/-! PROOF. Each management command keeps what every row keeps: its take, its own rule and its response; and so do the assertion and the release of a warm
reset. -/

namespace Sys2Proof.Machine

/-! ### The take and the response (R174, R177) -/

section

variable (s : State)

theorem State.emptySlot_moves (p : Port) : s.Moves (s.emptySlot p) :=
  .trans (s.withAgentPort_moves (x := { s.agentPort p with slot := none }) rfl) (State.withAgent_moves _ (fun _ => rfl) (.inl rfl))

theorem State.offerResponse_moves (p : Port) (bytes : List Byte) (ofRestart : Bool) : s.Moves (s.offerResponse p bytes ofRestart) := by
  unfold State.offerResponse
  split
  next hroom =>
    refine .trans ?queued (State.withAgentPort_moves _ rfl)
    exact s.withPort_moves fun h => PortState.withResponse_fits _ h hroom
  next => exact s.withAgentPort_moves rfl

theorem State.respond_moves (q : Take) (status : Status) (body : List Byte) (ofRestart : Bool) : s.Moves (s.respond q status body ofRestart) :=
  s.offerResponse_moves _ _ _

theorem State.serve_keeps {q : Take} {apply : Take → State → Reply} (ofRestart : Bool) (h : ∀ u : State, u.Keeps (apply q u).state) :
    s.Keeps (s.serve q apply ofRestart) :=
  ((s.emptySlot_moves q.port).toKeeps.trans (h _)).trans (State.respond_moves _ q _ _ ofRestart).toKeeps

theorem State.serve_moves {q : Take} {apply : Take → State → Reply} (ofRestart : Bool) (h : ∀ u : State, u.Moves (apply q u).state) :
    s.Moves (s.serve q apply ofRestart) :=
  ((s.emptySlot_moves q.port).trans (h _)).trans (State.respond_moves _ q _ _ ofRestart)

theorem State.takeCommand_keeps {apply : Take → State → Reply} (c : Command) (sub : Sub) (h : ∀ q (u : State), u.Keeps (apply q u).state) :
    s.Keeps (s.takeCommand c sub apply) := by
  obtain ⟨q, _, hserve⟩ | hidle := s.takeCommand_cases c sub apply
  · rw [hserve]; exact s.serve_keeps _ (h q)
  · rw [hidle]; exact (State.Moves.refl s).toKeeps

theorem State.takeCommand_moves {apply : Take → State → Reply} (c : Command) (sub : Sub) (h : ∀ q (u : State), u.Moves (apply q u).state) :
    s.Moves (s.takeCommand c sub apply) := by
  obtain ⟨q, _, hserve⟩ | hidle := s.takeCommand_cases c sub apply
  · rw [hserve]; exact s.serve_moves _ (h q)
  · rw [hidle]; exact .refl s

theorem State.withAgentCount_moves (f : Agent → Agent) (hports : (f s.agent).ports = s.agent.ports)
    (hrestart : (f s.agent).restart = s.agent.restart) : s.Moves (s.withAgent (f s.agent)) :=
  s.withAgent_moves (fun p => by simp only [State.agentPort, State.withAgent_agent, hports]) (.inl hrestart)

theorem State.reject_moves (q : Take) : s.Moves (s.reject q) := by
  refine (s.emptySlot_moves q.port).trans ?_
  dsimp only [State.reject]
  split
  · exact State.withAgentPort_moves _ rfl
  · exact State.withAgentPort_moves _ rfl
  · exact .trans (State.withAgentCount_moves _ (fun a => { a with malformed := a.malformed + 1 }) rfl rfl) (State.respond_moves _ q _ _ _)
  · exact .trans (State.withAgentCount_moves _ (fun a => { a with unknown := a.unknown + 1 }) rfl rfl) (State.respond_moves _ q _ _ _)
  · exact .trans (State.withAgentCount_moves _ (fun a => { a with denied := a.denied + 1 }) rfl rfl) (State.respond_moves _ q _ _ _)
  · exact .refl _

theorem State.recordConfig_moves (q : Take) (c : Command) (object : BitVec 16) (detail : List Byte) :
    s.Moves (s.recordConfig q c object detail) :=
  s.hand_moves _ _

/-! ### The commands that read, and the journal's release (sections 10.5, 9.5) -/

variable (q : Take)

theorem applyReadJournal_moves : s.Moves (applyReadJournal q s).state := by
  unfold applyReadJournal; split <;> exact .refl s

theorem applyReadGroup_moves : s.Moves (applyReadGroup q s).state := by
  unfold applyReadGroup; split <;> exact .refl s

theorem applyReadMatchEntry_moves : s.Moves (applyReadMatchEntry q s).state := by
  unfold applyReadMatchEntry; split <;> exact .refl s

theorem applyReadCounters_moves : s.Moves (applyReadCounters q s).state := by
  unfold applyReadCounters; split <;> exact .refl s

theorem applyReleaseJournal_moves : s.Moves (applyReleaseJournal q s).state :=
  s.withJournal_moves (Journal.release_sound _)

/-! ### The commands on the Auction Timer (Chapter 7) -/

theorem applyExtendCall_moves : s.Moves (applyExtendCall q s).state := by
  unfold applyExtendCall
  split
  · exact .refl s
  next g _ =>
    split
    · exact .refl s
    next hrefusal =>
      refine .trans ?_ (State.hand_moves _ _ _)
      exact s.withGroup_moves fun h => GroupRecord.extended_inRange h hrefusal

theorem applyLoadSchedule_moves (order : Order) : s.Moves (applyLoadSchedule order q s).state := by
  unfold applyLoadSchedule
  split
  · exact .refl s
  next b hbody =>
    have hb : b.InRange := scheduleBody_inRange hbody
    split
    · exact .refl s
    · dsimp only [Reply.give]
      split
      · exact (s.loadGroup_moves q.now hb).trans (State.recordConfig_moves _ q _ _ _)
      · exact (s.recordConfig_moves q _ _ _).trans (State.loadGroup_moves _ q.now hb)

theorem applyClearSchedule_moves : s.Moves (applyClearSchedule q s).state := by
  unfold applyClearSchedule
  split
  · exact .refl s
  next g _ =>
    have hcleared : s.Moves ((s.withGroup g (s.group g).cleared).recordConfig q .clearSchedule (objectOf g) []) :=
      (s.withGroup_moves GroupRecord.cleared_inRange).trans (State.recordConfig_moves _ q _ _ _)
    split
    · exact hcleared
    · exact hcleared
    · exact .refl s

theorem applySetDay_moves : s.Moves (applySetDay q s).state := by
  unfold applySetDay
  split
  · refine .trans ?_ (State.recordConfig_moves _ q _ _ _)
    exact s.withAuction_moves (fun _ => id) (.inl rfl)
  · exact .refl s

theorem applyDayRoll_keeps : s.Keeps (applyDayRoll q s).state := by
  by_cases hbusy : s.SomeInCall
  · rw [applyDayRoll_refused hbusy]; exact (State.Moves.refl s).toKeeps
  · rw [applyDayRoll_rolled hbusy]
    obtain ⟨auction, journal, hroll⟩ := s.rollDay_only q.now
    have hgroup := s.rollDay_group q.now
    have hjournal : s.journal.Sound → (s.rollDay q.now).journal.Sound := fun h => by
      rw [State.rollDay_journal]
      exact Journal.take_sound _ ((s.revealSeed_moves q.now).journal h)
    rw [Reply.done]
    dsimp only
    rw [hroll] at hgroup hjournal ⊢
    exact { (State.Moves.refl s).toKeeps with
      journal := hjournal
      group := fun g h => hgroup g ▸ GroupRecord.cleared_inRange h }

theorem State.withSeed_keeps (slot : SeedSlot) : s.Keeps (s.withSeed slot) :=
  { (State.Moves.refl s).toKeeps with }

theorem applyLoadSeed_keeps : s.Keeps (applyLoadSeed q s).state := by
  unfold applyLoadSeed
  split
  · exact (State.Moves.refl s).toKeeps
  · exact (s.withSeed_keeps _).trans (State.recordConfig_moves _ q _ _ _).toKeeps

theorem applyCommitSeed_keeps : s.Keeps (applyCommitSeed q s).state := by
  unfold applyCommitSeed
  split
  · exact (State.Moves.refl s).toKeeps
  · split
    · exact (s.withSeed_keeps _).trans (State.hand_moves _ _ _).toKeeps
    · exact s.withSeed_keeps _
  · exact (State.Moves.refl s).toKeeps

/-! ### The commands on settings (sections 10.4 to 10.6) -/

theorem Lane.takeMode_fits {l : Lane} (b : LaneModeBody) (h : l.Fits) : (l.takeMode b).Fits := h

theorem Lane.takeProfile_fits {l : Lane} (profile : LaneProfile) (now : Instant) (h : l.Fits) : (l.takeProfile profile now).Fits := by
  rw [Lane.Fits, Lane.takeProfile, List.length_map]; exact h

/-- A change of settings is recorded where something changed, and done without a record otherwise (R171). -/
theorem Reply.recorded_moves {set : State} {changed : Prop} [Decidable changed] (h : s.Moves set) (c : Command) (object : BitVec 16)
    (detail : List Byte) : s.Moves (if changed then Reply.done set else .done (set.recordConfig q c object detail)).state := by
  split
  · exact h
  · exact h.trans (set.recordConfig_moves q c object detail)

theorem applySetLaneMode_moves : s.Moves (applySetLaneMode q s).state := by
  unfold applySetLaneMode
  split
  · exact .refl s
  next b _ =>
    have hset : s.Moves (s.withLane b.lane ((s.lane b.lane).takeMode b)) := s.withLane_moves (Lane.takeMode_fits b) (atOrAfter_refl _)
    exact Reply.recorded_moves s q hset _ _ _

theorem State.testWatermarks_moves (l : LaneId) (osc : Nat) : s.Moves (s.testWatermarks l osc) :=
  (((s.testHigh_moves (enginePort l) osc).trans (State.testLow_moves _ (enginePort l))).trans
    (State.testHigh_moves _ (gatewayPort l) osc)).trans (State.testLow_moves _ (gatewayPort l))

theorem applySetLaneProfile_moves : s.Moves (applySetLaneProfile q s).state := by
  unfold applySetLaneProfile
  split
  · exact .refl s
  next b _ =>
    have hset : s.Moves ((s.withLane b.lane ((s.lane b.lane).takeProfile b.profile q.now)).testWatermarks b.lane q.osc) :=
      (s.withLane_moves (Lane.takeProfile_fits b.profile q.now) (atOrAfter_refl _)).trans (State.testWatermarks_moves _ b.lane q.osc)
    exact Reply.recorded_moves s q hset _ _ _

theorem applyWriteMatchEntry_moves : s.Moves (applyWriteMatchEntry q s).state := by
  unfold applyWriteMatchEntry
  split
  · exact .refl s
  · split
    · exact .refl s
    · dsimp only
      split
      · exact s.withTable_moves _
      · exact (s.withTable_moves _).trans (State.recordConfig_moves _ q _ _ _)

theorem applySwapBank_moves : s.Moves (applySwapBank q s).state := by
  unfold applySwapBank
  split
  · exact .refl s
  · split
    · exact .refl s
    · exact .trans (s.withTable_moves _) (State.recordConfig_moves _ q _ _ _)

theorem applySetReferenceChannel_moves : s.Moves (applySetReferenceChannel q s).state := by
  unfold applySetReferenceChannel
  split
  · exact .refl s
  next b _ =>
    have hset : s.Moves (s.withChan b.channel ((s.chan b.channel).takeSettings b.settings q.osc)) :=
      s.withChan_moves (RefChannel.takeSettings_fits b.settings q.osc)
    exact Reply.recorded_moves s q hset _ _ _

theorem applySetPreferredReference_moves : s.Moves (applySetPreferredReference q s).state := by
  unfold applySetPreferredReference
  split
  · exact .refl s
  · exact .trans (s.withDtu_moves _) (State.recordConfig_moves _ q _ _ _)

theorem applySetDiscipline_moves : s.Moves (applySetDiscipline q s).state := by
  unfold applySetDiscipline
  split
  · exact .refl s
  · dsimp only
    split
    · exact s.withDtu_moves _
    · exact .trans (s.withDtu_moves _) (State.recordConfig_moves _ q _ _ _)

theorem applyEndAcquisition_moves : s.Moves (applyEndAcquisition q s).state := by
  unfold applyEndAcquisition
  split
  · exact s.takeEffect_moves _
  · exact .refl s

theorem applyStepTime_moves : s.Moves (applyStepTime q s).state := by
  unfold applyStepTime
  split
  · exact .refl s
  · refine .trans ?_ (State.takeEffect_moves _ _)
    exact s.withTime_moves id

theorem applySetUtcOffset_moves : s.Moves (applySetUtcOffset q s).state := by
  unfold applySetUtcOffset
  split
  · exact .refl s
  · exact (s.recordConfig_moves q _ _ _).trans (State.takeSchedule_moves _ q.now (offsetInRange_of_byte _ _))

theorem applySetOutputs_moves : s.Moves (applySetOutputs q s).state := by
  unfold applySetOutputs
  split
  · exact .refl s
  next b _ =>
    have hset : s.Moves ((s.withTime { s.time with pps := s.time.pps.takeSettings b }).withSignal (s.signal.takeSettings b)) :=
      .trans (s.withTime_moves (tb := { s.time with pps := s.time.pps.takeSettings b }) id) (State.withSignal_moves _ _)
    exact Reply.recorded_moves s q hset _ _ _

/-- A SetPermissions body that is not refused leaves some port with Configure (R178). -/
theorem permissionsBody_configure {body : List Byte} {levels : Vector Level 8} (h : permissionsBody body = some levels) :
    ∃ p : Port, levels[p] = .configure := by
  unfold permissionsBody at h
  split at h
  next htests =>
    obtain ⟨_, hany⟩ := Bool.and_eq_true_iff.mp htests
    obtain ⟨p, _, hp⟩ := List.any_eq_true.mp hany
    cases h
    exact ⟨p, by simpa using hp⟩
  next => cases h

theorem Agent.withLevels_level (levels : Vector Level 8) (p : Port) :
    ((s.withAgent (s.agent.withLevels levels)).agentPort p).level = levels[p] := by
  simp [State.agentPort, Agent.withLevels]

theorem applySetPermissions_moves : s.Moves (applySetPermissions q s).state := by
  unfold applySetPermissions
  split
  · exact .refl s
  next levels hbody =>
    obtain ⟨p, hp⟩ := permissionsBody_configure hbody
    have hset : s.Moves (s.withAgent (s.agent.withLevels levels)) :=
      { State.Moves.refl s with configurable := fun _ => ⟨p, (Agent.withLevels_level s levels p).trans hp⟩ }
    exact Reply.recorded_moves s q hset _ _ _

theorem applyRestart_keeps : s.Keeps (applyRestart q s).state :=
  { (State.Moves.refl s).toKeeps with }

/-! ### The warm reset (sections 11.3, 10.6) -/

theorem State.withPhase_keeps (phase : Phase) : s.Keeps (s.withPhase phase) :=
  { (State.Moves.refl s).toKeeps with }

theorem PortState.abandoned_fits (p : PortState) : p.abandoned.Fits :=
  ⟨Nat.zero_le _, Nat.zero_le _, Nat.zero_le _, Nat.zero_le _⟩

theorem PortState.released_fits (p : PortState) : p.released.Fits :=
  ⟨Nat.zero_le _, Nat.zero_le _, Nat.zero_le _, Nat.zero_le _⟩

variable (t : Instant) (order : Order)

theorem State.assertWarm_port (hold : Hold) (p : Port) : (s.assertWarm hold t order).port p = (s.port p).abandoned := by
  simp [State.assertWarm, State.port]

theorem State.assertWarm_lane (hold : Hold) (l : LaneId) : (s.assertWarm hold t order).lane l = (s.lane l).asserted := by
  simp [State.assertWarm, State.lane]

theorem AuctionTimer.initial_group (g : Group) : AuctionTimer.initial.groups[g] = GroupRecord.initial := by
  simp [AuctionTimer.initial]

theorem State.assertWarm_group (hold : Hold) (g : Group) : (s.assertWarm hold t order).group g = GroupRecord.initial :=
  AuctionTimer.initial_group g

theorem State.assertWarm_agentPort (hold : Hold) (p : Port) : (s.assertWarm hold t order).agentPort p = { s.agentPort p with slot := none } := by
  simp [State.assertWarm, State.agentPort, Agent.asserted]

theorem State.assertWarm_keeps (hold : Hold) : s.Keeps (s.assertWarm hold t order) where
  pending := rfl
  journal := Journal.takeAll_sound _
  time := id
  port p _ := s.assertWarm_port t order hold p ▸ PortState.abandoned_fits _
  lane l _ := s.assertWarm_lane t order hold l ▸ Nat.zero_le _
  chan ch h := by cases ch <;> exact h
  group g _ := s.assertWarm_group t order hold g ▸ GroupRecord.initial_inRange
  configurable := fun ⟨p, hp⟩ => ⟨p, by rw [State.assertWarm_agentPort]; exact hp⟩
  stamp l := by rw [State.assertWarm_lane]; exact atOrAfter_refl _

theorem State.warmState_port (straps : Straps) (osc : Nat) (p : Port) : (s.warmState straps osc).port p = (s.port p).released := by
  simp [State.warmState, State.port]

theorem State.warmState_lane (straps : Straps) (osc : Nat) (l : LaneId) : (s.warmState straps osc).lane l = (s.lane l).released := by
  simp [State.warmState, State.lane]

theorem Agent.initial_port (cfgPort p : Port) :
    (Agent.initial cfgPort).ports[p] = AgentPort.initial (if p = cfgPort then .configure else .none) := by
  simp [Agent.initial]

theorem State.warmState_keeps (straps : Straps) (osc : Nat) : s.Keeps (s.warmState straps osc) where
  pending := rfl
  journal := id
  time := TimeBase.takeRate_inRange _
  port p _ := s.warmState_port straps osc p ▸ PortState.released_fits _
  lane l _ := s.warmState_lane straps osc l ▸ Nat.zero_le _
  chan ch _ := by cases ch <;> exact RefChannel.initial_fits osc
  group _ := id
  configurable _ := ⟨straps.cfgPort, by
    show ((Agent.initial straps.cfgPort).ports[straps.cfgPort]).level = .configure
    rw [Agent.initial_port, if_pos rfl, AgentPort.initial]⟩
  stamp l := by rw [State.warmState_lane]; exact atOrAfter_refl _

theorem State.releaseWarm_keeps (straps : Straps) (byCommand : Bool) (osc : Nat) : s.Keeps (s.releaseWarm straps byCommand t osc order) :=
  ((s.warmState_keeps straps osc).trans (State.hand_moves _ _ _).toKeeps).trans (State.handAll_moves _ _).toKeeps

end

end Sys2Proof.Machine
end

