-- ==== Sys2Proof/Proofs/RowsKeep.lean ====
section
/-! PROOF. Every row but the power rows keeps what `State.Keeps` says, and every row that neither resets the part nor commands the seed slot, the day or a
Restart what `State.Moves` says. -/

namespace Sys2Proof.Machine

/-- A row answers a next state that keeps what every row keeps. -/
def State.KeptBy (s : State) (r : Result) : Prop := ∃ t, r = .next t ∧ s.Keeps t

/-- A row answers a next state that keeps the phase, the seed and the pending Restart besides. -/
def State.MovedBy (s : State) (r : Result) : Prop := ∃ t, r = .next t ∧ s.Moves t

theorem State.MovedBy.keptBy {s : State} {r : Result} (h : s.MovedBy r) : s.KeptBy r := by
  obtain ⟨t, hrow, hmoves⟩ := h
  exact ⟨t, hrow, hmoves.toKeeps⟩

section

variable (s : State)

theorem State.movedBy_next {t : State} (h : s.Moves t) : s.MovedBy (.next t) := ⟨t, rfl, h⟩

/-! ### The Time Base and the DTU (Chapters 1 and 3) -/

theorem execStepApplied_moved : s.MovedBy (execStepApplied s) := by
  refine s.movedBy_next ?_
  split
  · exact s.stepTick_moves _ _
  · exact .refl s

theorem execSecondEvent_moved (order : Order) : s.MovedBy (execSecondEvent order s) := by
  refine s.movedBy_next ?_
  split
  · exact .refl s
  next rest _ =>
    have htold : s.Moves (s.withTime { s.time with secondEvents := rest }) := s.withTime_moves id
    dsimp only
    split
    · exact htold.trans (State.takeEffect_moves _ _)
    · split
      · exact htold.trans (State.takeEffect_moves _ _)
      · exact .refl s

theorem TimeBase.offsetDue_pending {tb : TimeBase} {change : OffsetChange} (h : tb.offsetDue = some change) : tb.pendingOffset = some change :=
  Option.eq_some_of_filter_eq_some h

theorem execOffsetChange_moved : s.MovedBy (execOffsetChange s) := by
  refine s.movedBy_next ?_
  split
  next change _ hdue =>
    refine s.applyOffset_moves _ fun hrange => ?_
    obtain ⟨_, _, _, _, _, _, hpending⟩ := hrange
    exact hpending change (TimeBase.offsetDue_pending hdue)
  next => exact .refl s

theorem execPulsePointReached_moved : s.MovedBy (execPulsePointReached s) := by
  refine s.movedBy_next ?_
  split
  · exact s.withTime_moves id
  · exact .refl s

theorem execPpsPulseEnd_moved : s.MovedBy (execPpsPulseEnd s) := by
  refine s.movedBy_next ?_
  split
  · exact s.withTime_moves id
  · exact .refl s

/-! ### The reference channels (Chapter 2) -/

variable (ch : Channel) (sub : Sub) (order : Order)

theorem execPulseEdge_moved : s.MovedBy (execPulseEdge ch sub order s) := by
  refine s.movedBy_next ?_
  split
  · dsimp only
    split
    · exact s.qualifyEdge_moves ch _ _ _ order
    · exact s.withChan_moves id
  · exact .refl s

theorem execPulseGlitch_moved : s.MovedBy (execPulseGlitch ch sub s) := by
  refine s.movedBy_next ?_
  split
  · split
    · exact s.withChan_moves id
    · exact .refl s
  · exact .refl s

theorem execEdgeQualified_moved : s.MovedBy (execEdgeQualified ch sub order s) := by
  refine s.movedBy_next ?_
  split
  · split
    · refine .trans ?_ (State.qualifyEdge_moves _ ch _ _ _ order)
      exact s.withChan_moves id
    · exact .refl s
  · exact .refl s

theorem execPredictionExpiry_moved : s.MovedBy (execPredictionExpiry ch sub s) := by
  refine s.movedBy_next ?_
  split
  · split
    · exact s.withChan_moves id
    · exact .refl s
  · exact .refl s

theorem execCharacterComplete_moved (data : Byte) (parityBit stopBit : Bool) :
    s.MovedBy (execCharacterComplete ch data parityBit stopBit sub s) := by
  refine s.movedBy_next ?_
  split
  · exact s.withChan_moves (RefChannel.complete_fits _)
  · exact .refl s

theorem execMessageValidation_moved : s.MovedBy (execMessageValidation ch sub s) := by
  refine s.movedBy_next ?_
  split
  · exact s.validateMessage_moves ch _ _ _
  · exact .refl s

theorem execGapTimerExpiry_moved : s.MovedBy (execGapTimerExpiry ch sub s) := by
  refine s.movedBy_next ?_
  split
  · split
    · exact s.huntChan_moves ch _
    · exact .refl s
  · exact .refl s

theorem RefChannel.dropOldest_fits {c : RefChannel} {m : QueuedMessage} {rest : List QueuedMessage} (hqueue : c.queue = m :: rest)
    (h : c.Fits) : ({ c with queue := rest } : RefChannel).Fits := by
  obtain ⟨hbuffer, hlen, hrun⟩ := h
  rw [hqueue, List.length_cons] at hlen
  exact ⟨hbuffer, (Nat.le_succ _).trans hlen, hrun⟩

theorem execMessageStale_moved : s.MovedBy (execMessageStale ch sub s) := by
  refine s.movedBy_next ?_
  split
  next hqueue =>
    split
    · exact s.withChan_moves (RefChannel.dropOldest_fits hqueue)
    · exact .refl s
  next => exact .refl s

/-! ### Ports and frames (Chapters 4 to 6) -/

variable (p : Port)

theorem execFrameStartDetected_moved : s.MovedBy (execFrameStartDetected p sub order s) := by
  refine s.movedBy_next ?_
  split
  · exact s.startFrame_moves p _ order
  · exact .refl s

theorem execEtherTypeReceived_moved (header : List Byte) : s.MovedBy (execEtherTypeReceived p header s) := by
  refine s.movedBy_next ?_
  split
  · split
    · exact s.withReception_moves p _
    · exact .refl s
  · exact .refl s

theorem execOversizeDetected_moved (more : List Byte) : s.MovedBy (execOversizeDetected p more s) := by
  refine s.movedBy_next ?_
  split
  · split
    · exact s.withReception_moves p _
    · exact .refl s
  · exact .refl s

theorem execClassificationPoint_moved (more : List Byte) : s.MovedBy (execClassificationPoint p more s) := by
  refine s.movedBy_next ?_
  split
  · split
    · exact s.withReception_moves p _
    · exact .refl s
  · exact .refl s

theorem execFrameEnd_moved (rest : List Byte) (receiveError : Bool) : s.MovedBy (execFrameEnd p rest receiveError sub order s) := by
  refine s.movedBy_next ?_
  split
  · split
    · exact s.endFrame_moves p _ _ receiveError _ _ order
    · exact .refl s
  · exact .refl s

theorem execPauseRepeatTimer_moved : s.MovedBy (execPauseRepeatTimer p sub s) := by
  refine s.movedBy_next ?_
  split
  · have hrestarted : s.Moves (s.withPort p { s.port p with pauseTimer := some (s.oscAt sub) }) := s.withPort_moves id
    dsimp only
    split
    · exact hrestarted.trans (State.offerPause_moves _ _ _)
    · exact hrestarted
  · exact .refl s

theorem execReceivedPauseExpiry_moved : s.MovedBy (execReceivedPauseExpiry p sub s) := by
  refine s.movedBy_next ?_
  split
  · exact s.withPort_moves id
  · exact .refl s

theorem execItemStart_moved : s.MovedBy (execItemStart p s) := by
  refine s.movedBy_next ?_
  split
  · exact s.withPort_moves PortState.start_fits
  · exact .refl s

theorem execTransmissionEnd_moved : s.MovedBy (execTransmissionEnd p sub s) := by
  refine s.movedBy_next ?_
  split
  · exact s.endTransmission_moves p _
  · exact .refl s

theorem execLinkUp_moved : s.MovedBy (execLinkUp p sub s) := by
  refine s.movedBy_next ?_
  split
  · exact s.noteLink_moves p true _
  · exact .refl s

theorem execLinkDown_moved : s.MovedBy (execLinkDown p sub order s) := by
  refine s.movedBy_next ?_
  split
  · exact s.linkLost_moves p _ order
  · exact .refl s

/-! ### The Auction Timer, markers and strobes (Chapters 7 and 8) -/

variable (g : Group)

theorem execCallStartReached_moved : s.MovedBy (execCallStartReached g s) := by
  refine s.movedBy_next ?_
  split
  next h =>
    obtain ⟨_, harmed, _⟩ := h
    exact s.withGroup_moves fun hrange => GroupRecord.call_inRange hrange harmed
  next => exact .refl s

theorem execWindowStartReached_moved : s.MovedBy (execWindowStartReached g sub s) := by
  refine s.movedBy_next ?_
  split
  · exact s.openWindow_moves g _ _
  · exact .refl s

theorem execCloseInstantReached_moved : s.MovedBy (execCloseInstantReached g sub s) := by
  refine s.movedBy_next ?_
  split
  · exact s.decideClose_moves g _
  · exact .refl s

theorem execStrobePulseEnd_moved (line : Line) : s.MovedBy (execStrobePulseEnd line s) := by
  refine s.movedBy_next ?_
  split
  · exact s.withSignal_moves _
  · exact .refl s

theorem execMarkerPointReached_moved (l : LaneId) : s.MovedBy (execMarkerPointReached l order s) := by
  refine s.movedBy_next ?_
  split
  · exact s.reachMarkerPoint_moves l order
  · exact .refl s

/-! ### Management (Chapter 10) -/

theorem execManagementFrameRejected_moved : s.MovedBy (execManagementFrameRejected sub s) := by
  refine s.movedBy_next ?_
  split
  · split
    · exact s.reject_moves _
    · exact .refl s
  · exact .refl s

/-- The commands of which `State.Moves` does not hold: those that end or replace the seed of the slot, and Restart. -/
def Command.Special (c : Command) : Prop := c = .dayRoll ∨ c = .loadSeed ∨ c = .commitSeed ∨ c = .restart

theorem Command.rule_moves {c : Command} (h : ¬ c.Special) (q : Take) : s.Moves (c.rule order q s).state := by
  cases c with
  | getStatus => exact .refl s
  | readJournal => exact applyReadJournal_moves s q
  | readSeed => exact .refl s
  | readGroup => exact applyReadGroup_moves s q
  | readMatchEntry => exact applyReadMatchEntry_moves s q
  | readCounters => exact applyReadCounters_moves s q
  | extendCall => exact applyExtendCall_moves s q
  | releaseJournal => exact applyReleaseJournal_moves s q
  | setLaneMode => exact applySetLaneMode_moves s q
  | setLaneProfile => exact applySetLaneProfile_moves s q
  | writeMatchEntry => exact applyWriteMatchEntry_moves s q
  | swapBank => exact applySwapBank_moves s q
  | loadSchedule => exact applyLoadSchedule_moves s q order
  | clearSchedule => exact applyClearSchedule_moves s q
  | setDay => exact applySetDay_moves s q
  | dayRoll => exact absurd (.inl rfl) h
  | loadSeed => exact absurd (.inr (.inl rfl)) h
  | commitSeed => exact absurd (.inr (.inr (.inl rfl))) h
  | setReferenceChannel => exact applySetReferenceChannel_moves s q
  | setPreferredReference => exact applySetPreferredReference_moves s q
  | setDiscipline => exact applySetDiscipline_moves s q
  | endAcquisition => exact applyEndAcquisition_moves s q
  | stepTime => exact applyStepTime_moves s q
  | setUtcOffset => exact applySetUtcOffset_moves s q
  | setOutputs => exact applySetOutputs_moves s q
  | setPermissions => exact applySetPermissions_moves s q
  | restart => exact absurd (.inr (.inr (.inr rfl))) h

theorem Command.rule_keeps (c : Command) (q : Take) : s.Keeps (c.rule order q s).state := by
  by_cases h : c.Special
  · obtain rfl | rfl | rfl | rfl := h
    · exact applyDayRoll_keeps s q
    · exact applyLoadSeed_keeps s q
    · exact applyCommitSeed_keeps s q
    · exact applyRestart_keeps s q
  · exact (Command.rule_moves s order h q).toKeeps

theorem exec_row_moved {c : Command} (h : ¬ c.Special) : s.MovedBy (exec (c.row sub order) s) :=
  ⟨_, exec_row c sub order s, s.takeCommand_moves c sub fun q u => Command.rule_moves u order h q⟩

theorem exec_row_kept (c : Command) : s.KeptBy (exec (c.row sub order) s) :=
  ⟨_, exec_row c sub order s, s.takeCommand_keeps c sub fun q u => Command.rule_keeps u order c q⟩

/-! ### The warm reset (Chapter 11) -/

theorem State.keptBy_next {t : State} (h : s.Keeps t) : s.KeptBy (.next t) := ⟨t, rfl, h⟩

theorem execWarmResetAssert_kept (lowTicks : Nat) : s.KeptBy (execWarmResetAssert lowTicks sub order s) := by
  refine s.keptBy_next ?_
  split
  · split
    · exact s.assertWarm_keeps _ order _
    · exact s.withPhase_keeps _
    · exact (State.Moves.refl s).toKeeps
    · exact (State.Moves.refl s).toKeeps
  · exact (State.Moves.refl s).toKeeps

theorem execWarmResetRelease_kept (straps : Straps) : s.KeptBy (execWarmResetRelease straps sub order s) := by
  refine s.keptBy_next ?_
  split
  · split
    · exact (State.Moves.refl s).toKeeps
    · split
      · exact s.releaseWarm_keeps _ order straps _ _
      · exact s.withPhase_keeps _
  · exact (State.Moves.refl s).toKeeps

theorem execRestartResetAssert_kept : s.KeptBy (execRestartResetAssert sub order s) := by
  refine s.keptBy_next ?_
  split
  · split
    · exact s.assertWarm_keeps _ order _
    · exact (State.Moves.refl s).toKeeps
  · exact (State.Moves.refl s).toKeeps

theorem execRestartHoldEnd_kept (straps : Straps) : s.KeptBy (execRestartHoldEnd straps sub order s) := by
  refine s.keptBy_next ?_
  split
  · split
    · exact (State.Moves.refl s).toKeeps
    · split
      · exact s.withPhase_keeps _
      · exact s.releaseWarm_keeps _ order straps _ _
  · exact (State.Moves.refl s).toKeeps

/-! ### All rows -/

/-- The rows of which `State.Moves` does not hold: those of the warm reset, and those of the commands above. -/
inductive SpecialRow : Instr → Prop
  | warmResetAssert (lowTicks : Nat) (sub : Sub) (order : Order) : SpecialRow (.warmResetAssert lowTicks sub order)
  | warmResetRelease (straps : Straps) (sub : Sub) (order : Order) : SpecialRow (.warmResetRelease straps sub order)
  | restartResetAssert (sub : Sub) (order : Order) : SpecialRow (.restartResetAssert sub order)
  | restartHoldEnd (straps : Straps) (sub : Sub) (order : Order) : SpecialRow (.restartHoldEnd straps sub order)
  | command (c : Command) (sub : Sub) (order : Order) (h : c.Special) : SpecialRow (c.row sub order)

end

/-- Every row but the power rows and the special ones keeps the phase, the seed and the pending Restart, and all that every row keeps. -/
theorem exec_moved (c : Instr) (s : State) : PowerRow c ∨ SpecialRow c ∨ s.MovedBy (exec c s) := by
  have moved {c : Instr} (h : s.MovedBy (exec c s)) : PowerRow c ∨ SpecialRow c ∨ s.MovedBy (exec c s) := .inr (.inr h)
  have special {c : Instr} (h : SpecialRow c) : PowerRow c ∨ SpecialRow c ∨ s.MovedBy (exec c s) := .inr (.inl h)
  have row (c : Command) (sub : Sub) (order : Order) (h : c ≠ .dayRoll ∧ c ≠ .loadSeed ∧ c ≠ .commitSeed ∧ c ≠ .restart) :
      PowerRow (c.row sub order) ∨ SpecialRow (c.row sub order) ∨ s.MovedBy (exec (c.row sub order) s) :=
    moved (exec_row_moved s sub order (by rw [Command.Special]; tauto))
  cases c with
  | powerOnReset => exact .inl (.inl rfl)
  | powerOnResetRelease straps supplies high => exact .inl (.inr (.inl ⟨straps, supplies, high, rfl⟩))
  | powerLoss => exact .inl (.inr (.inr rfl))
  | warmResetAssert low sub order => exact special (.warmResetAssert low sub order)
  | warmResetRelease straps sub order => exact special (.warmResetRelease straps sub order)
  | restartResetAssert sub order => exact special (.restartResetAssert sub order)
  | restartHoldEnd straps sub order => exact special (.restartHoldEnd straps sub order)
  | dayRoll sub => exact special (.command .dayRoll sub [] (.inl rfl))
  | loadSeed sub => exact special (.command .loadSeed sub [] (.inr (.inl rfl)))
  | commitSeed sub => exact special (.command .commitSeed sub [] (.inr (.inr (.inl rfl))))
  | restart sub => exact special (.command .restart sub [] (.inr (.inr (.inr rfl))))
  | stepApplied => exact moved (execStepApplied_moved s)
  | secondEvent order => exact moved (execSecondEvent_moved s order)
  | offsetChange => exact moved (execOffsetChange_moved s)
  | pulsePointReached => exact moved (execPulsePointReached_moved s)
  | ppsPulseEnd => exact moved (execPpsPulseEnd_moved s)
  | pulseEdge ch sub order => exact moved (execPulseEdge_moved s ch sub order)
  | pulseGlitch ch sub => exact moved (execPulseGlitch_moved s ch sub)
  | edgeQualified ch sub order => exact moved (execEdgeQualified_moved s ch sub order)
  | predictionExpiry ch sub => exact moved (execPredictionExpiry_moved s ch sub)
  | characterComplete ch data parityBit stopBit sub => exact moved (execCharacterComplete_moved s ch sub data parityBit stopBit)
  | messageValidation ch sub => exact moved (execMessageValidation_moved s ch sub)
  | gapTimerExpiry ch sub => exact moved (execGapTimerExpiry_moved s ch sub)
  | messageStale ch sub => exact moved (execMessageStale_moved s ch sub)
  | frameStartDetected p sub order => exact moved (execFrameStartDetected_moved s sub order p)
  | etherTypeReceived p header => exact moved (execEtherTypeReceived_moved s p header)
  | oversizeDetected p more => exact moved (execOversizeDetected_moved s p more)
  | classificationPoint p more => exact moved (execClassificationPoint_moved s p more)
  | frameEnd p rest receiveError sub order => exact moved (execFrameEnd_moved s sub order p rest receiveError)
  | pauseRepeatTimer p sub => exact moved (execPauseRepeatTimer_moved s sub p)
  | receivedPauseExpiry p sub => exact moved (execReceivedPauseExpiry_moved s sub p)
  | itemStart p => exact moved (execItemStart_moved s p)
  | transmissionEnd p sub => exact moved (execTransmissionEnd_moved s sub p)
  | linkUp p sub => exact moved (execLinkUp_moved s sub p)
  | linkDown p sub order => exact moved (execLinkDown_moved s sub order p)
  | callStartReached g => exact moved (execCallStartReached_moved s g)
  | windowStartReached g sub => exact moved (execWindowStartReached_moved s sub g)
  | closeInstantReached g sub => exact moved (execCloseInstantReached_moved s sub g)
  | strobePulseEnd line => exact moved (execStrobePulseEnd_moved s line)
  | markerPointReached l order => exact moved (execMarkerPointReached_moved s order l)
  | managementFrameRejected sub => exact moved (execManagementFrameRejected_moved s sub)
  | getStatus sub => exact row .getStatus sub [] (by decide)
  | readJournal sub => exact row .readJournal sub [] (by decide)
  | readSeed sub => exact row .readSeed sub [] (by decide)
  | readGroup sub => exact row .readGroup sub [] (by decide)
  | readMatchEntry sub => exact row .readMatchEntry sub [] (by decide)
  | readCounters sub => exact row .readCounters sub [] (by decide)
  | extendCall sub => exact row .extendCall sub [] (by decide)
  | releaseJournal sub => exact row .releaseJournal sub [] (by decide)
  | setLaneMode sub => exact row .setLaneMode sub [] (by decide)
  | setLaneProfile sub => exact row .setLaneProfile sub [] (by decide)
  | writeMatchEntry sub => exact row .writeMatchEntry sub [] (by decide)
  | swapBank sub => exact row .swapBank sub [] (by decide)
  | loadSchedule sub order => exact row .loadSchedule sub order (by decide)
  | clearSchedule sub => exact row .clearSchedule sub [] (by decide)
  | setDay sub => exact row .setDay sub [] (by decide)
  | setReferenceChannel sub => exact row .setReferenceChannel sub [] (by decide)
  | setPreferredReference sub => exact row .setPreferredReference sub [] (by decide)
  | setDiscipline sub => exact row .setDiscipline sub [] (by decide)
  | endAcquisition sub => exact row .endAcquisition sub [] (by decide)
  | stepTime sub => exact row .stepTime sub [] (by decide)
  | setUtcOffset sub => exact row .setUtcOffset sub [] (by decide)
  | setOutputs sub => exact row .setOutputs sub [] (by decide)
  | setPermissions sub => exact row .setPermissions sub [] (by decide)
  | tick => exact moved (s.movedBy_next s.tick_moves)

theorem SpecialRow.kept {c : Instr} (h : SpecialRow c) (s : State) : s.KeptBy (exec c s) := by
  cases h with
  | warmResetAssert low sub order => exact execWarmResetAssert_kept s sub order low
  | warmResetRelease straps sub order => exact execWarmResetRelease_kept s sub order straps
  | restartResetAssert sub order => exact execRestartResetAssert_kept s sub order
  | restartHoldEnd straps sub order => exact execRestartHoldEnd_kept s sub order straps
  | command c sub order _ => exact exec_row_kept s sub order c

/-- Every row but the power rows answers a next state that keeps what every row keeps. -/
theorem exec_kept (c : Instr) (s : State) : PowerRow c ∨ s.KeptBy (exec c s) := by
  obtain hpower | hspecial | hmoved := exec_moved c s
  · exact .inl hpower
  · exact .inr (hspecial.kept s)
  · exact .inr hmoved.keptBy

end Sys2Proof.Machine
end

