-- ==== Sys2Proof/Proofs/Invariants.lean ====
section
/-! PROOF. The invariants of the part, from the rows' own: every step keeps what `State.Keeps` says, and the power rows leave a state that meets every
invariant. -/

namespace Sys2Proof.Machine

/-! ### The state after the power rows (R188, R189) -/

section

variable (straps : Straps) (osc absences : Nat) (pending : List Instr)

theorem State.released_port (p : Port) : (State.released straps osc absences pending).port p = PortState.initial := by
  simp [State.released, State.port]

theorem State.released_lane (l : LaneId) : (State.released straps osc absences pending).lane l = Lane.initial := by
  simp [State.released, State.lane]

theorem State.released_chan (ch : Channel) : (State.released straps osc absences pending).chan ch = RefChannel.initial (8 * osc) := by
  cases ch <;> rfl

theorem State.released_group (g : Group) : (State.released straps osc absences pending).group g = GroupRecord.initial :=
  AuctionTimer.initial_group g

theorem State.released_agentPort (p : Port) :
    (State.released straps osc absences pending).agentPort p = AgentPort.initial (if p = straps.cfgPort then .configure else .none) :=
  Agent.initial_port straps.cfgPort p

theorem State.released_journal_sound : (State.released straps osc absences pending).journal.Sound :=
  Journal.append_sound _ Journal.initial_sound (by decide)

theorem State.released_time_inRange : (State.released straps osc absences pending).time.InRange :=
  TimeBase.initial_inRange absences

theorem State.released_withinCapacity : (State.released straps osc absences pending).WithinCapacity := by
  rw [State.withinCapacity_iff]
  refine ⟨fun p => ?port, fun l => ?lane, fun ch => ?chan⟩
  case port => rw [State.released_port]; exact PortState.initial_fits
  case lane => rw [State.released_lane]; exact Nat.zero_le _
  case chan => rw [State.released_chan]; exact RefChannel.initial_fits _

theorem State.released_group_inRange (g : Group) : ((State.released straps osc absences pending).group g).InRange := by
  rw [State.released_group]; exact GroupRecord.initial_inRange

theorem State.released_configurable : (State.released straps osc absences pending).Configurable :=
  ⟨straps.cfgPort, by rw [State.released_agentPort, if_pos rfl, AgentPort.initial]⟩

end

/-! ### Invariants over a step -/

/-- A property of the blocks of the state that every row but the power rows keeps and the power rows leave. -/
structure Invariant (P : State → Prop) : Prop where
  queue : ∀ s pending, P s → P { s with pending := pending }
  keeps : ∀ {s t : State}, s.Keeps t → P s → P t
  blank : ∀ (s : State) phase, P (s.blank phase)
  released : ∀ straps osc absences pending, P (State.released straps osc absences pending)

section

variable {P : State → Prop}

theorem Invariant.powerRow (hP : Invariant P) {c : Instr} {s t : State} (hc : PowerRow c) (hexec : exec c s = .next t) (h : P s) : P t := by
  obtain rfl | ⟨straps, supplies, high, rfl⟩ | rfl := hc
  · cases hexec; exact hP.blank s _
  · by_cases hready : s.readyForRelease supplies high
    · have : t = State.released straps s.osc s.time.absences s.pending := by
        simpa [exec, execPowerOnResetRelease, hready] using hexec.symm
      exact this ▸ hP.released _ _ _ _
    · have : t = s := by simpa [exec, execPowerOnResetRelease, hready] using hexec.symm
      exact this ▸ h
  · cases hexec; exact hP.blank s _

theorem Invariant.exec (hP : Invariant P) {c : Instr} {s t : State} (hexec : exec c s = .next t) (h : P s) : P t := by
  obtain hpower | ⟨u, hu, hkeeps⟩ := exec_kept c s
  · exact hP.powerRow hpower hexec h
  · cases hu.symm.trans hexec
    exact hP.keeps hkeeps h

theorem Invariant.step (hP : Invariant P) {s t : State} (hstep : step s = .next t) (h : P s) : P t := by
  unfold Machine.step at hstep
  split at hstep
  · cases hstep; exact h
  · exact hP.exec hstep (hP.queue s _ h)

end

/-- Settles O53: every row hands its records to the journal, which takes, loses, omits or releases them soundly. -/
theorem journalStaysSound : Obligations.JournalStaysSound := by
  have hP : Invariant fun s => s.journal.Sound :=
    { queue := fun _ _ h => h
      keeps := fun h => h.journal
      blank := fun _ _ => Journal.initial_sound
      released := State.released_journal_sound }
  exact fun s t h hstep => hP.step hstep h

/-- Settles O54: a tick, a step, an applied rate and a change of offset each stay in range, and no row changes the Time Base otherwise. -/
theorem timeBaseStaysInRange : Obligations.TimeBaseStaysInRange := by
  have hP : Invariant fun s => s.time.InRange :=
    { queue := fun _ _ h => h
      keeps := fun h => h.time
      blank := fun s _ => State.released_time_inRange s.signal.straps 0 _ s.pending
      released := State.released_time_inRange }
  exact fun s t h hstep => hP.step hstep h

/-- Settles O55: each operation on a store tests its room first or replaces what is there. -/
theorem storesStayWithinCapacity : Obligations.StoresStayWithinCapacity := by
  have hP : Invariant State.WithinCapacity :=
    { queue := fun _ _ h => h
      keeps := fun hkeeps ⟨hport, hlane, hchan⟩ =>
        ⟨fun p => hkeeps.port p (hport p), fun l => hkeeps.lane l (hlane l), fun ch => hkeeps.chan ch (hchan ch)⟩
      blank := fun s _ => State.released_withinCapacity s.signal.straps 0 (s.time.absences + 1) s.pending
      released := State.released_withinCapacity }
  exact fun s t h hstep => hP.step hstep h

/-- Settles O56: each transition of a group keeps its numbers in range and its close and draw with its state. -/
theorem groupsStayInRange : Obligations.GroupsStayInRange := by
  have hP : Invariant fun s => ∀ g, (s.group g).InRange :=
    { queue := fun _ _ h => h
      keeps := fun hkeeps h g => hkeeps.group g (h g)
      blank := fun s _ => State.released_group_inRange s.signal.straps 0 (s.time.absences + 1) s.pending
      released := State.released_group_inRange }
  exact fun s t h hstep => hP.step hstep h

/-- Settles O57: only SetPermissions replaces levels, and it is refused where no port would hold Configure; a reset gives it to the port that CFG_PORT names. -/
theorem somePortStaysConfigurable : Obligations.SomePortStaysConfigurable := by
  have hP : Invariant State.Configurable :=
    { queue := fun _ _ h => h
      keeps := fun h => h.configurable
      blank := fun s _ => State.released_configurable s.signal.straps 0 (s.time.absences + 1) s.pending
      released := State.released_configurable }
  exact fun s t h hstep => hP.step hstep h

/-- Settles O58: the reset state is a released one. -/
theorem resetMeetsTheInvariants : Obligations.ResetMeetsTheInvariants :=
  ⟨State.released_journal_sound _ _ _ _, State.released_time_inRange _ _ _ _, State.released_withinCapacity _ _ _ _,
    State.released_group_inRange _ _ _ _, State.released_configurable _ _ _ _⟩

/-! ### The queue, the last stamp, the seed -/

/-- Settles O1: both clauses are `step`'s two cases. -/
theorem stepTakesTheFrontCommand : Obligations.StepTakesTheFrontCommand :=
  ⟨fun c rest s h => by rw [step, h], fun s h => by rw [step, h]⟩

/-- Settles O2: no row but the power rows changes the queue, and those hand it on. -/
theorem everyCommandAnswersAndKeepsTheQueue : Obligations.EveryCommandAnswersAndKeepsTheQueue := by
  intro c s
  obtain hpower | ⟨t, ht, hkeeps⟩ := exec_kept c s
  · obtain rfl | ⟨straps, supplies, high, rfl⟩ | rfl := hpower
    · exact ⟨_, rfl, rfl⟩
    · refine ⟨_, rfl, ?_⟩
      split
      · rfl
      · rfl
    · exact ⟨_, rfl, rfl⟩
  · exact ⟨t, ht, hkeeps.pending⟩

/-- Settles O59: a dated frame's stamp lies over the lane's last one, and no other row but the power rows moves it. -/
theorem lastStampNeverMovesBack : Obligations.LastStampNeverMovesBack := by
  intro c s t hc hexec l
  obtain hpower | ⟨u, hu, hkeeps⟩ := exec_kept c s
  · exact absurd hpower hc
  · cases hu.symm.trans hexec
    exact hkeeps.stamp l

section

variable {s t : State} {seed : BitVec 32}

/-- What may become of a committed seed in a row that does not end it: it stays, or it is revealed (R138). -/
def SeedLives (seed : BitVec 32) (t : State) : Prop :=
  t.auction.seed = .committed seed ∨ t.auction.seed = .revealed seed

theorem State.Moves.seedLives (h : s.Moves t) (hseed : s.auction.seed = .committed seed) : SeedLives seed t := by
  obtain heq | ⟨seed', hs, ht⟩ := h.seed
  · exact .inl (heq.trans hseed)
  · cases hseed.symm.trans hs; exact .inr ht

/-- A power row leaves the slot absent, or, where a release is not due, as it was (R140). -/
theorem PowerRow.seedAfter {c : Instr} (hc : PowerRow c) (hexec : exec c s = .next t) :
    t.auction.seed = .absent ∨ t.auction.seed = s.auction.seed := by
  obtain rfl | ⟨straps, supplies, high, rfl⟩ | rfl := hc
  · cases hexec; exact .inl rfl
  · cases hexec
    split
    · exact .inl rfl
    · exact .inr rfl
  · cases hexec; exact .inl rfl

theorem execWarmResetAssert_seed (low : Nat) (sub : Sub) (order : Order) (h : execWarmResetAssert low sub order s = .next t) :
    t.auction.seed = .absent ∨ t.auction.seed = s.auction.seed := by
  cases h
  split
  · split
    · exact .inl rfl
    · exact .inr rfl
    · exact .inr rfl
    · exact .inr rfl
  · exact .inr rfl

theorem execRestartResetAssert_seed (sub : Sub) (order : Order) (h : execRestartResetAssert sub order s = .next t) :
    t.auction.seed = .absent ∨ t.auction.seed = s.auction.seed := by
  cases h
  split
  · split
    · exact .inl rfl
    · exact .inr rfl
  · exact .inr rfl

theorem execWarmResetRelease_seed (straps : Straps) (sub : Sub) (order : Order) (h : execWarmResetRelease straps sub order s = .next t) :
    t.auction.seed = s.auction.seed := by
  cases h
  split
  · split
    · rfl
    · split
      · rfl
      · rfl
  · rfl

theorem execRestartHoldEnd_seed (straps : Straps) (sub : Sub) (order : Order) (h : execRestartHoldEnd straps sub order s = .next t) :
    t.auction.seed = s.auction.seed := by
  cases h
  split
  · split
    · rfl
    · split
      · rfl
      · rfl
  · rfl

/-- The take and the response of a command leave the Auction Timer to the command's own rule. -/
theorem State.serve_auction (s : State) (q : Take) (apply : Take → State → Reply) (ofRestart : Bool) :
    (s.serve q apply ofRestart).auction = (apply q (s.emptySlot q.port)).state.auction := by
  obtain ⟨ports, agent, h⟩ := (apply q (s.emptySlot q.port)).state.respond_only q (apply q (s.emptySlot q.port)).status
    (apply q (s.emptySlot q.port)).body ofRestart
  exact (congrArg State.auction h : _)

/-- Of the special commands, DayRoll alone ends a committed seed (R133, R135, R136). -/
theorem Command.Special.seedAfter {c : Command} (hc : c.Special) (order : Order) (q : Take) (hseed : s.auction.seed = .committed seed) :
    (c.rule order q s).state.auction.seed = .committed seed ∨ (c = .dayRoll ∧ (c.rule order q s).state.auction.seed = .absent) := by
  obtain rfl | rfl | rfl | rfl := hc
  · by_cases hbusy : s.SomeInCall
    · exact .inl (by rw [Command.rule, applyDayRoll_refused hbusy]; exact hseed)
    · refine .inr ⟨rfl, ?_⟩
      rw [Command.rule, applyDayRoll_rolled hbusy]
      exact congrArg AuctionTimer.seed (s.rollDay_auction q.now)
  · exact .inl (by rw [Command.rule, applyLoadSeed_committed hseed]; exact hseed)
  · exact .inl (by rw [Command.rule, applyCommitSeed_committed hseed]; exact hseed)
  · exact .inl hseed

end

/-- Settles O60: of the rows that are no plain moves, an assertion and a DayRoll empty the slot, and the others leave a committed seed. -/
theorem committedSeedStaysUntilRevealed : Obligations.CommittedSeedStaysUntilRevealed := by
  intro c s t seed hseed hexec
  have ended {ends : Prop} (h : t.auction.seed = .absent ∨ t.auction.seed = s.auction.seed) (hends : ends) :
      t.auction.seed = .committed seed ∨ t.auction.seed = .revealed seed ∨ (t.auction.seed = .absent ∧ ends) := by
    obtain habsent | hkept := h
    · exact .inr (.inr ⟨habsent, hends⟩)
    · exact .inl (hkept.trans hseed)
  obtain hpower | hspecial | ⟨u, hu, hmoves⟩ := exec_moved c s
  · exact ended (PowerRow.seedAfter hpower hexec) (.inl hpower)
  · cases hspecial with
    | warmResetAssert low sub order => exact ended (execWarmResetAssert_seed low sub order hexec) (.inr (.inr (.inl ⟨low, sub, order, rfl⟩)))
    | warmResetRelease straps sub order => exact .inl ((execWarmResetRelease_seed straps sub order hexec).trans hseed)
    | restartResetAssert sub order => exact ended (execRestartResetAssert_seed sub order hexec) (.inr (.inr (.inr ⟨sub, order, rfl⟩)))
    | restartHoldEnd straps sub order => exact .inl ((execRestartHoldEnd_seed straps sub order hexec).trans hseed)
    | command c sub order hc =>
      rw [exec_row] at hexec
      cases hexec
      obtain ⟨q, _, hserve⟩ | hidle := s.takeCommand_cases c sub (c.rule order)
      · rw [hserve, State.serve_auction]
        obtain hkept | ⟨rfl, habsent⟩ := Command.Special.seedAfter (s := s.emptySlot q.port) hc order q hseed
        · exact .inl hkept
        · exact .inr (.inr ⟨habsent, .inr (.inl ⟨sub, rfl⟩)⟩)
      · rw [hidle]; exact .inl hseed
  · cases hu.symm.trans hexec
    obtain hkept | hrevealed := hmoves.seedLives hseed
    · exact .inl hkept
    · exact .inr (.inl hrevealed)

end Sys2Proof.Machine
end

