-- ==== Sys2Proof/Proofs/Resets.lean ====
section
/-! PROOF. Power and resets: what the power rows, the assertion and the release of a warm reset leave, and what a pending Restart stops. -/

namespace Sys2Proof.Machine

/-! ### Power (R188, R189, R140) -/

theorem Strobe.initial_line (straps : Straps) (line : Line) : (SignalBlock.initial straps).strobes[line] = Strobe.initial := by
  simp [SignalBlock.initial]

theorem MatchTable.initial_slot (bank : Fin 2) (i : Fin 64) : MatchTable.initial.slot bank i = { entry := MatchEntry.initial, hits := 0 } := by
  simp [MatchTable.initial, MatchTable.slot]

section

variable (s : State) (phase : Phase)

theorem State.blank_port (p : Port) : (s.blank phase).port p = PortState.initial :=
  State.released_port s.signal.straps 0 (s.time.absences + 1) s.pending p

theorem State.blank_lane (l : LaneId) : (s.blank phase).lane l = Lane.initial :=
  State.released_lane s.signal.straps 0 (s.time.absences + 1) s.pending l

theorem State.blank_chan (ch : Channel) : (s.blank phase).chan ch = RefChannel.initial 0 := by
  cases ch <;> rfl

theorem State.blank_group (g : Group) : (s.blank phase).group g = GroupRecord.initial :=
  AuctionTimer.initial_group g

theorem State.blank_strobe (line : Line) : (s.blank phase).signal.strobes[line] = Strobe.initial :=
  Strobe.initial_line s.signal.straps line

/-- Before any release the DTU is in FREE, so UNTRACEABLE, which the default mask marks, is live (R190, R191). -/
theorem State.blank_alarm : (s.blank .powerOn).alarmAsserted = true := by
  have hconditions : (s.blank .powerOn).liveConditions = 0b0000001#7 := by
    have hepisode : ((List.finRange 8).any fun p => ((s.blank .powerOn).ports[p]).episode.isSome) = false := by
      rw [List.any_eq_false]
      intro p _
      show ¬ ((s.blank .powerOn).port p).episode.isSome = true
      rw [State.blank_port]
      decide
    have hfree : ((s.blank .powerOn).dtu.state == .free) = true := rfl
    have hholdover : ((s.blank .powerOn).dtu.state == .holdover) = false := rfl
    have hwarning : (s.blank .powerOn).dtu.warning = false := rfl
    have hdisagreement : (s.blank .powerOn).dtu.disagreement = false := rfl
    have hroom : decide ((s.blank .powerOn).journal.free < 64) = false := rfl
    have hlost : ((s.blank .powerOn).journal.lost != 0) = false := rfl
    simp only [State.liveConditions, hepisode, hfree, hholdover, hwarning, hdisagreement, hroom, hlost, Bool.true_or]
    decide
  have hmask : (s.blank .powerOn).signal.alarmMask = defaultAlarmMask := rfl
  have hphase : ((s.blank .powerOn).phase != .off) = true := rfl
  rw [State.alarmAsserted, hconditions, hmask, hphase]
  decide

end

/-- Settles O3: both rows leave `State.blank`, whose blocks are the released ones but for an empty journal. -/
theorem powerRowsEmptyThePart : Obligations.PowerRowsEmptyThePart := by
  intro s
  refine ⟨⟨s.blank .powerOn, rfl, rfl, rfl, rfl, fun line => ?pins, fun p => ?ports, rfl, s.blank_alarm, rfl⟩,
    ⟨s.blank .off, rfl, rfl, rfl, rfl, s.blank_group .off, rfl⟩, fun c t hc hexec => ?blocks⟩
  case pins => rw [State.strobePin, State.blank_strobe]; rfl
  case ports => rw [State.blank_port]; exact ⟨rfl, rfl⟩
  case blocks =>
    obtain ⟨phase, rfl⟩ : ∃ phase, s.blank phase = t := by
      obtain rfl | rfl := hc
      · cases hexec; exact ⟨_, rfl⟩
      · cases hexec; exact ⟨_, rfl⟩
    exact ⟨rfl, rfl, rfl, rfl, rfl, rfl, rfl, rfl, s.blank_chan phase, rfl, s.blank_lane phase, s.blank_port phase, rfl, s.blank_group phase,
      rfl, rfl, rfl, rfl, rfl, rfl, s.blank_strobe phase⟩

/-! ### The release of a power-on reset (R188, R169) -/

section

variable {s : State} {supplies high : Bool}

theorem State.readyForRelease_iff :
    s.readyForRelease supplies high = true ↔ s.phase = .powerOn ∧ supplies = true ∧ high = true ∧ 1024 ≤ s.osc := by
  simp [State.readyForRelease, and_assoc]

theorem exec_release_ready (straps : Straps) (h : s.readyForRelease supplies high = true) :
    exec (.powerOnResetRelease straps supplies high) s = .next (State.released straps s.osc s.time.absences s.pending) := by
  rw [exec, execPowerOnResetRelease, if_pos h]

theorem exec_release_early (straps : Straps) (h : s.readyForRelease supplies high ≠ true) :
    exec (.powerOnResetRelease straps supplies high) s = .next s := by
  rw [exec, execPowerOnResetRelease, if_neg h]

end

/-- Settles O4: the release is due under the three conditions of R188, and leaves `State.released`. -/
theorem powerOnResetIsReleased : Obligations.PowerOnResetIsReleased := by
  intro straps supplies high s hphase
  refine ⟨fun hmissing => exec_release_early straps fun hready => ?early, fun hticks => ?release⟩
  case early =>
    obtain ⟨_, hsupplies, hhigh, hticks⟩ := State.readyForRelease_iff.mp hready
    obtain h | h | h := hmissing
    · exact Bool.noConfusion (h.symm.trans hsupplies)
    · exact Bool.noConfusion (h.symm.trans hhigh)
    · exact absurd hticks (Nat.not_le.mpr h)
  case release =>
    refine ⟨_, exec_release_ready straps (State.readyForRelease_iff.mpr ⟨hphase, rfl, rfl, hticks⟩), rfl, rfl, rfl, rfl, rfl, rfl, rfl, rfl,
      rfl, rfl, rfl, fun ch => ?chan, rfl, rfl, rfl, rfl, rfl, rfl, rfl, ⟨_, rfl, rfl, rfl, rfl⟩, fun l => ?lane, fun p => ?port, rfl,
      fun bank i => ?slot, fun g => ?group, rfl, rfl, fun p => ?agent, rfl, rfl, rfl, fun line => Strobe.initial_line straps line⟩
    case chan => rw [State.released_chan]; exact ⟨rfl, rfl, rfl, rfl, rfl, rfl, rfl, rfl, rfl, rfl⟩
    case lane => rw [State.released_lane]; exact ⟨rfl, rfl, rfl, rfl, rfl, rfl⟩
    case port => rw [State.released_port]; exact ⟨rfl, rfl, rfl, rfl, rfl, rfl, rfl, rfl⟩
    case slot =>
      show (MatchTable.initial.slot bank i).entry.valid = false ∧ (MatchTable.initial.slot bank i).hits = 0
      rw [MatchTable.initial_slot]; exact ⟨rfl, rfl⟩
    case group => rw [State.released_group]; exact ⟨rfl, rfl⟩
    case agent => rw [State.released_agentPort]; exact ⟨rfl, rfl⟩

/-! ### The assertion of a warm reset (R81, R141, R189) -/

section

variable {s : State}

theorem exec_warmResetAssert_running {low : Nat} (sub : Sub) (order : Order) (hphase : s.phase = .running) (hlow : resetTicks ≤ low) :
    exec (.warmResetAssert low sub order) s =
      .next (s.assertWarm { byCommand := false, pinLow := true, commandEnd := none } (s.readingAt sub) order) := by
  rw [exec, execWarmResetAssert, if_pos hlow, hphase]

theorem exec_warmResetAssert_short {low : Nat} (sub : Sub) (order : Order) (hlow : low < resetTicks) :
    exec (.warmResetAssert low sub order) s = .next s := by
  rw [exec, execWarmResetAssert, if_neg (Nat.not_le.mpr hlow)]

theorem exec_warmResetAssert_held {low : Nat} {hold : Hold} (sub : Sub) (order : Order) (hphase : s.phase = .warm hold) (hlow : resetTicks ≤ low) :
    exec (.warmResetAssert low sub order) s = .next (s.withPhase (.warm { hold with pinLow := true })) := by
  rw [exec, execWarmResetAssert, if_pos hlow, hphase]

theorem State.running_iff : s.running = true ↔ s.phase = .running := by
  simp [State.running]

theorem RestartOrder.due_iff (r : RestartOrder) (osc : Nat) : r.due osc = true ↔ r.answered = true ∨ r.takenAt + 1000000 ≤ osc := by
  rw [RestartOrder.due, Bool.or_eq_true, decide_eq_true_iff, restartInterval]

theorem exec_restartResetAssert_due {r : RestartOrder} (sub : Sub) (order : Order) (hphase : s.phase = .running)
    (hrestart : s.agent.restart = some r) (hdue : r.due (s.oscAt sub) = true) :
    exec (.restartResetAssert sub order) s =
      .next (s.assertWarm { byCommand := true, pinLow := false, commandEnd := some (s.oscAt sub + 1000000) } (s.readingAt sub) order) := by
  have hrunning := State.running_iff.mpr hphase
  simp only [exec, execRestartResetAssert, hrunning, hrestart, hdue, if_true, restartInterval]

theorem State.assertWarm_strobe (hold : Hold) (t : Instant) (order : Order) (line : Line) :
    (s.assertWarm hold t order).strobePin line = false := by
  simp [State.assertWarm, State.strobePin, SignalBlock.asserted]

end

/-- Settles O5: both rows are `assertWarm`, read block by block. -/
theorem warmResetIsAsserted : Obligations.WarmResetIsAsserted := by
  intro s sub order c byCommand hphase hrow
  have hexec : exec c s = .next (s.assertWarm
      { byCommand := byCommand, pinLow := !byCommand, commandEnd := if byCommand then some (s.oscAt sub + 1000000) else none }
      (s.readingAt sub) order) := by
    obtain ⟨low, hlow, rfl, rfl⟩ | ⟨r, hrestart, hdue, rfl, rfl⟩ := hrow
    · exact exec_warmResetAssert_running sub order hphase hlow
    · exact exec_restartResetAssert_due sub order hphase hrestart ((r.due_iff _).mpr hdue)
  refine ⟨_, hexec, rfl, rfl, rfl, fun g => ?group, fun p => ?agent, rfl, fun p => ?port, fun l => ?lane, rfl,
    fun line => State.assertWarm_strobe _ _ _ _, rfl, rfl, rfl, rfl, rfl, rfl, rfl, rfl, rfl, rfl, _, inOrder_perm order _, rfl⟩
  case group => rw [State.assertWarm_group]
  case agent => rw [State.assertWarm_agentPort]; exact ⟨rfl, rfl⟩
  case port => rw [State.assertWarm_port]; exact ⟨rfl, rfl, rfl, rfl, rfl, rfl, rfl, rfl⟩
  case lane => rw [State.assertWarm_lane]; exact ⟨rfl, rfl⟩

/-! ### The hold and the release of a warm reset (R61, R82, R113, R170, R185, R189) -/

section

variable {s : State} {hold : Hold} (straps : Straps) (sub : Sub) (order : Order)

theorem exec_warmResetRelease_ordered {ends : Nat} (hphase : s.phase = .warm hold) (hpin : hold.pinLow = true)
    (hend : hold.commandEnd = some ends) :
    exec (.warmResetRelease straps sub order) s = .next (s.withPhase (.warm { hold with pinLow := false })) := by
  simp [exec, execWarmResetRelease, hphase, hpin, hend]

theorem exec_warmResetRelease_free (hphase : s.phase = .warm hold) (hpin : hold.pinLow = true) (hend : hold.commandEnd = none) :
    exec (.warmResetRelease straps sub order) s =
      .next (s.releaseWarm straps hold.byCommand (s.readingAt sub) (s.oscAt sub) order) := by
  simp [exec, execWarmResetRelease, hphase, hpin, hend]

theorem exec_restartHoldEnd_pinned {ends : Nat} (hphase : s.phase = .warm hold) (hpin : hold.pinLow = true)
    (hend : hold.commandEnd = some ends) (hover : ends ≤ s.oscAt sub) :
    exec (.restartHoldEnd straps sub order) s = .next (s.withPhase (.warm { hold with commandEnd := none })) := by
  simp [exec, execRestartHoldEnd, hphase, hpin, hend, Hold.over, hover]

theorem exec_restartHoldEnd_free {ends : Nat} (hphase : s.phase = .warm hold) (hpin : hold.pinLow = false)
    (hend : hold.commandEnd = some ends) (hover : ends ≤ s.oscAt sub) :
    exec (.restartHoldEnd straps sub order) s =
      .next (s.releaseWarm straps hold.byCommand (s.readingAt sub) (s.oscAt sub) order) := by
  simp [exec, execRestartHoldEnd, hphase, hpin, hend, Hold.over, hover]

end

/-- Settles O6: the rows of a held reset change the hold alone. -/
theorem resetPinHoldsTheReset : Obligations.ResetPinHoldsTheReset :=
  fun _ sub order straps _ => ⟨exec_warmResetAssert_short sub order, fun _ => exec_warmResetAssert_held sub order,
    fun _ _ hphase hpin hend => ⟨exec_warmResetRelease_ordered straps sub order hphase hpin hend,
      exec_restartHoldEnd_pinned straps sub order hphase hpin hend⟩⟩

section

variable (s : State) (straps : Straps) (byCommand : Bool) (t : Instant) (osc : Nat) (order : Order)

theorem State.releaseWarm_port (p : Port) : (s.releaseWarm straps byCommand t osc order).port p = (s.port p).released :=
  s.warmState_port straps osc p

theorem State.releaseWarm_lane (l : LaneId) : (s.releaseWarm straps byCommand t osc order).lane l = (s.lane l).released :=
  s.warmState_lane straps osc l

theorem State.releaseWarm_agentPort (p : Port) :
    (s.releaseWarm straps byCommand t osc order).agentPort p = AgentPort.initial (if p = straps.cfgPort then .configure else .none) :=
  Agent.initial_port straps.cfgPort p

end

section

variable {d : Dtu} (preferred : Channel)

/-- D_entry and the growth count continue where the state has none, and in HOLDOVER that stays HOLDOVER (R61). -/
theorem Dtu.afterWarm_growth_kept (h : d.state = .free ∨ d.state = .acquiring ∨ (d.state = .holdover ∧ d.stateAfterWarm = .holdover)) :
    (d.afterWarm preferred).entryBound = d.entryBound ∧ (d.afterWarm preferred).growths = d.growths := by
  obtain h | h | ⟨h, hafter⟩ := h
  · simp [Dtu.afterWarm, Dtu.stateAfterWarm, h]
  · simp [Dtu.afterWarm, Dtu.stateAfterWarm, h]
  · simp [Dtu.afterWarm, Dtu.growthContinues, h, hafter]

/-- Growth starts anew from the D held where HOLDOVER or UNTRACEABLE is entered, or UNTRACEABLE stays (R61). -/
theorem Dtu.afterWarm_growth_restarts
    (h : d.state = .traceable ∨ d.state = .untraceable ∨ (d.state = .holdover ∧ d.stateAfterWarm = .untraceable)) :
    (d.afterWarm preferred).entryBound = d.bound ∧ (d.afterWarm preferred).growths = 0 := by
  obtain h | h | ⟨h, hafter⟩ := h
  · by_cases hlimit : DtuSettings.default.limit < d.bound
    · simp [Dtu.afterWarm, Dtu.growthContinues, Dtu.stateAfterWarm, h, hlimit]
    · simp [Dtu.afterWarm, Dtu.growthContinues, Dtu.stateAfterWarm, h, hlimit]
  · simp [Dtu.afterWarm, Dtu.growthContinues, Dtu.stateAfterWarm, h]
  · simp [Dtu.afterWarm, Dtu.growthContinues, h, hafter]

end

/-! ### The second event of a held reset (R46, R48, R49, R61) -/

section

variable {e : DtuEffect} (t : Instant)

theorem DtuEffect.growBound_grows (hstate : e.dtu.state = .holdover) (hlimit : e.dtu.grow.bound ≤ e.dtu.settings.limit) :
    e.growBound t = e.change fun d => d.grow.evaluateWarning := by
  simp only [DtuEffect.growBound, hstate]
  exact if_neg (Nat.not_lt.mpr hlimit)

theorem DtuEffect.growBound_exceeds (hstate : e.dtu.state = .holdover) (hlimit : e.dtu.settings.limit < e.dtu.grow.bound) :
    e.growBound t =
      ((e.change fun d => d.grow.evaluateWarning).change Dtu.enterUntraceable).recordState t .holdover .holdoverLimit := by
  simp only [DtuEffect.growBound, hstate]
  exact if_pos hlimit

theorem DtuEffect.growBound_untraceable (hstate : e.dtu.state = .untraceable) (hactive : e.dtu.active = none) :
    e.growBound t = e.change Dtu.grow := by
  simp only [DtuEffect.growBound, hstate, hactive, if_true]

theorem DtuEffect.growBound_still (h : e.dtu.state = .free ∨ e.dtu.state = .acquiring ∨ e.dtu.state = .traceable ∨
    (e.dtu.state = .untraceable ∧ e.dtu.active ≠ none)) : e.growBound t = e := by
  obtain h | h | h | ⟨h, hactive⟩ := h
  · simp only [DtuEffect.growBound, h]
  · simp only [DtuEffect.growBound, h]
  · simp only [DtuEffect.growBound, h]
  · simp only [DtuEffect.growBound, h, hactive, if_false]

end

section

variable {d : Dtu} (t : Instant)

theorem Dtu.heldSecondEvent_grows (hstate : d.state = .holdover) (hlimit : d.grow.bound ≤ d.settings.limit) :
    d.heldSecondEvent t = .of { d.grow.evaluateWarning with lastSecond := t.sec } := by
  rw [Dtu.heldSecondEvent, DtuEffect.growBound_grows t hstate hlimit]; rfl

/-- The DTU that growth above L leaves in UNTRACEABLE while a reset is held. -/
def Dtu.heldUntraceable (d : Dtu) (t : Instant) : Dtu := { d.grow.evaluateWarning.enterUntraceable with lastSecond := t.sec }

theorem Dtu.heldSecondEvent_exceeds (hstate : d.state = .holdover) (hlimit : d.settings.limit < d.grow.bound) :
    d.heldSecondEvent t =
      { DtuEffect.of (d.heldUntraceable t) with
        out := [(d.heldUntraceable t).handed t (.stateChange .holdover .untraceable .holdoverLimit d.grow.bound d.active)] } := by
  rw [Dtu.heldSecondEvent, DtuEffect.growBound_exceeds t hstate hlimit]; rfl

theorem Dtu.heldSecondEvent_untraceable (hstate : d.state = .untraceable) (hactive : d.active = none) :
    d.heldSecondEvent t = .of { d.grow with lastSecond := t.sec } := by
  rw [Dtu.heldSecondEvent, DtuEffect.growBound_untraceable t hstate hactive]; rfl

theorem Dtu.heldSecondEvent_still
    (h : d.state = .free ∨ d.state = .acquiring ∨ d.state = .traceable ∨ (d.state = .untraceable ∧ d.active ≠ none)) :
    d.heldSecondEvent t = .of { d with lastSecond := t.sec } := by
  rw [Dtu.heldSecondEvent, DtuEffect.growBound_still t h]; rfl

/-- While a reset is held the DTU hands no rate and no step over (R61). -/
theorem Dtu.heldSecondEvent_time (d : Dtu) (t : Instant) (tb : TimeBase) : tb.takeEffect (d.heldSecondEvent t) = tb := by
  have hidle (d' : Dtu) (out : List Handed) : tb.takeEffect { DtuEffect.of d' with out := out } = tb := rfl
  cases hstate : d.state with
  | free => rw [Dtu.heldSecondEvent_still t (.inl hstate)]; exact hidle _ []
  | acquiring => rw [Dtu.heldSecondEvent_still t (.inr (.inl hstate))]; exact hidle _ []
  | traceable => rw [Dtu.heldSecondEvent_still t (.inr (.inr (.inl hstate)))]; exact hidle _ []
  | holdover =>
    by_cases hlimit : d.grow.bound ≤ d.settings.limit
    · rw [Dtu.heldSecondEvent_grows t hstate hlimit]; exact hidle _ []
    · rw [Dtu.heldSecondEvent_exceeds t hstate (Nat.not_le.mp hlimit)]; exact hidle _ _
  | untraceable =>
    by_cases hactive : d.active = none
    · rw [Dtu.heldSecondEvent_untraceable t hstate hactive]; exact hidle _ []
    · rw [Dtu.heldSecondEvent_still t (.inr (.inr (.inr ⟨hstate, hactive⟩)))]; exact hidle _ []

end

theorem exec_secondEvent_held {s : State} {hold : Hold} {now : Instant} {rest : List Instant} (order : Order) (hphase : s.phase = .warm hold)
    (hevents : s.time.secondEvents = now :: rest) :
    exec (.secondEvent order) s = .next
      { s with
        time := { s.time with secondEvents := rest }
        dtu := (s.dtu.heldSecondEvent now).dtu
        journal := s.journal.takeAll (s.dtu.heldSecondEvent now).out } := by
  have hrunning : s.running = false := by simp [State.running, hphase]
  have hheld : s.held = true := by simp [State.held, hphase]
  simp only [exec, execSecondEvent, hevents, hrunning, hheld, if_true, State.takeEffect, State.withEffect, State.withTime_dtu,
    State.withTime_time, Dtu.heldSecondEvent_time]
  rfl

/-- Settles O7: the release is `releaseWarm` read block by block; a held second event is stage 2 of the DTU's work. -/
theorem warmResetIsReleased : Obligations.WarmResetIsReleased := by
  refine ⟨fun s hold straps sub order c hphase hrow => ?release, fun s hold order now rest hphase hevents => ?second⟩
  case release =>
    have hexec : exec c s = .next (s.releaseWarm straps hold.byCommand (s.readingAt sub) (s.oscAt sub) order) := by
      obtain ⟨rfl, hpin, hend⟩ | ⟨rfl, hpin, ends, hend, hover⟩ := hrow
      · exact exec_warmResetRelease_free straps sub order hphase hpin hend
      · exact exec_restartHoldEnd_free straps sub order hphase hpin hend hover
    refine ⟨_, hexec, rfl, rfl, fun l => ?lane, fun p => ?port, rfl, rfl, rfl, fun p => ?agent, rfl, rfl, rfl, rfl, rfl, rfl, rfl, rfl, rfl,
      rfl, rfl, ?state, rfl, Dtu.afterWarm_growth_kept straps.prefRef, Dtu.afterWarm_growth_restarts straps.prefRef,
      _, inOrder_perm order _, rfl⟩
    case lane => rw [State.releaseWarm_lane]; exact ⟨rfl, rfl, rfl, rfl, rfl⟩
    case port => rw [State.releaseWarm_port]; exact ⟨rfl, rfl, rfl⟩
    case agent => rw [State.releaseWarm_agentPort]; rfl
    case state =>
      show s.dtu.stateAfterWarm = _
      unfold Dtu.stateAfterWarm
      cases s.dtu.state <;> rfl
  case second =>
    refine ⟨_, exec_secondEvent_held order hphase hevents, rfl, fun hstate hlimit => ?grows, fun hstate hlimit => ?exceeds,
      fun hstate hactive => ?unreferenced, fun hstill => ?still⟩
    case grows => rw [Dtu.heldSecondEvent_grows now hstate hlimit]; exact ⟨rfl, rfl⟩
    case exceeds => rw [Dtu.heldSecondEvent_exceeds now hstate hlimit]; exact ⟨rfl, rfl⟩
    case unreferenced => rw [Dtu.heldSecondEvent_untraceable now hstate hactive]; exact ⟨rfl, rfl⟩
    case still => rw [Dtu.heldSecondEvent_still now hstill]; exact ⟨rfl, rfl⟩

end Sys2Proof.Machine
end

