-- ==== Sys2Proof/Proofs/Agent.lean ====
section
/-! PROOF. The Management Agent: the choice of a slot, the judgement of a request, rejections, responses, the application of a command, and the Restart that
stops it. -/

namespace Sys2Proof.Machine

/-! ### The choice of a slot (R174) -/

theorem portAfter_onto (p q : Port) : ∃ n, n < 8 ∧ portAfter p n = q :=
  ⟨(q.val + 8 - p.val) % 8, Nat.mod_lt _ (by decide), Fin.ext (by simp only [portAfter]; omega)⟩

/-- The slot chosen is the first full one in the cyclic order from the pointer (R174). -/
theorem Agent.choice_eq_some {a : Agent} {p : Port} (h : a.choice = some p) :
    ∃ n, n < 8 ∧ p = portAfter a.pointer n ∧ ∀ m, m < n → (a.ports[portAfter a.pointer m]).slot = none := by
  rw [Agent.choice, Agent.cycle, List.find?_map, Option.map_eq_some_iff] at h
  obtain ⟨n, hfind, rfl⟩ := h
  obtain ⟨_, hmem, hbefore⟩ := List.find?_range_eq_some.mp hfind
  refine ⟨n, List.mem_range.mp hmem, rfl, fun m hm => ?_⟩
  simpa using hbefore m hm

theorem Agent.choice_isSome {a : Agent} (h : ∃ p : Port, (a.ports[p]).slot.isSome = true) : a.choice.isSome = true := by
  obtain ⟨p, hp⟩ := h
  obtain ⟨n, hn, hafter⟩ := portAfter_onto a.pointer p
  rw [Agent.choice, List.find?_isSome]
  exact ⟨p, List.mem_map.mpr ⟨n, List.mem_range.mpr hn, hafter⟩, hp⟩

section

variable {s : State} {sub : Sub} {q : Take}

theorem State.freeToTake_iff : s.freeToTake = true ↔ s.phase = .running ∧ s.agent.restart = none := by
  simp [State.freeToTake, State.running]

/-- What a take holds: the frame of the chosen slot, the level of its port, the moment (R174). -/
theorem State.nextTake_eq_some (h : s.nextTake sub = some q) :
    s.freeToTake = true ∧ s.agent.choice = some q.port ∧ (s.agentPort q.port).slot = some q.frame ∧
      q.level = (s.agentPort q.port).level ∧ q.now = s.readingAt sub ∧ q.osc = s.oscAt sub := by
  unfold State.nextTake at h
  split at h
  next hfree =>
    split at h
    next p hchoice =>
      obtain ⟨frame, hslot, rfl⟩ := Option.map_eq_some_iff.mp h
      exact ⟨hfree, hchoice, hslot, rfl, rfl, rfl⟩
    next => cases h
  next => cases h

theorem State.nextTake_isSome (hfree : s.freeToTake = true) (h : ∃ p, (s.agentPort p).slot.isSome = true) :
    (s.nextTake sub).isSome = true := by
  obtain ⟨p, hchoice⟩ := Option.isSome_iff_exists.mp (Agent.choice_isSome h)
  have hslot : (s.agentPort p).slot.isSome = true := List.find?_some (p := fun p => (s.agentPort p).slot.isSome) hchoice
  simp only [State.nextTake, hfree, if_true, hchoice, Option.isSome_map, hslot]

theorem State.nextTake_eq_none (h : s.agent.restart ≠ none) : s.nextTake sub = none := by
  rw [State.nextTake, if_neg fun hfree => h (State.freeToTake_iff.mp hfree).2]

variable (s)

theorem State.emptySlot_agentPort_self (p : Port) : (s.emptySlot p).agentPort p = { s.agentPort p with slot := none } :=
  s.agentPort_withAgentPort_self p _

theorem State.emptySlot_agentPort_other {p k : Port} (h : k ≠ p) : (s.emptySlot p).agentPort k = s.agentPort k :=
  s.agentPort_withAgentPort_other p k _ h.symm

end

/-- Settles O35: the choice is the first full slot of the cycle, and serving it empties that slot and moves the pointer. -/
theorem slotsAreTakenInRoundRobin : Obligations.SlotsAreTakenInRoundRobin := by
  refine fun s sub => ⟨fun q htake => ?taken, fun hphase hrestart hfull => State.nextTake_isSome (State.freeToTake_iff.mpr ⟨hphase, hrestart⟩) hfull⟩
  obtain ⟨hfree, hchoice, hslot, hlevel, hnow, hosc⟩ := State.nextTake_eq_some htake
  obtain ⟨hphase, hrestart⟩ := State.freeToTake_iff.mp hfree
  exact ⟨hphase, hrestart, hslot, hlevel, hnow, hosc, Agent.choice_eq_some hchoice, by rw [State.emptySlot_agentPort_self], rfl,
    fun p hp => s.emptySlot_agentPort_other hp, rfl⟩

/-! ### The judgement of a request (R175) -/

theorem Command.ofCode_code (c : Command) : Command.ofCode c.code = some c := by
  cases c <;> rfl

theorem Command.ofCode_eq_some_iff (code : Byte) (c : Command) : Command.ofCode code = some c ↔ code = c.code := by
  constructor
  · intro h
    exact (beq_iff_eq.mp (List.find?_some (p := fun c => Command.code c == code) h)).symm
  · rintro rfl
    exact c.ofCode_code

theorem Command.ofCode_eq_none_iff (code : Byte) : Command.ofCode code = none ↔ ∀ c : Command, code ≠ c.code := by
  rw [Option.eq_none_iff_forall_ne_some]
  exact forall_congr' fun c => not_congr (Command.ofCode_eq_some_iff code c)

theorem wrongLength_iff (frame : List Byte) :
    wrongLength frame = true ↔ frame.length - 18 < 8 + fieldNat frame 20 2 ∨
      (64 < frame.length ∧ 8 + fieldNat frame 20 2 ≠ frame.length - 18) := by
  rw [wrongLength, Bool.or_eq_true, Bool.and_eq_true, decide_eq_true_iff, decide_eq_true_iff, decide_eq_true_iff]
  rfl

section

variable {level : Level} {frame : List Byte}

/-- The version and the lengths of a request are wrong (R175). -/
def BadShape (frame : List Byte) : Prop :=
  fieldNat frame 14 1 ≠ 1 ∨ frame.length - 18 < 8 + fieldNat frame 20 2 ∨ (64 < frame.length ∧ 8 + fieldNat frame 20 2 ≠ frame.length - 18)

theorem judgeRequest_noPermission (h : level = .none) : judgeRequest level frame = .noPermission := if_pos h

theorem judgeRequest_notRequest (hlevel : level ≠ .none) (hkind : fieldNat frame 15 1 ≠ 1) : judgeRequest level frame = .notRequest := by
  have hkind : kindCodeOf frame ≠ 1 := hkind
  rw [judgeRequest, if_neg hlevel, if_pos hkind]

theorem judgeRequest_badShape (hlevel : level ≠ .none) (hkind : fieldNat frame 15 1 = 1) (hshape : BadShape frame) :
    judgeRequest level frame = .malformed := by
  have hrequest : ¬ kindCodeOf frame ≠ 1 := not_not.mpr hkind
  rw [judgeRequest, if_neg hlevel, if_neg hrequest]
  by_cases hversion : versionOf frame ≠ 1
  · exact if_pos hversion
  · have hlength := (wrongLength_iff frame).mpr (hshape.resolve_left hversion)
    rw [if_neg hversion, if_pos hlength]

/-- A request of a good shape is judged by its code, its class and its body length (R175). -/
theorem judgeRequest_goodShape (hlevel : level ≠ .none) (hkind : fieldNat frame 15 1 = 1) (hshape : ¬ BadShape frame) :
    judgeRequest level frame =
      match Command.ofCode (commandCodeOf frame) with
      | none => .unknown
      | some c =>
        if Level.code level < Level.code c.level then .denied
        else if bodyLengthOf frame ≠ c.bodyLength then .malformed
        else .command c := by
  have hversion : ¬ fieldNat frame 14 1 ≠ 1 := fun h => hshape (.inl h)
  have hlength : ¬ wrongLength frame = true := fun h => hshape (.inr ((wrongLength_iff frame).mp h))
  have hrequest : ¬ kindCodeOf frame ≠ 1 := not_not.mpr hkind
  rw [judgeRequest, if_neg hlevel, if_neg hrequest]
  exact (if_neg hversion).trans (if_neg hlength)

theorem judgeRequest_unknown (hlevel : level ≠ .none) (hkind : fieldNat frame 15 1 = 1) (hshape : ¬ BadShape frame)
    (hcode : ∀ c : Command, BitVec.ofNat 8 (fieldNat frame 16 1) ≠ c.code) : judgeRequest level frame = .unknown := by
  have hnone : Command.ofCode (commandCodeOf frame) = none := (Command.ofCode_eq_none_iff _).mpr hcode
  rw [judgeRequest_goodShape hlevel hkind hshape, hnone]

/-- A request of a good shape that names a command is judged by its class and its body length (R175). -/
theorem judgeRequest_named {c : Command} (hlevel : level ≠ .none) (hkind : fieldNat frame 15 1 = 1) (hshape : ¬ BadShape frame)
    (hcode : BitVec.ofNat 8 (fieldNat frame 16 1) = c.code) :
    judgeRequest level frame =
      if Level.code level < Level.code c.level then .denied
      else if fieldNat frame 20 2 ≠ c.bodyLength then .malformed
      else .command c := by
  have hsome : Command.ofCode (commandCodeOf frame) = some c := (Command.ofCode_eq_some_iff _ c).mpr hcode
  rw [judgeRequest_goodShape hlevel hkind hshape, hsome]
  rfl

/-- A request judged to be a command has passed every test (R175). -/
theorem judgeRequest_eq_command_iff {c : Command} :
    judgeRequest level frame = .command c ↔
      level ≠ .none ∧ fieldNat frame 15 1 = 1 ∧ ¬ BadShape frame ∧ BitVec.ofNat 8 (fieldNat frame 16 1) = c.code ∧
        Level.code c.level ≤ Level.code level ∧ fieldNat frame 20 2 = c.bodyLength := by
  constructor
  · intro h
    have hlevel : level ≠ .none := fun hnone => by rw [judgeRequest_noPermission hnone] at h; cases h
    have hkind : fieldNat frame 15 1 = 1 := by
      by_contra hother
      rw [judgeRequest_notRequest hlevel hother] at h; cases h
    have hshape : ¬ BadShape frame := fun hbad => by rw [judgeRequest_badShape hlevel hkind hbad] at h; cases h
    rw [judgeRequest_goodShape hlevel hkind hshape] at h
    split at h
    next => cases h
    next named hnamed =>
      split at h
      next => cases h
      next hclass =>
        split at h
        next => cases h
        next hbody =>
          cases h
          exact ⟨hlevel, hkind, hshape, (Command.ofCode_eq_some_iff _ c).mp hnamed, Nat.not_lt.mp hclass, not_not.mp hbody⟩
  · rintro ⟨hlevel, hkind, hshape, hcode, hclass, hbody⟩
    rw [judgeRequest_named hlevel hkind hshape hcode, if_neg (Nat.not_lt.mpr hclass), if_neg (not_not.mpr hbody)]

theorem not_badShape_iff :
    ¬ BadShape frame ↔ fieldNat frame 14 1 = 1 ∧ 8 + fieldNat frame 20 2 ≤ frame.length - 18 ∧
      (64 < frame.length → 8 + fieldNat frame 20 2 = frame.length - 18) := by
  simp only [BadShape, not_or, not_and, not_not, ne_eq, Nat.not_lt]

end

/-- Settles O36: each row of R175's table is one lemma of `judgeRequest`, and passing them all is being judged a command. -/
theorem judgementPassesEveryTest : Obligations.JudgementPassesEveryTest := by
  refine ⟨fun level frame c => ?command, fun level frame => ⟨judgeRequest_noPermission, fun hlevel => ⟨judgeRequest_notRequest hlevel,
    fun hkind => ⟨judgeRequest_badShape hlevel hkind, fun hshape => ⟨judgeRequest_unknown hlevel hkind hshape,
      fun c hcode => ⟨fun hclass => ?denied, fun hclass hbody => ?malformed⟩⟩⟩⟩⟩⟩
  case command => rw [judgeRequest_eq_command_iff, not_badShape_iff, and_assoc, and_assoc]
  case denied => rw [judgeRequest_named hlevel hkind hshape hcode, if_pos hclass]
  case malformed => rw [judgeRequest_named hlevel hkind hshape hcode, if_neg (Nat.not_lt.mpr hclass), if_pos hbody]

/-! ### Rejections and responses (R72, R175, R177) -/

theorem responseFrame_length (address : BitVec 48) (request : List Byte) (status : Status) (body : List Byte) :
    64 ≤ (responseFrame address request status body).length := by
  simp only [responseFrame, withFcs_length, padUpTo, List.length_append, List.length_replicate]
  omega

section

variable {s : State} {sub : Sub} {q : Take}

theorem exec_rejected (htake : s.nextTake sub = some q) (hrejects : q.judgement.rejects = true) :
    exec (.managementFrameRejected sub) s = .next (s.reject q) := by
  simp only [exec, execManagementFrameRejected, htake, if_pos hrejects]

theorem exec_notRejected (htake : s.nextTake sub = some q) (hrejects : q.judgement.rejects = false) :
    exec (.managementFrameRejected sub) s = .next s := by
  simp [exec, execManagementFrameRejected, htake, hrejects]

theorem State.offerResponse_queued {v : State} {p : Port} (bytes : List Byte) (ofRestart : Bool) (h : (v.port p).own.length < ownPlaces) :
    v.offerResponse p bytes ofRestart =
      (v.withPort p { v.port p with own := (v.port p).own ++ [.response bytes ofRestart] }).withAgentPort p
        { v.agentPort p with responses := (v.agentPort p).responses + 1 } :=
  if_pos h

theorem State.offerResponse_discarded {v : State} {p : Port} (bytes : List Byte) (ofRestart : Bool) (h : ownPlaces ≤ (v.port p).own.length) :
    v.offerResponse p bytes ofRestart =
      v.withAgentPort p { v.agentPort p with responseDiscard := (v.agentPort p).responseDiscard + 1 } :=
  if_neg (Nat.not_lt.mpr h)

end

/-- Settles O37: a rejection is the one branch of `reject` that its judgement names; a response is offered to the queue of its port. -/
theorem rejectedFrameIsCounted : Obligations.RejectedFrameIsCounted := by
  refine ⟨fun s sub q htake => ?rejected, fun v q status body ofRestart => ⟨responseFrame_length _ _ _ _, State.offerResponse_queued _ _,
    State.offerResponse_discarded _ _⟩⟩
  have rejected {j : Judgement} (hrejects : j.rejects = true) (h : q.judgement = j) :
      exec (.managementFrameRejected sub) s = .next (s.reject q) := exec_rejected htake (h ▸ hrejects)
  refine ⟨fun h => ?noPermission, fun h => ?notRequest, fun h => ?malformed, fun h => ?unknown, fun h => ?denied, fun c h => ?command⟩
  case noPermission => rw [rejected rfl h, State.reject, h]
  case notRequest => rw [rejected rfl h, State.reject, h]
  case malformed => rw [rejected rfl h, State.reject, h]; rfl
  case unknown => rw [rejected rfl h, State.reject, h]; rfl
  case denied => rw [rejected rfl h, State.reject, h]; rfl
  case command => exact exec_notRejected htake (by rw [h]; rfl)

/-! ### A command applied or refused (R176) -/

/-- A reply refuses: whatever its status but OK and MISMATCH, it leaves the state and carries no body (R176). -/
def Reply.RefusesOn (reply : Reply) (s : State) : Prop :=
  reply.status ≠ .ok → reply.status ≠ .mismatch → reply.state = s ∧ reply.body = []

section

variable {s : State}

theorem Reply.refuse_refusesOn (status : Status) : (Reply.refuse s status).RefusesOn s := fun _ _ => ⟨rfl, rfl⟩

theorem Reply.refusesOn_of_ok {reply : Reply} (h : reply.status = .ok) : reply.RefusesOn s := fun hok _ => absurd h hok

theorem Reply.refusesOn_of_mismatch {reply : Reply} (h : reply.status = .mismatch) : reply.RefusesOn s := fun _ hmismatch => absurd h hmismatch

end

/-- Each command's own rule accepts, refuses, or discards a seed that does not match (R176, R136). -/
theorem Command.rule_refusesOn (c : Command) (order : Order) (q : Take) (s : State) : (c.rule order q s).RefusesOn s := by
  have refused (status : Status) : (Reply.refuse s status).RefusesOn s := Reply.refuse_refusesOn status
  have accepted {reply : Reply} (h : reply.status = .ok) : reply.RefusesOn s := Reply.refusesOn_of_ok h
  cases c with
  | getStatus => exact accepted rfl
  | readJournal =>
    dsimp only [Command.rule, applyReadJournal]
    split
    · exact accepted rfl
    · exact refused _
  | readSeed => exact accepted rfl
  | readGroup =>
    dsimp only [Command.rule, applyReadGroup]
    split
    · exact accepted rfl
    · exact refused _
  | readMatchEntry =>
    dsimp only [Command.rule, applyReadMatchEntry]
    split
    · exact accepted rfl
    · exact refused _
  | readCounters =>
    dsimp only [Command.rule, applyReadCounters]
    split
    · exact accepted rfl
    · exact refused _
  | extendCall =>
    dsimp only [Command.rule, applyExtendCall]
    split
    · exact refused _
    · split
      · exact refused _
      · exact accepted rfl
  | releaseJournal => exact accepted rfl
  | setLaneMode =>
    dsimp only [Command.rule, applySetLaneMode]
    split
    · exact refused _
    · split
      · exact accepted rfl
      · exact accepted rfl
  | setLaneProfile =>
    dsimp only [Command.rule, applySetLaneProfile]
    split
    · exact refused _
    · split
      · exact accepted rfl
      · exact accepted rfl
  | writeMatchEntry =>
    dsimp only [Command.rule, applyWriteMatchEntry]
    split
    · exact refused _
    · split
      · exact refused _
      · split
        · exact accepted rfl
        · exact accepted rfl
  | swapBank =>
    dsimp only [Command.rule, applySwapBank]
    split
    · exact refused _
    · split
      · exact refused _
      · exact accepted rfl
  | loadSchedule =>
    dsimp only [Command.rule, applyLoadSchedule]
    split
    · exact refused _
    · split
      · exact refused _
      · exact accepted rfl
  | clearSchedule =>
    dsimp only [Command.rule, applyClearSchedule]
    split
    · exact refused _
    · split
      · exact accepted rfl
      · exact accepted rfl
      · exact refused _
  | setDay =>
    dsimp only [Command.rule, applySetDay]
    split
    · exact accepted rfl
    · exact refused _
  | dayRoll =>
    dsimp only [Command.rule, applyDayRoll]
    split
    · exact refused _
    · exact accepted rfl
  | loadSeed =>
    dsimp only [Command.rule, applyLoadSeed]
    split
    · exact refused _
    · exact accepted rfl
  | commitSeed =>
    dsimp only [Command.rule, applyCommitSeed]
    split
    · exact refused _
    · split
      · exact accepted rfl
      · exact Reply.refusesOn_of_mismatch rfl
    · exact refused _
  | setReferenceChannel =>
    dsimp only [Command.rule, applySetReferenceChannel]
    split
    · exact refused _
    · split
      · exact accepted rfl
      · exact accepted rfl
  | setPreferredReference =>
    dsimp only [Command.rule, applySetPreferredReference]
    split
    · exact refused _
    · exact accepted rfl
  | setDiscipline =>
    dsimp only [Command.rule, applySetDiscipline]
    split
    · exact refused _
    · split
      · exact accepted rfl
      · exact accepted rfl
  | endAcquisition =>
    dsimp only [Command.rule, applyEndAcquisition]
    split
    · exact accepted rfl
    · exact refused _
  | stepTime =>
    dsimp only [Command.rule, applyStepTime]
    split
    · exact refused _
    · exact accepted rfl
  | setUtcOffset =>
    dsimp only [Command.rule, applySetUtcOffset]
    split
    · exact refused _
    · exact accepted rfl
  | setOutputs =>
    dsimp only [Command.rule, applySetOutputs]
    split
    · exact refused _
    · split
      · exact accepted rfl
      · exact accepted rfl
  | setPermissions =>
    dsimp only [Command.rule, applySetPermissions]
    split
    · exact refused _
    · split
      · exact accepted rfl
      · exact accepted rfl
  | restart => exact accepted rfl

/-- Settles O38: a row is its command's rule answered, and no rule refuses with an effect. -/
theorem commandIsAppliedOrRefused : Obligations.CommandIsAppliedOrRefused :=
  fun c _ order s q => ⟨fun htakes => exec_row_of_reply htakes rfl, c.rule_refusesOn order q s⟩

/-! ### Restart (R174, R185) -/

section

variable {s : State} {sub : Sub} {q : Take}

/-- The part after the take of a Restart, before its response (R185). -/
def State.restarting (s : State) (q : Take) : State :=
  (s.emptySlot q.port).withAgent { (s.emptySlot q.port).agent with restart := some { takenAt := q.osc, answered := false } }

theorem exec_restart_of_takes (h : s.Takes sub q .restart) :
    exec (.restart sub) s = .next ((s.restarting q).respond q .ok [] true) :=
  exec_row_of_reply (order := []) h rfl

theorem State.respond_restart (status : Status) (body : List Byte) (ofRestart : Bool) :
    (s.respond q status body ofRestart).agent.restart = s.agent.restart := by
  unfold State.respond State.offerResponse
  split
  · rfl
  · rfl

theorem State.respond_frame (status : Status) (body : List Byte) (ofRestart : Bool) :
    s.respond q status body ofRestart =
      { s with agent := (s.respond q status body ofRestart).agent, ports := (s.respond q status body ofRestart).ports } := by
  obtain ⟨ports, agent, h⟩ := s.respond_only q status body ofRestart
  rw [h]

theorem State.respond_port_other {p : Port} (status : Status) (body : List Byte) (ofRestart : Bool) (hp : p ≠ q.port) :
    (s.respond q status body ofRestart).port p = s.port p := by
  unfold State.respond State.offerResponse
  split
  · exact s.port_withPort_other q.port p _ hp.symm
  · rfl

theorem State.respond_port_queued (status : Status) (body : List Byte) (ofRestart : Bool) (h : (s.port q.port).own.length < ownPlaces) :
    (s.respond q status body ofRestart).port q.port = { s.port q.port with
      own := (s.port q.port).own ++ [.response (responseFrame s.signal.managementAddress q.frame status body) ofRestart] } := by
  rw [State.respond, State.offerResponse_queued _ _ h]
  exact s.port_withPort_self q.port _

theorem State.respond_port_discarded (status : Status) (body : List Byte) (ofRestart : Bool) (h : ownPlaces ≤ (s.port q.port).own.length) :
    (s.respond q status body ofRestart).port q.port = s.port q.port := by
  rw [State.respond, State.offerResponse_discarded _ _ h]
  rfl

/-- What becomes of a pending Restart while it is not asserted: it stays, at most answered (R185). -/
def RestartPending (r : RestartOrder) (t : State) : Prop :=
  t.phase = .running ∧ ∃ r', t.agent.restart = some r' ∧ r'.takenAt = r.takenAt ∧ (r.answered = true → r'.answered = true)

theorem State.Moves.restartPending {t : State} {r : RestartOrder} (h : s.Moves t) (hphase : s.phase = .running)
    (hrestart : s.agent.restart = some r) : RestartPending r t := by
  refine ⟨h.phase.trans hphase, ?_⟩
  obtain heq | ⟨r', hs, ht⟩ := h.restart
  · exact ⟨r, heq.trans hrestart, rfl, id⟩
  · cases hrestart.symm.trans hs
    exact ⟨_, ht, rfl, fun _ => rfl⟩

theorem exec_restartPending {c : Instr} {r : RestartOrder} (hphase : s.phase = .running) (hrestart : s.agent.restart = some r)
    (hon : c ≠ .powerOnReset) (hoff : c ≠ .powerLoss) (hpin : ∀ low sub order, c ≠ .warmResetAssert low sub order)
    (hordered : ∀ sub order, c ≠ .restartResetAssert sub order) : ∃ t, exec c s = .next t ∧ RestartPending r t := by
  have idle (h : exec c s = .next s) : ∃ t, exec c s = .next t ∧ RestartPending r t :=
    ⟨s, h, (State.Moves.refl s).restartPending hphase hrestart⟩
  obtain hpower | hspecial | ⟨t, ht, hmoves⟩ := exec_moved c s
  · obtain rfl | ⟨straps, supplies, high, rfl⟩ | rfl := hpower
    · exact absurd rfl hon
    · exact idle (exec_release_early straps fun hready => by
        have hpowerOn := (State.readyForRelease_iff.mp hready).1
        cases hphase.symm.trans hpowerOn)
    · exact absurd rfl hoff
  · cases hspecial with
    | warmResetAssert low sub order => exact absurd rfl (hpin low sub order)
    | warmResetRelease straps sub order => exact idle (by simp [exec, execWarmResetRelease, hphase])
    | restartResetAssert sub order => exact absurd rfl (hordered sub order)
    | restartHoldEnd straps sub order => exact idle (by simp [exec, execRestartHoldEnd, hphase])
    | command c sub order _ =>
      have hnone : s.nextTake sub = none := State.nextTake_eq_none (by rw [hrestart]; exact Option.some_ne_none r)
      exact idle (by rw [exec_row, State.takeCommand, hnone])
  · exact ⟨t, ht, hmoves.restartPending hphase hrestart⟩

end

/-- Settles O52: the take leaves a Restart pending, and every row but the resets' own keeps it so. -/
theorem restartStopsTheAgent : Obligations.RestartStopsTheAgent := by
  refine ⟨fun s sub q htakes => ?take, fun c s r hphase hrestart hon hoff hpin hordered => ?pending⟩
  case take =>
    obtain ⟨htake, _⟩ := id htakes
    obtain ⟨_, _, _, _, _, hosc⟩ := State.nextTake_eq_some htake
    have hpending : ((s.restarting q).respond q .ok [] true).agent.restart = some { takenAt := s.oscAt sub, answered := false } := by
      rw [State.respond_restart, ← hosc]; rfl
    refine ⟨_, exec_restart_of_takes htakes, hpending, ?frame, fun later => State.nextTake_eq_none (by rw [hpending]; exact Option.some_ne_none _),
      fun p hp => (s.restarting q).respond_port_other .ok [] true hp, (s.restarting q).respond_port_queued .ok [] true,
      (s.restarting q).respond_port_discarded .ok [] true⟩
    rw [State.respond_frame (s := s.restarting q)]
    rfl
  case pending =>
    obtain ⟨t, ht, hrunning, r', hr', htaken, hanswered⟩ := exec_restartPending hphase hrestart hon hoff hpin hordered
    exact ⟨t, r', ht, hrunning, hr', htaken, hanswered,
      fun later => State.nextTake_eq_none (by rw [hr']; exact Option.some_ne_none r')⟩

end Sys2Proof.Machine
end

