-- ==== Sys2Proof/Proofs/ReadCommands.lean ====
section
/-! PROOF. The commands that read, and the journal's placement of a sequence, its take of an event record and its release. -/

namespace Sys2Proof.Machine

/-! ### The journal (R155 to R159, R165) -/

section

variable {j : Journal} {n : BitVec 32}

theorem Journal.place_retained (h : (n - j.oldest).toNat < j.retained.length) : j.place n = .retained (n - j.oldest).toNat := if_pos h

theorem Journal.place_beyondNewest (h : j.retained.length ≤ (n - j.oldest).toNat) (hahead : (n - j.oldest).toNat < 2147483648) :
    j.place n = .beyondNewest := by
  rw [Journal.place]
  exact (if_neg (Nat.not_lt.mpr h)).trans (if_pos hahead)

theorem Journal.place_belowOldest (h : j.retained.length ≤ (n - j.oldest).toNat) (hbehind : 2147483648 ≤ (n - j.oldest).toNat) :
    j.place n = .belowOldest := by
  rw [Journal.place]
  exact (if_neg (Nat.not_lt.mpr h)).trans (if_neg (Nat.not_lt.mpr hbehind))

theorem Journal.distance_eq (j : Journal) (n : BitVec 32) :
    (n - j.oldest).toNat = (n.toNat + (4294967296 - j.oldest.toNat)) % 4294967296 := by
  rw [BitVec.toNat_sub, Nat.add_comm]

theorem Payload.routine_eq_false {p : Payload} (h : ∀ minute state active, p ≠ .minuteSummary minute state active) :
    Payload.routine p = false := by
  unfold Payload.routine
  split
  next minute state active => exact absurd rfl (h minute state active)
  next => rfl

theorem Journal.take_event {h : Handed} (hevent : Payload.routine h.payload = false) : j.take h = j.takeEvent h := by
  rw [Journal.take, if_neg (Bool.eq_false_iff.mp hevent)]

theorem Journal.takeEvent_appended (h : Handed) (hfree : 1 ≤ j.free) : j.takeEvent h = j.append h := by
  rw [Journal.takeEvent, if_pos (by rw [Journal.canTake]; exact decide_eq_true hfree)]

theorem Journal.takeEvent_lost (h : Handed) (hfull : j.free = 0) : j.takeEvent h = j.lose := by
  rw [Journal.takeEvent, if_neg (by rw [Journal.canTake, hfull]; decide)]

theorem Journal.shortageStartNow_eq (j : Journal) :
    j.shortageStartNow = if j.omitted = 0 ∧ j.lost = 0 then j.next - 1 else j.shortageStart := by
  unfold Journal.shortageStartNow Journal.inShortage
  by_cases homitted : j.omitted = 0
  · by_cases hlost : j.lost = 0
    · simp [homitted, hlost, Journal.newest]
    · simp [homitted, hlost]
  · simp [homitted]

theorem Journal.release_eq (j : Journal) (n : BitVec 32) :
    j.release n = { j with
      retained := match j.place n with
        | .retained i => j.retained.drop (i + 1)
        | .beyondNewest => []
        | .belowOldest => j.retained } := by
  unfold Journal.release
  cases j.place n <;> rfl

end

/-- Settles O40: a sequence's place, an event record's take and a release are each one equation of the journal. -/
theorem releaseJournalFreesRecords : Obligations.ReleaseJournalFreesRecords := by
  refine ⟨fun j n => ?place, fun j h hevent => ⟨recordHead_length _ _, fun hfree => ?appended, fun hfull => ?lost⟩,
    fun s sub q htakes => ?release⟩
  case place =>
    have hdistance := j.distance_eq n
    dsimp only
    rw [show (n.toNat + (4294967296 - (j.next - BitVec.ofNat 32 j.retained.length).toNat)) % 4294967296 = (n - j.oldest).toNat from
      hdistance.symm]
    exact ⟨Journal.place_retained, Journal.place_beyondNewest, Journal.place_belowOldest⟩
  case appended => rw [Journal.take_event (Payload.routine_eq_false hevent), Journal.takeEvent_appended h hfree]; rfl
  case lost =>
    rw [Journal.take_event (Payload.routine_eq_false hevent), Journal.takeEvent_lost h hfull, Journal.lose, Journal.shortageStartNow_eq]
    rfl
  case release =>
    have hrow := exec_row_of_reply (order := []) htakes rfl
    refine ⟨_, ?_, rfl⟩
    refine Eq.trans hrow ?_
    simp only [Command.rule, applyReleaseJournal, Reply.give, Journal.release_eq]
    rfl

/-! ### Bytes whose bits follow tests -/

/-- A mask built by tests over four things has the bit of each that passes. -/
theorem getLsbD_maskOf (test : Fin 4 → Bool) (l : Fin 4) :
    ((List.finRange 4).foldl (fun (mask : BitVec 4) (i : Fin 4) => if test i then mask ||| BitVec.twoPow 4 i.val else mask) 0).getLsbD l.val =
      test l := by
  have fold (xs : List (Fin 4)) (mask : BitVec 4) :
      (xs.foldl (fun (mask : BitVec 4) (i : Fin 4) => if test i then mask ||| BitVec.twoPow 4 i.val else mask) mask).getLsbD l.val =
        (mask.getLsbD l.val || (decide (l ∈ xs) && test l)) := by
    induction xs generalizing mask with
    | nil => simp
    | cons i xs ih =>
      rw [List.foldl_cons, ih]
      by_cases hli : l = i
      · subst hli
        by_cases hl : test l = true
        · simp [hl]
        · simp [hl]
      · have hval : l.val ≠ i.val := fun h => hli (Fin.ext h)
        by_cases hi : test i = true
        · simp [hi, hli, hval]
        · simp [hi, hli]
  rw [fold]
  simp

theorem getLsbD_bitsWhere {n : Nat} (hn : n ≤ 8) (test : Nat → Bool) (i : Nat) :
    (bitsWhere n test).getLsbD i = (decide (i < n) && test i) := by
  induction n with
  | zero => simp [bitsWhere]
  | succ n ih =>
    have hrec := ih (Nat.le_of_succ_le hn)
    rw [bitsWhere, List.range_succ, List.foldl_append, List.foldl_cons, List.foldl_nil]
    rw [bitsWhere] at hrec
    by_cases htest : test n = true
    · rw [if_pos htest, BitVec.getLsbD_or, hrec, BitVec.getLsbD_twoPow]
      by_cases hi : i = n
      · subst hi; simp [htest]; omega
      · have hlt : (i < n + 1) ↔ i < n := by omega
        simp [hlt, Ne.symm hi]
    · rw [if_neg htest, hrec]
      by_cases hi : i = n
      · subst hi; simp [htest]
      · have hlt : (i < n + 1) ↔ i < n := by omega
        simp [hlt]

theorem bitsWhere_toNat_lt {n : Nat} (hn : n ≤ 8) (test : Nat → Bool) : (bitsWhere n test).toNat < 2 ^ n := by
  induction n with
  | zero => simp [bitsWhere]
  | succ n ih =>
    have hrec := ih (Nat.le_of_succ_le hn)
    rw [bitsWhere] at hrec
    have hpow : (2 : Nat) ^ n < 2 ^ (n + 1) := Nat.pow_lt_pow_right (by decide) (Nat.lt_succ_self n)
    rw [bitsWhere, List.range_succ, List.foldl_append, List.foldl_cons, List.foldl_nil]
    split
    · rw [BitVec.toNat_or, BitVec.toNat_twoPow]
      exact Nat.or_lt_two_pow (hrec.trans hpow) ((Nat.mod_le _ _).trans_lt hpow)
    · exact hrec.trans hpow

section

variable (s : State)

theorem State.laneModeBits_getLsbD (l : LaneId) : s.laneModeBits.getLsbD l.val = true ↔ (s.lane l).mode = .stamp := by
  rw [State.laneModeBits, getLsbD_bitsWhere (by decide)]
  simp

theorem State.linkBits_getLsbD (p : Port) : s.linkBits.getLsbD p.val = (s.port p).link := by
  rw [State.linkBits, getLsbD_bitsWhere (by decide)]
  simp [State.port, p.isLt]

theorem SignalBlock.strobeSet_getLsbD (b : SignalBlock) (g : Group) (line : Line) :
    (b.strobeSet g).getLsbD line.val = (b.strobes[line]).groups.getLsbD g.val :=
  getLsbD_maskOf (fun line => Strobe.names b.strobes[line] g) line

/-! ### GetStatus (R179) -/

theorem TimeBase.pendingBytes_length (tb : TimeBase) : tb.pendingBytes.length = 12 := by
  unfold TimeBase.pendingBytes; split <;> simp

theorem State.statusBody_length (now : Instant) : (s.statusBody now).length = 93 := by
  simp [State.statusBody, Dtu.statusBytes, thetaBytes, TimeBase.pendingBytes_length, AuctionTimer.statusBytes, Journal.statusBytes]

end

/-! ### Counters (R180) -/

section

variable (s : State)

theorem State.selectedCounters_lane (l : LaneId) : s.selectedCounters l.val = some (s.laneCounters l) := by
  rw [State.selectedCounters, laneNamed_val]

theorem State.selectedCounters_chan (ch : Channel) : s.selectedCounters (if ch = .A then 4 else 5) = some (s.chan ch).counters.list := by
  cases ch <;> rfl

theorem State.selectedCounters_agent : s.selectedCounters 6 = some s.agent.counters := rfl

theorem State.selectedCounters_none {selector : Nat} (h : 6 < selector) : s.selectedCounters selector = none := by
  rw [State.selectedCounters, laneNamed_of_le (by omega)]
  dsimp only
  rw [if_neg (by omega), if_neg (by omega), if_neg (by omega)]

/-- Emptying a slot changes no counter of the agent. -/
theorem State.emptySlot_list (p k : Port) : ((s.emptySlot p).agentPort k).list = (s.agentPort k).list := by
  by_cases h : k = p
  · subst h; rw [State.emptySlot_agentPort_self]; rfl
  · rw [s.emptySlot_agentPort_other h]

theorem Agent.counters_eq (s : State) :
    s.agent.counters =
      (s.agentPort 0).list ++ (s.agentPort 1).list ++ (s.agentPort 2).list ++ (s.agentPort 3).list ++ (s.agentPort 4).list ++
        (s.agentPort 5).list ++ (s.agentPort 6).list ++ (s.agentPort 7).list ++ [s.agent.malformed, s.agent.unknown, s.agent.denied] := by
  have hports : s.agent.ports.toList = List.ofFn fun p : Fin 8 => s.agentPort p :=
    List.ext_getElem (by simp) fun i _ _ => by
      simp only [List.getElem_ofFn, Vector.getElem_toList]
      rfl
  rw [Agent.counters, hports]
  simp [List.ofFn_succ]

end

/-! ### The answers of the Observe commands -/

section

variable {s : State} {sub : Sub} {q : Take}

theorem exec_row_of_give {c : Command} {body : List Byte} (h : s.Takes sub q c) (hrestart : (c == .restart) = false)
    (hrule : c.rule [] q (s.emptySlot q.port) = .give (s.emptySlot q.port) body) :
    exec (c.row sub []) s = .next ((s.emptySlot q.port).respond q .ok body false) := by
  rw [exec_row_of_reply h hrule, hrestart]
  rfl

theorem exec_row_of_refuse {c : Command} {status : Status} (h : s.Takes sub q c) (hrestart : (c == .restart) = false)
    (hrule : c.rule [] q (s.emptySlot q.port) = .refuse (s.emptySlot q.port) status) :
    exec (c.row sub []) s = .next ((s.emptySlot q.port).respond q status [] false) := by
  rw [exec_row_of_reply h hrule, hrestart]
  rfl

theorem exec_getStatus_of_takes (h : s.Takes sub q .getStatus) :
    exec (.getStatus sub) s = .next ((s.emptySlot q.port).respond q .ok (s.statusBody q.now) false) :=
  exec_row_of_give h rfl rfl

theorem exec_readJournal_found {records : List JournalRecord} (h : s.Takes sub q .readJournal)
    (hread : s.journal.readFrom (BitVec.ofNat 32 (fieldNat q.body 0 4)) (fieldNat q.body 4 1) = some records) :
    exec (.readJournal sub) s = .next ((s.emptySlot q.port).respond q .ok (s.journal.readBody records) false) := by
  refine exec_row_of_give h rfl ?_
  have hjournal : (s.emptySlot q.port).journal = s.journal := rfl
  simp only [Command.rule, applyReadJournal, hjournal, hread]

theorem exec_readJournal_refused (h : s.Takes sub q .readJournal)
    (hread : s.journal.readFrom (BitVec.ofNat 32 (fieldNat q.body 0 4)) (fieldNat q.body 4 1) = none) :
    exec (.readJournal sub) s = .next ((s.emptySlot q.port).respond q .invalid [] false) := by
  refine exec_row_of_refuse h rfl ?_
  have hjournal : (s.emptySlot q.port).journal = s.journal := rfl
  simp only [Command.rule, applyReadJournal, hjournal, hread]

theorem exec_readSeed_of_takes (h : s.Takes sub q .readSeed) :
    exec (.readSeed sub) s = .next ((s.emptySlot q.port).respond q .ok
      (SeedSlot.code s.auction.seed :: s.auction.seed.readValue (Config.seedValueHigh q.osc q.frame)) false) :=
  exec_row_of_give h rfl rfl

theorem exec_readGroup_invalid (h : s.Takes sub q .readGroup) (hg : 16 ≤ fieldNat q.body 0 1) :
    exec (.readGroup sub) s = .next ((s.emptySlot q.port).respond q .invalid [] false) := by
  refine exec_row_of_refuse h rfl ?_
  simp only [Command.rule, applyReadGroup, groupNamed_of_le hg]

theorem exec_readGroup_named {g : Group} (h : s.Takes sub q .readGroup) (hg : g.val = fieldNat q.body 0 1) :
    exec (.readGroup sub) s =
      .next ((s.emptySlot q.port).respond q .ok ((s.group g).readBody g (s.signal.strobeSet g)) false) := by
  refine exec_row_of_give h rfl ?_
  simp only [Command.rule, applyReadGroup, ← hg, groupNamed_val]
  rfl

theorem exec_readMatchEntry_invalid (h : s.Takes sub q .readMatchEntry) (hbad : 2 ≤ fieldNat q.body 0 1 ∨ 64 ≤ fieldNat q.body 1 1) :
    exec (.readMatchEntry sub) s = .next ((s.emptySlot q.port).respond q .invalid [] false) := by
  refine exec_row_of_refuse h rfl ?_
  dsimp only [Command.rule, applyReadMatchEntry]
  split
  next bank i hbank hi =>
    obtain hbad | hbad := hbad
    · rw [bankNamed_of_le hbad] at hbank; cases hbank
    · rw [indexNamed_of_le hbad] at hi; cases hi
  next => rfl

theorem exec_readMatchEntry_named {bank : Fin 2} {i : Fin 64} (h : s.Takes sub q .readMatchEntry) (hbank : bank.val = fieldNat q.body 0 1)
    (hi : i.val = fieldNat q.body 1 1) :
    exec (.readMatchEntry sub) s = .next ((s.emptySlot q.port).respond q .ok (s.table.readBody bank i) false) := by
  refine exec_row_of_give h rfl ?_
  simp only [Command.rule, applyReadMatchEntry, ← hbank, ← hi, bankNamed_val, indexNamed_val]
  rfl

theorem exec_readCounters_selected {counters : List Counter} (h : s.Takes sub q .readCounters)
    (hselected : (s.emptySlot q.port).selectedCounters (fieldNat q.body 0 1) = some counters) :
    exec (.readCounters sub) s = .next ((s.emptySlot q.port).respond q .ok
      (beBytes 1 (fieldNat q.body 0 1) ++ beBytes 1 counters.length ++ (counters.map fun (k : Counter) => beBytes 4 k.toNat).flatten)
      false) := by
  refine exec_row_of_give h rfl ?_
  simp only [Command.rule, applyReadCounters, hselected]

theorem exec_readCounters_invalid (h : s.Takes sub q .readCounters)
    (hselected : (s.emptySlot q.port).selectedCounters (fieldNat q.body 0 1) = none) :
    exec (.readCounters sub) s = .next ((s.emptySlot q.port).respond q .invalid [] false) := by
  refine exec_row_of_refuse h rfl ?_
  simp only [Command.rule, applyReadCounters, hselected]

end

section

variable {r : GroupRecord}

theorem GroupRecord.closeBytes_window (h : r.state = .window) : r.closeBytes = 1 :: List.replicate 14 0 := by
  simp only [GroupRecord.closeBytes, h]; rfl

theorem GroupRecord.closeBytes_closed {c : Instant} {draw : Draw} (h : r.state = .closed) (hclose : r.close = some c)
    (hdraw : r.draw = some draw) : r.closeBytes = 2 :: instantBytes c ++ beBytes 3 draw.d ++ [draw.flagByte] := by
  simp only [GroupRecord.closeBytes, h, hclose, hdraw]; rfl

theorem GroupRecord.closeBytes_absent (hw : r.state ≠ .window) (hc : r.state ≠ .closed) : r.closeBytes = List.replicate 15 0 := by
  unfold GroupRecord.closeBytes
  split
  next hstate _ _ => exact absurd hstate hc
  next hstate => exact absurd hstate hw
  next => rfl

theorem GroupRecord.closeBytes_length (r : GroupRecord) : r.closeBytes.length = 15 := by
  unfold GroupRecord.closeBytes
  split
  · simp
  · simp
  · simp

theorem GroupRecord.readBody_length (r : GroupRecord) (g : Group) (strobes : BitVec 4) : (r.readBody g strobes).length = 56 := by
  simp [GroupRecord.readBody, GroupRecord.closeBytes_length]

end

/-- Settles O39: each answer is its command's body, read off the state of the take. -/
theorem observeCommandsChangeNothing : Obligations.ObserveCommandsChangeNothing := by
  intro s sub q
  refine ⟨fun h => ?status, fun h => ?journal, fun h => ?seed, fun h => ⟨exec_readGroup_invalid h, fun g hg => ?group⟩,
    fun h => ⟨exec_readMatchEntry_invalid h, fun bank i hbank hi => ?entry⟩,
    fun h => ⟨fun hbad => ?unselected, fun l hl => ?lane, fun ch hch => ?channel, fun hagent => ?agent⟩⟩
  case status =>
    refine ⟨s.laneModeBits, s.liveConditions.setWidth 8, s.linkBits, ?_⟩
    intro theta body
    have hbody : s.statusBody q.now = body := by
      have hactive : activeCode s.dtu.active = match s.dtu.active with | some .A => 0 | some .B => 1 | none => 0xFF := by
        cases s.dtu.active with
        | none => rfl
        | some ch => cases ch <;> rfl
      simp only [State.statusBody, Dtu.statusBytes, AuctionTimer.statusBytes, Journal.statusBytes, hactive, body, List.append_assoc]
      rfl
    refine ⟨hbody ▸ exec_getStatus_of_takes h, hbody ▸ s.statusBody_length q.now, s.laneModeBits_getLsbD,
      bitsWhere_toNat_lt (by decide) _, fun i => ?_, s.linkBits_getLsbD⟩
    rw [BitVec.getLsbD_setWidth]
    by_cases hi : i < 7
    · simp [show i < 8 by omega]
    · simp [BitVec.getLsbD_of_ge s.liveConditions i (by omega)]
  case journal =>
    dsimp only
    split
    next i hplace =>
      exact exec_readJournal_found h (by rw [Journal.readFrom, hplace]; rfl)
    next hplace =>
      have hread : s.journal.readFrom (BitVec.ofNat 32 (fieldNat q.body 0 4)) (fieldNat q.body 4 1) = some [] := by
        rw [Journal.readFrom, hplace]
      rw [exec_readJournal_found h hread, Journal.readBody, List.map_nil, List.flatten_nil, List.append_nil]
      rfl
    next hplace =>
      exact exec_readJournal_refused h (by rw [Journal.readFrom, hplace])
  case seed =>
    rw [exec_readSeed_of_takes h]
    cases s.auction.seed <;> rfl
  case group =>
    refine ⟨s.signal.strobeSet g, (s.group g).closeBytes, ?_⟩
    rw [← hg]
    exact ⟨exec_readGroup_named h hg, (s.group g).readBody_length g _, s.signal.strobeSet_getLsbD g, GroupRecord.closeBytes_window,
      fun _ _ => GroupRecord.closeBytes_closed, GroupRecord.closeBytes_absent⟩
  case entry =>
    rw [exec_readMatchEntry_named h hbank hi, ← hbank]
    simp only [MatchTable.readBody, MatchEntry.bytes, List.append_assoc]
    have hactive : flagByte (s.table.active == bank) = if s.table.active = bank then 1 else 0 := by
      by_cases hb : s.table.active = bank
      · simp [flagByte, hb]
      · simp [flagByte, hb]
    rw [hactive]
    cases (s.table.slot bank i).entry.group <;> rfl
  case unselected => exact exec_readCounters_invalid h (State.selectedCounters_none _ hbad)
  case lane =>
    have hselected : (s.emptySlot q.port).selectedCounters (fieldNat q.body 0 1) = some (s.laneCounters l) :=
      hl ▸ State.selectedCounters_lane (s.emptySlot q.port) l
    exact ⟨exec_readCounters_selected h hselected, rfl⟩
  case channel =>
    have hselected : (s.emptySlot q.port).selectedCounters (fieldNat q.body 0 1) = some (s.chan ch).counters.list := by
      rw [hch, State.selectedCounters_chan]
      cases ch <;> rfl
    exact ⟨exec_readCounters_selected h hselected, rfl⟩
  case agent =>
    have hselected : (s.emptySlot q.port).selectedCounters (fieldNat q.body 0 1) = some s.agent.counters := by
      rw [hagent, State.selectedCounters_agent, Agent.counters_eq, Agent.counters_eq]
      simp only [State.emptySlot_list]
      rfl
    rw [Agent.counters_eq] at hselected
    exact ⟨exec_readCounters_selected h hselected, rfl⟩

end Sys2Proof.Machine
end

