-- ==== Sys2Proof/Proofs/LaneCommands.lean ====
section
/-! PROOF. The commands that set a lane up, SET_LANE_MODE and SET_LANE_PROFILE: which bodies they refuse, and what an accepted one leaves; the two watermark tests
that a new profile brings. -/

namespace Sys2Proof.Machine

/-! ### The codes that bodies name (R184) -/

theorem modeNamed_of_le {n : Nat} (h : 2 ≤ n) : modeNamed n = none := by
  rw [modeNamed, if_neg (by omega), if_neg (by omega)]

theorem modeNamed_code (mode : LaneMode) : modeNamed (if mode = .stamp then 1 else 0) = some mode := by cases mode <;> rfl

theorem flagOf_of_le {n : Nat} (h : 2 ≤ n) : flagOf n = none := (flagOf_eq_none_iff n).mpr h

theorem flagOf_code (b : Bool) : flagOf (if b then 1 else 0) = some b := by cases b <;> rfl

/-! ### The reply of a command that records what it changes (R171) -/

theorem Reply.done_recorded {same : Prop} [Decidable same] {set : State} {q : Take} {c : Command} {object : BitVec 16} {detail : List Byte}
    {j : Journal} {h : Handed} (hjournal : set.journal = j)
    (hhanded : set.dtu.handed q.now (.configChange c.code q.port object detail) = h) :
    (if same then Reply.done set else .done (set.recordConfig q c object detail)) =
      .done { set with journal := if same then j else j.take h } := by
  subst hjournal hhanded
  split <;> rfl

theorem exec_row_of_done {s t : State} {sub : Sub} {q : Take} {c : Command} (h : s.Takes sub q c) (hrestart : (c == .restart) = false)
    (hrule : c.rule [] q (s.emptySlot q.port) = .done t) : exec (c.row sub []) s = .next (t.respond q .ok [] false) := by
  rw [exec_row_of_reply h hrule, hrestart]
  rfl

/-! ### SET_LANE_MODE (R65, R104) -/

section

variable {body : List Byte}

theorem laneModeBody_refused (h : 4 ≤ fieldNat body 0 1 ∨ 2 ≤ fieldNat body 1 1 ∨ 2 ≤ fieldNat body 2 1) : laneModeBody body = none := by
  obtain hlane | hmode | hflag := h
  · simp [laneModeBody, laneNamed_of_le hlane]
  · simp [laneModeBody, modeNamed_of_le hmode]
  · simp [laneModeBody, flagOf_of_le hflag]

theorem laneModeBody_accepted {l : LaneId} {mode : LaneMode} {reset : Bool} (hl : l.val = fieldNat body 0 1)
    (hmode : fieldNat body 1 1 = if mode = .stamp then 1 else 0) (hreset : fieldNat body 2 1 = if reset then 1 else 0) :
    laneModeBody body = some { lane := l, mode := mode, resetSequence := reset } := by
  simp [laneModeBody, ← hl, hmode, hreset, modeNamed_code, flagOf_code]

end

section

variable {s : State} {q : Take}

theorem applySetLaneMode_refused (h : laneModeBody q.body = none) : applySetLaneMode q s = .refuse s .invalid := by
  simp only [applySetLaneMode, h]

theorem applySetLaneMode_accepted {b : LaneModeBody} (h : laneModeBody q.body = some b) :
    applySetLaneMode q s = .done { s.withLane b.lane ((s.lane b.lane).takeMode b) with
      journal := if (s.lane b.lane).mode = b.mode ∧ b.resetSequence = false then s.journal
        else s.journal.take (s.dtu.handed q.now
          (.configChange 0x41 q.port (objectOf b.lane) [LaneMode.code b.mode, flagByte b.resetSequence])) } := by
  rw [applySetLaneMode, h]
  exact Reply.done_recorded rfl rfl

/-! ### SET_LANE_PROFILE (R83, R84, R75, R143) -/

theorem orderEtherTypeInRange_iff (n : Nat) : orderEtherTypeInRange n = true ↔ ¬ (n < 0x0600 ∨ n = 0x8808) := by
  simp [orderEtherTypeInRange]

theorem laneProfileBody_refused {body : List Byte}
    (h : 4 ≤ fieldNat body 0 1 ∨ fieldNat body 1 2 < 0x0600 ∨ fieldNat body 1 2 = 0x8808 ∨ 56 < fieldNat body 3 1 ∨ 63 < fieldNat body 4 1 ∨
      ¬ (fieldNat body 5 1 = 0 ∨ fieldNat body 5 1 = 2) ∨ 65535 < fieldNat body 6 4) : laneProfileBody body = none := by
  obtain hlane | hfield := Nat.lt_or_ge 3 (fieldNat body 0 1)
  · simp [laneProfileBody, laneNamed_of_le hlane]
  obtain haction | haction := Nat.lt_or_ge 2 (fieldNat body 5 1)
  · simp [laneProfileBody, (actionNamed_eq_none_iff _).mpr haction]
  have hguard (action : Action) (hnamed : actionNamed (fieldNat body 5 1) = some action) :
      ¬ (orderEtherTypeInRange (fieldNat body 1 2) && decide (fieldNat body 3 1 ≤ 56) && decide (fieldNat body 4 1 ≤ 63) &&
        action != .stamp && decide (fieldNat body 6 4 ≤ 65535)) = true := by
    simp only [Bool.and_eq_true, orderEtherTypeInRange_iff, decide_eq_true_eq, bne_iff_ne, ne_eq]
    rintro ⟨⟨⟨⟨htype, hkey⟩, hkind⟩, hstamp⟩, hlatency⟩
    obtain hcode | hcode | hcode : fieldNat body 5 1 = 0 ∨ fieldNat body 5 1 = 1 ∨ fieldNat body 5 1 = 2 := by omega
    · omega
    · rw [hcode] at hnamed
      exact hstamp (Option.some.inj hnamed).symm
    · omega
  unfold laneProfileBody
  cases hlane : laneNamed (fieldNat body 0 1) with
  | none => rfl
  | some l =>
    cases hnamed : actionNamed (fieldNat body 5 1) with
    | none => rfl
    | some action => exact if_neg (hguard action hnamed)

theorem laneProfileBody_accepted {body : List Byte} {l : LaneId} (hl : l.val = fieldNat body 0 1)
    (htype : 0x0600 ≤ fieldNat body 1 2) (hpause : fieldNat body 1 2 ≠ 0x8808) (hkey : fieldNat body 3 1 ≤ 56) (hkind : fieldNat body 4 1 ≤ 63)
    (haction : fieldNat body 5 1 = 0 ∨ fieldNat body 5 1 = 2) (hlatency : fieldNat body 6 4 ≤ 65535) :
    laneProfileBody body =
      some { lane := l, profile := profileOfBody body (if fieldNat body 5 1 = 0 then .pass else .stampNoGroup) } := by
  have hrange : orderEtherTypeInRange (fieldNat body 1 2) = true := (orderEtherTypeInRange_iff _).mpr (by omega)
  obtain hpass | hnone := haction
  · simp [laneProfileBody, ← hl, hpass, actionNamed, hrange, hkey, hkind, hlatency]
  · simp [laneProfileBody, ← hl, hnone, actionNamed, hrange, hkey, hkind, hlatency]

theorem applySetLaneProfile_refused (h : laneProfileBody q.body = none) : applySetLaneProfile q s = .refuse s .invalid := by
  simp only [applySetLaneProfile, h]

theorem applySetLaneProfile_accepted {b : LaneProfileBody} (h : laneProfileBody q.body = some b) :
    applySetLaneProfile q s =
      .done { (s.withLane b.lane ((s.lane b.lane).takeProfile b.profile q.now)).testWatermarks b.lane q.osc with
        journal := if (s.lane b.lane).profile = b.profile then s.journal
          else s.journal.take (s.dtu.handed q.now
            (.configChange 0x42 q.port (objectOf b.lane) [LaneProfile.changed (s.lane b.lane).profile b.profile])) } := by
  rw [applySetLaneProfile, h]
  obtain ⟨ports, htested⟩ := (s.withLane b.lane ((s.lane b.lane).takeProfile b.profile q.now)).testWatermarks_only b.lane q.osc
  exact Reply.done_recorded (by rw [htested]; rfl) (by rw [htested]; rfl)

end

/-! ### The watermark tests (R75, R76) -/

theorem mate_ne (p : Port) : p ≠ mate p := by
  revert p
  decide

/-- A port's pause state is set and its feeder port offered a pause (R75, R76). -/
def State.tellFeeder (s : State) (p : Port) (timer : Option Nat) (quanta : Nat) : State :=
  (s.withPort p { s.port p with pauseTimer := timer }).withPort (mate p) ((s.port (mate p)).offerPause quanta)

theorem State.testHigh_eq (s : State) (p : Port) (osc : Nat) :
    s.testHigh p osc = if (s.profileOf p).high < fillOf (s.port p).fifo ∧ (s.port p).pauseTimer = none then s.tellFeeder p (some osc) 65535
      else s := by
  unfold State.testHigh
  dsimp only
  rw [State.port_withPort_other _ _ _ _ (mate_ne p)]
  rfl

theorem State.testLow_eq (s : State) (p : Port) :
    s.testLow p = if fillOf (s.port p).fifo < (s.profileOf p).low ∧ (s.port p).pauseTimer ≠ none then s.tellFeeder p none 0 else s := by
  unfold State.testLow
  dsimp only
  rw [State.port_withPort_other _ _ _ _ (mate_ne p)]
  rfl

/-- Settles O42: the body decides between INVALID and the lane it sets; its two watermark tests on each FIFO are the model's own. -/
theorem laneCommandsSetTheLane : Obligations.LaneCommandsSetTheLane := by
  refine ⟨fun s sub q => ⟨fun h => ⟨fun hbad => ?modeRefused, fun l mode reset hl hmode hreset => ?modeSet⟩,
    fun h => ⟨fun hbad => ?profileRefused, fun l hok hl => ?profileSet⟩⟩, fun v p osc => ⟨?high, ?low⟩⟩
  case modeRefused => exact exec_row_of_reply (order := []) h (applySetLaneMode_refused (laneModeBody_refused hbad))
  case modeSet => exact exec_row_of_reply (order := []) h (applySetLaneMode_accepted (laneModeBody_accepted hl hmode hreset))
  case profileRefused => exact exec_row_of_reply (order := []) h (applySetLaneProfile_refused (laneProfileBody_refused hbad))
  case profileSet =>
    simp only [not_or, Nat.not_lt] at hok
    obtain ⟨_, htype, hpause, hkey, hkind, haction, hlatency⟩ := hok
    have hrun := exec_row_of_reply (order := []) h
      (applySetLaneProfile_accepted (laneProfileBody_accepted hl htype hpause hkey hkind (by omega) hlatency))
    unfold profileOfBody clampNat at hrun
    exact hrun
  case high => exact v.testHigh_eq p osc
  case low => exact v.testLow_eq p

end Sys2Proof.Machine
end

