-- ==== Sys2Proof/Proofs/SetupCommands.lean ====
section
/-! PROOF. The commands that set up groups, reference channels, the DTU, the UTC offset, the outputs and the permissions: LOAD_SCHEDULE, SET_REFERENCE_CHANNEL,
SET_PREFERRED_REFERENCE, SET_DISCIPLINE, SET_UTC_OFFSET, SET_OUTPUTS and SET_PERMISSIONS. -/

namespace Sys2Proof.Machine

/-! ### The codes that bodies name (R184) -/

theorem policyNamed_of_le {n : Nat} (h : 2 ≤ n) : policyNamed n = none := by
  rw [policyNamed, if_neg (by omega), if_neg (by omega)]

theorem policyNamed_code (policy : Policy) : policyNamed (if policy = .proceed then 0 else 1) = some policy := by cases policy <;> rfl

theorem channelNamed_of_le {n : Nat} (h : 2 ≤ n) : channelNamed n = none := by
  rw [channelNamed, if_neg (by omega), if_neg (by omega)]

theorem channelNamed_code (ch : Channel) : channelNamed (if ch = .A then 0 else 1) = some ch := by cases ch <;> rfl

theorem filterNamed_of_le {n : Nat} (h : 4 ≤ n) : filterNamed n = none := by
  rw [filterNamed, if_neg (by omega), if_neg (by omega), if_neg (by omega), if_neg (by omega)]

theorem filterNamed_of_lt {n : Nat} (h : n < 4) :
    filterNamed n = some (if n = 0 then 0 else if n = 1 then 8 else if n = 2 then 64 else 512) := by
  interval_cases n <;> rfl

theorem parityNamed_of_le {n : Nat} (h : 3 ≤ n) : parityNamed n = none := by
  rw [parityNamed, if_neg (by omega), if_neg (by omega), if_neg (by omega)]

theorem parityNamed_of_lt {n : Nat} (h : n < 3) :
    parityNamed n = some (if n = 0 then .none else if n = 1 then .even else .odd) := by
  interval_cases n <;> rfl

theorem ppsModeNamed_of_le {n : Nat} (h : 3 ≤ n) : ppsModeNamed n = none := by
  rw [ppsModeNamed, if_neg (by omega), if_neg (by omega), if_neg (by omega)]

theorem ppsModeNamed_of_lt {n : Nat} (h : n < 3) :
    ppsModeNamed n = some (if n = 0 then .off else if n = 1 then .always else .traceableOnly) := by
  interval_cases n <;> rfl

theorem instantOf_of_le {body : List Byte} {off : Nat} (h : 1000000000 ≤ (fieldInstant body off).ns) : instantOf body off = none :=
  if_neg (Nat.not_lt.mpr h)

theorem instantOf_of_lt {body : List Byte} {off : Nat} (h : (fieldInstant body off).ns < 1000000000) :
    instantOf body off = some (fieldInstant body off) := if_pos h

section

variable {s : State} {q : Take}

/-! ### SET_REFERENCE_CHANNEL (R18, R19) -/

theorem channelBody_refused {body : List Byte}
    (h : 2 ≤ fieldNat body 0 1 ∨ 2 ≤ fieldNat body 1 1 ∨ 4 ≤ fieldNat body 2 1 ∨ 1000000 < fieldNat body 3 4 ∨ 2 ≤ fieldNat body 11 1 ∨
      4095 < fieldNat body 12 2 ∨ 2 ≤ fieldNat body 14 1 ∨ 3 ≤ fieldNat body 15 1 ∨ fieldNat body 16 1 = 0 ∨ 2 < fieldNat body 16 1) :
    channelBody body = none := by
  obtain h | h | h | h | h | h | h | h | h := h
  · simp [channelBody, channelNamed_of_le h]
  · simp [channelBody, flagOf_of_le h]
  · simp [channelBody, filterNamed_of_le h]
  · simp [channelBody, Nat.not_le.mpr h]
  · simp [channelBody, flagOf_of_le h]
  · simp [channelBody, Nat.not_le.mpr h]
  · simp [channelBody, flagOf_of_le h]
  · simp [channelBody, parityNamed_of_le h]
  · have hstop : ¬ (1 ≤ fieldNat body 16 1 ∧ fieldNat body 16 1 ≤ 2) := by omega
    simp [channelBody, hstop, and_assoc]

/-- The settings that a body carries (R18). -/
def settingsOfBody (body : List Byte) : ChannelSettings :=
  { enabled := decide (fieldNat body 1 1 = 1)
    filterTicks := if fieldNat body 2 1 = 0 then 0 else if fieldNat body 2 1 = 1 then 8 else if fieldNat body 2 1 = 2 then 64 else 512
    cable := fieldNat body 3 4, early := min (fieldNat body 7 2) 4095, late := min (fieldNat body 9 2) 4095
    wideRange := decide (fieldNat body 11 1 = 1), divisor := fieldNat body 12 2, doubleSpeed := decide (fieldNat body 14 1 = 1)
    parity := if fieldNat body 15 1 = 0 then .none else if fieldNat body 15 1 = 1 then .even else .odd
    stopBits := fieldNat body 16 1 }

theorem channelBody_accepted {body : List Byte} {ch : Channel} (hch : fieldNat body 0 1 = if ch = .A then 0 else 1)
    (henabled : fieldNat body 1 1 < 2) (hfilter : fieldNat body 2 1 < 4) (hcable : fieldNat body 3 4 ≤ 1000000)
    (hwide : fieldNat body 11 1 < 2) (hdivisor : fieldNat body 12 2 ≤ 4095) (hspeed : fieldNat body 14 1 < 2)
    (hparity : fieldNat body 15 1 < 3) (hstop : 1 ≤ fieldNat body 16 1) (hstops : fieldNat body 16 1 ≤ 2) :
    channelBody body = some { channel := ch, settings := settingsOfBody body } := by
  simp [channelBody, settingsOfBody, hch, channelNamed_code, flagOf_of_lt henabled, filterNamed_of_lt hfilter, flagOf_of_lt hwide,
    flagOf_of_lt hspeed, parityNamed_of_lt hparity, hcable, hdivisor, hstop, hstops]

theorem applySetReferenceChannel_refused (h : channelBody q.body = none) : applySetReferenceChannel q s = .refuse s .invalid := by
  simp only [applySetReferenceChannel, h]

theorem applySetReferenceChannel_accepted {b : ChannelBody} (h : channelBody q.body = some b) :
    applySetReferenceChannel q s = .done { s.withChan b.channel ((s.chan b.channel).takeSettings b.settings q.osc) with
      journal := if b.settings = (s.chan b.channel).settings then s.journal
        else s.journal.take (s.dtu.handed q.now (.configChange 0x4B q.port (objectOf (Channel.code b.channel).toNat) [])) } := by
  rw [applySetReferenceChannel, h]
  refine (if_congr (eq_comm (b := b.settings)) rfl rfl).trans ?_
  exact Reply.done_recorded (State.withChan_journal ..) (by rw [State.withChan_dtu]; rfl)

theorem objectOf_channel (ch : Channel) : objectOf (Channel.code ch).toNat = BitVec.ofNat 16 ((if ch = .A then 0 else 1) * 256) := by
  cases ch <;> rfl

theorem ChannelSettings.serialDiffers_iff (a b : ChannelSettings) :
    a.serialDiffers b = true ↔
      b.divisor ≠ a.divisor ∨ b.doubleSpeed ≠ a.doubleSpeed ∨ b.parity ≠ a.parity ∨ b.stopBits ≠ a.stopBits := by
  simp only [ChannelSettings.serialDiffers, Bool.or_eq_true, bne_iff_ne, or_assoc, ne_comm]

end

section

variable {c : RefChannel} {new : ChannelSettings} {osc : Nat}

theorem RefChannel.flush_eq (c : RefChannel) (osc : Nat) :
    c.flush osc = { c with
      receiver := .waitingForStart osc, buffer := [], assembler := .hunting, queue := []
      counters := { c.counters with
        settingsAbort := if c.assembler = .hunting then c.counters.settingsAbort else c.counters.settingsAbort + 1 } } := by
  cases hassembler : c.assembler <;> simp [RefChannel.flush, RefChannel.count, Assembler.busy, hassembler]

theorem RefChannel.takeSettings_disabled (hbefore : c.settings.enabled = true) (hafter : new.enabled = false) :
    c.takeSettings new osc = (({ c with settings := new } : RefChannel).flush osc).disable := by
  simp only [RefChannel.takeSettings, hbefore, hafter]

theorem RefChannel.takeSettings_enabled (hbefore : c.settings.enabled = false) (hafter : new.enabled = true) :
    c.takeSettings new osc = ({ c with settings := new } : RefChannel).enable osc := by
  simp only [RefChannel.takeSettings, hbefore, hafter]

theorem RefChannel.takeSettings_stays (hstays : c.settings.enabled = new.enabled) :
    c.takeSettings new osc =
      if c.settings.serialDiffers new then ({ c with settings := new } : RefChannel).flush osc else { c with settings := new } := by
  cases hnew : new.enabled <;> simp only [RefChannel.takeSettings, hstays, hnew]

theorem RefChannel.takeSettings_same : c.takeSettings c.settings osc = c := by
  have hserial : ¬ c.settings.serialDiffers c.settings = true := by
    rw [ChannelSettings.serialDiffers_iff]
    simp
  rw [RefChannel.takeSettings_stays rfl, if_neg hserial]

end

section

variable {s : State} {q : Take}

/-! ### SET_PREFERRED_REFERENCE and SET_DISCIPLINE (R37, R56, R182) -/

theorem applySetPreferredReference_refused (h : 2 ≤ fieldNat q.body 0 1) : applySetPreferredReference q s = .refuse s .invalid := by
  simp only [applySetPreferredReference, channelNamed_of_le h]

theorem applySetPreferredReference_accepted {ch : Channel} (h : fieldNat q.body 0 1 = if ch = .A then 0 else 1) :
    applySetPreferredReference q s =
      .done ((s.withDtu { s.dtu with preferred := ch }).recordConfig q .setPreferredReference noObject [Channel.code ch]) := by
  simp only [applySetPreferredReference, h, channelNamed_code]

theorem allowedPersistence_eq (n : Nat) : allowedPersistence n = if n < 2 then 1 else if n < 4 then 2 else if n < 8 then 4 else 8 := by
  unfold allowedPersistence
  split_ifs <;> omega

theorem disciplineBody_refused {body : List Byte} (h : fieldNat body 8 4 < 1000) : disciplineBody body = none := if_pos h

/-- The settings that a SetDiscipline carries, clamped (R37). -/
def disciplineOfBody (body : List Byte) : DtuSettings :=
  let f := fieldNat body
  let limit := min (f 8 4) 1000000000
  let n := f 22 1
  { acqKi := min (f 0 1) 15, acqKp := min (f 1 1) 15, trackKi := min (f 2 1) 15, trackKp := min (f 3 1) 15
    sMax := min (f 4 4) 3200000, limit := limit, warn := min (f 12 4) limit, uncertainty := min (f 16 4) 1000000
    qualify := max 1 (min (f 20 1) 64), age := max 2 (min (f 21 1) 16)
    persistence := if n < 2 then 1 else if n < 4 then 2 else if n < 8 then 4 else 8
    growth := min (f 23 4) 100000, stepThreshold := max 1000 (min (f 27 4) 500000000)
    revertDelay := max 10 (min (f 31 2) 3600), crossLimit := max 1000 (min (f 33 4) 1000000000) }

theorem disciplineBody_accepted {body : List Byte} (h : 1000 ≤ fieldNat body 8 4) : disciplineBody body = some (disciplineOfBody body) := by
  rw [disciplineBody, if_neg (Nat.not_lt.mpr h), disciplineOfBody]
  dsimp only
  rw [allowedPersistence_eq]
  unfold clampNat
  rfl

theorem applySetDiscipline_refused (h : disciplineBody q.body = none) : applySetDiscipline q s = .refuse s .invalid := by
  simp only [applySetDiscipline, h]

theorem applySetDiscipline_accepted {settings : DtuSettings} (h : disciplineBody q.body = some settings) :
    applySetDiscipline q s = .done { s.withDtu { s.dtu with settings := settings } with
      journal := if s.dtu.settings = settings then s.journal
        else s.journal.take (s.dtu.handed q.now (.configChange 0x4D q.port noObject [])) } := by
  rw [applySetDiscipline, h]
  exact Reply.done_recorded rfl rfl

end

/-- Settles O47: each body decides between INVALID and settings; what those do to a channel turns on its enabled flag before and after. -/
theorem referenceSettingsAreReplaced : Obligations.ReferenceSettingsAreReplaced := by
  intro s sub q
  refine ⟨fun h => ⟨fun hbad => ?channelRefused, fun ch hok hch => ?channelSet⟩,
    fun h => ⟨fun hbad => ?preferredRefused, fun ch hch => ?preferredSet⟩, fun h => ⟨fun hbad => ?disciplineRefused, fun hok => ?disciplineSet⟩⟩
  case channelRefused => exact exec_row_of_reply (order := []) h (applySetReferenceChannel_refused (channelBody_refused hbad))
  case channelSet =>
    simp only [not_or, Nat.not_le, Nat.not_lt] at hok
    obtain ⟨_, henabled, hfilter, hcable, hwide, hdivisor, hspeed, hparity, hstop, hstops⟩ := hok
    have hbody := channelBody_accepted hch henabled hfilter hcable hwide hdivisor hspeed hparity (Nat.pos_of_ne_zero hstop) hstops
    have hrun := exec_row_of_reply (order := []) h (applySetReferenceChannel_accepted hbody)
    rw [objectOf_channel] at hrun
    refine ⟨(s.chan ch).takeSettings (settingsOfBody q.body) q.osc, ?run, fun hsame => ?same, fun hbefore hafter hserial => ?flushed,
      fun hstays hserial => ?kept, fun hbefore hafter => ?disabled, fun hbefore hafter => ?enabled⟩
    case same => exact (congrArg (fun x => (s.chan ch).takeSettings x q.osc) hsame).trans RefChannel.takeSettings_same
    case flushed =>
      exact (RefChannel.takeSettings_stays (hbefore.trans hafter.symm)).trans
        ((if_pos ((ChannelSettings.serialDiffers_iff ..).mpr hserial)).trans (RefChannel.flush_eq _ _))
    case kept => exact (RefChannel.takeSettings_stays hstays).trans (if_neg (mt (ChannelSettings.serialDiffers_iff ..).mp hserial))
    case disabled => exact (RefChannel.takeSettings_disabled hbefore hafter).trans (congrArg RefChannel.disable (RefChannel.flush_eq _ _))
    case enabled => exact RefChannel.takeSettings_enabled hbefore hafter
    case run => exact hrun
  case preferredRefused => exact exec_row_of_reply (order := []) h (applySetPreferredReference_refused hbad)
  case preferredSet =>
    have hcode : Channel.code ch = if ch = .A then 0 else 1 := by cases ch <;> rfl
    have hrun := exec_row_of_reply (order := []) h (applySetPreferredReference_accepted hch)
    rw [hcode] at hrun
    exact hrun
  case disciplineRefused => exact exec_row_of_reply (order := []) h (applySetDiscipline_refused (disciplineBody_refused hbad))
  case disciplineSet => exact exec_row_of_reply (order := []) h (applySetDiscipline_accepted (disciplineBody_accepted hok))

/-! ### SET_UTC_OFFSET (R11, R12, R181) -/

section

variable {s : State} {q : Take} {t : Instant} {change : OffsetChange}

theorem State.takeSchedule_ahead (h : Before t change.effective) :
    s.takeSchedule change t = s.withTime { s.time with pendingOffset := some change } := if_neg (not_not.mpr h)

theorem State.takeSchedule_reached (h : AtOrAfter t change.effective) : s.takeSchedule change t = s.applyOffset change t := if_pos h

theorem applySetUtcOffset_refused (h : 1000000000 ≤ (fieldInstant q.body 1).ns) : applySetUtcOffset q s = .refuse s .invalid := by
  simp only [applySetUtcOffset, instantOf_of_le h]

/-- The change that a SetUtcOffset schedules (R181). -/
def Take.offsetChange (q : Take) : OffsetChange :=
  { newOffset := fieldInt q.body 0 1, effective := fieldInstant q.body 1, source := .command }

theorem applySetUtcOffset_accepted (h : (fieldInstant q.body 1).ns < 1000000000) :
    applySetUtcOffset q s = .done ((s.recordConfig q .setUtcOffset noObject
      (signedBytes 1 (fieldInt q.body 0 1) ++ beBytes 6 (fieldInstant q.body 1).sec)).takeSchedule q.offsetChange q.now) := by
  simp only [applySetUtcOffset, instantOf_of_lt h]
  rfl

end

/-- Settles O49: a schedule that stands is compared with the reading of its take alone. -/
theorem utcOffsetIsScheduled : Obligations.UtcOffsetIsScheduled := by
  intro s sub q h
  refine ⟨fun hbad => ?refused, fun hok => ⟨fun hahead => ?scheduled, fun hreached => ?applied⟩⟩
  case refused => exact exec_row_of_reply (order := []) h (applySetUtcOffset_refused hbad)
  case scheduled =>
    have hreply := applySetUtcOffset_accepted (s := s.emptySlot q.port) hok
    rw [State.takeSchedule_ahead (change := q.offsetChange) hahead] at hreply
    exact exec_row_of_reply (order := []) h hreply
  case applied =>
    have hreply := applySetUtcOffset_accepted (s := s.emptySlot q.port) hok
    rw [State.takeSchedule_reached (change := q.offsetChange) hreached] at hreply
    exact exec_row_of_reply (order := []) h hreply

/-! ### SET_OUTPUTS (R15, R150, R182, R191) -/

section

variable {s : State} {q : Take} {body : List Byte}

theorem outputsBody_refused (h : 3 ≤ fieldNat body 0 1 ∨ 128 ≤ fieldNat body 21 1) : outputsBody body = none := by
  obtain hmode | hmask := h
  · simp [outputsBody, ppsModeNamed_of_le hmode]
  · simp [outputsBody, Nat.not_lt.mpr hmask]

/-- The outputs that a body carries, widths of 0 taken as 1 (R182). -/
def outputsOfBody (body : List Byte) : OutputsBody :=
  { mode := if fieldNat body 0 1 = 0 then .off else if fieldNat body 0 1 = 1 then .always else .traceableOnly
    width := max 1 (fieldNat body 1 2), compensation := fieldNat body 3 2
    lines := Vector.ofFn fun (i : Line) =>
      (BitVec.ofNat 16 (fieldNat body (5 + 4 * i.val) 2), max 1 (fieldNat body (7 + 4 * i.val) 2))
    mask := BitVec.ofNat 7 (fieldNat body 21 1) }

theorem outputsBody_accepted (hmode : fieldNat body 0 1 < 3) (hmask : fieldNat body 21 1 < 128) :
    outputsBody body = some (outputsOfBody body) := by
  simp [outputsBody, outputsOfBody, ppsModeNamed_of_lt hmode, hmask]

theorem SignalBlock.takeSettings_strobe (sb : SignalBlock) (b : OutputsBody) (line : Line) :
    (sb.takeSettings b).strobes[line] = { sb.strobes[line] with groups := (b.lines[line]).1, width := (b.lines[line]).2 } := by
  simp [SignalBlock.takeSettings]

theorem outputsOfBody_line (body : List Byte) (line : Line) :
    (outputsOfBody body).lines[line] =
      (BitVec.ofNat 16 (fieldNat body (5 + 4 * line.val) 2), max 1 (fieldNat body (7 + 4 * line.val) 2)) := by
  simp [outputsOfBody]

theorem applySetOutputs_refused (h : outputsBody q.body = none) : applySetOutputs q s = .refuse s .invalid := by
  simp only [applySetOutputs, h]

theorem applySetOutputs_accepted {b : OutputsBody} (h : outputsBody q.body = some b) :
    applySetOutputs q s = .done { s with
      time := { s.time with pps := s.time.pps.takeSettings b }
      signal := s.signal.takeSettings b
      journal := if s.time.pps.takeSettings b = s.time.pps ∧ s.signal.takeSettings b = s.signal then s.journal
        else s.journal.take (s.dtu.handed q.now (.configChange 0x51 q.port noObject [])) } := by
  rw [applySetOutputs, h]
  exact Reply.done_recorded rfl rfl

end

/-- Settles O50: the body names the new settings, which leave the pulses in progress. -/
theorem outputsAreReplaced : Obligations.OutputsAreReplaced := by
  intro s sub q h
  refine ⟨fun hbad => ?refused, fun hmode hmask => ?replaced⟩
  case refused => exact exec_row_of_reply (order := []) h (applySetOutputs_refused (outputsBody_refused hbad))
  case replaced =>
    refine ⟨_, exec_row_of_done h rfl (applySetOutputs_accepted (outputsBody_accepted hmode hmask)), rfl, rfl, rfl,
      fun line => ?_, rfl⟩
    exact (SignalBlock.takeSettings_strobe s.signal _ line).trans (by rw [outputsOfBody_line])

/-! ### SET_PERMISSIONS (R178) -/

section

variable {s : State} {q : Take} {body : List Byte}

theorem Level.code_ofCode {n : Nat} (h : n ≤ 3) : Level.code ((Level.ofCode n).getD .none) = n := by
  interval_cases n <;> rfl

theorem Level.eq_configure_iff (level : Level) : level = .configure ↔ Level.code level = 3 := by
  cases level <;> decide

theorem levelIn_code {p : Port} (h : fieldNat body p.val 1 ≤ 3) : Level.code (levelIn body p) = fieldNat body p.val 1 :=
  Level.code_ofCode h

theorem permissionsBody_refused (h : (∃ p : Port, 3 < fieldNat body p.val 1) ∨ ∀ p : Port, fieldNat body p.val 1 ≠ 3) :
    permissionsBody body = none := by
  refine if_neg fun hall => ?_
  simp only [Bool.and_eq_true, List.all_eq_true, List.any_eq_true, decide_eq_true_eq, beq_iff_eq, List.mem_finRange, true_and, forall_const] at hall
  obtain ⟨hcodes, p, hconfigure⟩ := hall
  obtain ⟨p', hhigh⟩ | hnone := h
  · exact absurd (hcodes p') (Nat.not_le.mpr hhigh)
  · exact hnone p ((levelIn_code (hcodes p)).symm.trans ((Level.eq_configure_iff _).mp hconfigure))

theorem permissionsBody_accepted (hcodes : ∀ p : Port, fieldNat body p.val 1 ≤ 3) {p : Port} (hconfigure : fieldNat body p.val 1 = 3) :
    permissionsBody body = some (Vector.ofFn fun p => levelIn body p) := by
  refine if_pos ?_
  simp only [Bool.and_eq_true, List.all_eq_true, List.any_eq_true, decide_eq_true_eq, beq_iff_eq, List.mem_finRange, true_and, forall_const]
  exact ⟨hcodes, p, (Level.eq_configure_iff _).mpr ((levelIn_code (hcodes p)).trans hconfigure)⟩

theorem Agent.withLevels_port (a : Agent) (levels : Vector Level 8) (p : Port) :
    (a.withLevels levels).ports[p] = { a.ports[p] with level := levels[p] } := by
  simp [Agent.withLevels]

theorem AgentPort.eq_of_withLevel {a b : AgentPort} {level : Level} (h : a = { b with level := level }) :
    a = { b with level := a.level } := by
  subst h
  rfl

theorem State.emptySlot_agentPort_level (s : State) (k p : Port) : ((s.emptySlot k).agentPort p).level = (s.agentPort p).level := by
  by_cases hp : p = k
  · rw [hp, State.emptySlot_agentPort_self]
  · rw [State.emptySlot_agentPort_other s hp]

theorem Agent.levels_eq_iff (a : Agent) (levels : Vector Level 8) : a.levels = levels ↔ ∀ p : Port, levels[p] = (a.ports[p]).level := by
  constructor
  · rintro rfl p
    simp [Agent.levels]
  · intro h
    refine Vector.ext fun i hi => ?_
    have hp := h ⟨i, hi⟩
    simpa [Agent.levels] using hp.symm

theorem applySetPermissions_refused (h : permissionsBody q.body = none) : applySetPermissions q s = .refuse s .invalid := by
  simp only [applySetPermissions, h]

theorem applySetPermissions_accepted {levels : Vector Level 8} (h : permissionsBody q.body = some levels) :
    applySetPermissions q s = .done { s with
      agent := s.agent.withLevels levels
      journal := if s.agent.levels = levels then s.journal
        else s.journal.take (s.dtu.handed q.now (.configChange 0x52 q.port noObject (levelBytes levels))) } := by
  rw [applySetPermissions, h]
  exact Reply.done_recorded rfl rfl

/-- A take finds no Restart pending (R174, R185). -/
theorem State.Takes.restart_none {sub : Sub} {c : Command} (h : s.Takes sub q c) : s.agent.restart = none := by
  obtain ⟨hnext, _⟩ := h
  obtain ⟨hfree, _⟩ := State.nextTake_eq_some hnext
  exact (State.freeToTake_iff.mp hfree).2

end

/-- Settles O51: the eight codes decide between INVALID and the levels, all replaced at once. -/
theorem permissionsAreReplacedTogether : Obligations.PermissionsAreReplacedTogether := by
  intro s sub q h
  refine ⟨fun hbad => ?refused, fun hok => ?replaced⟩
  case refused => exact exec_row_of_reply (order := []) h (applySetPermissions_refused (permissionsBody_refused hbad))
  case replaced =>
    simp only [not_or, not_exists, Nat.not_lt, not_forall, ne_eq, not_not] at hok
    obtain ⟨hcodes, p, hconfigure⟩ := hok
    have hlevel (p : Port) : (Vector.ofFn fun p => levelIn q.body p)[p] = levelIn q.body p := by simp
    have hport (p : Port) := ((s.emptySlot q.port).agent).withLevels_port (Vector.ofFn fun p => levelIn q.body p) p
    have hset := ((s.emptySlot q.port).agent).levels_eq_iff (Vector.ofFn fun p => levelIn q.body p)
    refine ⟨_, exec_row_of_done h rfl (applySetPermissions_accepted (permissionsBody_accepted hcodes hconfigure)),
      fun p => ⟨?kept, ?code⟩, rfl, rfl, h.restart_none, ?recorded⟩
    case kept => exact AgentPort.eq_of_withLevel (hport p)
    case code => exact (congrArg Level.code ((congrArg AgentPort.level (hport p)).trans (hlevel p))).trans (levelIn_code (hcodes p))
    case recorded =>
      refine if_congr (hset.trans (forall_congr' fun p => ?_)) rfl (congrArg (fun detail => Journal.take (s.dtu.handed q.now
        (.configChange 0x52 q.port noObject detail)) s.journal) (List.map_congr_left fun p _ => ?_))
      · rw [← State.emptySlot_agentPort_level s q.port p]
        exact Eq.congr (congrArg AgentPort.level (hport p)).symm rfl
      · rw [hlevel p, levelIn_code (hcodes p)]

end Sys2Proof.Machine
end

