-- ==== Sys2Proof/Proofs/LoadSchedule.lean ====
section
/-! PROOF. LOAD_SCHEDULE: the order of its refusals, the group it loads, and the draw at the take where the window start is reached. -/

namespace Sys2Proof.Machine

/-! ### The body (R117) -/

theorem scheduleBody_refused {body : List Byte}
    (h : 16 ≤ fieldNat body 0 1 ∨ 1000000000 ≤ fieldNat body 7 4 ∨ 1000000000 ≤ fieldNat body 17 4 ∨ 2 ≤ fieldNat body 30 1 ∨
      fieldNat body 25 4 = 0 ∨ 3600000 < fieldNat body 25 4 ∨ fieldNat body 31 4 = 0 ∨ 600000 < fieldNat body 31 4 ∨
      16 ≤ fieldNat body 35 1) : scheduleBody body = none := by
  obtain hgroup | hcall | hwindow | hpolicy | hrange := h
  · simp [scheduleBody, groupNamed_of_le hgroup]
  · simp [scheduleBody, instantOf_of_le (body := body) (off := 1) hcall]
  · simp [scheduleBody, instantOf_of_le (body := body) (off := 11) hwindow]
  · simp [scheduleBody, policyNamed_of_le hpolicy]
  · have hguard : ¬ (1 ≤ fieldNat body 25 4 ∧ fieldNat body 25 4 ≤ 3600000 ∧ 1 ≤ fieldNat body 31 4 ∧ fieldNat body 31 4 ≤ 600000 ∧
        fieldNat body 35 1 < 16) := by omega
    simp [scheduleBody, hguard, and_assoc]

/-- The schedule that a body carries for a group under a policy, W and the extension limit clamped (R117). -/
def scheduleOfBody (body : List Byte) (g : Group) (policy : Policy) : ScheduleBody :=
  { group := g, callStart := fieldInstant body 1, windowStart := fieldInstant body 11, window := min (fieldNat body 21 4) 600000
    extLength := fieldNat body 25 4, extLimit := min (fieldNat body 29 1) 7, policy := policy, deferRestart := fieldNat body 31 4
    lanes := BitVec.ofNat 4 (fieldNat body 35 1) }

theorem scheduleBody_accepted {body : List Byte} {g : Group} {policy : Policy} (hg : g.val = fieldNat body 0 1)
    (hcall : fieldNat body 7 4 < 1000000000) (hwindow : fieldNat body 17 4 < 1000000000)
    (hpolicy : fieldNat body 30 1 = if policy = .proceed then 0 else 1)
    (hext : 1 ≤ fieldNat body 25 4 ∧ fieldNat body 25 4 ≤ 3600000) (hdefer : 1 ≤ fieldNat body 31 4 ∧ fieldNat body 31 4 ≤ 600000)
    (hlanes : fieldNat body 35 1 < 16) :
    scheduleBody body = some (scheduleOfBody body g policy) := by
  simp [scheduleBody, scheduleOfBody, ← hg, instantOf_of_lt (body := body) (off := 1) hcall,
    instantOf_of_lt (body := body) (off := 11) hwindow, hpolicy, policyNamed_code, hext, hdefer, hlanes]

/-! ### The refusals (R117) -/

section

variable {s : State} {b : ScheduleBody} {t : Instant} {q : Take} {order : Order}

theorem State.scheduleRefusal_inCall (h : (s.group b.group).state.inCall = true) : s.scheduleRefusal b t = some .wrongState := if_pos h

theorem State.scheduleRefusal_free (hcall : ¬ (s.group b.group).state.inCall = true) (h : s.dtu.state = .free) :
    s.scheduleRefusal b t = some .notSet := (if_neg hcall).trans (if_pos h)

theorem State.scheduleRefusal_late (hcall : ¬ (s.group b.group).state.inCall = true) (hset : s.dtu.state ≠ .free)
    (h : AtOrAfter b.callStart b.windowStart ∨ AtOrAfter t (addMs b.windowStart b.window)) : s.scheduleRefusal b t = some .invalid := by
  refine ((if_neg hcall).trans (if_neg hset)).trans ?_
  obtain hstart | hend := h
  · exact if_pos hstart
  · rw [if_pos hend, ite_self]

theorem State.scheduleRefusal_none (hcall : ¬ (s.group b.group).state.inCall = true) (hset : s.dtu.state ≠ .free)
    (hstart : Before b.callStart b.windowStart) (hend : Before t (addMs b.windowStart b.window)) : s.scheduleRefusal b t = none :=
  ((if_neg hcall).trans (if_neg hset)).trans ((if_neg (not_not.mpr hstart)).trans (if_neg (not_not.mpr hend)))

theorem applyLoadSchedule_refusedBody (h : scheduleBody q.body = none) : applyLoadSchedule order q s = .refuse s .invalid := by
  simp only [applyLoadSchedule, h]

theorem applyLoadSchedule_refused {status : Status} (h : scheduleBody q.body = some b) (hrefusal : s.scheduleRefusal b q.now = some status) :
    applyLoadSchedule order q s = .refuse s status := by
  simp only [applyLoadSchedule, h, hrefusal]

/-- The state after a schedule is loaded and recorded, in the order the row names (log entry 7). -/
def State.loadedSchedule (s : State) (order : Order) (q : Take) (b : ScheduleBody) : State :=
  if order.headD 0 % 2 = 0 then (s.loadGroup b q.now).recordSchedule q b else (s.recordSchedule q b).loadGroup b q.now

theorem applyLoadSchedule_accepted (h : scheduleBody q.body = some b) (hrefusal : s.scheduleRefusal b q.now = none) :
    applyLoadSchedule order q s =
      .give (s.loadedSchedule order q b) [GroupState.code ((s.loadedSchedule order q b).group b.group).state] := by
  simp only [applyLoadSchedule, h, hrefusal, State.loadedSchedule]

/-! ### The group loaded (R118) -/

theorem State.loadGroup_ahead (h : Before t b.windowStart) : s.loadGroup b t = s.withGroup b.group (b.record t) :=
  if_neg (not_not.mpr h)

theorem State.loadGroup_reached (h : AtOrAfter t b.windowStart) :
    s.loadGroup b t = (s.withGroup b.group (b.record t)).openWindow b.group t t := if_pos h

theorem State.loadedSchedule_ahead (h : Before q.now b.windowStart) :
    s.loadedSchedule order q b = (s.withGroup b.group (b.record q.now)).recordSchedule q b := by
  unfold State.loadedSchedule
  split
  · rw [State.loadGroup_ahead h]
  · rw [State.loadGroup_ahead h]
    rfl

theorem State.withGroup_withGroup (s : State) (g : Group) (r r' : GroupRecord) : (s.withGroup g r).withGroup g r' = s.withGroup g r' := by
  simp [State.withGroup, State.withAuction]

/-- The record of a group that enters WINDOW with a draw of delay `d` at the reading `t`, from a seed that is committed or not (R121 to R123). -/
def GroupRecord.drawn (r : GroupRecord) (d : Nat) (uncommitted : Bool) (drawInstant : Instant) : GroupRecord :=
  { r with
    state := .window
    close := some (if AtOrAfter (addMs r.windowStart d) drawInstant then addMs r.windowStart d else earlierOf drawInstant r.windowEnd)
    draw := some { d := d, uncommitted := uncommitted, advanced := decide (Before (addMs r.windowStart d) drawInstant) } }

/-- The close instant of a drawn group (R123). -/
def GroupRecord.closeOf (r : GroupRecord) (d : Nat) (drawInstant : Instant) : Instant :=
  if AtOrAfter (addMs r.windowStart d) drawInstant then addMs r.windowStart d else earlierOf drawInstant r.windowEnd

/-- A group enters WINDOW, and is decided where its close is reached at the reading of the draw (R121). -/
theorem State.openWindow_eq (s : State) (g : Group) (drawInstant reading : Instant) :
    s.openWindow g drawInstant reading =
      (let d := drawDelay (SeedSlot.forDraw s.auction.seed reading).1 (drawKey s.auction.day g (s.group g).k) (s.group g).window
       let opened := s.withGroup g ((s.group g).drawn d (SeedSlot.forDraw s.auction.seed reading).2 drawInstant)
       if AtOrAfter reading ((s.group g).closeOf d drawInstant) then opened.decideClose g reading else opened) := rfl

theorem earlierOf_eq_left {a b : Instant} (h : AtOrAfter b a) : earlierOf a b = a := if_neg h

theorem atOrAfter_carryBy (sec ns d unit : Nat) :
    AtOrAfter { sec := sec + (ns + d) / unit, ns := (ns + d) % unit } { sec := sec, ns := ns } := by
  have hsplit := Nat.div_add_mod (ns + d) unit
  rintro (hsec | ⟨hsec, hns⟩)
  · exact absurd hsec (Nat.not_lt.mpr (Nat.le_add_right _ _))
  · have hcarry : (ns + d) / unit = 0 := Nat.add_left_cancel (n := sec) hsec
    rw [hcarry, Nat.mul_zero, Nat.zero_add] at hsplit
    exact absurd (hsplit.symm.trans_lt hns) (Nat.not_lt.mpr (Nat.le_add_right _ _))

theorem addMs_atOrAfter (i : Instant) (ms : Nat) : AtOrAfter (addMs i ms) i :=
  atOrAfter_carryBy i.sec i.ns (ms * 1000000) nsPerSecond

theorem before_of_before_of_atOrAfter {a b c : Instant} (hab : Before a b) (hbc : AtOrAfter c b) : Before a c := by
  simp only [AtOrAfter, Before] at *; omega

theorem Before.not_after {a b : Instant} (h : Before a b) : AtOrAfter b a := by
  obtain hsec | ⟨hsec, hns⟩ := h
  · rintro (hsec' | ⟨hsec', _⟩) <;> omega
  · rintro (hsec' | ⟨_, hns'⟩) <;> omega

/-- The delay that a group loaded at the reading `t` draws (R122, R123). -/
def State.loadDelay (s : State) (b : ScheduleBody) (t : Instant) : Nat :=
  drawDelay (SeedSlot.forDraw s.auction.seed t).1 (drawKey s.auction.day b.group 0) b.window

theorem State.loadDelay_eq (s : State) (b : ScheduleBody) (t : Instant) :
    s.loadDelay b t = ((SeedSlot.forDraw s.auction.seed t).1 ^^^ BitVec.ofNat 32 (s.auction.day * 65536 + b.group.val * 256)).toNat *
      2654435761 % 4294967296 * (b.window + 1) / 4294967296 := by
  unfold State.loadDelay drawDelay drawValue drawKey
  rw [Nat.add_zero]

/-- The record of a group loaded past its window start, its close at `c` (R118, R121). -/
def State.loadDrawn (s : State) (b : ScheduleBody) (t c : Instant) : GroupRecord :=
  { b.record t with
    state := .window
    close := some c
    draw := some { d := s.loadDelay b t, uncommitted := (SeedSlot.forDraw s.auction.seed t).2
                   advanced := decide (Before (addMs b.windowStart (s.loadDelay b t)) t) } }

theorem State.loadGroup_drawn {c : Instant} (hstart : AtOrAfter t b.windowStart) (hend : Before t (addMs b.windowStart b.window))
    (hc : c = if AtOrAfter (addMs b.windowStart (s.loadDelay b t)) t then addMs b.windowStart (s.loadDelay b t) else t) :
    s.loadGroup b t =
      if AtOrAfter t c then (s.withGroup b.group (s.loadDrawn b t c)).decideClose b.group t else s.withGroup b.group (s.loadDrawn b t c) := by
  have hclose : (b.record t).closeOf (s.loadDelay b t) t = c := by
    have hnow : earlierOf t (b.record t).windowEnd = t := earlierOf_eq_left (Before.not_after hend)
    rw [hc, GroupRecord.closeOf, hnow]
    rfl
  have hdrawn : (b.record t).drawn (s.loadDelay b t) (SeedSlot.forDraw s.auction.seed t).2 t = s.loadDrawn b t c := by
    rw [State.loadDrawn, ← hclose]
    rfl
  have hdelay : drawDelay (SeedSlot.forDraw s.auction.seed t).1 (drawKey s.auction.day b.group (b.record t).k) (b.record t).window =
      s.loadDelay b t := rfl
  rw [State.loadGroup_reached hstart, State.openWindow_eq]
  simp only [State.group_withGroup_self, State.withGroup_auction, State.withGroup_withGroup]
  rw [hdelay, hclose, hdrawn]

/-- The group after its load past the window start, decided where its close is reached at the take (R118, R121). -/
def State.loadDecided (s : State) (b : ScheduleBody) (t c : Instant) : State :=
  if AtOrAfter t c then (s.withGroup b.group (s.loadDrawn b t c)).decideClose b.group t else s.withGroup b.group (s.loadDrawn b t c)

theorem State.loadDecided_dtu (s : State) (b : ScheduleBody) (t c : Instant) : (s.loadDecided b t c).dtu = s.dtu := by
  unfold State.loadDecided
  split
  · obtain ⟨auction, journal, signal, lanes, ports, hdecided⟩ := (s.withGroup b.group (s.loadDrawn b t c)).decideClose_only b.group t
    rw [hdecided]
    rfl
  · rfl

/-- The ConfigChange record of a LoadSchedule, handed under the DTU of the take (R118). -/
def State.recordLoad (s : State) (d : Dtu) (q : Take) (b : ScheduleBody) : State :=
  { s with journal := s.journal.take (d.handed q.now (.configChange 0x45 q.port (objectOf b.group) (instantBytes b.windowStart))) }

theorem State.loadedSchedule_drawn {c : Instant} (hstart : AtOrAfter q.now b.windowStart)
    (hend : Before q.now (addMs b.windowStart b.window))
    (hc : c = if AtOrAfter (addMs b.windowStart (s.loadDelay b q.now)) q.now then addMs b.windowStart (s.loadDelay b q.now) else q.now) :
    s.loadedSchedule order q b =
      if order.headD 0 % 2 = 0 then (s.loadDecided b q.now c).recordLoad s.dtu q b else (s.recordLoad s.dtu q b).loadDecided b q.now c := by
  unfold State.loadedSchedule
  have hrecorded : s.recordSchedule q b = s.recordLoad s.dtu q b := rfl
  have hdrawn : s.loadGroup b q.now = s.loadDecided b q.now c := State.loadGroup_drawn hstart hend hc
  have hafter : (s.recordLoad s.dtu q b).loadGroup b q.now = (s.recordLoad s.dtu q b).loadDecided b q.now c :=
    State.loadGroup_drawn hstart hend hc
  rw [hrecorded, hafter, hdrawn]
  have hlast : (s.loadDecided b q.now c).recordSchedule q b = (s.loadDecided b q.now c).recordLoad (s.loadDecided b q.now c).dtu q b := rfl
  rw [hlast, State.loadDecided_dtu]

theorem ScheduleBody.record_code (b : ScheduleBody) (t : Instant) :
    GroupState.code (b.record t).state = if Before t b.callStart then 1 else 2 := by
  by_cases h : Before t b.callStart
  · rw [if_pos h, ScheduleBody.record, if_pos h]
    rfl
  · rw [if_neg h, ScheduleBody.record, if_neg h]
    rfl

/-- The answer to a LoadSchedule that is accepted (R118). -/
theorem exec_loadSchedule_accepted {sub : Sub} (h : s.Takes sub q .loadSchedule) (hbody : scheduleBody q.body = some b)
    (hrefusal : s.scheduleRefusal b q.now = none) :
    exec (.loadSchedule sub order) s = .next (((s.emptySlot q.port).loadedSchedule order q b).respond q .ok
      [GroupState.code (((s.emptySlot q.port).loadedSchedule order q b).group b.group).state] false) :=
  exec_row_of_reply h (applyLoadSchedule_accepted hbody hrefusal)

theorem exec_loadSchedule_ahead {sub : Sub} (h : s.Takes sub q .loadSchedule) (hbody : scheduleBody q.body = some b)
    (hrefusal : s.scheduleRefusal b q.now = none) (hahead : Before q.now b.windowStart) :
    exec (.loadSchedule sub order) s = .next ((((s.emptySlot q.port).withGroup b.group (b.record q.now)).recordLoad s.dtu q b).respond q .ok
      [if Before q.now b.callStart then 1 else 2] false) := by
  have hgroup : (((s.emptySlot q.port).withGroup b.group (b.record q.now)).recordSchedule q b).group b.group = b.record q.now :=
    State.group_withGroup_self _ _ _
  rw [exec_loadSchedule_accepted h hbody hrefusal, State.loadedSchedule_ahead hahead, hgroup, ScheduleBody.record_code]
  rfl

end

/-- Settles O44: the refusals stand in the order of R117's table, and a schedule accepted is drawn at the take where its window start is reached. -/
theorem loadScheduleArmsTheGroup : Obligations.LoadScheduleArmsTheGroup := by
  intro s sub order q h
  refine ⟨fun hbad => ?body, fun g policy hok hg hpolicy => ?accepted⟩
  case body => exact exec_row_of_reply h (applyLoadSchedule_refusedBody (scheduleBody_refused hbad))
  case accepted =>
    simp only [not_or, Nat.not_le, Nat.not_lt] at hok
    obtain ⟨_, hcall, hwindow, _, hext, hextMax, hdefer, hdeferMax, hlanes⟩ := hok
    have hbody := scheduleBody_accepted hg hcall hwindow hpolicy ⟨Nat.pos_of_ne_zero hext, hextMax⟩ ⟨Nat.pos_of_ne_zero hdefer, hdeferMax⟩ hlanes
    refine ⟨fun hin => ?inCall, fun hin hfree => ?notSet, fun hin hset => ⟨fun hlate => ?late, fun hstart hahead => ?armed,
      fun hstart hreached hend => ?drawn⟩⟩
    case inCall =>
      exact exec_row_of_reply h (applyLoadSchedule_refused hbody (State.scheduleRefusal_inCall ((GroupState.inCall_iff _).mpr hin)))
    case notSet =>
      exact exec_row_of_reply h (applyLoadSchedule_refused hbody (State.scheduleRefusal_free (mt (GroupState.inCall_iff _).mp hin) hfree))
    case late =>
      exact exec_row_of_reply h
        (applyLoadSchedule_refused hbody (State.scheduleRefusal_late (mt (GroupState.inCall_iff _).mp hin) hset hlate))
    case armed =>
      have hnone := State.scheduleRefusal_none (b := scheduleOfBody q.body g policy) (mt (GroupState.inCall_iff _).mp hin) hset hstart
        (before_of_before_of_atOrAfter hahead (addMs_atOrAfter _ _))
      have hrun := exec_loadSchedule_ahead (order := order) h hbody hnone hahead
      unfold State.recordLoad ScheduleBody.record scheduleOfBody at hrun
      exact hrun
    case drawn =>
      have hnone := State.scheduleRefusal_none (b := scheduleOfBody q.body g policy) (mt (GroupState.inCall_iff _).mp hin) hset hstart hend
      intro source v d drawn c opened decided t
      have hsource : SeedSlot.forDraw s.auction.seed q.now = source := rfl
      have hdelay (x : State) (hx : x.auction = s.auction) : x.loadDelay (scheduleOfBody q.body g policy) q.now = d := by
        rw [State.loadDelay_eq, hx, hsource]
        rfl
      have hdecided (x : State) (hx : x.auction = s.auction) : x.loadDecided (scheduleOfBody q.body g policy) q.now c = decided x := by
        have hopened : x.withGroup g (x.loadDrawn (scheduleOfBody q.body g policy) q.now c) = opened x := by
          rw [State.loadDrawn, hdelay x hx, hx, hsource]
          rfl
        rw [State.loadDecided]
        exact if_congr Iff.rfl (congrArg (State.decideClose · g q.now) hopened) hopened
      have hstate : (s.emptySlot q.port).loadedSchedule order q (scheduleOfBody q.body g policy) = t := by
        rw [State.loadedSchedule_drawn hreached hend (c := c) (by rw [hdelay (s.emptySlot q.port) rfl]; rfl), hdecided (s.emptySlot q.port) rfl,
          hdecided ((s.emptySlot q.port).recordLoad _ q _) rfl]
        rfl
      have hrun := exec_loadSchedule_accepted (order := order) h hbody hnone
      rw [hstate] at hrun
      exact hrun

end Sys2Proof.Machine
end

