-- ==== Sys2Proof/Proofs/Auction.lean ====
section
/-! PROOF. The moments of a closing auction: the call start, the window start with its draw, the close instant, and the suspension of a DEFER close. -/

namespace Sys2Proof.Machine

/-! ### The three instants of a group (R116, R120, R121) -/

section

variable {s : State} {g : Group} {sub : Sub}

theorem exec_callStart_early (h : Before s.time.now (s.group g).callStart) : exec (.callStartReached g) s = .next s := by
  refine congrArg Host.Outcome.next (if_neg ?_)
  rintro ⟨_, _, hreached⟩
  exact hreached h

theorem exec_callStart_reached (hrunning : s.phase = .running) (hstate : (s.group g).state = .armed)
    (h : AtOrAfter s.time.now (s.group g).callStart) :
    exec (.callStartReached g) s = .next (s.withGroup g { s.group g with state := .call }) :=
  congrArg Host.Outcome.next (if_pos ⟨State.running_iff.mpr hrunning, hstate, h⟩)

theorem exec_windowStart_early (h : Before s.time.now (s.group g).windowStart) : exec (.windowStartReached g sub) s = .next s := by
  refine congrArg Host.Outcome.next (if_neg ?_)
  rintro ⟨_, _, hreached⟩
  exact hreached h

theorem exec_windowStart_reached (hrunning : s.phase = .running) (hstate : (s.group g).state = .call)
    (h : AtOrAfter s.time.now (s.group g).windowStart) :
    exec (.windowStartReached g sub) s =
      .next (s.openWindow g (s.time.drawInstant (s.group g).windowStart) (s.readingAt sub)) :=
  congrArg Host.Outcome.next (if_pos ⟨State.running_iff.mpr hrunning, hstate, h⟩)

theorem exec_closeInstant_early {c : Instant} (hstate : (s.group g).state = .window) (hclose : (s.group g).close = some c)
    (h : Before s.time.now c) : exec (.closeInstantReached g sub) s = .next s := by
  have hdue : s.closeDue g = false := by
    simp only [State.closeDue, hstate, hclose]
    exact decide_eq_false (not_not.mpr h)
  refine congrArg Host.Outcome.next (if_neg ?_)
  rw [hdue, Bool.and_false]
  exact Bool.false_ne_true

theorem exec_closeInstant_reached {c : Instant} (hrunning : s.phase = .running) (hstate : (s.group g).state = .window)
    (hclose : (s.group g).close = some c) (h : AtOrAfter s.time.now c) :
    exec (.closeInstantReached g sub) s = .next (s.decideClose g (s.readingAt sub)) := by
  have hdue : s.closeDue g = true := by
    simp only [State.closeDue, hstate, hclose]
    exact decide_eq_true h
  refine congrArg Host.Outcome.next (if_pos ?_)
  rw [State.running_iff.mpr hrunning, hdue]
  rfl

/-- The draw instant of a window start: the reading at the step that carried device time past it, or the window start itself (R121). -/
theorem TimeBase.drawInstant_eq (tb : TimeBase) (i : Instant) :
    tb.drawInstant i = match tb.stepSpan with
      | some span => if Before span.before i ∧ AtOrAfter span.after i then span.after else i
      | none => i := by
  unfold TimeBase.drawInstant TimeBase.reachedByStep
  cases tb.stepSpan with
  | none => rfl
  | some span => exact apply_ite (fun x => Option.getD x i) _ _ _

end

/-- Settles O31: each instant is compared with device time alone, and the draw is that of `State.openWindow`. -/
theorem groupOpensAndDraws : Obligations.GroupOpensAndDraws := by
  refine ⟨fun s g sub hrunning => ⟨fun hstate => ⟨fun h => ?callEarly, fun h => ?call⟩,
    fun hstate => ⟨fun h => ?windowEarly, fun h => ?window⟩⟩,
    fun s g sub c hrunning hstate hclose => ⟨fun h => ?closeEarly, fun h => ?close⟩⟩
  case callEarly => exact exec_callStart_early h
  case call => exact exec_callStart_reached hrunning hstate h
  case windowEarly => exact exec_windowStart_early h
  case window =>
    have hrun := exec_windowStart_reached (sub := sub) hrunning hstate h
    rw [State.openWindow_eq, TimeBase.drawInstant_eq] at hrun
    exact ⟨fun hahead => hrun.trans (congrArg Host.Outcome.next (if_neg (not_not.mpr hahead))),
      fun hreached => hrun.trans (congrArg Host.Outcome.next (if_pos hreached))⟩
  case closeEarly => exact exec_closeInstant_early hstate hclose h
  case close => exact exec_closeInstant_reached hrunning hstate hclose h

/-! ### The suspension of a DEFER close (R125, R127, R128) -/

theorem Quality.fit_iff (x : Quality) : Quality.fit x = true ↔ x = .traceable ∨ x = .warning ∨ x = .holdover := by
  cases x <;> simp [Quality.fit]

theorem Quality.not_fit {x : Quality} (h : x = .untraceable ∨ x = .unset) : Quality.fit x = false := by
  obtain rfl | rfl := h <;> rfl

section

variable {s : State} {g : Group} {c : Instant} {draw : Draw} {t : Instant}

theorem State.decideClose_defer (hclose : (s.group g).close = some c) (hdraw : (s.group g).draw = some draw)
    (hpolicy : (s.group g).policy = .defer) :
    s.decideClose g t =
      if Quality.fit s.dtu.quality && s.journal.canTake then s.fireClose g c draw t else s.suspendGroup g c draw t := by
  simp only [State.decideClose, hclose, hdraw, hpolicy]

theorem State.decideClose_proceed (hclose : (s.group g).close = some c) (hdraw : (s.group g).draw = some draw)
    (hpolicy : (s.group g).policy = .proceed) : s.decideClose g t = s.fireClose g c draw t := by
  simp only [State.decideClose, hclose, hdraw, hpolicy]

theorem Journal.canTake_iff (j : Journal) : j.canTake = true ↔ 1 ≤ j.free := by
  rw [Journal.canTake]
  exact decide_eq_true_iff

theorem Journal.canTake_eq_false {j : Journal} (h : j.free = 0) : j.canTake = false := by
  rw [Journal.canTake, h]
  rfl

theorem State.suspendGroup_unfit (h : Quality.fit s.dtu.quality = false) :
    s.suspendGroup g c draw t =
      { s.withGroup g { s.group g with state := .suspended, close := none, draw := none } with
        journal := s.journal.take (s.dtu.handed c (.suspend g (s.group g).k draw.d (s.group g).window s.dtu.quality false)) } := by
  rw [State.suspendGroup, h]
  rfl

/-- The group that a suspension leaves where it resumes at once (R127, R128). -/
def GroupRecord.deferred (r : GroupRecord) (t : Instant) : GroupRecord :=
  { r with
    state := .call, close := none, draw := none
    windowStart := laterOf r.windowStart (addMs t r.deferRestart)
    k := bump r.k
    deferrals := bump r.deferrals }

theorem State.suspendGroup_fit (h : Quality.fit s.dtu.quality = true) :
    s.suspendGroup g c draw t =
      { s.withGroup g ((s.group g).deferred t) with
        journal := (s.journal.take (s.dtu.handed c (.suspend g (s.group g).k draw.d (s.group g).window s.dtu.quality true))).take
          (s.dtu.handed t (((s.group g).deferred t).resumePayload g)) } := by
  have hresume (u : State) (r : GroupRecord) (x : Instant) (p : Payload) (r' : GroupRecord) :
      ((u.withGroup g r).hand x p).withGroup g r' = (u.withGroup g r').hand x p := by
    rw [← State.withGroup_withGroup u g r r']
    rfl
  rw [State.suspendGroup, h]
  simp only [if_true, State.resumeGroup, State.group_hand, State.group_withGroup_self, hresume]
  rfl

theorem Journal.take_lost {j : Journal} {x : Handed} (hevent : Payload.routine x.payload = false) (hfull : j.free = 0) :
    j.take x = j.lose := (Journal.take_event hevent).trans (Journal.takeEvent_lost x hfull)

end

/-- Settles O33: an unfit quality suspends; with a fit one only a full journal keeps a DEFER close from firing, and both records are lost. -/
theorem deferredCloseSuspends : Obligations.DeferredCloseSuspends := by
  intro s g c draw moment hrunning hstate hclose hdraw hpolicy
  refine ⟨fun sub hreached hmoment => ?moment, fun hquality => ?suspended, fun hquality hfull => ?resumed⟩
  case moment =>
    rw [exec_closeInstant_reached hrunning hstate hclose hreached, hmoment]
  case suspended =>
    have hunfit := Quality.not_fit hquality
    rw [State.decideClose_defer hclose hdraw hpolicy, hunfit, Bool.false_and, if_neg Bool.false_ne_true, State.suspendGroup_unfit hunfit]
  case resumed =>
    have hfit := (Quality.fit_iff _).mpr hquality
    have hdecided : s.decideClose g moment = s.suspendGroup g c draw moment := by
      rw [State.decideClose_defer hclose hdraw hpolicy, Journal.canTake_eq_false hfull, Bool.and_false, if_neg Bool.false_ne_true]
    refine ⟨_, hdecided.trans (State.suspendGroup_fit hfit), State.group_withGroup_self _ _ _, ?retained, ?lost, rfl⟩
    all_goals
      dsimp only
      rw [Journal.take_lost rfl hfull, Journal.take_lost rfl (j := s.journal.lose) hfull]
      rfl

end Sys2Proof.Machine
end

