-- ==== Sys2Proof/Proofs/FiredClose.lean ====
section
/-! PROOF. What a fired close leaves: the lanes asked for a marker, each by its own list, FIFO and reception; the strobe lines; the records and the seed's reveal. -/

namespace Sys2Proof.Machine

theorem gatewayPort_ne_enginePort (l m : LaneId) : gatewayPort l ≠ enginePort m := by
  revert l m
  decide

theorem enginePort_ne {l m : LaneId} (h : l ≠ m) : enginePort l ≠ enginePort m := by
  revert l m
  decide

section

variable {s : State} {l : LaneId} {r : MarkerRequest} {t : Instant}

/-! ### A request dealt with at once (R143, R144) -/

/-- The marker of a request goes at once: before a frame that lies at or after its close instant, or past its point with no frame in reception (R143). -/
def State.PlacedAtOnce (s : State) (l : LaneId) (r : MarkerRequest) (t : Instant) : Prop :=
  (∃ f, (s.port (gatewayPort l)).reception = some f ∧ AtOrAfter f.detection.compensated r.close) ∨
    ((s.port (gatewayPort l)).reception = none ∧ AtOrAfter t (addNs r.close (s.lane l).profile.latency))

theorem State.dealRequest_placed (h : s.PlacedAtOnce l r t) : s.dealRequest l r t = s.placeMarker l r := by
  obtain ⟨f, hf, hafter⟩ | ⟨hnone, hpassed⟩ := h
  · simp only [State.dealRequest, hf, if_pos hafter]
  · simp only [State.dealRequest, hnone, if_pos hpassed]

theorem State.dealRequest_waits (hfollow : r.afterFrame = false) (h : ¬ s.PlacedAtOnce l r t) :
    s.dealRequest l r t =
      s.waitMarker l { r with afterFrame := decide (AtOrAfter t (addNs r.close (s.lane l).profile.latency)) } := by
  have hsame : ({ r with afterFrame := false } : MarkerRequest) = r := by rw [← hfollow]
  cases hreception : (s.port (gatewayPort l)).reception with
  | none =>
    have hahead : ¬ AtOrAfter t (addNs r.close (s.lane l).profile.latency) := fun hpassed => h (.inr ⟨hreception, hpassed⟩)
    simp only [State.dealRequest, hreception, if_neg hahead, decide_eq_false hahead, hsame]
  | some f =>
    have hbefore : ¬ AtOrAfter f.detection.compensated r.close := fun hafter => h (.inl ⟨f, hreception, hafter⟩)
    simp only [State.dealRequest, hreception, if_neg hbefore]
    by_cases hpassed : AtOrAfter t (addNs r.close (s.lane l).profile.latency)
    · rw [if_pos hpassed, decide_eq_true hpassed]
    · rw [if_neg hpassed, decide_eq_false hpassed, hsame]

theorem State.placeMarker_pass (h : (s.lane l).mode = .pass) :
    s.placeMarker l r = s.withLane l ((s.lane l).countMarker fun c => { c with withdrawn := c.withdrawn + 1 }) := if_pos h

theorem State.placeMarker_placed (hmode : (s.lane l).mode = .stamp) (hroom : markersIn (s.port (enginePort l)).fifo < 16) :
    s.placeMarker l r =
      (s.withPort (enginePort l) { s.port (enginePort l) with
        fifo := (s.port (enginePort l)).fifo ++ [.marker ((s.lane l).markerOf r)] }).withLane l
        ((s.lane l).countMarker fun c => { c with placed := c.placed + 1 }) := by
  have hstamp : (s.lane l).mode ≠ .pass := by rw [hmode]; decide
  exact (if_neg hstamp).trans (if_pos hroom)

theorem State.placeMarker_lost (hmode : (s.lane l).mode = .stamp) (hfull : 16 ≤ markersIn (s.port (enginePort l)).fifo) :
    s.placeMarker l r = s.withLane l ((s.lane l).countMarker fun c => { c with lost := c.lost + 1 }) := by
  have hstamp : (s.lane l).mode ≠ .pass := by rw [hmode]; decide
  exact (if_neg hstamp).trans (if_neg (Nat.not_lt.mpr hfull))

/-! ### A request taken by a lane (R142) -/

/-- A lane and its engine-side port after an operation of that lane alone. -/
def State.LaneIs (s : State) (l : LaneId) (x : Lane) (out : PortState) : Prop := s.lane l = x ∧ s.port (enginePort l) = out

theorem State.takeRequest_full (h : 16 ≤ (s.lane l).waiting.length) :
    (s.takeRequest l r t).LaneIs l
      { s.lane l with markers := { (s.lane l).markers with
        requested := (s.lane l).markers.requested + 1, lost := (s.lane l).markers.lost + 1 } }
      (s.port (enginePort l)) := by
  have htaken : s.takeRequest l r t = _ := if_neg (Nat.not_lt.mpr h)
  rw [htaken]
  refine ⟨(State.lane_withLane_self _ _ _).trans ?_, rfl⟩
  rw [State.lane_withLane_self]
  rfl

/-- The lane has counted a request (R142). -/
def State.counted (s : State) (l : LaneId) : State :=
  s.withLane l ((s.lane l).countMarker fun c => { c with requested := c.requested + 1 })

theorem State.takeRequest_room (h : (s.lane l).waiting.length < 16) : s.takeRequest l r t = (s.counted l).dealRequest l r t := if_pos h

theorem State.counted_lane (s : State) (l : LaneId) :
    (s.counted l).lane l = { s.lane l with markers := { (s.lane l).markers with requested := (s.lane l).markers.requested + 1 } } :=
  s.lane_withLane_self l _

theorem State.counted_placedAtOnce : (s.counted l).PlacedAtOnce l r t ↔ s.PlacedAtOnce l r t := by
  unfold State.PlacedAtOnce
  rw [State.counted_lane]
  rfl

theorem State.takeRequest_lost (hroom : (s.lane l).waiting.length < 16) (hnow : s.PlacedAtOnce l r t) (hmode : (s.lane l).mode = .stamp)
    (hfull : 16 ≤ markersIn (s.port (enginePort l)).fifo) :
    (s.takeRequest l r t).LaneIs l
      { s.lane l with markers := { (s.lane l).markers with
        requested := (s.lane l).markers.requested + 1, lost := (s.lane l).markers.lost + 1 } }
      (s.port (enginePort l)) := by
  rw [State.takeRequest_room hroom, State.dealRequest_placed (State.counted_placedAtOnce.mpr hnow),
    State.placeMarker_lost (s := s.counted l) (by rw [State.counted_lane]; exact hmode) hfull]
  refine ⟨(State.lane_withLane_self _ _ _).trans ?_, rfl⟩
  rw [State.counted_lane]
  rfl

theorem State.takeRequest_placed (hroom : (s.lane l).waiting.length < 16) (hnow : s.PlacedAtOnce l r t) (hmode : (s.lane l).mode = .stamp)
    (hfree : markersIn (s.port (enginePort l)).fifo < 16) :
    (s.takeRequest l r t).LaneIs l
      { s.lane l with markers := { (s.lane l).markers with
        requested := (s.lane l).markers.requested + 1, placed := (s.lane l).markers.placed + 1 } }
      { s.port (enginePort l) with fifo := (s.port (enginePort l)).fifo ++ [.marker ((s.lane l).markerOf r)] } := by
  rw [State.takeRequest_room hroom, State.dealRequest_placed (State.counted_placedAtOnce.mpr hnow),
    State.placeMarker_placed (s := s.counted l) (by rw [State.counted_lane]; exact hmode) hfree]
  refine ⟨(State.lane_withLane_self _ _ _).trans ?_, (State.port_withPort_self _ _ _).trans ?_⟩
  · rw [State.counted_lane]
    rfl
  · rw [State.counted_lane]
    rfl

theorem State.takeRequest_waits (hroom : (s.lane l).waiting.length < 16) (hfollow : r.afterFrame = false) (hlater : ¬ s.PlacedAtOnce l r t) :
    (s.takeRequest l r t).LaneIs l
      { s.lane l with
        markers := { (s.lane l).markers with requested := (s.lane l).markers.requested + 1 }
        waiting := (s.lane l).waiting ++
          [{ r with afterFrame := decide (AtOrAfter t (addNs r.close (s.lane l).profile.latency)) }] }
      (s.port (enginePort l)) := by
  rw [State.takeRequest_room hroom, State.dealRequest_waits hfollow (mt State.counted_placedAtOnce.mp hlater)]
  refine ⟨(State.lane_withLane_self _ _ _).trans ?_, rfl⟩
  rw [State.counted_lane]

/-! ### What the request of one lane leaves alone -/

/-- `u` differs from `s` in the lane `l` and its engine-side port at most, as far as lanes and ports go. -/
structure State.LaneAlone (s : State) (l : LaneId) (u : State) : Prop where
  lane : ∀ m, m ≠ l → u.lane m = s.lane m
  port : ∀ p, p ≠ enginePort l → u.port p = s.port p

theorem State.LaneAlone.refl (s : State) (l : LaneId) : s.LaneAlone l s := ⟨fun _ _ => rfl, fun _ _ => rfl⟩

theorem State.LaneAlone.trans {u v : State} (hu : s.LaneAlone l u) (hv : u.LaneAlone l v) : s.LaneAlone l v :=
  ⟨fun m hm => (hv.lane m hm).trans (hu.lane m hm), fun p hp => (hv.port p hp).trans (hu.port p hp)⟩

theorem State.withLane_laneAlone (s : State) (l : LaneId) (x : Lane) : s.LaneAlone l (s.withLane l x) :=
  ⟨fun m hm => s.lane_withLane_other l m x hm.symm, fun _ _ => rfl⟩

theorem State.withEnginePort_laneAlone (s : State) (l : LaneId) (x : PortState) : s.LaneAlone l (s.withPort (enginePort l) x) :=
  ⟨fun _ _ => rfl, fun p hp => s.port_withPort_other (enginePort l) p x hp.symm⟩

theorem State.placeMarker_laneAlone : s.LaneAlone l (s.placeMarker l r) := by
  unfold State.placeMarker
  dsimp only
  split
  · exact s.withLane_laneAlone l _
  · split
    · exact (s.withEnginePort_laneAlone l _).trans (State.withLane_laneAlone _ l _)
    · exact s.withLane_laneAlone l _

theorem State.takeRequest_laneAlone : s.LaneAlone l (s.takeRequest l r t) := by
  have hdealt (u : State) : u.LaneAlone l (u.dealRequest l r t) := by
    unfold State.dealRequest
    split
    · split
      · exact State.placeMarker_laneAlone
      · split
        · exact u.withLane_laneAlone l _
        · exact u.withLane_laneAlone l _
    · split
      · exact State.placeMarker_laneAlone
      · exact u.withLane_laneAlone l _
  unfold State.takeRequest
  dsimp only
  split
  · exact (s.withLane_laneAlone l _).trans (hdealt _)
  · exact (s.withLane_laneAlone l _).trans (State.withLane_laneAlone _ l _)

/-- Two states agree on a lane and its ports. -/
structure State.SameLane (s u : State) (l : LaneId) : Prop where
  lane : u.lane l = s.lane l
  engine : u.port (enginePort l) = s.port (enginePort l)
  gateway : u.port (gatewayPort l) = s.port (gatewayPort l)

theorem State.LaneAlone.sameLane {m : LaneId} {u : State} (h : s.LaneAlone l u) (hm : m ≠ l) : s.SameLane u m :=
  ⟨h.lane m hm, h.port _ (enginePort_ne hm), h.port _ (gatewayPort_ne_enginePort m l)⟩

theorem State.withLane_laneIs {u : State} (h : s.SameLane u l) (x : Lane) :
    (u.withLane l x).LaneIs l ((s.withLane l x).lane l) ((s.withLane l x).port (enginePort l)) :=
  ⟨by rw [State.lane_withLane_self, State.lane_withLane_self], h.engine⟩

theorem State.placeMarker_congr {u : State} (h : s.SameLane u l) :
    (u.placeMarker l r).LaneIs l ((s.placeMarker l r).lane l) ((s.placeMarker l r).port (enginePort l)) := by
  unfold State.placeMarker
  rw [h.lane, h.engine]
  dsimp only
  split
  · exact State.withLane_laneIs h _
  · split
    · exact ⟨by rw [State.lane_withLane_self, State.lane_withLane_self], by
        rw [State.port_withLane, State.port_withLane, State.port_withPort_self, State.port_withPort_self]⟩
    · exact State.withLane_laneIs h _

theorem State.dealRequest_congr {u : State} (h : s.SameLane u l) :
    (u.dealRequest l r t).LaneIs l ((s.dealRequest l r t).lane l) ((s.dealRequest l r t).port (enginePort l)) := by
  have hwaits (r : MarkerRequest) :
      (u.waitMarker l r).LaneIs l ((s.waitMarker l r).lane l) ((s.waitMarker l r).port (enginePort l)) := by
    unfold State.waitMarker
    rw [h.lane]
    exact State.withLane_laneIs h _
  unfold State.dealRequest
  rw [h.lane, h.gateway]
  split
  · split
    · exact State.placeMarker_congr h
    · split
      · exact hwaits _
      · exact hwaits _
  · split
    · exact State.placeMarker_congr h
    · exact hwaits _

/-- What a request makes of its lane depends on that lane and its ports alone. -/
theorem State.takeRequest_congr {u : State} (h : s.SameLane u l) :
    (u.takeRequest l r t).LaneIs l ((s.takeRequest l r t).lane l) ((s.takeRequest l r t).port (enginePort l)) := by
  have hset (x : Lane) : (s.withLane l x).SameLane (u.withLane l x) l :=
    ⟨by rw [State.lane_withLane_self, State.lane_withLane_self], h.engine, h.gateway⟩
  unfold State.takeRequest
  rw [h.lane]
  dsimp only
  split
  · exact State.dealRequest_congr (hset _)
  · exact ⟨by simp only [State.lane_withLane_self], h.engine⟩

/-! ### The requests of the lanes asked (R126, R142) -/

/-- After a run over some lanes, each at most once, a lane asked holds what its own request makes of it, and any other is as it was. -/
theorem State.askList (mask : BitVec 4) (ls : List LaneId) (hnodup : ls.Nodup) (s : State) :
    let u := ls.foldl (fun (u : State) (l : LaneId) => if mask.getLsbD l then u.takeRequest l r t else u) s
    (∀ l : LaneId, l ∈ ls → mask.getLsbD l = true →
      u.LaneIs l ((s.takeRequest l r t).lane l) ((s.takeRequest l r t).port (enginePort l))) ∧
    (∀ l : LaneId, ¬ (l ∈ ls ∧ mask.getLsbD l = true) → u.LaneIs l (s.lane l) (s.port (enginePort l))) ∧
    (∀ l : LaneId, u.port (gatewayPort l) = s.port (gatewayPort l)) := by
  induction ls generalizing s with
  | nil => exact ⟨fun l hl => absurd hl List.not_mem_nil, fun l _ => ⟨rfl, rfl⟩, fun l => rfl⟩
  | cons a ls ih =>
    obtain ⟨ha, hls⟩ := List.nodup_cons.mp hnodup
    rw [List.foldl_cons]
    have hone : s.LaneAlone a (if mask.getLsbD a then s.takeRequest a r t else s) := by
      split
      · exact State.takeRequest_laneAlone
      · exact State.LaneAlone.refl s a
    obtain ⟨hasked, hother, hgateway⟩ := ih hls (if mask.getLsbD a then s.takeRequest a r t else s)
    refine ⟨fun l hl hmask => ?_, fun l hl => ?_, fun l => (hgateway l).trans (hone.port _ (gatewayPort_ne_enginePort l a))⟩
    · by_cases hla : l = a
      · subst hla
        have hl' := hother l fun h => ha h.1
        rw [if_pos hmask] at hl' ⊢
        exact hl'
      · have hl' := hasked l ((List.mem_cons.mp hl).resolve_left hla) hmask
        have hsame := State.takeRequest_congr (r := r) (t := t) (hone.sameLane hla)
        exact ⟨hl'.1.trans hsame.1, hl'.2.trans hsame.2⟩
    · have hl' := hother l fun h => hl ⟨List.mem_cons_of_mem a h.1, h.2⟩
      by_cases hla : l = a
      · subst hla
        have hmask : ¬ mask.getLsbD l = true := fun h => hl ⟨List.mem_cons_self, h⟩
        rw [if_neg hmask] at hl' ⊢
        exact hl'
      · have hsame := hone.sameLane hla
        exact ⟨hl'.1.trans hsame.lane, hl'.2.trans hsame.engine⟩

theorem State.askLanes_asked {mask : BitVec 4} (hmask : mask.getLsbD l = true) :
    (s.askLanes mask r t).LaneIs l ((s.takeRequest l r t).lane l) ((s.takeRequest l r t).port (enginePort l)) :=
  (State.askList mask _ (List.nodup_finRange 4) s).1 l (List.mem_finRange l) hmask

theorem State.askLanes_other {mask : BitVec 4} (hmask : mask.getLsbD l = false) :
    (s.askLanes mask r t).LaneIs l (s.lane l) (s.port (enginePort l)) :=
  (State.askList mask _ (List.nodup_finRange 4) s).2.1 l fun h => Bool.false_ne_true (hmask.symm.trans h.2)

theorem State.askLanes_gateway (mask : BitVec 4) : (s.askLanes mask r t).port (gatewayPort l) = s.port (gatewayPort l) :=
  (State.askList mask _ (List.nodup_finRange 4) s).2.2 l

theorem State.askedLanes_iff (s : State) (lanes : BitVec 4) (l : LaneId) :
    (s.askedLanes lanes).getLsbD l.val = true ↔ lanes.getLsbD l.val = true ∧ (s.lane l).mode = .stamp := by
  unfold State.askedLanes
  rw [getLsbD_maskOf (fun l => lanes.getLsbD l && (s.lane l).mode == .stamp) l, Bool.and_eq_true, beq_iff_eq]

end

/-! ### The parts of a fired close (R126, R138, R151) -/

section

variable {s : State} {g : Group} {c : Instant} {draw : Draw} {t : Instant}

/-- The state at a fired close before its marker requests: CLOSED, recorded, its strobe lines pulsed (R126). -/
def State.closePulsed (s : State) (g : Group) (c : Instant) (draw : Draw) : State :=
  let recorded := (s.withGroup g { s.group g with state := .closed }).hand c
    ((s.group g).closePayload g draw s.dtu.quality (s.askedLanes (s.group g).lanes))
  recorded.withSignal (recorded.signal.pulse g s.osc)

/-- The state at a fired close after its marker requests. -/
def State.closeAsked (s : State) (g : Group) (c : Instant) (draw : Draw) (t : Instant) : State :=
  (s.closePulsed g c draw).askLanes (s.askedLanes (s.group g).lanes) ((s.group g).request g c s.dtu.quality) t

theorem State.fireClose_eq (s : State) (g : Group) (c : Instant) (draw : Draw) (t : Instant) :
    s.fireClose g c draw t =
      if (s.closeAsked g c draw t).auction.anyWaiting then s.closeAsked g c draw t else (s.closeAsked g c draw t).revealSeed t := rfl

theorem State.closeAsked_frame (s : State) (g : Group) (c : Instant) (draw : Draw) (t : Instant) :
    ∃ lanes ports, s.closeAsked g c draw t = { s.closePulsed g c draw with lanes := lanes, ports := ports } :=
  (s.closePulsed g c draw).askLanes_only _ _ t

theorem State.closeAsked_auction (s : State) (g : Group) (c : Instant) (draw : Draw) (t : Instant) :
    (s.closeAsked g c draw t).auction = { s.auction with groups := s.auction.groups.set g { s.group g with state := .closed } } := by
  obtain ⟨lanes, ports, hasked⟩ := s.closeAsked_frame g c draw t
  rw [hasked]
  rfl

theorem State.closeAsked_journal (s : State) (g : Group) (c : Instant) (draw : Draw) (t : Instant) :
    (s.closeAsked g c draw t).journal = s.journal.take (s.dtu.handed c
      ((s.group g).closePayload g draw s.dtu.quality (s.askedLanes (s.group g).lanes))) := by
  obtain ⟨lanes, ports, hasked⟩ := s.closeAsked_frame g c draw t
  rw [hasked]
  rfl

/-- A close fired changes lanes and ports only by its requests (R126). -/
theorem State.fireClose_sameLanes (s : State) (g : Group) (c : Instant) (draw : Draw) (t : Instant) :
    (s.fireClose g c draw t).lanes = (s.closeAsked g c draw t).lanes ∧ (s.fireClose g c draw t).ports = (s.closeAsked g c draw t).ports ∧
      (s.fireClose g c draw t).signal = (s.closeAsked g c draw t).signal := by
  rw [State.fireClose_eq]
  split
  · exact ⟨rfl, rfl, rfl⟩
  · obtain ⟨auction, journal, hrevealed⟩ := (s.closeAsked g c draw t).revealSeed_only t
    rw [hrevealed]
    exact ⟨rfl, rfl, rfl⟩

theorem State.fireClose_groups (s : State) (g : Group) (c : Instant) (draw : Draw) (t : Instant) :
    (s.fireClose g c draw t).auction.groups = s.auction.groups.set g { s.group g with state := .closed } ∧
      (s.fireClose g c draw t).auction.day = s.auction.day := by
  have hasked := s.closeAsked_auction g c draw t
  rw [State.fireClose_eq]
  split
  · rw [hasked]
    exact ⟨rfl, rfl⟩
  · obtain ⟨slot, hrevealed⟩ := (s.closeAsked g c draw t).revealSeed_auction t
    rw [hrevealed, hasked]
    exact ⟨rfl, rfl⟩

theorem State.fireClose_laneIs {l : LaneId} {x : Lane} {out : PortState} (h : (s.closeAsked g c draw t).LaneIs l x out) :
    (s.fireClose g c draw t).LaneIs l x out := by
  obtain ⟨hlanes, hports, _⟩ := s.fireClose_sameLanes g c draw t
  unfold State.LaneIs State.lane State.port
  rw [hlanes, hports]
  exact h

theorem State.fireClose_asked {l : LaneId} (hmask : (s.askedLanes (s.group g).lanes).getLsbD l.val = true) {x : Lane} {out : PortState}
    (h : (s.takeRequest l ((s.group g).request g c s.dtu.quality) t).LaneIs l x out) :
    (s.fireClose g c draw t).LaneIs l x out := by
  obtain ⟨hx, hout⟩ := h
  have hpulsed : s.SameLane (s.closePulsed g c draw) l := ⟨rfl, rfl, rfl⟩
  have htaken := State.takeRequest_congr (r := (s.group g).request g c s.dtu.quality) (t := t) hpulsed
  have hasked := State.askLanes_asked (s := s.closePulsed g c draw) (r := (s.group g).request g c s.dtu.quality) (t := t) hmask
  exact State.fireClose_laneIs ⟨(hasked.1.trans htaken.1).trans hx, (hasked.2.trans htaken.2).trans hout⟩

theorem State.fireClose_other {l : LaneId} (hmask : (s.askedLanes (s.group g).lanes).getLsbD l.val = false) :
    (s.fireClose g c draw t).LaneIs l (s.lane l) (s.port (enginePort l)) :=
  State.fireClose_laneIs (State.askLanes_other (s := s.closePulsed g c draw) hmask)

theorem State.fireClose_gateway {p : Port} (hp : p.val < 4) : (s.fireClose g c draw t).port p = s.port p := by
  obtain ⟨_, hports, _⟩ := s.fireClose_sameLanes g c draw t
  have hgateway := State.askLanes_gateway (s := s.closePulsed g c draw) (r := (s.group g).request g c s.dtu.quality) (t := t)
    (l := ⟨p.val, hp⟩) (s.askedLanes (s.group g).lanes)
  unfold State.port
  rw [hports]
  exact hgateway

theorem SignalBlock.pulse_strobe (sb : SignalBlock) (g : Group) (osc : Nat) (line : Line) :
    (sb.pulse g osc).strobes[line] =
      if (sb.strobes[line]).groups.getLsbD g.val then { sb.strobes[line] with pulseEnd := some (osc + 125 * (sb.strobes[line]).width) }
      else sb.strobes[line] := by
  simp [SignalBlock.pulse, Strobe.names, ticksOfMicros]

theorem State.fireClose_strobe (s : State) (g : Group) (c : Instant) (draw : Draw) (t : Instant) (line : Line) :
    (s.fireClose g c draw t).signal.strobes[line] =
      if (s.signal.strobes[line]).groups.getLsbD g.val then
        { s.signal.strobes[line] with pulseEnd := some (s.osc + 125 * (s.signal.strobes[line]).width) }
      else s.signal.strobes[line] := by
  obtain ⟨_, _, hsignal⟩ := s.fireClose_sameLanes g c draw t
  obtain ⟨lanes, ports, hasked⟩ := s.closeAsked_frame g c draw t
  rw [hsignal, hasked]
  exact SignalBlock.pulse_strobe _ g s.osc line

theorem GroupState.waiting_iff (x : GroupState) : x.waiting = true ↔ x ≠ .idle ∧ x ≠ .closed := by
  cases x <;> simp [GroupState.waiting]

theorem State.closeAsked_anyWaiting (s : State) (g : Group) (c : Instant) (draw : Draw) (t : Instant) :
    (s.closeAsked g c draw t).auction.anyWaiting = true ↔ ∃ k, k ≠ g ∧ (s.group k).state ≠ .idle ∧ (s.group k).state ≠ .closed := by
  rw [State.closeAsked_auction]
  simp only [AuctionTimer.anyWaiting, List.any_eq_true, List.mem_finRange, true_and, GroupState.waiting_iff]
  refine exists_congr fun k => ?_
  by_cases hk : k = g
  · subst hk
    simp
  · have hkept := s.group_withGroup_other g k { s.group g with state := .closed } (Ne.symm hk)
    have hgroup : (s.auction.groups.set g { s.group g with state := .closed })[k] = s.group k := hkept
    rw [hgroup]
    simp [hk]

theorem State.fireClose_seedKept (h : ∃ k, k ≠ g ∧ (s.group k).state ≠ .idle ∧ (s.group k).state ≠ .closed) :
    s.fireClose g c draw t = s.closeAsked g c draw t := if_pos ((s.closeAsked_anyWaiting g c draw t).mpr h)

theorem State.fireClose_reveals (h : ∀ k, k ≠ g → (s.group k).state = .idle ∨ (s.group k).state = .closed) :
    s.fireClose g c draw t = (s.closeAsked g c draw t).revealSeed t := by
  refine if_neg fun hwaiting => ?_
  obtain ⟨k, hk, hidle, hclosed⟩ := (s.closeAsked_anyWaiting g c draw t).mp hwaiting
  obtain h | h := h k hk
  · exact hidle h
  · exact hclosed h

theorem State.takeRequest_requested {l : LaneId} {r : MarkerRequest} (hmode : (s.lane l).mode = .stamp) (hfollow : r.afterFrame = false) :
    ((s.takeRequest l r t).lane l).markers.requested = (s.lane l).markers.requested + 1 := by
  by_cases hroom : (s.lane l).waiting.length < 16
  · by_cases hnow : s.PlacedAtOnce l r t
    · by_cases hfree : markersIn (s.port (enginePort l)).fifo < 16
      · rw [(State.takeRequest_placed hroom hnow hmode hfree).1]
      · rw [(State.takeRequest_lost hroom hnow hmode (Nat.not_lt.mp hfree)).1]
    · rw [(State.takeRequest_waits hroom hfollow hnow).1]
  · rw [(State.takeRequest_full (Nat.not_lt.mp hroom)).1]

theorem State.fireClose_requested (s : State) (g : Group) (c : Instant) (draw : Draw) (t : Instant) (l : LaneId) :
    ((s.fireClose g c draw t).lane l).markers.requested =
      if (s.askedLanes (s.group g).lanes).getLsbD l.val then (s.lane l).markers.requested + 1 else (s.lane l).markers.requested := by
  cases hmask : (s.askedLanes (s.group g).lanes).getLsbD l.val with
  | false => rw [(State.fireClose_other hmask).1, if_neg Bool.false_ne_true]
  | true =>
    have hmode := ((s.askedLanes_iff _ l).mp hmask).2
    rw [(State.fireClose_asked hmask ⟨rfl, rfl⟩).1, State.takeRequest_requested hmode rfl, if_pos rfl]

theorem State.fireClose_revealed (h : ∀ k, k ≠ g → (s.group k).state = .idle ∨ (s.group k).state = .closed) {seed : BitVec 32}
    (hseed : s.auction.seed = .committed seed) :
    (s.fireClose g c draw t).auction.seed = .revealed seed ∧
      (s.fireClose g c draw t).journal = (s.closeAsked g c draw t).journal.take
        (s.dtu.handed t (.seedReveal seed (check (seedBytes seed)))) := by
  have hasked : (s.closeAsked g c draw t).auction.seed = .committed seed := by rw [State.closeAsked_auction, hseed]
  have hdtu : (s.closeAsked g c draw t).dtu = s.dtu := by
    obtain ⟨lanes, ports, hframe⟩ := s.closeAsked_frame g c draw t
    rw [hframe]
    rfl
  rw [State.fireClose_reveals h, State.revealSeed_committed _ t hasked, hdtu]
  refine ⟨?_, rfl⟩
  rw [State.revealSeed, hasked]
  rfl

theorem State.fireClose_notRevealed (h : ∀ k, k ≠ g → (s.group k).state = .idle ∨ (s.group k).state = .closed)
    (hseed : ∀ seed, s.auction.seed ≠ .committed seed) : s.fireClose g c draw t = s.closeAsked g c draw t := by
  rw [State.fireClose_reveals h]
  refine State.revealSeed_notCommitted _ t fun seed hcommitted => hseed seed ?_
  rw [State.closeAsked_auction] at hcommitted
  exact hcommitted

theorem State.decideClose_fires (hclose : (s.group g).close = some c) (hdraw : (s.group g).draw = some draw)
    (h : (s.group g).policy = .proceed ∨
      ((s.dtu.quality = .traceable ∨ s.dtu.quality = .warning ∨ s.dtu.quality = .holdover) ∧ 1 ≤ s.journal.free)) :
    s.decideClose g t = s.fireClose g c draw t := by
  cases hpolicy : (s.group g).policy with
  | proceed => exact State.decideClose_proceed hclose hdraw hpolicy
  | defer =>
    obtain hproceed | ⟨hquality, hfree⟩ := h
    · rw [hpolicy] at hproceed
      cases hproceed
    · rw [State.decideClose_defer hclose hdraw hpolicy, (Quality.fit_iff _).mpr hquality, (Journal.canTake_iff _).mpr hfree]
      rfl

end

/-- Settles O32: the decision fires the close, whose requests each concern their own lane, and whose reveal turns on the other groups alone. -/
theorem closeFires : Obligations.CloseFires := by
  intro s g c draw moment hrunning hstate hclose hdraw hfires r
  have hdecided := State.decideClose_fires (t := moment) hclose hdraw hfires
  obtain ⟨hgroups, hday⟩ := s.fireClose_groups g c draw moment
  refine ⟨s.fireClose g c draw moment, s.askedLanes r.lanes, hdecided, fun sub hreached hmoment => ?moment, ?closed, fun k hk => ?others, hday,
    s.askedLanes_iff r.lanes, s.fireClose_requested g c draw moment, fun p hp => State.fireClose_gateway hp, fun l hmask => State.fireClose_other hmask,
    fun l hmask => ⟨fun hfull => ?full, fun hroom hnow hfifo => ?lost, fun hroom hnow hfree => ?placed, fun hroom hlater => ?waits⟩,
    s.fireClose_strobe g c draw moment, ?frame, fun hwaiting => ?kept, fun hdone => ⟨fun seed hseed => ?revealed, fun hseed => ?unrevealed⟩⟩
  case moment => rw [exec_closeInstant_reached hrunning hstate hclose hreached, ← hmoment, hdecided]
  case closed =>
    rw [State.group, hgroups]
    exact s.group_withGroup_self g _
  case others =>
    rw [State.group, hgroups]
    exact s.group_withGroup_other g k _ (Ne.symm hk)
  case full => exact State.fireClose_asked hmask (State.takeRequest_full hfull)
  case lost => exact State.fireClose_asked hmask (State.takeRequest_lost hroom hnow ((s.askedLanes_iff _ l).mp hmask).2 hfifo)
  case placed => exact State.fireClose_asked hmask (State.takeRequest_placed hroom hnow ((s.askedLanes_iff _ l).mp hmask).2 hfree)
  case waits => exact State.fireClose_asked hmask (State.takeRequest_waits hroom rfl hlater)
  case frame =>
    obtain ⟨auction, journal, signal, lanes, ports, hframe⟩ := s.fireClose_only g c draw moment
    rw [hframe]
  case kept =>
    rw [State.fireClose_seedKept hwaiting, State.closeAsked_auction, State.closeAsked_journal]
    exact ⟨rfl, rfl⟩
  case revealed =>
    have hrevealed := State.fireClose_revealed (c := c) (draw := draw) (t := moment) hdone hseed
    rw [State.closeAsked_journal] at hrevealed
    exact hrevealed
  case unrevealed =>
    rw [State.fireClose_notRevealed hdone hseed, State.closeAsked_auction, State.closeAsked_journal]
    exact ⟨rfl, rfl⟩

end Sys2Proof.Machine
end

