-- ==== Sys2Proof/Proofs/Clock.lean ====
section
/-! PROOF. The Time Base's own moments: the tick of counting, the tick of a waiting step, a change of UTC offset and the pulse of the PPS output. -/

namespace Sys2Proof.Machine

/-! ### Device time at a tick (R1) -/

/-- Device time with its fraction as one count of units of 2^−32 ns. -/
def DeviceTime.units (t : DeviceTime) : Nat := (t.sec * nsPerSecond + t.ns) * fracPerNs + t.frac

theorem DeviceTime.advance_units {t : DeviceTime} {addend : Nat} (ht : t.InRange) (ha : AddendInRange addend) :
    (t.advance addend).units = (t.units + addend) % unitsModulus := by
  obtain ⟨sec, ns, frac⟩ := t
  obtain ⟨hsec, hns, hfrac⟩ := ht
  obtain ⟨_, hmost⟩ := ha
  simp only [DeviceTime.advance, DeviceTime.units, nominalAddend, addendSpan, unitsModulus, secondsModulus, nsPerSecond, fracPerNs,
    Nat.reduceMul, Nat.reduceAdd] at *
  split
  · dsimp only
    omega
  · dsimp only
    omega

theorem lastPulsePoint_eq (compensation : Nat) (i : Instant) : lastPulsePoint compensation i = (toNs i + compensation) / 1000000000 := by
  unfold lastPulsePoint toNs nsPerSecond
  rw [Nat.add_assoc, Nat.add_comm (i.sec * _), Nat.add_mul_div_right _ _ (by decide), Nat.add_comm]

theorem Pps.counted_eq (pps : Pps) (before after : Instant) :
    pps.counted before after = { pps with
      due :=
        if lastPulsePoint pps.compensation before < lastPulsePoint pps.compensation after ∧
            pps.lastPulsed ≠ some (lastPulsePoint pps.compensation after) then some (lastPulsePoint pps.compensation after)
        else pps.due } := by
  unfold Pps.counted pulseSecond
  by_cases hcrossed : lastPulsePoint pps.compensation before < lastPulsePoint pps.compensation after
  · rw [if_pos hcrossed]
    by_cases hpulsed : pps.lastPulsed = some (lastPulsePoint pps.compensation after)
    · rw [if_neg fun h => h.2 hpulsed]
      exact if_pos hpulsed
    · simp [hcrossed, hpulsed]
  · simp [hcrossed]

theorem TimeBase.counted_pps_due (tb : TimeBase) :
    tb.counted.pps = { tb.pps with
      due :=
        if (toNs tb.now + tb.pps.compensation) / 1000000000 < (toNs tb.counted.now + tb.pps.compensation) / 1000000000 ∧
            tb.pps.lastPulsed ≠ some ((toNs tb.counted.now + tb.pps.compensation) / 1000000000) then
          some ((toNs tb.counted.now + tb.pps.compensation) / 1000000000)
        else tb.pps.due } := by
  rw [← lastPulsePoint_eq, ← lastPulsePoint_eq]
  exact Pps.counted_eq _ _ _

/-! ### Waiting requests at a tick (R143) -/

theorem MarkerRequest.ticked_eq (latency : Nat) (before after : Instant) (r : MarkerRequest) :
    r.ticked latency before after = { r with
      reached := decide (AtOrAfter after (addNs r.close latency) ∧ (r.reached = true ∨ Before before (addNs r.close latency)))
      afterFrame := decide (AtOrAfter after (addNs r.close latency) ∧ r.afterFrame = true) } := by
  unfold MarkerRequest.ticked MarkerRequest.point
  simp only [Bool.decide_and, Bool.decide_or, Bool.decide_eq_true, Bool.and_comm]

theorem Lane.ticked_eq (l : Lane) (before after : Instant) :
    l.ticked before after = { l with
      waiting := l.waiting.map fun r =>
        { r with
          reached := decide (AtOrAfter after (addNs r.close l.profile.latency) ∧
            (r.reached = true ∨ Before before (addNs r.close l.profile.latency)))
          afterFrame := decide (AtOrAfter after (addNs r.close l.profile.latency) ∧ r.afterFrame = true) } } := by
  unfold Lane.ticked
  rw [funext (MarkerRequest.ticked_eq l.profile.latency before after)]

/-! ### The tick (R1, R3) -/

section

variable {s : State}

theorem State.counting_phase (h : s.counting = true) : s.phase ≠ .off ∧ s.phase ≠ .powerOn := by
  unfold State.counting State.running State.held at h
  constructor
  · intro hoff
    rw [hoff] at h
    cases h
  · intro hpower
    rw [hpower] at h
    cases h

theorem exec_tick_counting (h : s.counting = true) :
    exec .tick s = .next (match s.time.steps with
      | r :: rest => s.stepTick r rest
      | [] => s.countTick) := by
  obtain ⟨hoff, hpower⟩ := State.counting_phase h
  refine congrArg Host.Outcome.next ?_
  unfold State.tick
  split
  next hphase => exact absurd hphase hoff
  next hphase => exact absurd hphase hpower
  next => rfl

theorem State.countTick_lane (l : LaneId) : s.countTick.lane l = (s.lane l).ticked s.time.now s.time.counted.now := ticked_lane s _ _ l

end

/-- Settles O8: a tick of counting advances device time by the addend in units, and every other effect compares the time before with the time after. -/
theorem tickAddsTheAddend : Obligations.TickAddsTheAddend := by
  intro s hcounting hsteps hrange
  have hrun := exec_tick_counting hcounting
  rw [hsteps] at hrun
  obtain ⟨hdevice, haddend, _⟩ := s.time.inRange_iff.mp hrange
  refine ⟨s.countTick, hrun, DeviceTime.advance_units hdevice haddend, TimeBase.counted_inRange hrange, rfl, rfl, rfl, rfl, hsteps,
    s.time.counted_pps_due, rfl, fun l => ?_⟩
  exact (State.countTick_lane l).trans (Lane.ticked_eq _ _ _)

/-! ### The tick of a waiting step (R6 to R9) -/

section

/-- The count of nanoseconds that a step aims at (R6). -/
def DeviceTime.target (t : DeviceTime) (amount : Int) : Int := toNs t.instant + amount

theorem DeviceTime.step_saturates {t : DeviceTime} {amount : Int} (h : t.target amount < 0) :
    t.step amount = { time := { sec := 0, ns := 0, frac := 0 }, applied := -(toNs t.instant : Int), saturated := true } := by
  have hsec : (t.sec : Int) + (t.ns + amount) / (1000000000 : Nat) < 0 := by
    unfold DeviceTime.target DeviceTime.instant toNs nsPerSecond at h
    dsimp only at h
    omega
  unfold DeviceTime.step
  exact if_pos hsec

theorem DeviceTime.step_lands {t : DeviceTime} {amount : Int} (h : 0 ≤ t.target amount) :
    (toNs (t.step amount).time.instant : Int) = t.target amount % (secondsModulus * nsPerSecond : Nat) ∧
      (t.step amount).time.frac = t.frac ∧ (t.step amount).applied = amount ∧ (t.step amount).saturated = false := by
  obtain ⟨sec, ns, frac⟩ := t
  have hsec : ¬ (sec : Int) + (ns + amount) / (1000000000 : Nat) < 0 := by
    unfold DeviceTime.target DeviceTime.instant toNs nsPerSecond at h
    dsimp only at h
    omega
  have hstep : DeviceTime.step ⟨sec, ns, frac⟩ amount =
      { time := { sec := ((sec : Int) + (ns + amount) / (1000000000 : Nat)).toNat % secondsModulus
                  ns := (((ns : Int) + amount) % (1000000000 : Nat)).toNat, frac := frac }
        applied := amount
        saturated := false } := by
    unfold DeviceTime.step
    exact if_neg hsec
  rw [hstep]
  refine ⟨?_, rfl, rfl, rfl⟩
  unfold DeviceTime.target DeviceTime.instant toNs at *
  simp only [secondsModulus, nsPerSecond, Nat.reduceMul] at *
  omega

theorem exec_stepApplied_counting {s : State} {r : StepRequest} {rest : List StepRequest} (h : s.counting = true)
    (hsteps : s.time.steps = r :: rest) : exec .stepApplied s = .next (s.stepTick r rest) := by
  refine congrArg Host.Outcome.next ?_
  rw [h, hsteps]

theorem State.stepTick_lane (s : State) (r : StepRequest) (rest : List StepRequest) (l : LaneId) :
    (s.stepTick r rest).lane l = (s.lane l).ticked s.time.now (s.time.stepped r rest).now := ticked_lane s _ _ l

theorem State.stepTick_recorded (s : State) (r : StepRequest) (rest : List StepRequest) :
    (s.stepTick r rest).journal = s.journal.take (s.dtu.handed (s.time.stepResult r).time.instant
      (.step r.source r.amount (s.time.stepResult r).applied (s.time.stepResult r).saturated)) := rfl

end

/-- Settles O9: a waiting step is applied after its tick's advance, and lands, saturated or wrapped, where its target says. -/
theorem stepIsAppliedAtItsTick : Obligations.StepIsAppliedAtItsTick := by
  intro s r rest hcounting hsteps
  have hrun := exec_stepApplied_counting hcounting hsteps
  have htick := exec_tick_counting hcounting
  rw [hsteps] at htick
  refine ⟨htick.trans hrun.symm, s.stepTick r rest, hrun, rfl, rfl, rfl, rfl, rfl, rfl, rfl, rfl,
    fun l => (s.stepTick_lane r rest l).trans (Lane.ticked_eq _ _ _), fun hbelow => ?saturates, fun hwithin => ?lands⟩
  case saturates =>
    have hstep : s.time.stepResult r = _ := DeviceTime.step_saturates hbelow
    have hjournal := s.stepTick_recorded r rest
    rw [hstep] at hjournal
    exact ⟨congrArg (fun x : StepResult => x.time.instant) hstep, congrArg (fun x : StepResult => x.time.frac) hstep, hjournal⟩
  case lands =>
    obtain ⟨hns, hfrac, happlied, hsaturated⟩ := DeviceTime.step_lands hwithin
    have hjournal := s.stepTick_recorded r rest
    have happlied' : (s.time.stepResult r).applied = r.amount := happlied
    have hsaturated' : (s.time.stepResult r).saturated = false := hsaturated
    rw [happlied', hsaturated'] at hjournal
    exact ⟨hns, hfrac, hjournal⟩

/-! ### The pending change of UTC offset (R12) -/

/-- Settles O10: the pending change is filtered by device time alone. -/
theorem offsetChangeTakesEffect : Obligations.OffsetChangeTakesEffect := by
  intro s change hcounting hpending
  refine ⟨fun hahead => ?ahead, fun hreached => ?applied⟩
  case ahead =>
    have hdue : s.time.offsetDue = none := by
      rw [TimeBase.offsetDue, hpending, Option.filter_some, if_neg (by rw [decide_eq_true_iff]; exact not_not.mpr hahead)]
    refine congrArg Host.Outcome.next ?_
    rw [hcounting, hdue]
  case applied =>
    have hdue : s.time.offsetDue = some change := by
      rw [TimeBase.offsetDue, hpending, Option.filter_some, if_pos (decide_eq_true hreached)]
    refine congrArg Host.Outcome.next ?_
    rw [hcounting, hdue]
    rfl

/-! ### The PPS output (R13 to R15) -/

theorem PpsMode.drives_iff (mode : PpsMode) (quality : Quality) :
    PpsMode.drives mode quality = true ↔
      mode = .always ∨ (mode = .traceableOnly ∧ (quality = .traceable ∨ quality = .warning ∨ quality = .holdover)) := by
  rw [← Quality.fit_iff]
  cases mode <;> simp [PpsMode.drives]

theorem Pps.over_iff {pps : Pps} {ends osc : Nat} (h : pps.pulseEnd = some ends) : pps.over osc = true ↔ ends ≤ osc := by
  simp only [Pps.over, h, decide_eq_true_iff]

/-- Settles O11: a due pulse is taken where the part runs, and its end is an oscillator tick. -/
theorem pulseIsDrivenForItsWidth : Obligations.PulseIsDrivenForItsWidth := by
  refine ⟨fun s second hrunning hdue hpulsed => ?taken, fun s ends hpulse => ⟨fun hearly => ?early, fun hended => ?ended⟩⟩
  case taken =>
    have hrun : exec .pulsePointReached s = .next (s.withTime { s.time with pps := s.time.pps.taken second s.dtu.quality s.osc }) := by
      refine congrArg Host.Outcome.next ?_
      rw [State.running_iff.mpr hrunning, hdue]
    rw [hrun, Pps.taken, if_neg hpulsed]
    simp only [PpsMode.drives_iff]
    rfl
  case early => exact congrArg Host.Outcome.next (if_neg (mt (Pps.over_iff hpulse).mp (Nat.not_le.mpr hearly)))
  case ended => exact congrArg Host.Outcome.next (if_pos ((Pps.over_iff hpulse).mpr hended))

end Sys2Proof.Machine
end

