-- ==== Sys2Proof/Proofs/PulseLine.lean ====
section
/-! PROOF. The pulse line of a reference channel: the filter, the acceptance window, and the label, the delivery and the resumes of an accepted edge. -/

namespace Sys2Proof.Machine

/-! ### The filter (R19, R20) -/

section

variable {s : State} {ch : Channel} {sub : Sub} {order : Order} {edge : FilterEdge}

theorem State.captures_iff (s : State) (ch : Channel) :
    s.captures ch = true ↔ s.phase = .running ∧ (s.chan ch).settings.enabled = true ∧ (s.chan ch).filter = none := by
  rw [← State.running_iff]
  simp only [State.captures, Bool.and_eq_true, Option.isNone_iff_eq_none, and_assoc]

theorem exec_pulseEdge_disabled (h : (s.chan ch).settings.enabled = false) : exec (.pulseEdge ch sub order) s = .next s := by
  refine congrArg Host.Outcome.next (if_neg fun hcaptures => ?_)
  obtain ⟨_, henabled, _⟩ := (s.captures_iff ch).mp hcaptures
  exact Bool.false_ne_true (h.symm.trans henabled)

/-- The edge that a rising transition captures (R20). -/
def State.capturedEdge (s : State) (ch : Channel) (sub : Sub) : FilterEdge :=
  { capture := s.readingAt sub, risen := s.oscAt sub, width := (s.chan ch).settings.filterTicks }

theorem exec_pulseEdge_captured (h : s.captures ch = true) :
    exec (.pulseEdge ch sub order) s = .next
      (if (s.chan ch).settings.filterTicks = 0 then s.qualifyEdge ch (s.capturedEdge ch sub) (s.readingAt sub) (s.oscAt sub) order
       else s.withChan ch { s.chan ch with filter := some (s.capturedEdge ch sub) }) := congrArg Host.Outcome.next (if_pos h)

theorem exec_edgeQualified_waiting (hrunning : s.phase = .running) (hfilter : (s.chan ch).filter = some edge) :
    exec (.edgeQualified ch sub order) s = .next
      (if edge.risen + 8 * edge.width ≤ s.oscAt sub then
        (s.withChan ch { s.chan ch with filter := none }).qualifyEdge ch edge (s.readingAt sub) (s.oscAt sub) order
       else s) := by
  refine congrArg Host.Outcome.next ?_
  rw [State.running_iff.mpr hrunning, hfilter]
  rfl

theorem exec_pulseGlitch_waiting (hrunning : s.phase = .running) (hfilter : (s.chan ch).filter = some edge) :
    exec (.pulseGlitch ch sub) s = .next
      (if s.oscAt sub < edge.risen + 8 * edge.width then
        s.withChan ch { s.chan ch with
          filter := none, counters := { (s.chan ch).counters with glitch := (s.chan ch).counters.glitch + 1 } }
       else s) := by
  refine congrArg Host.Outcome.next ?_
  rw [State.running_iff.mpr hrunning, hfilter]
  rfl

end

/-- Settles O12: a waiting edge is compared with the moment its width is reached, by a fall and by its qualification alike. -/
theorem pulseLineIsFiltered : Obligations.PulseLineIsFiltered := by
  intro s ch sub order hrunning
  refine ⟨fun hdisabled => exec_pulseEdge_disabled hdisabled, fun henabled hempty hwidth => ?captured, fun edge hfilter hearly => ⟨?unqualified, ?glitch⟩,
    fun edge hfilter hreached => ?stays⟩
  case captured => exact (exec_pulseEdge_captured ((s.captures_iff ch).mpr ⟨hrunning, henabled, hempty⟩)).trans (congrArg Host.Outcome.next (if_neg hwidth))
  case unqualified =>
    exact (exec_edgeQualified_waiting hrunning hfilter).trans (congrArg Host.Outcome.next (if_neg (Nat.not_le.mpr hearly)))
  case glitch => exact (exec_pulseGlitch_waiting hrunning hfilter).trans (congrArg Host.Outcome.next (if_pos hearly))
  case stays => exact (exec_pulseGlitch_waiting hrunning hfilter).trans (congrArg Host.Outcome.next (if_neg (Nat.not_lt.mpr hreached)))

/-! ### The acceptance window (R21 to R23) -/

section

variable {c : RefChannel} {edge : FilterEdge} {state : DState} {bound : Nat}

/-- An edge that comes within 500 ms of the last accepted one (R21). -/
def RefChannel.Extra (c : RefChannel) (edge : FilterEdge) : Prop := ∃ last, c.lastAccepted = some last ∧ edge.risen < last + 500000000

theorem RefChannel.extraEdge_iff (c : RefChannel) (edge : FilterEdge) : c.extraEdge edge.risen = true ↔ c.Extra edge := by
  unfold RefChannel.extraEdge RefChannel.Extra
  cases c.lastAccepted with
  | none => simp
  | some last => simp

/-- A limit in force in a DTU state: the configured one in TRACEABLE, widened to D elsewhere (R22, R23). -/
def ChannelSettings.limitIn (c : ChannelSettings) (state : DState) (bound configured : Nat) : Nat :=
  if state = .traceable then configured * c.limitUnit else max (configured * c.limitUnit) bound

theorem ChannelSettings.window_windowed (c : ChannelSettings) (h : state = .traceable ∨ state = .holdover ∨ state = .untraceable) :
    c.window state bound = some { early := c.limitIn state bound c.early, late := c.limitIn state bound c.late } := by
  obtain rfl | rfl | rfl := h <;> rfl

theorem RefChannel.judgeEdge_extra (h : c.Extra edge) : c.judgeEdge edge state bound = .extra := if_pos ((c.extraEdge_iff edge).mpr h)

theorem RefChannel.judgeEdge_windowed (hextra : ¬ c.Extra edge) (hstate : state = .traceable ∨ state = .holdover ∨ state = .untraceable) :
    c.judgeEdge edge state bound =
      if toNs edge.capture + c.settings.limitIn state bound c.settings.early < expectedNs edge.capture c.settings.cable then .early
      else if expectedNs edge.capture c.settings.cable + c.settings.limitIn state bound c.settings.late < toNs edge.capture then .late
      else .accepted := by
  rw [RefChannel.judgeEdge, if_neg (mt (c.extraEdge_iff edge).mp hextra), c.settings.window_windowed hstate]

theorem RefChannel.judgeEdge_unwindowed (hextra : ¬ c.Extra edge) (hstate : state = .free ∨ state = .acquiring) :
    c.judgeEdge edge state bound = .accepted := by
  rw [RefChannel.judgeEdge, if_neg (mt (c.extraEdge_iff edge).mp hextra)]
  obtain rfl | rfl := hstate <;> rfl

end

section

variable {s : State} {ch : Channel} {edge : FilterEdge} {t : Instant} {osc : Nat} {order : Order}

theorem State.qualifyEdge_extra (h : (s.chan ch).judgeEdge edge s.dtu.state s.dtu.bound = .extra) :
    s.qualifyEdge ch edge t osc order = s.withChan ch ((s.chan ch).count fun k => { k with extra := k.extra + 1 }) := by
  simp only [State.qualifyEdge, h]

theorem State.qualifyEdge_early (h : (s.chan ch).judgeEdge edge s.dtu.state s.dtu.bound = .early) :
    s.qualifyEdge ch edge t osc order = s.withChan ch ((s.chan ch).count fun k => { k with early := k.early + 1 }) := by
  simp only [State.qualifyEdge, h]

theorem State.qualifyEdge_late (h : (s.chan ch).judgeEdge edge s.dtu.state s.dtu.bound = .late) :
    s.qualifyEdge ch edge t osc order = s.withChan ch ((s.chan ch).count fun k => { k with late := k.late + 1 }) := by
  simp only [State.qualifyEdge, h]

end

/-- An edge's filter is emptied before its judgement. -/
def State.unfiltered (s : State) (ch : Channel) : State := s.withChan ch { s.chan ch with filter := none }

theorem State.unfiltered_chan (s : State) (ch : Channel) : (s.unfiltered ch).chan ch = { s.chan ch with filter := none } := s.chan_withChan_self ch _

theorem State.unfiltered_judgeEdge (s : State) (ch : Channel) (edge : FilterEdge) :
    ((s.unfiltered ch).chan ch).judgeEdge edge (s.unfiltered ch).dtu.state (s.unfiltered ch).dtu.bound =
      (s.chan ch).judgeEdge edge s.dtu.state s.dtu.bound := by
  have hdtu : (s.unfiltered ch).dtu = s.dtu := State.withChan_dtu ..
  rw [s.unfiltered_chan ch, hdtu]
  rfl

theorem State.unfiltered_count (s : State) (ch : Channel) (f : ChannelCounters → ChannelCounters) :
    (s.unfiltered ch).withChan ch (((s.unfiltered ch).chan ch).count f) =
      s.withChan ch { s.chan ch with filter := none, counters := f (s.chan ch).counters } := by
  rw [s.unfiltered_chan ch]
  exact s.withChan_withChan ch _ _

/-- Settles O13: the verdict on the edge is the channel's own, by its last accepted edge and the window of the DTU state. -/
theorem qualifiedEdgeIsRejected : Obligations.QualifiedEdgeIsRejected := by
  intro s ch sub order edge hrunning hfilter hwidth
  have hrun : exec (.edgeQualified ch sub order) s =
      .next ((s.unfiltered ch).qualifyEdge ch edge (s.readingAt sub) (s.oscAt sub) order) :=
    (exec_edgeQualified_waiting hrunning hfilter).trans (congrArg Host.Outcome.next (if_pos hwidth))
  have hverdict := s.unfiltered_judgeEdge ch edge
  refine ⟨fun hextra => ?extra, fun hextra hwindowed hearly => ?early, fun hextra hwindowed hnotEarly hlate => ?late⟩
  case extra =>
    rw [RefChannel.judgeEdge_extra hextra] at hverdict
    rw [hrun, State.qualifyEdge_extra hverdict, State.unfiltered_count]
  case early =>
    have hjudged := (RefChannel.judgeEdge_windowed hextra hwindowed).trans (if_pos hearly)
    rw [hjudged] at hverdict
    rw [hrun, State.qualifyEdge_early hverdict, State.unfiltered_count]
  case late =>
    have hjudged := (RefChannel.judgeEdge_windowed hextra hwindowed).trans ((if_neg (Nat.not_lt.mpr hnotEarly)).trans (if_pos hlate))
    rw [hjudged] at hverdict
    rw [hrun, State.qualifyEdge_late hverdict, State.unfiltered_count]

/-! ### The label of an accepted edge (R32 to R34) -/

section

variable {c : RefChannel} {ch : Channel} {edge : FilterEdge}

theorem RefChannel.label_some {m : QueuedMessage} (h : (c.queue.filter (QueuedMessage.early edge.risen)).getLast? = some m) :
    c.label ch edge = c.labelBy ch edge m := by
  rw [RefChannel.label, h]

theorem RefChannel.label_none (h : c.queue.filter (QueuedMessage.early edge.risen) = []) : c.label ch edge = c.labelNone ch edge := by
  rw [RefChannel.label, h]
  rfl

theorem RefChannel.labelNone_predicted {d : Delivered} (hdelivered : c.delivered = some d) (hrun : c.run < 4) :
    c.labelNone ch edge =
      { channel := { c with
          delivered := some { label := d.predict edge.risen, risen := edge.risen, source := d.source }
          run := c.run + 1
          counters := { c.counters with unlabelledDelivery := c.counters.unlabelledDelivery + 1 } }
        record := some { channel := ch, capture := edge.capture, label := d.predict edge.risen, unlabelled := true, jump := false
                         source := d.source, cable := c.settings.cable } } := by
  rw [RefChannel.labelNone, hdelivered]
  exact if_pos hrun

theorem RefChannel.labelNone_withheld (h : c.delivered = none ∨ 4 ≤ c.run) :
    c.labelNone ch edge =
      { channel := { c with counters := { c.counters with withheld := c.counters.withheld + 1 } }, record := none } := by
  unfold RefChannel.labelNone
  split
  next d hdelivered =>
    refine if_neg (Nat.not_lt.mpr (h.resolve_left fun hnone => ?_))
    rw [hnone] at hdelivered
    cases hdelivered
  next => rfl

end

/-! ### A qualified edge accepted (R23) -/

section

variable {s : State} {ch : Channel} {edge : FilterEdge} {sub : Sub} {order : Order}

theorem State.withChan_chan (s : State) (ch : Channel) : s.withChan ch (s.chan ch) = s := by cases ch <;> rfl

theorem RefChannel.judgeEdge_accepted {c : RefChannel} {state : DState} {bound : Nat} (hextra : ¬ c.Extra edge)
    (h : state = .free ∨ state = .acquiring ∨
      (expectedNs edge.capture c.settings.cable ≤ toNs edge.capture + c.settings.limitIn state bound c.settings.early ∧
        toNs edge.capture ≤ expectedNs edge.capture c.settings.cable + c.settings.limitIn state bound c.settings.late)) :
    c.judgeEdge edge state bound = .accepted := by
  by_cases hstate : state = .free ∨ state = .acquiring
  · exact RefChannel.judgeEdge_unwindowed hextra hstate
  · obtain ⟨hearly, hlate⟩ : _ ∧ _ := by
      obtain hfree | hacquiring | hinside := h
      · exact absurd (.inl hfree) hstate
      · exact absurd (.inr hacquiring) hstate
      · exact hinside
    have hwindowed : state = .traceable ∨ state = .holdover ∨ state = .untraceable := by
      cases state <;> simp at hstate ⊢
    rw [RefChannel.judgeEdge_windowed hextra hwindowed, if_neg (Nat.not_lt.mpr hearly), if_neg (Nat.not_lt.mpr hlate)]

/-- The channel of an accepted edge before its label (R21, R23). -/
def RefChannel.accept (c : RefChannel) (edge : FilterEdge) : RefChannel :=
  { c with filter := none, lastAccepted := some edge.risen, counters := { c.counters with accepted := c.counters.accepted + 1 } }

theorem State.qualifyEdge_accepted (h : (s.chan ch).judgeEdge edge s.dtu.state s.dtu.bound = .accepted) (t : Instant) (osc : Nat) :
    (s.unfiltered ch).qualifyEdge ch edge t osc order =
      (match (((s.chan ch).accept edge).label ch edge).record with
        | some r => (s.withChan ch (((s.chan ch).accept edge).label ch edge).channel).deliverEdge r t osc order
        | none => s.withChan ch (((s.chan ch).accept edge).label ch edge).channel) := by
  have hverdict := (s.unfiltered_judgeEdge ch edge).trans h
  have hset (c : RefChannel) : (s.unfiltered ch).withChan ch c = s.withChan ch c := s.withChan_withChan ch _ c
  unfold State.qualifyEdge
  dsimp only
  rw [hverdict]
  dsimp only
  rw [s.unfiltered_chan ch]
  simp only [hset]
  rfl

theorem exec_edgeQualified_delivered (hrunning : s.phase = .running) (hfilter : (s.chan ch).filter = some edge)
    (hwidth : edge.risen + 8 * edge.width ≤ s.oscAt sub)
    (hverdict : (s.chan ch).judgeEdge edge s.dtu.state s.dtu.bound = .accepted) {c : RefChannel} {r : EdgeRecord}
    (hlabel : ((s.chan ch).accept edge).label ch edge = { channel := c, record := some r }) :
    exec (.edgeQualified ch sub order) s = .next ((s.withChan ch c).deliverEdge r (s.readingAt sub) (s.oscAt sub) order) := by
  have hqualified := State.qualifyEdge_accepted (order := order) hverdict (s.readingAt sub) (s.oscAt sub)
  rw [hlabel] at hqualified
  exact ((exec_edgeQualified_waiting hrunning hfilter).trans (congrArg Host.Outcome.next (if_pos hwidth))).trans
    (congrArg Host.Outcome.next hqualified)

theorem exec_edgeQualified_withheld (hrunning : s.phase = .running) (hfilter : (s.chan ch).filter = some edge)
    (hwidth : edge.risen + 8 * edge.width ≤ s.oscAt sub)
    (hverdict : (s.chan ch).judgeEdge edge s.dtu.state s.dtu.bound = .accepted) {c : RefChannel}
    (hlabel : ((s.chan ch).accept edge).label ch edge = { channel := c, record := none }) :
    exec (.edgeQualified ch sub order) s = .next (s.withChan ch c) := by
  have hqualified := State.qualifyEdge_accepted (order := order) hverdict (s.readingAt sub) (s.oscAt sub)
  rw [hlabel] at hqualified
  exact ((exec_edgeQualified_waiting hrunning hfilter).trans (congrArg Host.Outcome.next (if_pos hwidth))).trans
    (congrArg Host.Outcome.next hqualified)

end

/-! ### The delivery of an edge record (R35, R128, R162) -/

section

variable {s : State} {r : EdgeRecord} {t : Instant} {osc : Nat} {order : Order}

theorem State.deliverEdge_unfit (h : Quality.fit (s.dtu.takeRecord r t osc).dtu.quality = false) :
    s.deliverEdge r t osc order = s.takeEffect (s.dtu.takeRecord r t osc) := by
  refine if_neg ?_
  rw [State.withEffect, State.withDtu_dtu, h]
  exact Bool.false_ne_true

theorem State.deliverEdge_fit (h : Quality.fit (s.dtu.takeRecord r t osc).dtu.quality = true) :
    s.deliverEdge r t osc order =
      { s.withEffect (s.dtu.takeRecord r t osc) with
        auction := s.auction.resumeAll t
        journal := s.journal.takeAll ((s.dtu.takeRecord r t osc).out.dropLast ++
          inOrder order ((s.dtu.takeRecord r t osc).out.getLast?.toList ++
            (s.auction.resumePayloads t).map ((s.dtu.takeRecord r t osc).dtu.handed t))) } := if_pos h

theorem AuctionTimer.resumeAll_suspended (a : AuctionTimer) (t : Instant) {g : Group} (h : (a.groups[g]).state = .suspended) :
    (a.resumeAll t).groups[g] = (a.groups[g]).resumed t := by
  have hstate : a.groups[g.val].state = .suspended := h
  simp [AuctionTimer.resumeAll, hstate]

theorem AuctionTimer.resumeAll_other (a : AuctionTimer) (t : Instant) {g : Group} (h : (a.groups[g]).state ≠ .suspended) :
    (a.resumeAll t).groups[g] = a.groups[g] := by
  have hstate : a.groups[g.val].state ≠ .suspended := h
  simp [AuctionTimer.resumeAll, hstate]

/-- The records of the groups that a fit quality resumes, in the order of the groups (R128). -/
theorem AuctionTimer.resumePayloads_handed (a : AuctionTimer) (t : Instant) (f : Payload → Handed) :
    (a.resumePayloads t).map f = (List.finRange 16).filterMap fun (g : Group) =>
      if (a.groups[g]).state = .suspended then
        some (f (.resume g ((a.resumeAll t).groups[g]).k ((a.resumeAll t).groups[g]).deferrals ((a.resumeAll t).groups[g]).windowStart))
      else none := by
  rw [AuctionTimer.resumePayloads, List.map_filterMap]
  refine List.filterMap_congr fun g _ => ?_
  by_cases h : (a.groups[g]).state = .suspended
  · rw [if_pos h, if_pos h, a.resumeAll_suspended t h]
    rfl
  · rw [if_neg h, if_neg h]
    rfl

end

/-- What the delivery of a record leaves, with the channel that delivers it already set (R35, R128, R162). -/
structure State.Delivers (s : State) (ch : Channel) (c : RefChannel) (r : EdgeRecord) (now : Instant) (osc : Nat) (t : State) : Prop where
  chan : t.chan ch = c
  dtu : t.dtu = (s.dtu.takeRecord r now osc).dtu
  time : t.time = s.time.takeEffect (s.dtu.takeRecord r now osc)
  frame : t = { s.withChan ch c with time := t.time, dtu := t.dtu, auction := t.auction, journal := t.journal }
  seed : t.auction.seed = s.auction.seed
  day : t.auction.day = s.auction.day
  resumed : ∀ g, Quality.fit t.dtu.quality = true → (s.group g).state = .suspended → t.group g = (s.group g).resumed now
  others : ∀ g, Quality.fit t.dtu.quality = false ∨ (s.group g).state ≠ .suspended → t.group g = s.group g
  journalUnfit : Quality.fit t.dtu.quality = false → t.journal = s.journal.takeAll (s.dtu.takeRecord r now osc).out
  journalFit : Quality.fit t.dtu.quality = true → ∃ last : List Handed,
    last.Perm ((s.dtu.takeRecord r now osc).out.getLast?.toList ++ (List.finRange 16).filterMap fun (g : Group) =>
      if (s.group g).state = .suspended then
        some ((s.dtu.takeRecord r now osc).dtu.handed now (.resume g (t.group g).k (t.group g).deferrals (t.group g).windowStart))
      else none) ∧
    t.journal = s.journal.takeAll ((s.dtu.takeRecord r now osc).out.dropLast ++ last)

theorem State.withChan_sameChan {s u : State} {ch : Channel} (hA : u.chanA = s.chanA) (hB : u.chanB = s.chanB) : u.chan ch = s.chan ch := by
  cases ch
  · exact hA
  · exact hB

theorem State.deliverEdge_delivers (s : State) (ch : Channel) (c : RefChannel) (r : EdgeRecord) (now : Instant) (osc : Nat) (order : Order) :
    s.Delivers ch c r now osc ((s.withChan ch c).deliverEdge r now osc order) := by
  have hdtu : (s.withChan ch c).dtu = s.dtu := State.withChan_dtu ..
  have htime : (s.withChan ch c).time = s.time := State.withChan_time ..
  have hauction : (s.withChan ch c).auction = s.auction := State.withChan_auction ..
  have hjournal : (s.withChan ch c).journal = s.journal := State.withChan_journal ..
  cases hfit : Quality.fit (s.dtu.takeRecord r now osc).dtu.quality with
  | false =>
    have hdelivered := State.deliverEdge_unfit (s := s.withChan ch c) (r := r) (t := now) (osc := osc) (order := order)
    rw [hdtu] at hdelivered
    rw [hdelivered hfit]
    exact
      { chan := (State.withChan_sameChan rfl rfl).trans (s.chan_withChan_self ch c)
        dtu := rfl
        time := congrArg (fun x : TimeBase => x.takeEffect (s.dtu.takeRecord r now osc)) htime
        frame := rfl
        seed := congrArg AuctionTimer.seed hauction
        day := congrArg AuctionTimer.day hauction
        resumed := fun g h => absurd (hfit.symm.trans h) Bool.false_ne_true
        others := fun g _ => congrArg (fun a : AuctionTimer => a.groups[g]) hauction
        journalUnfit := fun _ => congrArg (fun j : Journal => j.takeAll (s.dtu.takeRecord r now osc).out) hjournal
        journalFit := fun h => absurd (hfit.symm.trans h) Bool.false_ne_true }
  | true =>
    have hdelivered := State.deliverEdge_fit (s := s.withChan ch c) (r := r) (t := now) (osc := osc) (order := order)
    rw [hdtu] at hdelivered
    rw [hdelivered hfit, hauction, hjournal]
    exact
      { chan := (State.withChan_sameChan rfl rfl).trans (s.chan_withChan_self ch c)
        dtu := rfl
        time := congrArg (fun x : TimeBase => x.takeEffect (s.dtu.takeRecord r now osc)) htime
        frame := rfl
        seed := rfl
        day := rfl
        resumed := fun g _ h => s.auction.resumeAll_suspended now h
        others := fun g h => s.auction.resumeAll_other now (h.resolve_left fun hunfit => Bool.false_ne_true (hunfit.symm.trans hfit))
        journalUnfit := fun h => absurd (h.symm.trans hfit) Bool.false_ne_true
        journalFit := fun _ => ⟨_, by
          rw [s.auction.resumePayloads_handed now]
          exact inOrder_perm order _, rfl⟩ }

theorem Quality.not_fit_iff (x : Quality) : Quality.fit x = false ↔ ¬ (x = .traceable ∨ x = .warning ∨ x = .holdover) := by
  rw [← Quality.fit_iff, Bool.not_eq_true]

theorem exec_pulseEdge_immediate {s : State} {ch : Channel} {sub : Sub} {order : Order} (hrunning : s.phase = .running)
    (henabled : (s.chan ch).settings.enabled = true) (hempty : (s.chan ch).filter = none) (hwidth : (s.chan ch).settings.filterTicks = 0) :
    exec (.pulseEdge ch sub order) s = exec (.edgeQualified ch sub order)
      (s.withChan ch { s.chan ch with filter := some { capture := s.readingAt sub, risen := s.oscAt sub, width := 0 } }) := by
  have hedge : s.capturedEdge ch sub = { capture := s.readingAt sub, risen := s.oscAt sub, width := 0 } := by
    rw [State.capturedEdge, hwidth]
  have hcaptured := exec_pulseEdge_captured (sub := sub) (order := order) ((s.captures_iff ch).mpr ⟨hrunning, henabled, hempty⟩)
  rw [if_pos hwidth, hedge] at hcaptured
  have hqualified := exec_edgeQualified_waiting
    (s := s.withChan ch { s.chan ch with filter := some { capture := s.readingAt sub, risen := s.oscAt sub, width := 0 } }) (sub := sub)
    (order := order) ((State.withChan_phase ..).trans hrunning) (congrArg RefChannel.filter (s.chan_withChan_self ch _))
  have hunset : ({ s.chan ch with filter := none } : RefChannel) = s.chan ch := by rw [← hempty]
  rw [if_pos (by rw [State.oscAt_withChan]; exact Nat.le_refl _), State.withChan_withChan, s.chan_withChan_self ch, State.oscAt_withChan,
    State.readingAt_withChan] at hqualified
  dsimp only at hqualified
  rw [hunset, State.withChan_chan] at hqualified
  exact hcaptured.trans hqualified.symm

/-- Settles O14: the verdict accepts the edge, the queue labels it, and the delivery is one for both labels. -/
theorem acceptedEdgeIsLabelled : Obligations.AcceptedEdgeIsLabelled := by
  intro s ch sub order edge hrunning hfilter hwidth hextra c expected unit limit hinside accepted predicted early record delivers
  have hverdict : (s.chan ch).judgeEdge edge s.dtu.state s.dtu.bound = .accepted := by
    refine RefChannel.judgeEdge_accepted ?_ hinside
    rintro ⟨last, hlast, hsoon⟩
    exact absurd hsoon (Nat.not_lt.mpr (hextra last hlast))
  have hdelivers {c' : RefChannel} {r : EdgeRecord} (hlabel : ((s.chan ch).accept edge).label ch edge = { channel := c', record := some r }) :
      delivers c' r := by
    obtain ⟨hchan, hdtu, htime, hframe, hseed, hday, hresumed, hothers, hunfit, hfit⟩ :=
      s.deliverEdge_delivers ch c' r (s.readingAt sub) (s.oscAt sub) order
    rw [hdtu] at hresumed hothers hunfit hfit
    refine ⟨_, exec_edgeQualified_delivered hrunning hfilter hwidth hverdict hlabel, hchan, hdtu, htime, hframe, hseed, hday,
      fun g h => hresumed g ((Quality.fit_iff _).mpr h), fun g h => hothers g (h.imp (Quality.not_fit_iff _).mpr id),
      fun h => hunfit ((Quality.not_fit_iff _).mpr h), fun h => hfit ((Quality.fit_iff _).mpr h)⟩
  refine ⟨fun m hm => ?labelled, fun d hnone hdelivered hrun => ?predicted, fun hnone hheld => ?withheld,
    fun u hu henabled hempty hzero => exec_pulseEdge_immediate hu henabled hempty hzero⟩
  case labelled => exact hdelivers (RefChannel.label_some (c := c.accept edge) hm)
  case predicted => exact hdelivers ((RefChannel.label_none (c := c.accept edge) hnone).trans
      (RefChannel.labelNone_predicted (c := c.accept edge) hdelivered hrun))
  case withheld =>
    exact exec_edgeQualified_withheld hrunning hfilter hwidth hverdict
      ((RefChannel.label_none (c := c.accept edge) hnone).trans (RefChannel.labelNone_withheld (c := c.accept edge) hheld))

end Sys2Proof.Machine
end

