-- ==== Sys2Proof/Proofs/SerialLine.lean ====
section
/-! PROOF. The serial line of a reference channel: its timers, a completed character on its way through the buffer to the assembler, and the validation of a message. -/

namespace Sys2Proof.Machine

/-! ### The timers (R27, R31, R34) -/

section

variable {s : State} {ch : Channel} {sub : Sub}

theorem RefChannel.hunt_empty {c : RefChannel} (h : c.buffer = []) : c.hunt = { c with assembler := .hunting } := by
  rw [RefChannel.hunt, h, RefChannel.drain, ← h]

theorem RefChannel.hunt_count {c : RefChannel} (h : c.buffer = []) (f : ChannelCounters → ChannelCounters) :
    (c.count f).hunt = { c with assembler := .hunting, counters := f c.counters } := RefChannel.hunt_empty (c := c.count f) h

theorem exec_predictionExpiry_held {d : Delivered} (hrunning : s.phase = .running) (h : (s.chan ch).delivered = some d) :
    exec (.predictionExpiry ch sub) s =
      .next (if d.risen + 16000000000 ≤ s.oscAt sub then s.withChan ch { s.chan ch with delivered := none } else s) := by
  refine congrArg Host.Outcome.next ?_
  rw [State.running_iff.mpr hrunning, h]

theorem exec_messageStale_queued {m : QueuedMessage} {rest : List QueuedMessage} (hrunning : s.phase = .running)
    (h : (s.chan ch).queue = m :: rest) :
    exec (.messageStale ch sub) s =
      .next (if m.completion + 1500000000 < s.oscAt sub then
          s.withChan ch { s.chan ch with
            queue := rest, counters := { (s.chan ch).counters with stale := (s.chan ch).counters.stale + 1 } }
        else s) := by
  refine congrArg Host.Outcome.next ?_
  rw [State.running_iff.mpr hrunning, h]
  rfl

theorem exec_gapTimerExpiry_assembling {bytes : List Byte} {last : Nat} (hrunning : s.phase = .running)
    (h : (s.chan ch).assembler = .assembling bytes last) :
    exec (.gapTimerExpiry ch sub) s =
      .next (if last + (s.chan ch).settings.gap ≤ s.oscAt sub then
          s.withChan ch ((s.chan ch).count fun k => { k with gapAbort := k.gapAbort + 1 }).hunt
        else s) := by
  refine congrArg Host.Outcome.next ?_
  rw [State.running_iff.mpr hrunning, h]

end

/-- Settles O15: each timer is compared with the oscillator time of its row. -/
theorem channelTimersExpire : Obligations.ChannelTimersExpire := by
  intro s ch sub hrunning
  refine ⟨fun d hd => ⟨fun h => ?heldPrediction, fun h => ?expired⟩, fun m rest hqueue => ⟨fun h => ?fresh, fun h => ?stale⟩,
    fun bytes last hassembler => ⟨fun h => ?waits, fun h hbuffer => ?aborted⟩⟩
  case heldPrediction => exact (exec_predictionExpiry_held hrunning hd).trans (congrArg Host.Outcome.next (if_neg (Nat.not_le.mpr h)))
  case expired => exact (exec_predictionExpiry_held hrunning hd).trans (congrArg Host.Outcome.next (if_pos h))
  case fresh => exact (exec_messageStale_queued hrunning hqueue).trans (congrArg Host.Outcome.next (if_neg (Nat.not_lt.mpr h)))
  case stale => exact (exec_messageStale_queued hrunning hqueue).trans (congrArg Host.Outcome.next (if_pos h))
  case waits => exact (exec_gapTimerExpiry_assembling hrunning hassembler).trans (congrArg Host.Outcome.next (if_neg (Nat.not_le.mpr h)))
  case aborted =>
    refine (exec_gapTimerExpiry_assembling hrunning hassembler).trans (congrArg Host.Outcome.next ((if_pos h).trans ?_))
    rw [RefChannel.hunt_count hbuffer]

/-! ### A completed character (R24 to R27) -/

section

variable {c : RefChannel} {data : Byte} {parityBit stopBit : Bool} {x : Character} {completed : Nat}

/-- The parity of a character is not the configured one (R24). -/
def Parity.Wrong (parity : Parity) (data : Byte) (parityBit : Bool) : Prop :=
  (parity = .even ∧ countOnes data parityBit % 2 = 1) ∨ (parity = .odd ∧ countOnes data parityBit % 2 = 0)

theorem Parity.error_iff (parity : Parity) (data : Byte) (parityBit : Bool) :
    Parity.error parity data parityBit = true ↔ parity.Wrong data parityBit := by
  cases parity <;> simp [Parity.error, Parity.Wrong]

/-- A character that completes now can have been in reception (R19, R24). -/
def RefChannel.Looking (c : RefChannel) (completed : Nat) : Prop :=
  (∃ since, c.receiver = .waitingForStart since ∧ since + c.settings.receptionSpan ≤ completed) ∨
    ∃ since, c.receiver = .waitingForHigh since ∧ since + c.settings.receptionSpan < completed

theorem RefChannel.receiving_iff (c : RefChannel) (completed : Nat) : c.receiving completed = true ↔ c.Looking completed := by
  unfold RefChannel.receiving RefChannel.Looking
  cases c.receiver <;> simp

/-- The channel when a character completes, before its buffer takes it (R24). -/
def RefChannel.received (c : RefChannel) (x : Character) : RefChannel :=
  { c with
    receiver := if x.framingError then .waitingForHigh x.completed else .waitingForStart x.completed
    counters := { c.counters with
      framingError := if x.framingError then c.counters.framingError + 1 else c.counters.framingError
      parityError := if x.parityError then c.counters.parityError + 1 else c.counters.parityError } }

theorem RefChannel.complete_eq (c : RefChannel) (x : Character) :
    c.complete x = ((c.received x).bufferCharacter x).drain ((c.received x).bufferCharacter x).buffer := rfl

theorem RefChannel.takeCharacter_buffer (c : RefChannel) (buffer : List Character) :
    ({ c with buffer := buffer } : RefChannel).takeCharacter x = { c.takeCharacter x with buffer := buffer } := by
  obtain ⟨settings, filter, lastAccepted, receiver, waiting, assembler, queue, delivered, run, counters⟩ := c
  unfold RefChannel.takeCharacter RefChannel.count
  cases assembler with
  | hunting => dsimp only; split_ifs <;> rfl
  | assembling bytes last => dsimp only; split_ifs <;> rfl
  | validating bytes last => rfl

/-- With nothing waiting and no message complete, the assembler takes the character at once (R26). -/
theorem RefChannel.complete_empty (hbuffer : c.buffer = []) (hassembler : ∀ bytes last, c.assembler ≠ .validating bytes last) :
    c.complete x = (c.received x).takeCharacter x := by
  have hsame : ({ c.received x with buffer := [] } : RefChannel) = c.received x := by rw [← hbuffer]; rfl
  have hbuffered : (c.received x).bufferCharacter x = { c.received x with buffer := [x] } := by
    have hnone : (c.received x).buffer = [] := hbuffer
    rw [RefChannel.bufferCharacter, hnone]
    rfl
  rw [RefChannel.complete_eq, hbuffered, RefChannel.drain]
  split
  next bytes last hvalidating => exact absurd hvalidating (hassembler bytes last)
  next =>
    rw [RefChannel.takeCharacter_buffer, RefChannel.drain]
    exact (RefChannel.takeCharacter_buffer _ _).symm.trans (congrArg (fun c => RefChannel.takeCharacter c x) hsame)

theorem RefChannel.complete_hunting (hbuffer : c.buffer = []) (h : c.assembler = .hunting) (x : Character) :
    c.complete x = (c.received x).takeCharacter x :=
  RefChannel.complete_empty hbuffer fun _ _ hvalidating => nomatch h.symm.trans hvalidating

theorem RefChannel.complete_assembling {bytes : List Byte} {last : Nat} (hbuffer : c.buffer = []) (h : c.assembler = .assembling bytes last)
    (x : Character) : c.complete x = (c.received x).takeCharacter x :=
  RefChannel.complete_empty hbuffer fun _ _ hvalidating => nomatch h.symm.trans hvalidating

theorem RefChannel.drain_validating {bytes : List Byte} {last : Nat} (h : c.assembler = .validating bytes last) (xs : List Character) :
    c.drain xs = { c with buffer := xs } := by
  cases xs with
  | nil => rfl
  | cons x xs =>
    rw [RefChannel.drain]
    split
    · rfl
    next hother => exact absurd h (hother bytes last)

/-- With a message complete and the buffer full, the character is lost (R25). -/
theorem RefChannel.complete_full {a b : Character} {bytes : List Byte} {last : Nat} (hbuffer : c.buffer = [a, b])
    (hassembler : c.assembler = .validating bytes last) :
    c.complete x = { c.received x with
      buffer := [a, { b with overrun := true }]
      counters := { (c.received x).counters with overrun := (c.received x).counters.overrun + 1 } } := by
  have hfull : (c.received x).buffer = [a, b] := hbuffer
  have hbuffered : (c.received x).bufferCharacter x = { c.received x with
      buffer := [a, { b with overrun := true }]
      counters := { (c.received x).counters with overrun := (c.received x).counters.overrun + 1 } } := by
    rw [RefChannel.bufferCharacter, hfull]
    rfl
  rw [RefChannel.complete_eq, hbuffered]
  exact RefChannel.drain_validating (by exact hassembler) _

/-! What the assembler does with one character (R26, R27). -/

theorem RefChannel.takeCharacter_hunting (h : c.assembler = .hunting) :
    c.takeCharacter x =
      if x.flagged then c else if x.data = syncByte then { c with assembler := .assembling [] x.completed }
      else { c with counters := { c.counters with skippedByte := c.counters.skippedByte + 1 } } := by
  unfold RefChannel.takeCharacter
  split
  next => rfl
  next hother => cases h.symm.trans hother
  next hother => cases h.symm.trans hother

theorem RefChannel.takeCharacter_assembling {bytes : List Byte} {last : Nat} (h : c.assembler = .assembling bytes last) :
    c.takeCharacter x =
      if x.flagged then { c with assembler := .hunting, counters := { c.counters with lineAbort := c.counters.lineAbort + 1 } }
      else if bytes.length + 1 = 14 then { c with assembler := .validating (bytes ++ [x.data]) x.completed }
      else { c with assembler := .assembling (bytes ++ [x.data]) x.completed } := by
  unfold RefChannel.takeCharacter
  split
  next hother => cases h.symm.trans hother
  next hsame =>
    cases h.symm.trans hsame
    rfl
  next hother => cases h.symm.trans hother

theorem RefChannel.takeCharacter_hunting_flagged (h : c.assembler = .hunting) (hx : x.flagged = true) : c.takeCharacter x = c :=
  (RefChannel.takeCharacter_hunting h).trans (if_pos hx)

theorem RefChannel.takeCharacter_sync (h : c.assembler = .hunting) (hx : x.flagged = false) (hdata : x.data = syncByte) :
    c.takeCharacter x = { c with assembler := .assembling [] x.completed } :=
  (RefChannel.takeCharacter_hunting h).trans ((if_neg (Bool.not_eq_true _ ▸ hx)).trans (if_pos hdata))

theorem RefChannel.takeCharacter_skipped (h : c.assembler = .hunting) (hx : x.flagged = false) (hdata : x.data ≠ syncByte) :
    c.takeCharacter x = { c with counters := { c.counters with skippedByte := c.counters.skippedByte + 1 } } :=
  (RefChannel.takeCharacter_hunting h).trans ((if_neg (Bool.not_eq_true _ ▸ hx)).trans (if_neg hdata))

theorem RefChannel.takeCharacter_abandoned {bytes : List Byte} {last : Nat} (h : c.assembler = .assembling bytes last) (hx : x.flagged = true) :
    c.takeCharacter x = { c with
      assembler := .hunting, counters := { c.counters with lineAbort := c.counters.lineAbort + 1 } } :=
  (RefChannel.takeCharacter_assembling h).trans (if_pos hx)

theorem RefChannel.takeCharacter_completes {bytes : List Byte} {last : Nat} (h : c.assembler = .assembling bytes last) (hx : x.flagged = false)
    (hlen : bytes.length = 13) : c.takeCharacter x = { c with assembler := .validating (bytes ++ [x.data]) x.completed } :=
  (RefChannel.takeCharacter_assembling h).trans ((if_neg (Bool.not_eq_true _ ▸ hx)).trans (if_pos (by omega)))

theorem RefChannel.takeCharacter_extends {bytes : List Byte} {last : Nat} (h : c.assembler = .assembling bytes last) (hx : x.flagged = false)
    (hlen : bytes.length ≠ 13) : c.takeCharacter x = { c with assembler := .assembling (bytes ++ [x.data]) x.completed } :=
  (RefChannel.takeCharacter_assembling h).trans ((if_neg (Bool.not_eq_true _ ▸ hx)).trans (if_neg (by omega)))

theorem RefChannel.receive_clean (h : ¬ c.settings.parity.Wrong data parityBit) :
    c.receive data parityBit true completed =
      { data := data, framingError := false, parityError := false, overrun := false, completed := completed } := by
  rw [RefChannel.receive, Bool.eq_false_iff.mpr (mt (Parity.error_iff _ _ _).mp h)]
  rfl

theorem RefChannel.receive_wrong (h : c.settings.parity.Wrong data parityBit) :
    c.receive data parityBit true completed =
      { data := data, framingError := false, parityError := true, overrun := false, completed := completed } := by
  rw [RefChannel.receive, (Parity.error_iff _ _ _).mpr h]
  rfl

theorem RefChannel.receive_framing (h : ¬ c.settings.parity.Wrong data parityBit) :
    c.receive data parityBit false completed =
      { data := data, framingError := true, parityError := false, overrun := false, completed := completed } := by
  rw [RefChannel.receive, Bool.eq_false_iff.mpr (mt (Parity.error_iff _ _ _).mp h)]
  rfl

end

section

variable {s : State} {ch : Channel} {data : Byte} {parityBit stopBit : Bool} {sub : Sub}

theorem exec_characterComplete_ignored (h : ¬ (s.chan ch).Looking (s.oscAt sub)) :
    exec (.characterComplete ch data parityBit stopBit sub) s = .next s := by
  refine congrArg Host.Outcome.next (if_neg fun hguard => h ?_)
  obtain ⟨_, hreceiving⟩ := Bool.and_eq_true_iff.mp hguard
  exact (RefChannel.receiving_iff _ _).mp hreceiving

theorem exec_characterComplete_received (hrunning : s.phase = .running) (henabled : (s.chan ch).settings.enabled = true)
    (h : (s.chan ch).Looking (s.oscAt sub)) :
    exec (.characterComplete ch data parityBit stopBit sub) s =
      .next (s.withChan ch ((s.chan ch).complete ((s.chan ch).receive data parityBit stopBit (s.oscAt sub)))) := by
  refine congrArg Host.Outcome.next (if_pos ?_)
  rw [State.running_iff.mpr hrunning, henabled, (RefChannel.receiving_iff _ _).mpr h]
  rfl

end

/-- Settles O16: a completion counts only where the receiver was looking, and the assembler's state and the character's flags decide the rest. -/
theorem characterIsAssembled : Obligations.CharacterIsAssembled := by
  intro s ch data parityBit sub hrunning henabled c bit span looking ones wrong run ready
  have hreceived {stopBit : Bool} {x : Character} {c' : RefChannel} (hlooking : looking)
      (hx : c.receive data parityBit stopBit (s.oscAt sub) = x) (h : c.complete x = c') : run stopBit = .next (s.withChan ch c') := by
    rw [← h, ← hx]
    exact exec_characterComplete_received hrunning henabled hlooking
  refine ⟨fun stopBit hnot => exec_characterComplete_ignored hnot, fun hlooking hbuffer hhunting =>
    ⟨fun hclean hsync => ?sync, fun hclean hsync => ?skipped, fun hwrong => ?parity, fun hclean => ?framing⟩,
    fun bytes last hlooking hbuffer hassembling => ⟨fun hclean hlen => ?extended, fun hclean hlen => ?completes, fun hclean => ?abandoned⟩,
    fun x y bytes last hlooking hbuffer hvalidating hclean => ?overrun⟩
  case sync =>
    exact hreceived hlooking (RefChannel.receive_clean hclean)
      ((RefChannel.complete_hunting hbuffer hhunting _).trans (RefChannel.takeCharacter_sync hhunting rfl hsync))
  case skipped =>
    exact hreceived hlooking (RefChannel.receive_clean hclean)
      ((RefChannel.complete_hunting hbuffer hhunting _).trans (RefChannel.takeCharacter_skipped hhunting rfl hsync))
  case parity =>
    exact hreceived hlooking (RefChannel.receive_wrong hwrong)
      ((RefChannel.complete_hunting hbuffer hhunting _).trans (RefChannel.takeCharacter_hunting_flagged hhunting rfl))
  case framing =>
    exact hreceived hlooking (RefChannel.receive_framing hclean)
      ((RefChannel.complete_hunting hbuffer hhunting _).trans (RefChannel.takeCharacter_hunting_flagged hhunting rfl))
  case extended =>
    exact hreceived hlooking (RefChannel.receive_clean hclean)
      ((RefChannel.complete_assembling hbuffer hassembling _).trans (RefChannel.takeCharacter_extends hassembling rfl hlen))
  case completes =>
    exact hreceived hlooking (RefChannel.receive_clean hclean)
      ((RefChannel.complete_assembling hbuffer hassembling _).trans (RefChannel.takeCharacter_completes hassembling rfl hlen))
  case abandoned =>
    exact hreceived hlooking (RefChannel.receive_framing hclean)
      ((RefChannel.complete_assembling hbuffer hassembling _).trans (RefChannel.takeCharacter_abandoned hassembling rfl))
  case overrun => exact hreceived hlooking (RefChannel.receive_clean hclean) (RefChannel.complete_full hbuffer hvalidating)

/-! ### The validation of a message (R29 to R31) -/

section

variable {s : State} {ch : Channel} {bytes : List Byte} {completion : Nat} {t : Instant} {sub : Sub}

theorem exec_messageValidation_validating (hrunning : s.phase = .running) (h : (s.chan ch).assembler = .validating bytes completion) :
    exec (.messageValidation ch sub) s = .next (s.validateMessage ch bytes completion (s.readingAt sub)) := by
  refine congrArg Host.Outcome.next ?_
  rw [State.running_iff.mpr hrunning, h]

theorem sourceOf_eq_none {n : Nat} (h : 2 < n) : sourceOf n = none := by
  unfold sourceOf
  split <;> first | omega | rfl

theorem State.validateMessage_badCheck (h : ¬ (check (bytes.take 12)).toNat = (readMessage bytes).check) :
    s.validateMessage ch bytes completion t =
      s.withChan ch ((s.chan ch).count fun k => { k with checkFailure := k.checkFailure + 1 }).hunt := if_pos h

theorem State.validateMessage_badField (hcheck : (check (bytes.take 12)).toNat = (readMessage bytes).check)
    (h : 2 < (readMessage bytes).leapNotice ∨ 2 < (readMessage bytes).sourceState) :
    s.validateMessage ch bytes completion t =
      s.withChan ch ((s.chan ch).count fun k => { k with fieldFailure := k.fieldFailure + 1 }).hunt := by
  rw [State.validateMessage]
  refine (if_neg (not_not.mpr hcheck)).trans ?_
  obtain hnotice | hsource := h
  · rw [decide_eq_false (Nat.not_le.mpr hnotice)]
    cases sourceOf (readMessage bytes).sourceState <;> rfl
  · rw [sourceOf_eq_none hsource]

/-- The channel when a message is found valid (R29). -/
def RefChannel.valid (c : RefChannel) : RefChannel := c.count fun k => { k with validMessage := k.validMessage + 1 }

/-- The state after a valid message's schedule, if it has one (R30). -/
def State.leapScheduled (s : State) (ch : Channel) (m : TimeMessage) (t : Instant) : State :=
  match m.leap ch with
  | some change => (s.withChan ch (s.chan ch).valid).scheduleLeap ch change t
  | none => s.withChan ch (s.chan ch).valid

theorem State.validateMessage_valid {source : SourceState} (hcheck : (check (bytes.take 12)).toNat = (readMessage bytes).check)
    (hnotice : (readMessage bytes).leapNotice ≤ 2) (hsource : sourceOf (readMessage bytes).sourceState = some source) :
    s.validateMessage ch bytes completion t =
      (s.leapScheduled ch (readMessage bytes) t).withChan ch
        (((s.leapScheduled ch (readMessage bytes) t).chan ch).offerMessage
          { edgeSecond := (readMessage bytes).edgeSecond, source := source, completion := completion }).hunt := by
  rw [State.validateMessage]
  refine (if_neg (not_not.mpr hcheck)).trans ?_
  rw [decide_eq_true hnotice, hsource]
  rfl

theorem RefChannel.offerMessage_hunt {c : RefChannel} {m : QueuedMessage} (hbuffer : c.buffer = []) :
    (c.offerMessage m).hunt =
      if c.queue.length < 2 then { c with assembler := .hunting, queue := c.queue ++ [m] }
      else { c with assembler := .hunting, counters := { c.counters with messageOverrun := c.counters.messageOverrun + 1 } } := by
  unfold RefChannel.offerMessage
  split
  · exact RefChannel.hunt_empty hbuffer
  · exact RefChannel.hunt_count hbuffer _

theorem State.withChan_takeSchedule (s : State) (ch : Channel) (c : RefChannel) (change : OffsetChange) (t : Instant) :
    (s.withChan ch c).takeSchedule change t = (s.takeSchedule change t).withChan ch c := by
  unfold State.takeSchedule
  cases ch <;> split <;> rfl

/-- The channel of a valid message's schedule: refused and counted where the new offset lies out of range (R30). -/
theorem State.leapScheduled_refused {m : TimeMessage} {change : OffsetChange} (hleap : m.leap ch = some change)
    (h : offsetInRange change.newOffset = false) :
    s.leapScheduled ch m t =
      s.withChan ch ((s.chan ch).valid.count fun k => { k with leapRefused := k.leapRefused + 1 }) := by
  rw [State.leapScheduled, hleap]
  dsimp only
  rw [State.scheduleLeap, h, s.chan_withChan_self ch]
  exact s.withChan_withChan ch _ _

theorem State.leapScheduled_taken {m : TimeMessage} {change : OffsetChange} (hleap : m.leap ch = some change)
    (h : offsetInRange change.newOffset = true) :
    s.leapScheduled ch m t = (s.takeSchedule change t).withChan ch (s.chan ch).valid := by
  rw [State.leapScheduled, hleap, ← State.withChan_takeSchedule]
  exact if_pos h

theorem State.leapScheduled_none {m : TimeMessage} (hleap : m.leap ch = none) :
    s.leapScheduled ch m t = s.withChan ch (s.chan ch).valid := by
  rw [State.leapScheduled, hleap]

theorem TimeMessage.leap_none {m : TimeMessage} (h : ¬ (m.leapNotice ≠ 0 ∧ m.secondsToLeap ≠ 0)) : m.leap ch = none :=
  if_pos (by tauto)

theorem TimeMessage.leap_some {m : TimeMessage} (h : m.leapNotice ≠ 0 ∧ m.secondsToLeap ≠ 0) :
    m.leap ch = some
      { newOffset := if m.leapNotice = 1 then m.utcOffset + 1 else m.utcOffset - 1
        effective := { sec := (m.edgeSecond + m.secondsToLeap) % 281474976710656, ns := 0 }
        source := .reference ch } :=
  if_neg (by tauto)

/-- A valid message queued after its schedule, which has left the channel with the counters `k` and the rest of the state in `u` (R31). -/
theorem State.validateMessage_queued {source : SourceState} {u : State} {k : ChannelCounters} (hbuffer : (s.chan ch).buffer = [])
    (hcheck : (check (bytes.take 12)).toNat = (readMessage bytes).check) (hnotice : (readMessage bytes).leapNotice ≤ 2)
    (hsource : sourceOf (readMessage bytes).sourceState = some source)
    (hscheduled : s.leapScheduled ch (readMessage bytes) t = u.withChan ch { s.chan ch with counters := k }) :
    s.validateMessage ch bytes completion t = u.withChan ch
      (if (s.chan ch).queue.length < 2 then
        { s.chan ch with
          assembler := .hunting
          queue := (s.chan ch).queue ++ [{ edgeSecond := (readMessage bytes).edgeSecond, source := source, completion := completion }]
          counters := k }
      else { s.chan ch with assembler := .hunting, counters := { k with messageOverrun := k.messageOverrun + 1 } }) := by
  rw [State.validateMessage_valid hcheck hnotice hsource, hscheduled, State.chan_withChan_self, State.withChan_withChan,
    RefChannel.offerMessage_hunt (c := { s.chan ch with counters := k }) hbuffer]

end

/-- Settles O17: the check and the two fields sort the message, its schedule is the Time Base's own, and the queue takes it last. -/
theorem messageIsValidated : Obligations.MessageIsValidated := by
  intro s ch sub bytes completion hrunning hassembler hbuffer c correct notice toLeap run
  have hrun : run = .next (s.validateMessage ch bytes completion (s.readingAt sub)) := exec_messageValidation_validating hrunning hassembler
  refine ⟨fun hcheck => ?badCheck, fun hcheck hfield => ?badField, fun source hcheck hnotice hsource => ?valid⟩
  case badCheck =>
    rw [hrun, State.validateMessage_badCheck hcheck, RefChannel.hunt_count hbuffer]
  case badField =>
    rw [hrun, State.validateMessage_badField hcheck hfield, RefChannel.hunt_count hbuffer]
  case valid =>
    intro valid queued offset effective scheduled taken
    have hqueued {u : State} {k : ChannelCounters}
        (hscheduled : s.leapScheduled ch (readMessage bytes) (s.readingAt sub) = u.withChan ch { s.chan ch with counters := k }) :
        run = queued u k :=
      hrun.trans (congrArg Host.Outcome.next (State.validateMessage_queued hbuffer hcheck hnotice hsource hscheduled))
    have hrange : offsetInRange offset = true ↔ taken := offsetInRange_iff offset
    refine ⟨fun hnone => hqueued (State.leapScheduled_none (TimeMessage.leap_none hnone)), fun hleap hrefused => ?refused,
      fun hleap htaken hahead => ?ahead, fun hleap htaken hreached => ?applied⟩
    case refused =>
      exact hqueued (State.leapScheduled_refused (TimeMessage.leap_some hleap) (Bool.eq_false_iff.mpr (mt hrange.mp hrefused)))
    case ahead =>
      have hscheduled := State.leapScheduled_taken (s := s) (t := s.readingAt sub)
        (TimeMessage.leap_some (ch := ch) (m := readMessage bytes) hleap) (hrange.mpr htaken)
      rw [State.takeSchedule_ahead hahead] at hscheduled
      exact hqueued hscheduled
    case applied =>
      have hscheduled := State.leapScheduled_taken (s := s) (t := s.readingAt sub)
        (TimeMessage.leap_some (ch := ch) (m := readMessage bytes) hleap) (hrange.mpr htaken)
      rw [State.takeSchedule_reached hreached] at hscheduled
      exact hqueued hscheduled

end Sys2Proof.Machine
end

