-- ==== Sys2Proof/Proofs/RecordTaken.lean ====
section
/-! PROOF. The alarm conditions, and what a delivered edge record does in the DTU: the measurement of its offset, the loop, and each discipline state's own rule. -/

namespace Sys2Proof.Machine

/-! ### The alarm conditions (R190, R191) -/

theorem getLsbD_bit {n : Nat} (hn : n < 7) (live : Bool) (i : Nat) :
    (if live then BitVec.twoPow 7 n else 0).getLsbD i = (live && decide (i = n)) := by
  cases live with
  | false => simp
  | true =>
    rw [if_pos rfl, BitVec.getLsbD_twoPow, Bool.true_and, decide_eq_true hn, Bool.true_and]
    exact decide_eq_decide.mpr eq_comm

/-- The conditions of an alarm line, bit n live where the n-th is. -/
theorem State.liveConditions_bit (s : State) (i : Nat) :
    s.liveConditions.getLsbD i =
      ((s.dtu.state == .free || s.dtu.state == .acquiring || s.dtu.state == .untraceable) && decide (i = 0) ||
        s.dtu.warning && decide (i = 1) || (s.dtu.state == .holdover) && decide (i = 2) || s.dtu.disagreement && decide (i = 3) ||
        decide (s.journal.free < 64) && decide (i = 4) || (s.journal.lost != 0) && decide (i = 5) ||
        ((List.finRange 8).any fun p => (s.ports[p]).episode.isSome) && decide (i = 6)) := by
  unfold State.liveConditions
  dsimp only
  simp only [BitVec.getLsbD_or, getLsbD_bit (n := 0) (by decide), getLsbD_bit (n := 1) (by decide), getLsbD_bit (n := 2) (by decide),
    getLsbD_bit (n := 3) (by decide), getLsbD_bit (n := 4) (by decide), getLsbD_bit (n := 5) (by decide), getLsbD_bit (n := 6) (by decide)]

theorem and_ne_zero_iff {w : Nat} (x y : BitVec w) : (x &&& y) ≠ 0 ↔ ∃ i, x.getLsbD i = true ∧ y.getLsbD i = true := by
  constructor
  · intro hne
    by_contra hnone
    refine hne (BitVec.eq_of_getLsbD_eq fun i _ => ?_)
    have hzero : (0 : BitVec w).getLsbD i = false := BitVec.getLsbD_zero
    rw [BitVec.getLsbD_and, hzero, Bool.eq_false_iff, Ne, Bool.and_eq_true]
    exact fun h => hnone ⟨i, h⟩
  · rintro ⟨i, hx, hy⟩ hzero
    have hbit := congrArg (fun z : BitVec w => z.getLsbD i) hzero
    simp [hx, hy] at hbit

/-- Settles O20: each condition owns one bit of the seven. -/
theorem alarmShowsMarkedConditions : Obligations.AlarmShowsMarkedConditions := by
  intro s
  have hbit := s.liveConditions_bit
  refine ⟨?alarm, ?_, ?_, ?_, ?_, ?_, ?_, ?_, rfl⟩
  case alarm =>
    rw [State.alarmAsserted, Bool.and_eq_true, bne_iff_ne, bne_iff_ne, and_ne_zero_iff]
  all_goals
    rw [hbit]
    simp [State.port, or_assoc]

/-! ### The addend of a rate (R4, R5) -/

/-- A rate's addend lies within half a unit of its exact value: 2^31 divides the product, which is never a half (R4). -/
theorem addendOf_near (r : Int) :
    |((addendOf r : Int) - 34359738368) * 1000000000 - max (-3200000) (min 3200000 r) * 2147483648| * 2 < 1000000000 := by
  have hclamp : clampTo rateLimit r = max (-3200000) (min 3200000 r) := rfl
  have hlimit := clampTo_rateLimit_natAbs r
  rw [← hclamp]
  unfold addendOf addendOffset
  generalize clampTo rateLimit r = x at hlimit ⊢
  have hbounds : -500000000 < ((34359738368 + x.sign * (((x.natAbs * 2147483648 + 500000000) / 1000000000 : Nat) : Int)).toNat -
      34359738368 : Int) * 1000000000 - x * 2147483648 ∧
      ((34359738368 + x.sign * (((x.natAbs * 2147483648 + 500000000) / 1000000000 : Nat) : Int)).toNat -
      34359738368 : Int) * 1000000000 - x * 2147483648 < 500000000 := by
    rcases lt_trichotomy x 0 with hneg | rfl | hpos
    · rw [Int.sign_eq_neg_one_of_neg hneg]
      omega
    · simp
    · rw [Int.sign_eq_one_of_pos hpos]
      omega
  have habs := abs_lt.mpr hbounds
  omega

theorem TimeBase.takeEffect_eq (tb : TimeBase) (e : DtuEffect) :
    tb.takeEffect e = { tb with
      addend := match e.rate with | some r => addendOf r | none => tb.addend
      steps := match e.step with | some amount => tb.steps ++ [{ source := .dtu, amount := amount }] | none => tb.steps } := by
  unfold TimeBase.takeEffect
  cases e.rate <;> cases e.step <;> rfl

/-! ### The θ of a record, and what it sets of its reference (R38, R52) -/

section

variable {d : Dtu} {r : EdgeRecord} {t : Instant} {osc : Nat}

theorem Dtu.afterStep_iff (d : Dtu) (osc : Nat) : d.afterStep osc = true ↔ ∃ stepped, d.steppedAt = some stepped ∧ osc ≤ stepped + 10000000 := by
  unfold Dtu.afterStep
  cases d.steppedAt <;> simp

/-- The θ of a record: its offset, clamped (R38). -/
def EdgeRecord.clamped (r : EdgeRecord) : Int := clampTo thetaLimit r.offset

theorem Dtu.thetaOf_none (h : r.jump = true ∨ d.afterStep osc = true) : d.thetaOf r osc = none :=
  if_pos (by rw [Bool.or_eq_true]; exact h)

theorem Dtu.thetaOf_some (hjump : r.jump = false) (hstep : ¬ d.afterStep osc = true) : d.thetaOf r osc = some r.clamped :=
  if_neg (by rw [Bool.or_eq_true, hjump]; simpa using hstep)

/-- The DTU after the reference of a record has taken what the record tells of it (R38, R52). -/
def Dtu.judged (d : Dtu) (r : EdgeRecord) (osc : Nat) : Dtu :=
  d.withRef r.channel ((d.ref r.channel).deliver r (d.thetaOf r osc))

theorem Dtu.ref_withRef_self (d : Dtu) (ch : Channel) (j : RefJudgement) : (d.withRef ch j).ref ch = j := by cases ch <;> rfl

theorem Dtu.ref_withRef_other (d : Dtu) (ch : Channel) (j : RefJudgement) : (d.withRef ch j).ref (otherRef ch) = d.ref (otherRef ch) := by
  cases ch <;> rfl

theorem RefJudgement.deliver_none (j : RefJudgement) (r : EdgeRecord) : (j.deliver r none).theta = j.theta ∧ (j.deliver r none).fresh = j.fresh :=
  ⟨rfl, by simp [RefJudgement.deliver]⟩

theorem RefJudgement.deliver_some (j : RefJudgement) (r : EdgeRecord) (x : Int) :
    (j.deliver r (some x)).theta = some x ∧ (j.deliver r (some x)).fresh = true :=
  ⟨rfl, by simp [RefJudgement.deliver]⟩

theorem RefJudgement.deliver_eq (j : RefJudgement) (r : EdgeRecord) (theta : Option Int) :
    j.deliver r theta = { j with
      edgeAge := if r.unlabelled = false ∧ r.jump = false then some 0 else j.edgeAge
      jumpAge := if r.jump then some 0 else j.jumpAge
      source := some r.source
      theta := (j.deliver r theta).theta, fresh := (j.deliver r theta).fresh } := by
  simp [RefJudgement.deliver]

/-! ### Which rule takes the record (R39, R42) -/

theorem Dtu.takeRecord_notActive (h : d.active ≠ some r.channel) : d.takeRecord r t osc = DtuEffect.of (d.judged r osc) := if_neg h

theorem Dtu.takeRecord_applied (h : d.active = some r.channel) (hsource : r.source = .locked) (hjump : r.jump = false)
    (hstep : ¬ d.afterStep osc = true) (hfree : d.state = .free → r.unlabelled = false) :
    d.takeRecord r t osc = (DtuEffect.of (d.judged r osc)).measure t r.clamped r.unlabelled := by
  have hlabelled : ¬ (d.state = .free ∧ r.unlabelled = true) := fun hboth => Bool.false_ne_true ((hfree hboth.1).symm.trans hboth.2)
  have hjudged : d.judged r osc = d.withRef r.channel ((d.ref r.channel).deliver r (some r.clamped)) := by
    rw [Dtu.judged, Dtu.thetaOf_some hjump hstep]
  rw [hjudged, Dtu.takeRecord, Dtu.thetaOf_some hjump hstep, hsource]
  exact (if_pos h).trans (if_neg hlabelled)

theorem Dtu.takeRecord_unapplied (h : d.active = some r.channel) (hnot : r.source ≠ .locked ∨ r.jump = true ∨ d.afterStep osc = true) :
    d.takeRecord r t osc = if d.state = .free then DtuEffect.of (d.judged r osc)
      else DtuEffect.of { d.judged r osc with minute := (d.judged r osc).minute.reject } := by
  have hnone : r.source = .locked → d.thetaOf r osc = none := fun hlocked => Dtu.thetaOf_none (hnot.resolve_left (not_not.mpr hlocked))
  unfold Dtu.takeRecord
  dsimp only
  rw [if_pos h]
  split
  next x hx hlocked => cases (hnone hlocked).symm.trans hx
  next => rfl

theorem Dtu.takeRecord_free (h : d.active = some r.channel) (hfree : d.state = .free)
    (hnot : r.source ≠ .locked ∨ r.jump = true ∨ d.afterStep osc = true ∨ r.unlabelled = true) :
    d.takeRecord r t osc = DtuEffect.of (d.judged r osc) := by
  by_cases hunapplied : r.source ≠ .locked ∨ r.jump = true ∨ d.afterStep osc = true
  · rw [Dtu.takeRecord_unapplied h hunapplied, if_pos hfree]
  · obtain ⟨hlocked, hjump, hstep⟩ : r.source = .locked ∧ ¬ r.jump = true ∧ ¬ d.afterStep osc = true := by
      simpa only [not_or, not_not, ne_eq] using hunapplied
    have hunlabelled : r.unlabelled = true := by tauto
    have hjudged : d.judged r osc = d.withRef r.channel ((d.ref r.channel).deliver r (some r.clamped)) := by
      rw [Dtu.judged, Dtu.thetaOf_some (Bool.eq_false_iff.mpr hjump) hstep]
    rw [hjudged, Dtu.takeRecord, Dtu.thetaOf_some (Bool.eq_false_iff.mpr hjump) hstep, hlocked]
    exact (if_pos h).trans (if_pos ⟨hfree, hunlabelled⟩)

end

end Sys2Proof.Machine
end

