-- ==== Sys2Proof/Proofs/Measurement.lean ====
section
/-! PROOF. A measurement applied in each discipline state: what every rule of it keeps, the loop, the qualifying count, and the four rules themselves. -/

namespace Sys2Proof.Machine

/-! ### What every rule of a measurement keeps -/

/-- The settings, the references, and what every applied measurement has already set are the same. -/
structure Dtu.SameMeasure (a b : Dtu) : Prop where
  settings : b.settings = a.settings
  refA : b.refA = a.refA
  refB : b.refB = a.refB
  active : b.active = a.active
  lastTheta : b.lastTheta = a.lastTheta
  unlabelled : b.unlabelled = a.unlabelled
  sinceApplied : b.sinceApplied = a.sinceApplied
  accepted : b.minute.accepted = a.minute.accepted
  smallest : b.minute.smallest = a.minute.smallest
  largest : b.minute.largest = a.minute.largest

theorem Dtu.SameMeasure.refl (d : Dtu) : d.SameMeasure d := ⟨rfl, rfl, rfl, rfl, rfl, rfl, rfl, rfl, rfl, rfl⟩

theorem Dtu.SameMeasure.trans {a b c : Dtu} (hab : a.SameMeasure b) (hbc : b.SameMeasure c) : a.SameMeasure c :=
  ⟨hbc.settings.trans hab.settings, hbc.refA.trans hab.refA, hbc.refB.trans hab.refB, hbc.active.trans hab.active,
    hbc.lastTheta.trans hab.lastTheta, hbc.unlabelled.trans hab.unlabelled, hbc.sinceApplied.trans hab.sinceApplied,
    hbc.accepted.trans hab.accepted, hbc.smallest.trans hab.smallest, hbc.largest.trans hab.largest⟩

section

variable {e : DtuEffect} {t : Instant} {theta : Int}

theorem DtuEffect.qualifyAt_same : e.dtu.SameMeasure (e.qualifyAt t theta).dtu := by
  unfold DtuEffect.qualifyAt
  split
  · exact ⟨rfl, rfl, rfl, rfl, rfl, rfl, rfl, rfl, rfl, rfl⟩
  · exact .refl _

theorem DtuEffect.measureAcquiring_same : e.dtu.SameMeasure (e.measureAcquiring t theta).dtu := by
  unfold DtuEffect.measureAcquiring
  split
  · exact ⟨rfl, rfl, rfl, rfl, rfl, rfl, rfl, rfl, rfl, rfl⟩
  · refine .trans ?_ DtuEffect.qualifyAt_same
    exact ⟨rfl, rfl, rfl, rfl, rfl, rfl, rfl, rfl, rfl, rfl⟩

/-- The persistence count after a measurement in TRACEABLE (R45). -/
def Dtu.persistAfter (d : Dtu) (theta : Int) : Nat := if d.settings.limit < d.measuredBound theta then d.persistent + 1 else 0

/-- D persists above L after a measurement in TRACEABLE (R45). -/
def Dtu.Persists (d : Dtu) (theta : Int) : Prop :=
  d.settings.limit < d.measuredBound theta ∧ d.settings.persistence ≤ d.persistAfter theta

/-- The effect of a measurement in TRACEABLE before the test on persistence (R45). -/
def DtuEffect.traceableJudged (e : DtuEffect) (theta : Int) : DtuEffect :=
  (e.loop e.dtu.settings.trackKi e.dtu.settings.trackKp theta).change fun d =>
    let d := (d.setBound (d.measuredBound theta)).evaluateWarning
    { d with persistent := if d.settings.limit < d.bound then d.persistent + 1 else 0 }

theorem DtuEffect.measureTraceable_leaves (h : e.dtu.Persists theta) :
    e.measureTraceable t theta = ((e.traceableJudged theta).change Dtu.enterUntraceable).recordState t .traceable .persistence := if_pos h

theorem DtuEffect.measureTraceable_stays (h : ¬ e.dtu.Persists theta) : e.measureTraceable t theta = e.traceableJudged theta := if_neg h

theorem DtuEffect.traceableJudged_same : e.dtu.SameMeasure (e.traceableJudged theta).dtu := by
  have hset (d : Dtu) (bound persistent : Nat) : d.SameMeasure { (d.setBound bound).evaluateWarning with persistent := persistent } :=
    ⟨rfl, rfl, rfl, rfl, rfl, rfl, rfl, rfl, rfl, rfl⟩
  refine .trans ?_ (hset _ _ _)
  exact ⟨rfl, rfl, rfl, rfl, rfl, rfl, rfl, rfl, rfl, rfl⟩

theorem DtuEffect.measureTraceable_same : e.dtu.SameMeasure (e.measureTraceable t theta).dtu := by
  refine .trans (DtuEffect.traceableJudged_same (theta := theta)) ?_
  by_cases h : e.dtu.Persists theta
  · rw [DtuEffect.measureTraceable_leaves h]
    exact ⟨rfl, rfl, rfl, rfl, rfl, rfl, rfl, rfl, rfl, rfl⟩
  · rw [DtuEffect.measureTraceable_stays h]
    exact .refl _

theorem DtuEffect.measureHoldover_same : e.dtu.SameMeasure (e.measureHoldover t theta).dtu := by
  unfold DtuEffect.measureHoldover
  refine .trans ?_ DtuEffect.qualifyAt_same
  exact ⟨rfl, rfl, rfl, rfl, rfl, rfl, rfl, rfl, rfl, rfl⟩

theorem DtuEffect.measureUntraceable_same : e.dtu.SameMeasure (e.measureUntraceable t theta).dtu := by
  unfold DtuEffect.measureUntraceable
  refine .trans ?_ DtuEffect.qualifyAt_same
  exact ⟨rfl, rfl, rfl, rfl, rfl, rfl, rfl, rfl, rfl, rfl⟩

theorem DtuEffect.measure_same (unlabelled : Bool) :
    (e.dtu.noteApplied theta unlabelled).SameMeasure (e.measure t theta unlabelled).dtu := by
  unfold DtuEffect.measure
  dsimp only
  split
  · exact .trans (b := ((e.change fun d => d.noteApplied theta unlabelled).leaveFree t).dtu)
      ⟨rfl, rfl, rfl, rfl, rfl, rfl, rfl, rfl, rfl, rfl⟩ DtuEffect.measureAcquiring_same
  · exact DtuEffect.measureAcquiring_same (e := e.change fun d => d.noteApplied theta unlabelled)
  · exact DtuEffect.measureTraceable_same (e := e.change fun d => d.noteApplied theta unlabelled)
  · exact DtuEffect.measureHoldover_same (e := e.change fun d => d.noteApplied theta unlabelled)
  · exact DtuEffect.measureUntraceable_same (e := e.change fun d => d.noteApplied theta unlabelled)

/-! ### The loop and the qualifying count (R40, R43, R47, R49) -/

/-- An effect whose loop ran from the DTU `d` with the gains of its state (R40). -/
abbrev DtuEffect.Looped (d : Dtu) (ki kp : Nat) (theta : Int) (e : DtuEffect) : Prop :=
  e.dtu.integral = clampTo rateLimit (d.integral - theta * 16 / 2 ^ ki) ∧
  e.dtu.proportional = clampTo d.settings.sMax (-(theta * 16 / 2 ^ kp)) ∧
  e.rate = some (clampTo rateLimit
    (clampTo rateLimit (d.integral - theta * 16 / 2 ^ ki) + clampTo d.settings.sMax (-(theta * 16 / 2 ^ kp)))) ∧
  e.step = none

theorem shiftDown_eq (x : Int) (k : Nat) : shiftDown x k = x / 2 ^ k := by
  rw [shiftDown, Nat.cast_pow]
  rfl

theorem DtuEffect.loop_looped (h : e.step = none) (ki kp : Nat) : (e.loop ki kp theta).Looped e.dtu ki kp theta := by
  refine ⟨?_, ?_, ?_, h⟩ <;> simp only [DtuEffect.loop, shiftDown_eq]

theorem DtuEffect.qualifyAt_rates :
    (e.qualifyAt t theta).dtu.integral = e.dtu.integral ∧ (e.qualifyAt t theta).dtu.proportional = e.dtu.proportional ∧
      (e.qualifyAt t theta).rate = e.rate ∧ (e.qualifyAt t theta).step = e.step := by
  unfold DtuEffect.qualifyAt
  split
  · exact ⟨rfl, rfl, rfl, rfl⟩
  · exact ⟨rfl, rfl, rfl, rfl⟩

theorem DtuEffect.qualifyAt_looped {d : Dtu} {ki kp : Nat} (h : e.Looped d ki kp theta) : (e.qualifyAt t theta).Looped d ki kp theta := by
  obtain ⟨hintegral, hproportional, hrate, hstep⟩ := e.qualifyAt_rates (t := t) (theta := theta)
  obtain ⟨hintegral', hproportional', hrate', hstep'⟩ := h
  exact ⟨hintegral.trans hintegral', hproportional.trans hproportional', hrate.trans hrate', hstep.trans hstep'⟩

theorem DtuEffect.qualifyAt_short (h : e.dtu.qualifying < e.dtu.settings.qualify) : e.qualifyAt t theta = e := if_neg (Nat.not_le.mpr h)

/-- The DTU qualified with a measurement (R43, R48). -/
abbrev Dtu.Qualified (settings : DtuSettings) (bound : Nat) (d : Dtu) : Prop :=
  d.state = .traceable ∧ d.bound = bound ∧ d.persistent = 0 ∧ d.warning = decide (settings.warn < bound)

theorem DtuEffect.qualifyAt_reached (h : e.dtu.settings.qualify ≤ e.dtu.qualifying) :
    (e.qualifyAt t theta).dtu.Qualified e.dtu.settings (e.dtu.measuredBound theta) ∧
      (e.qualifyAt t theta).out.map Handed.payload = e.out.map Handed.payload ++
        [.stateChange e.dtu.state .traceable .qualified (e.dtu.measuredBound theta) e.dtu.active] := by
  rw [DtuEffect.qualifyAt, if_pos h]
  refine ⟨⟨rfl, rfl, rfl, ?_⟩, List.map_append⟩
  by_cases hwarn : e.dtu.settings.warn < e.dtu.measuredBound theta
  · rw [decide_eq_true hwarn]
    exact if_pos hwarn
  · rw [decide_eq_false hwarn]
    exact (if_neg hwarn).trans (ite_self _)

/-! ### The four rules of an applied measurement -/

/-- The qualifying count after a measurement that stood at `n` before it (R43, R47, R49). -/
def Dtu.countAfter (d : Dtu) (theta : Int) (n : Nat) : Nat := if d.measuredBound theta ≤ d.settings.limit then n + 1 else 0

/-- What the loop, the qualifying count and the test on Q leave of the DTU `d`, whose records before were `start`; `count` is the count then reached, and D is
`short` where it does not suffice. -/
structure DtuEffect.Counts (d : Dtu) (ki kp : Nat) (theta : Int) (start : List Payload) (count short : Nat) (e : DtuEffect) : Prop where
  looped : e.Looped d ki kp theta
  reached : d.settings.qualify ≤ count → e.dtu.Qualified d.settings (d.measuredBound theta) ∧
    e.out.map Handed.payload = start ++ [.stateChange d.state .traceable .qualified (d.measuredBound theta) d.active]
  below : count < d.settings.qualify →
    e.dtu.state = d.state ∧ e.dtu.qualifying = count ∧ e.out.map Handed.payload = start ∧ e.dtu.bound = short

theorem DtuEffect.qualifyAt_counts {d : Dtu} {ki kp count short : Nat} {start : List Payload} (hlooped : e.Looped d ki kp theta)
    (hsettings : e.dtu.settings = d.settings) (hstate : e.dtu.state = d.state) (hactive : e.dtu.active = d.active)
    (hcount : e.dtu.qualifying = count) (hbound : e.dtu.bound = short) (hout : e.out.map Handed.payload = start) :
    (e.qualifyAt t theta).Counts d ki kp theta start count short := by
  refine ⟨DtuEffect.qualifyAt_looped hlooped, fun h => ?_, fun h => ?_⟩
  · have hreached := DtuEffect.qualifyAt_reached (e := e) (t := t) (theta := theta) (by rw [hsettings, hcount]; exact h)
    rw [Dtu.measuredBound, hsettings, hstate, hactive, hout] at hreached
    exact hreached
  · rw [DtuEffect.qualifyAt_short (by rw [hsettings, hcount]; exact h)]
    exact ⟨hstate, hcount, hout, hbound⟩

theorem DtuEffect.measureAcquiring_steps (h : e.dtu.settings.stepThreshold < theta.natAbs) :
    e.measureAcquiring t theta = { e with
      dtu := ({ e.dtu with proportional := 0, qualifying := 0 } : Dtu).setBound (e.dtu.measuredBound theta)
      rate := some (clampTo rateLimit e.dtu.integral)
      step := some (-theta) } := if_pos h

theorem DtuEffect.measureAcquiring_counts (hstep : e.step = none) (h : theta.natAbs ≤ e.dtu.settings.stepThreshold) :
    (e.measureAcquiring t theta).Counts e.dtu e.dtu.settings.acqKi e.dtu.settings.acqKp theta (e.out.map Handed.payload)
      (e.dtu.countAfter theta e.dtu.qualifying) (e.dtu.measuredBound theta) := by
  obtain ⟨hintegral, hproportional, hrate, hnone⟩ :=
    DtuEffect.loop_looped (e := e) (theta := theta) hstep e.dtu.settings.acqKi e.dtu.settings.acqKp
  rw [DtuEffect.measureAcquiring, if_neg (Nat.not_lt.mpr h)]
  exact DtuEffect.qualifyAt_counts ⟨hintegral, hproportional, hrate, hnone⟩ rfl rfl rfl rfl rfl rfl

theorem DtuEffect.measureHoldover_counts (hstep : e.step = none) :
    (e.measureHoldover t theta).Counts e.dtu e.dtu.settings.trackKi e.dtu.settings.trackKp theta (e.out.map Handed.payload)
      (e.dtu.countAfter theta e.dtu.qualifying) e.dtu.bound := by
  obtain ⟨hintegral, hproportional, hrate, hnone⟩ :=
    DtuEffect.loop_looped (e := e) (theta := theta) hstep e.dtu.settings.trackKi e.dtu.settings.trackKp
  exact DtuEffect.qualifyAt_counts ⟨hintegral, hproportional, hrate, hnone⟩ rfl rfl rfl rfl rfl rfl

theorem DtuEffect.measureUntraceable_counts (hstep : e.step = none) :
    (e.measureUntraceable t theta).Counts e.dtu e.dtu.settings.trackKi e.dtu.settings.trackKp theta (e.out.map Handed.payload)
      (e.dtu.countAfter theta e.dtu.qualifying) (e.dtu.measuredBound theta) := by
  obtain ⟨hintegral, hproportional, hrate, hnone⟩ :=
    DtuEffect.loop_looped (e := e) (theta := theta) hstep e.dtu.settings.trackKi e.dtu.settings.trackKp
  exact DtuEffect.qualifyAt_counts ⟨hintegral, hproportional, hrate, hnone⟩ rfl rfl rfl rfl rfl rfl

theorem DtuEffect.traceableJudged_looped (hstep : e.step = none) :
    (e.traceableJudged theta).Looped e.dtu e.dtu.settings.trackKi e.dtu.settings.trackKp theta := by
  obtain ⟨hintegral, hproportional, hrate, hnone⟩ :=
    DtuEffect.loop_looped (e := e) (theta := theta) hstep e.dtu.settings.trackKi e.dtu.settings.trackKp
  exact ⟨hintegral, hproportional, hrate, hnone⟩

end

/-! ### The measurement of a record (R39, R42) -/

section

variable {j : Dtu} {t : Instant} {theta : Int} {unlabelled : Bool}

/-- A measurement that has only been noted (R39). -/
def Dtu.noted (j : Dtu) (theta : Int) (unlabelled : Bool) : DtuEffect := DtuEffect.of (j.noteApplied theta unlabelled)

theorem Dtu.measure_free (h : j.state = .free) :
    (DtuEffect.of j).measure t theta unlabelled = ((j.noted theta unlabelled).leaveFree t).measureAcquiring t theta := by
  have hstate : (DtuEffect.of j).dtu.state = .free := h
  rw [DtuEffect.measure, hstate]
  rfl

theorem Dtu.measure_acquiring (h : j.state = .acquiring) :
    (DtuEffect.of j).measure t theta unlabelled = (j.noted theta unlabelled).measureAcquiring t theta := by
  have hstate : (DtuEffect.of j).dtu.state = .acquiring := h
  rw [DtuEffect.measure, hstate]
  rfl

theorem Dtu.measure_traceable (h : j.state = .traceable) :
    (DtuEffect.of j).measure t theta unlabelled = (j.noted theta unlabelled).measureTraceable t theta := by
  have hstate : (DtuEffect.of j).dtu.state = .traceable := h
  rw [DtuEffect.measure, hstate]
  rfl

theorem Dtu.measure_holdover (h : j.state = .holdover) :
    (DtuEffect.of j).measure t theta unlabelled = (j.noted theta unlabelled).measureHoldover t theta := by
  have hstate : (DtuEffect.of j).dtu.state = .holdover := h
  rw [DtuEffect.measure, hstate]
  rfl

theorem Dtu.measure_untraceable (h : j.state = .untraceable) :
    (DtuEffect.of j).measure t theta unlabelled = (j.noted theta unlabelled).measureUntraceable t theta := by
  have hstate : (DtuEffect.of j).dtu.state = .untraceable := h
  rw [DtuEffect.measure, hstate]
  rfl

end

/-! ### The record taken, spelled for a DTU whose references have been judged -/

section

variable {d : Dtu} {r : EdgeRecord} {t : Instant} {osc : Nat}

theorem Dtu.judged_eq (d : Dtu) (r : EdgeRecord) (osc : Nat) : ∃ a b, d.judged r osc = { d with refA := a, refB := b } := by
  unfold Dtu.judged Dtu.withRef
  cases r.channel
  · exact ⟨_, d.refB, rfl⟩
  · exact ⟨d.refA, _, rfl⟩

theorem Dtu.takeRecord_refs (d : Dtu) (r : EdgeRecord) (t : Instant) (osc : Nat) (ch : Channel) :
    (d.takeRecord r t osc).dtu.ref ch = (d.judged r osc).ref ch := by
  have hsame : (d.takeRecord r t osc).dtu.refA = (d.judged r osc).refA ∧ (d.takeRecord r t osc).dtu.refB = (d.judged r osc).refB := by
    unfold Dtu.takeRecord
    dsimp only
    split
    · split
      · split
        · exact ⟨rfl, rfl⟩
        next theta _ _ _ =>
          have hmeasured := DtuEffect.measure_same (e := DtuEffect.of (d.judged r osc)) (t := t) (theta := theta) r.unlabelled
          exact ⟨hmeasured.refA, hmeasured.refB⟩
      · split
        · exact ⟨rfl, rfl⟩
        · exact ⟨rfl, rfl⟩
    · exact ⟨rfl, rfl⟩
  cases ch
  · exact hsame.1
  · exact hsame.2

theorem Dtu.judged_ref_self (d : Dtu) (r : EdgeRecord) (osc : Nat) :
    (d.judged r osc).ref r.channel = (d.ref r.channel).deliver r (d.thetaOf r osc) := d.ref_withRef_self _ _

theorem Dtu.judged_ref_other (d : Dtu) (r : EdgeRecord) (osc : Nat) :
    (d.judged r osc).ref (otherRef r.channel) = d.ref (otherRef r.channel) := d.ref_withRef_other _ _

theorem Dtu.judged_minute (d : Dtu) (r : EdgeRecord) (osc : Nat) : (d.judged r osc).minute = d.minute := by
  obtain ⟨a, b, hjudged⟩ := d.judged_eq r osc
  rw [hjudged]

end

/-- The rule of ACQUIRING on an effect that requests no step yet (R43). -/
theorem DtuEffect.measureAcquiring_rule {e : DtuEffect} (t : Instant) (theta : Int) (hstep : e.step = none) :
    let u := e.measureAcquiring t theta
    let d := e.dtu
    let start := e.out.map Handed.payload
    (d.settings.stepThreshold < theta.natAbs →
      u.dtu.state = d.state ∧ u.dtu.integral = d.integral ∧ u.dtu.proportional = 0 ∧ u.dtu.qualifying = 0 ∧
        u.rate = some (clampTo rateLimit d.integral) ∧ u.step = some (-theta) ∧ u.dtu.bound = d.measuredBound theta ∧
        u.out.map Handed.payload = start) ∧
    (theta.natAbs ≤ d.settings.stepThreshold →
      u.Looped d d.settings.acqKi d.settings.acqKp theta ∧ u.dtu.bound = d.measuredBound theta ∧
        (d.settings.qualify ≤ d.countAfter theta d.qualifying → u.dtu.Qualified d.settings (d.measuredBound theta) ∧
          u.out.map Handed.payload = start ++ [.stateChange d.state .traceable .qualified (d.measuredBound theta) d.active]) ∧
        (d.countAfter theta d.qualifying < d.settings.qualify →
          u.dtu.state = d.state ∧ u.dtu.qualifying = d.countAfter theta d.qualifying ∧ u.out.map Handed.payload = start)) := by
  refine ⟨fun h => ?steps, fun h => ?loops⟩
  case steps =>
    rw [DtuEffect.measureAcquiring_steps h]
    exact ⟨rfl, rfl, rfl, rfl, rfl, rfl, rfl, rfl⟩
  case loops =>
    obtain ⟨hlooped, hreached, hbelow⟩ := DtuEffect.measureAcquiring_counts (t := t) hstep h
    refine ⟨hlooped, ?_, hreached, fun hcount => ?_⟩
    · obtain hcount | hcount := Nat.lt_or_ge (e.dtu.countAfter theta e.dtu.qualifying) e.dtu.settings.qualify
      · exact (hbelow hcount).2.2.2
      · exact (hreached hcount).1.2.1
    · obtain ⟨hstate, hqualifying, hout, _⟩ := hbelow hcount
      exact ⟨hstate, hqualifying, hout⟩

/-- The rule of TRACEABLE on an effect that requests no step yet (R45). -/
theorem DtuEffect.measureTraceable_rule {e : DtuEffect} (t : Instant) (theta : Int) (hstep : e.step = none) (hstate : e.dtu.state = .traceable)
    (hout : e.out = []) :
    let u := e.measureTraceable t theta
    let d := e.dtu
    u.Looped d d.settings.trackKi d.settings.trackKp theta ∧ u.dtu.bound = d.measuredBound theta ∧
      (d.Persists theta → u.dtu.state = .untraceable ∧ u.dtu.warning = false ∧ u.dtu.qualifying = 0 ∧
        u.out.map Handed.payload = [.stateChange .traceable .untraceable .persistence (d.measuredBound theta) d.active]) ∧
      (¬ d.Persists theta → u.dtu.state = .traceable ∧ u.dtu.persistent = d.persistAfter theta ∧ u.out = [] ∧
        u.dtu.warning = (if d.settings.warn < d.measuredBound theta then true
          else if d.measuredBound theta ≤ d.settings.warn - d.settings.warn / 8 then false else d.warning)) := by
  obtain ⟨hintegral, hproportional, hrate, hnone⟩ := DtuEffect.traceableJudged_looped (e := e) (theta := theta) hstep
  by_cases hpersists : e.dtu.Persists theta
  · dsimp only
    rw [DtuEffect.measureTraceable_leaves hpersists]
    refine ⟨⟨hintegral, hproportional, hrate, hnone⟩, rfl, fun _ => ⟨rfl, rfl, rfl, ?_⟩, fun h => absurd hpersists h⟩
    exact congrArg (fun out => (out ++ [_]).map Handed.payload) hout
  · dsimp only
    rw [DtuEffect.measureTraceable_stays hpersists]
    exact ⟨⟨hintegral, hproportional, hrate, hnone⟩, rfl, fun h => absurd h hpersists, fun _ => ⟨hstate, rfl, hout, rfl⟩⟩

/-! ### Every state's rule together -/

/-- What an applied measurement has set, whatever the state (R39, R58). -/
theorem Dtu.measure_sets (j : Dtu) (t : Instant) (theta : Int) (unlabelled : Bool) :
    (j.noteApplied theta unlabelled).SameMeasure ((DtuEffect.of j).measure t theta unlabelled).dtu :=
  DtuEffect.measure_same (e := DtuEffect.of j) (t := t) (theta := theta) unlabelled

/-- Settles O18: the references are judged first, and the state of the DTU then picks the rule of the measurement. -/
theorem measurementIsApplied : Obligations.MeasurementIsApplied := by
  refine ⟨addendOf_near, TimeBase.takeEffect_eq, fun d r t osc => ?_⟩
  intro e afterStep theta clamp bound counted loop qualified j
  have hrefs : e.dtu.ref r.channel = (d.ref r.channel).deliver r (d.thetaOf r osc) :=
    (d.takeRecord_refs r t osc r.channel).trans (d.judged_ref_self r osc)
  have hjudged : d.judged r osc = d.withRef r.channel (e.dtu.ref r.channel) := by rw [hrefs]; rfl
  have hafter : afterStep ↔ d.afterStep osc = true := (d.afterStep_iff osc).symm
  refine ⟨⟨?ref, ?kept, ?set, ?other⟩, ?inactive, fun hactive => ⟨?rejected, ?free, ?applied⟩⟩
  case ref =>
    rw [hrefs]
    exact RefJudgement.deliver_eq _ _ _
  case kept =>
    intro h
    rw [hrefs, Dtu.thetaOf_none (h.imp_right hafter.mp)]
    exact RefJudgement.deliver_none _ _
  case set =>
    intro hjump hstep
    rw [hrefs, Dtu.thetaOf_some hjump (hafter.not.mp hstep)]
    exact RefJudgement.deliver_some _ _ _
  case other => exact (d.takeRecord_refs r t osc _).trans (d.judged_ref_other r osc)
  case inactive =>
    intro hactive
    have htaken : e = DtuEffect.of (d.judged r osc) := Dtu.takeRecord_notActive hactive
    rw [← hjudged, htaken]
    exact ⟨rfl, rfl, rfl, rfl⟩
  case rejected =>
    intro hnot hfree
    have htaken : e = _ := (Dtu.takeRecord_unapplied (t := t) hactive (hnot.imp_right (Or.imp_right hafter.mp))).trans (if_neg hfree)
    have hminute := d.judged_minute r osc
    rw [← hjudged, htaken, ← hminute]
    exact ⟨rfl, rfl, rfl, rfl⟩
  case free =>
    intro hfree hnot
    have htaken : e = _ := Dtu.takeRecord_free (t := t) hactive hfree (hnot.imp_right (Or.imp_right (Or.imp_left hafter.mp)))
    rw [← hjudged, htaken]
    exact ⟨rfl, rfl, rfl, rfl⟩
  case applied =>
    intro hlocked hjump hstep hlabelled
    have htaken : e = (DtuEffect.of (d.judged r osc)).measure t theta r.unlabelled :=
      Dtu.takeRecord_applied hactive hlocked hjump (hafter.not.mp hstep) hlabelled
    obtain ⟨a, b, hj⟩ := d.judged_eq r osc
    rw [hj] at htaken
    obtain ⟨hsettings, -, -, hact, hlast, hunlabelled, hsince, haccepted, hsmallest, hlargest⟩ :=
      Dtu.measure_sets { d with refA := a, refB := b } t theta r.unlabelled
    rw [← htaken] at hsettings hact hlast hunlabelled hsince haccepted hsmallest hlargest
    refine ⟨hlast, hunlabelled, hsince, hact, hsettings, haccepted, hsmallest, hlargest, ?acquiring, ?traceable, ?holding⟩
    case acquiring =>
      rintro (hfree | hacquiring)
      · have hrule := DtuEffect.measureAcquiring_rule
          (e := (Dtu.noted { d with refA := a, refB := b } theta r.unlabelled).leaveFree t) t theta rfl
        rw [← Dtu.measure_free (j := { d with refA := a, refB := b }) hfree, ← htaken] at hrule
        simp only [if_pos hfree]
        exact hrule
      · have hrule := DtuEffect.measureAcquiring_rule (e := Dtu.noted { d with refA := a, refB := b } theta r.unlabelled) t theta rfl
        rw [← Dtu.measure_acquiring (j := { d with refA := a, refB := b }) hacquiring, ← htaken] at hrule
        have hne : d.state ≠ .free := by rw [hacquiring]; decide
        simp only [if_neg hne]
        rw [← hacquiring]
        exact hrule
    case traceable =>
      intro htraceable
      have hrule := DtuEffect.measureTraceable_rule (e := Dtu.noted { d with refA := a, refB := b } theta r.unlabelled) t theta rfl
        htraceable rfl
      rw [← Dtu.measure_traceable (j := { d with refA := a, refB := b }) htraceable, ← htaken] at hrule
      exact hrule
    case holding =>
      rintro (hholdover | huntraceable)
      · have hrule := DtuEffect.measureHoldover_counts (e := Dtu.noted { d with refA := a, refB := b } theta r.unlabelled) (t := t)
          (theta := theta) rfl
        rw [← Dtu.measure_holdover (j := { d with refA := a, refB := b }) hholdover, ← htaken] at hrule
        obtain ⟨hlooped, hreached, hbelow⟩ := hrule
        simp only [if_pos hholdover]
        refine ⟨hlooped, hreached, fun h => ?_⟩
        obtain ⟨hstate, hcount, hout, hbound⟩ := hbelow h
        exact ⟨hstate, hcount, List.map_eq_nil_iff.mp hout, hbound⟩
      · have hrule := DtuEffect.measureUntraceable_counts (e := Dtu.noted { d with refA := a, refB := b } theta r.unlabelled) (t := t)
          (theta := theta) rfl
        rw [← Dtu.measure_untraceable (j := { d with refA := a, refB := b }) huntraceable, ← htaken] at hrule
        obtain ⟨hlooped, hreached, hbelow⟩ := hrule
        have hne : d.state ≠ .holdover := by rw [huntraceable]; decide
        simp only [if_neg hne]
        refine ⟨hlooped, hreached, fun h => ?_⟩
        obtain ⟨hstate, hcount, hout, hbound⟩ := hbelow h
        exact ⟨hstate, hcount, List.map_eq_nil_iff.mp hout, hbound⟩

end Sys2Proof.Machine
end

