-- ==== Sys2Proof/Proofs/FrameUnderWay.lean ====
section
/-! PROOF. A reception under way: its recognition, the cut at 9,216 bytes, and the lookup; and what an egress port does by itself: arbitration, the pause timers, an offered pause. -/

namespace Sys2Proof.Machine

/-! ### A reception under way (R63, R67, R85, R90) -/

theorem isGateway_iff (p : Port) : isGateway p = true ↔ p.val < 4 := decide_eq_true_iff

theorem State.receiving_some {s : State} {p : Port} {f : Reception} (hrunning : s.phase = .running) (hf : (s.port p).reception = some f) :
    s.receiving p = some f := (if_pos (State.running_iff.mpr hrunning)).trans hf

theorem execEtherTypeReceived_first {s : State} {p : Port} {f : Reception} {header : List Byte} (hf : s.receiving p = some f)
    (hkind : f.kind = none) (hlength : header.length = 14) :
    execEtherTypeReceived p header s =
      .next (s.withReception p { f with bytes := header, kind := some (s.recognise p f.detection header) }) := by
  unfold execEtherTypeReceived
  rw [hf]
  exact congrArg Host.Outcome.next (if_pos ⟨hkind, hlength⟩)

theorem execOversizeDetected_past {s : State} {p : Port} {f : Reception} {more : List Byte} (hf : s.receiving p = some f)
    (hkind : f.kind ≠ none) (hlength : 9216 < f.bytes.length + more.length) :
    execOversizeDetected p more s =
      .next (s.withReception p { f with bytes := (f.bytes ++ more).take 9216, oversize := true }) := by
  unfold execOversizeDetected
  rw [hf]
  exact congrArg Host.Outcome.next (if_pos ⟨hkind, hlength⟩)

theorem State.recognise_eq (s : State) (p : Port) (r : DetectionRecord) (header : List Byte) :
    s.recognise p r header =
      if destinationOf header = s.signal.managementAddress ∧ etherTypeOf header = 0x88B5#16 then .management
      else if etherTypeOf header = 0x8808#16 then .macControl
      else if p.val < 4 ∧ r.mode = .stamp then (if etherTypeOf header = r.profile.orderEtherType then .order else .other)
      else .plain :=
  if_congr Iff.rfl rfl (if_congr Iff.rfl rfl (if_congr (and_congr_left' (isGateway_iff p)) rfl rfl))

/-- Settles O22: the first fourteen bytes and the length each decide in one row. -/
theorem frameIsRecognised : Obligations.FrameIsRecognised := by
  intro s p f hrunning hf
  refine ⟨fun header hkind hlength => ?_, fun more hkind hlength => ?_⟩
  · refine (execEtherTypeReceived_first (State.receiving_some hrunning hf) hkind hlength).trans ?_
    rw [State.recognise_eq]
    rfl
  · exact execOversizeDetected_past (State.receiving_some hrunning hf) hkind hlength

/-! ### The lookup (R86, R89, R90) -/

theorem MatchEntry.matchesKey_iff (e : MatchEntry) (key : BitVec 32) (kind : Byte) :
    e.matchesKey key kind = true ↔ e.valid = true ∧ key &&& e.keyMask = e.keyValue &&& e.keyMask ∧ kind &&& e.kindMask = e.kindValue &&& e.kindMask := by
  rw [MatchEntry.matchesKey, Bool.and_eq_true, Bool.and_eq_true, beq_iff_eq, beq_iff_eq, and_assoc]

theorem MatchTable.lookup_defaulted {t : MatchTable} {bank : Fin 2} {key : BitVec 32} {kind : Byte}
    (h : ∀ i, ¬ (t.slot bank i).entry.matchesKey key kind = true) : t.lookup bank key kind = .defaulted := by
  have hnone : t.firstMatch bank key kind = none := List.find?_eq_none.mpr fun i _ => h i
  rw [MatchTable.lookup, hnone]

theorem MatchTable.lookup_matched {t : MatchTable} {bank : Fin 2} {key : BitVec 32} {kind : Byte} {i : Fin 64}
    (hi : (t.slot bank i).entry.matchesKey key kind = true) (hleast : ∀ j, j < i → ¬ (t.slot bank j).entry.matchesKey key kind = true) :
    t.lookup bank key kind = .matched i (t.slot bank i).entry.action (t.slot bank i).entry.group := by
  have hfirst : t.firstMatch bank key kind = some i := by
    cases hfound : t.firstMatch bank key kind with
    | none => exact absurd hi (List.find?_eq_none.mp hfound i (List.mem_finRange i))
    | some k =>
      obtain ⟨hk, before, after, hsplit, hbefore⟩ := List.find?_eq_some_iff_append.mp hfound
      have hle : ∀ j, j < k → ¬ (t.slot bank j).entry.matchesKey key kind = true := by
        intro j hj
        have hsorted : (before ++ k :: after).Pairwise (· < ·) := hsplit ▸ List.pairwise_lt_finRange 64
        have hmem : j ∈ before ++ k :: after := hsplit ▸ List.mem_finRange j
        obtain ⟨_, hrest, _⟩ := List.pairwise_append.mp hsorted
        obtain hbef | hrest' := List.mem_append.mp hmem
        · have hno : (!(t.slot bank j).entry.matchesKey key kind) = true := hbefore j hbef
          exact Bool.eq_false_iff.mp ((Bool.not_eq_true' _).mp hno)
        · obtain rfl | hafter := List.mem_cons.mp hrest'
          · exact absurd hj (lt_irrefl _)
          · exact absurd hj (not_lt_of_gt ((List.pairwise_cons.mp hrest).1 j hafter))
      obtain hlt | rfl | hgt := lt_trichotomy k i
      · exact absurd hk (hleast k hlt)
      · rfl
      · exact absurd hi (hle i hgt)
  rw [MatchTable.lookup, hfirst]
  rfl

theorem execClassificationPoint_reached {s : State} {p : Port} {f : Reception} {more : List Byte} (hf : s.receiving p = some f)
    (hkind : f.kind = some .order) (hlookup : f.lookup = none) (hoversize : f.oversize = false)
    (hlength : f.bytes.length + more.length = 14 + f.detection.profile.needed) :
    execClassificationPoint p more s =
      .next (s.withReception p
        { f with
          bytes := f.bytes ++ more
          lookup := some (s.table.lookup f.detection.bank (keyOf f.detection.profile (f.bytes ++ more)) (kindOf f.detection.profile (f.bytes ++ more))) }) := by
  unfold execClassificationPoint
  rw [hf]
  exact congrArg Host.Outcome.next (if_pos ⟨hkind, hlookup, hoversize, hlength⟩)

/-- Settles O23: the row searches the bank in the order of its indices. -/
theorem lowestMatchingEntryIsFound : Obligations.LowestMatchingEntryIsFound := by
  intro s p f more hrunning hf hkind hlookup hoversize hlength frame key kind fits
  have hfits (i : Fin 64) : fits i ↔ (s.table.slot f.detection.bank i).entry.matchesKey key kind = true :=
    (MatchEntry.matchesKey_iff _ key kind).symm
  refine ⟨s.table.lookup f.detection.bank key kind, ?run, fun hnone => ?none, fun i hi hleast => ?least⟩
  case run => exact execClassificationPoint_reached (State.receiving_some hrunning hf) hkind hlookup hoversize hlength
  case none => exact MatchTable.lookup_defaulted fun i => (hfits i).not.mp (hnone i)
  case least => exact MatchTable.lookup_matched ((hfits i).mp hi) fun j hj => (hfits j).not.mp (hleast j hj)

/-! ### Arbitration (R73, R74) -/

theorem PortState.passingEligible_iff (x : PortState) : x.passingEligible = true ↔ x.fifo ≠ [] ∧ x.receivedPause = none := by
  rw [PortState.passingEligible, Bool.and_eq_true, Bool.not_eq_true', List.isEmpty_eq_false_iff, Option.isNone_iff_eq_none]

theorem PortState.ownEligible_iff (x : PortState) : x.ownEligible = true ↔ x.own ≠ [] := by
  rw [PortState.ownEligible, Bool.not_eq_true', List.isEmpty_eq_false_iff]

theorem State.canStart_iff (s : State) (p : Port) :
    s.canStart p = true ↔ s.phase = .running ∧ (s.port p).link = true ∧ (s.port p).sending = none := by
  rw [State.canStart, Bool.and_eq_true, Bool.and_eq_true, State.running_iff, Option.isNone_iff_eq_none, and_assoc]

theorem PortState.start_eq (x : PortState) :
    x.start =
      if x.passingEligible = true then
        if x.ownEligible = true then
          if x.passedOver < 4 then { x with sending := some .passing, passedOver := x.passedOver + 1 } else { x with sending := some .own }
        else { x with sending := some .passing }
      else if x.ownEligible = true then { x with sending := some .own } else x := by
  unfold PortState.start
  cases x.passingEligible <;> cases x.ownEligible <;> rfl

theorem execItemStart_start {s : State} {p : Port} (h : s.canStart p = true) :
    execItemStart p s = .next (s.withPort p (s.port p).start) := congrArg Host.Outcome.next (if_pos h)

/-- Settles O27: the two sides' eligibility and the count pick the item. -/
theorem itemIsChosenByArbitration : Obligations.ItemIsChosenByArbitration := by
  intro s p hrunning hsending x passing own
  have hpassing : x.passingEligible = true ↔ passing := x.passingEligible_iff
  have hown : x.ownEligible = true ↔ own := x.ownEligible_iff
  refine ⟨fun hdown => ?down, fun hup => ?up⟩
  case down =>
    have hcannot : ¬ s.canStart p = true := fun h => Bool.false_ne_true (hdown.symm.trans ((s.canStart_iff p).mp h).2.1)
    exact congrArg Host.Outcome.next (if_neg hcannot)
  case up =>
    have hrun : exec (.itemStart p) s = .next (s.withPort p x.start) := execItemStart_start ((s.canStart_iff p).mpr ⟨hrunning, hup, hsending⟩)
    rw [hrun, PortState.start_eq]
    refine ⟨fun hp ho => ?_, fun hp ho => ?_, fun hp ho => ?_, fun hp ho hcount => ?_, fun hp ho hcount => ?_⟩
    · rw [if_neg (hpassing.not.mpr hp), if_neg (hown.not.mpr ho), s.withPort_port]
    · rw [if_pos (hpassing.mpr hp), if_neg (hown.not.mpr ho)]
    · rw [if_neg (hpassing.not.mpr hp), if_pos (hown.mpr ho)]
    · rw [if_pos (hpassing.mpr hp), if_pos (hown.mpr ho), if_pos hcount]
    · rw [if_pos (hpassing.mpr hp), if_pos (hown.mpr ho), if_neg (Nat.not_lt.mpr hcount)]

/-! ### The pause timers (R68, R76) -/

theorem PortState.repeatDue_iff {x : PortState} {started : Nat} (h : x.pauseTimer = some started) (osc : Nat) :
    x.repeatDue osc = true ↔ started + 100000 ≤ osc := by
  unfold PortState.repeatDue
  rw [h]
  exact decide_eq_true_iff

theorem PortState.pauseOver_iff {x : PortState} {ends : Nat} (h : x.receivedPause = some ends) (osc : Nat) :
    x.pauseOver osc = true ↔ ends ≤ 10 * osc := by
  unfold PortState.pauseOver
  rw [h]
  exact decide_eq_true_iff

theorem execPauseRepeatTimer_idle {s : State} {p : Port} {sub : Sub} (h : ¬ (s.port p).repeatDue (s.oscAt sub) = true) :
    execPauseRepeatTimer p sub s = .next s :=
  congrArg Host.Outcome.next (if_neg fun hboth => h ((Bool.and_eq_true_iff.mp hboth).2))

theorem execPauseRepeatTimer_due {s : State} {p : Port} {sub : Sub} (hrunning : s.phase = .running)
    (h : (s.port p).repeatDue (s.oscAt sub) = true) :
    let restarted := s.withPort p { s.port p with pauseTimer := some (s.oscAt sub) }
    execPauseRepeatTimer p sub s = .next
      (if (s.profileOf p).high < fillOf (s.port p).fifo then
        restarted.withPort (mate p) ((restarted.port (mate p)).offerPause 65535)
      else restarted) :=
  congrArg Host.Outcome.next (if_pos (Bool.and_eq_true_iff.mpr ⟨State.running_iff.mpr hrunning, h⟩))

/-! ### A pause offered (R72) -/

theorem replacePause_found {before after : List OwnFrame} (quanta old : Nat) (h : ∀ frame ∈ before, ∀ n, frame ≠ OwnFrame.pause n) :
    replacePause quanta (before ++ .pause old :: after) = some (before ++ .pause quanta :: after) := by
  induction before with
  | nil => rfl
  | cons x before ih =>
    cases x with
    | pause n => exact absurd rfl (h _ List.mem_cons_self n)
    | response bytes ofRestart =>
      rw [List.cons_append, replacePause, ih fun frame hframe => h frame (List.mem_cons_of_mem _ hframe)]
      · rfl
      · intro n hn
        cases hn

theorem replacePause_absent {queue : List OwnFrame} (quanta : Nat) (h : ∀ frame ∈ queue, ∀ n, frame ≠ OwnFrame.pause n) :
    replacePause quanta queue = none := by
  induction queue with
  | nil => rfl
  | cons x queue ih =>
    cases x with
    | pause n => exact absurd rfl (h _ List.mem_cons_self n)
    | response bytes ofRestart =>
      rw [replacePause, ih fun frame hframe => h frame (List.mem_cons_of_mem _ hframe)]
      · rfl
      · intro n hn
        cases hn

/-- The own frames of a port that have been started: its head, while the port sends it. -/
def startedOwn (sending : Option Sending) : Nat := if sending = some .own then 1 else 0

theorem replaceWaiting_idle {sending : Option Sending} (h : sending ≠ some .own) (quanta : Nat) (queue : List OwnFrame) :
    replaceWaiting quanta sending queue = replacePause quanta queue := by
  match sending, queue with
  | none, _ => rfl
  | some .passing, _ => rfl
  | some .own, _ => exact absurd rfl h

theorem replaceWaiting_found {before after : List OwnFrame} {sending : Option Sending} (quanta old : Nat)
    (hstarted : startedOwn sending ≤ before.length) (h : ∀ frame ∈ before.drop (startedOwn sending), ∀ n, frame ≠ OwnFrame.pause n) :
    replaceWaiting quanta sending (before ++ .pause old :: after) = some (before ++ .pause quanta :: after) := by
  by_cases hown : sending = some .own
  · subst hown
    cases before with
    | nil => exact absurd hstarted (by decide)
    | cons head before =>
      refine (congrArg (Option.map _) (replacePause_found (before := before) (after := after) quanta old ?_)).trans rfl
      exact h
  · rw [replaceWaiting_idle hown]
    rw [startedOwn, if_neg hown] at h
    exact replacePause_found quanta old h

theorem replaceWaiting_absent {queue : List OwnFrame} {sending : Option Sending} (quanta : Nat)
    (h : ∀ frame ∈ queue.drop (startedOwn sending), ∀ n, frame ≠ OwnFrame.pause n) : replaceWaiting quanta sending queue = none := by
  by_cases hown : sending = some .own
  · subst hown
    cases queue with
    | nil => rfl
    | cons head queue => exact congrArg (Option.map _) (replacePause_absent (queue := queue) quanta h)
  · rw [replaceWaiting_idle hown]
    rw [startedOwn, if_neg hown] at h
    exact replacePause_absent quanta h

/-- Settles O29: each timer's row tests its own end, and an offered pause looks for one that waits. -/
theorem pauseTimersExpire : Obligations.PauseTimersExpire := by
  refine ⟨fun s p sub hrunning => ⟨fun started hstarted => ?repeats, fun ends hends => ?received⟩, fun x quanta => ?offered⟩
  case repeats =>
    have hdue := PortState.repeatDue_iff hstarted (s.oscAt sub)
    refine ⟨fun hearly => execPauseRepeatTimer_idle (hdue.not.mpr (Nat.not_le.mpr hearly)), fun hover hlow => ?_, fun hover hhigh => ?_⟩
    · exact (execPauseRepeatTimer_due hrunning (hdue.mpr hover)).trans (congrArg Host.Outcome.next (if_neg (Nat.not_lt.mpr hlow)))
    · refine (execPauseRepeatTimer_due hrunning (hdue.mpr hover)).trans (congrArg Host.Outcome.next ((if_pos hhigh).trans ?_))
      rw [State.port_withPort_other _ p (mate p) _ (mate_ne p)]
  case received =>
    have hdue := PortState.pauseOver_iff hends (s.oscAt sub)
    refine ⟨fun hearly => ?_, fun hover => ?_⟩
    · exact congrArg Host.Outcome.next (if_neg fun hboth => hdue.not.mpr (Nat.not_le.mpr hearly) (Bool.and_eq_true_iff.mp hboth).2)
    · exact congrArg Host.Outcome.next (if_pos (Bool.and_eq_true_iff.mpr ⟨State.running_iff.mpr hrunning, hdue.mpr hover⟩))
  case offered =>
    refine ⟨fun before old after hown hstarted hnone => ?_, fun hnone => ⟨fun hroom => ?_, fun hfull => ?_⟩⟩
    · rw [PortState.offerPause, hown, replaceWaiting_found quanta old hstarted hnone]
    · rw [PortState.offerPause, replaceWaiting_absent quanta hnone]
      exact if_pos hroom
    · rw [PortState.offerPause, replaceWaiting_absent quanta hnone]
      exact if_neg (Nat.not_lt.mpr hfull)

end Sys2Proof.Machine
end

