-- ==== Sys2Proof/Proofs/FrameEnd.lean ====
section
/-! PROOF. The end of a frame: markers that follow it, the waiting list it does not read, the offer to a passing FIFO, and every class of R63. -/

namespace Sys2Proof.Machine

/-! ### What the tests of a fill leave of every port -/

/-- What a port has received, its link, its item in transmission and its received pause are the same. -/
structure PortState.SameIngress (a b : PortState) : Prop where
  link : b.link = a.link
  linkChanges : b.linkChanges = a.linkChanges
  reception : b.reception = a.reception
  sending : b.sending = a.sending
  receivedPause : b.receivedPause = a.receivedPause
  ingress : b.ingress = a.ingress

theorem PortState.SameIngress.refl (a : PortState) : a.SameIngress a := ⟨rfl, rfl, rfl, rfl, rfl, rfl⟩

theorem PortState.SameIngress.trans {a b c : PortState} (hab : a.SameIngress b) (hbc : b.SameIngress c) : a.SameIngress c :=
  ⟨hbc.link.trans hab.link, hbc.linkChanges.trans hab.linkChanges, hbc.reception.trans hab.reception, hbc.sending.trans hab.sending,
    hbc.receivedPause.trans hab.receivedPause, hbc.ingress.trans hab.ingress⟩

theorem PortState.offerPause_sameIngress (x : PortState) (quanta : Nat) : x.SameIngress (x.offerPause quanta) := by
  obtain ⟨own, egress, hoffered⟩ := x.offerPause_only quanta
  rw [hoffered]
  exact ⟨rfl, rfl, rfl, rfl, rfl, rfl⟩

/-- Every port has received the same in two states. -/
def State.SameIngress (s u : State) : Prop := ∀ q, (s.port q).SameIngress (u.port q)

theorem State.SameIngress.refl (s : State) : s.SameIngress s := fun _ => .refl _

theorem State.SameIngress.trans {s u v : State} (hsu : s.SameIngress u) (huv : u.SameIngress v) : s.SameIngress v :=
  fun q => (hsu q).trans (huv q)

section

variable {s : State} {p : Port} {x : PortState}

theorem State.withPort_sameIngress (h : (s.port p).SameIngress x) : s.SameIngress (s.withPort p x) := by
  intro q
  by_cases hpq : p = q
  · subst hpq
    rw [State.port_withPort_self]
    exact h
  · rw [State.port_withPort_other _ _ _ _ hpq]
    exact .refl _

theorem State.tellFeeder_sameIngress (timer : Option Nat) (quanta : Nat) : s.SameIngress (s.tellFeeder p timer quanta) := by
  refine .trans (State.withPort_sameIngress (p := p) (x := { s.port p with pauseTimer := timer }) ⟨rfl, rfl, rfl, rfl, rfl, rfl⟩) ?_
  refine State.withPort_sameIngress ?_
  rw [State.port_withPort_other _ _ _ _ (mate_ne p)]
  exact PortState.offerPause_sameIngress _ _

theorem State.testHigh_sameIngress (osc : Nat) : s.SameIngress (s.testHigh p osc) := by
  rw [State.testHigh_eq]
  split
  · exact State.tellFeeder_sameIngress _ _
  · exact .refl s

theorem State.testLow_sameIngress : s.SameIngress (s.testLow p) := by
  rw [State.testLow_eq]
  split
  · exact State.tellFeeder_sameIngress _ _
  · exact .refl s

theorem State.testEpisode_sameIngress (t : Instant) : s.SameIngress (s.testEpisode p t) := by
  unfold State.testEpisode
  split
  · split
    · exact State.withPort_sameIngress ⟨rfl, rfl, rfl, rfl, rfl, rfl⟩
    · exact .refl s
  · exact .refl s

theorem State.afterFall_sameIngress (t : Instant) : s.SameIngress (s.afterFall p t) :=
  State.testLow_sameIngress.trans (State.testEpisode_sameIngress t)

theorem State.dropFrame_sameIngress (t : Instant) : s.SameIngress (s.dropFrame p t) := by
  unfold State.dropFrame
  dsimp only
  split
  · exact State.withPort_sameIngress ⟨rfl, rfl, rfl, rfl, rfl, rfl⟩
  · exact State.withPort_sameIngress (s := s) (p := p) ⟨rfl, rfl, rfl, rfl, rfl, rfl⟩

theorem State.offerFrame_sameIngress (bytes : List Byte) (detection : DetectionRecord) (t : Instant) (osc : Nat) :
    s.SameIngress (s.offerFrame p bytes detection t osc) := by
  unfold State.offerFrame
  split
  · refine .trans (State.withPort_sameIngress (p := p) (x := { s.port p with fifo := (s.port p).fifo ++ [.frame bytes detection] }) ?_)
      (State.testHigh_sameIngress osc)
    exact ⟨rfl, rfl, rfl, rfl, rfl, rfl⟩
  · exact State.dropFrame_sameIngress t

end

/-! ### The waiting list, which only the markers' own moments read (R142) -/

/-- The waiting list of a lane replaced. -/
def State.withWaiting (s : State) (l : LaneId) (requests : List MarkerRequest) : State := s.withLane l { s.lane l with waiting := requests }

theorem State.withLane_withLane (s : State) (l : LaneId) (x y : Lane) : (s.withLane l x).withLane l y = s.withLane l y := by
  simp [State.withLane]

theorem State.withPort_withPort (s : State) (p : Port) (x y : PortState) : (s.withPort p x).withPort p y = s.withPort p y := by
  simp [State.withPort]

section

variable {s : State} {l : LaneId} {requests : List MarkerRequest} {p : Port}

theorem State.withWaiting_lane : (s.withWaiting l requests).lane l = { s.lane l with waiting := requests } := s.lane_withLane_self l _

theorem State.withWaiting_self (s : State) (l : LaneId) : s.withWaiting l (s.lane l).waiting = s := s.withLane_lane l

theorem State.withWaiting_profileOf : (s.withWaiting l requests).profileOf p = s.profileOf p := by
  unfold State.profileOf
  by_cases hl : l = laneOf p
  · rw [← hl, State.withWaiting_lane]
  · rw [State.withWaiting, State.lane_withLane_other _ _ _ _ hl]

theorem State.withWaiting_withLane (x : Lane) :
    (s.withWaiting l requests).withLane l { x with waiting := requests } = (s.withLane l x).withWaiting l requests := by
  unfold State.withWaiting
  rw [State.lane_withLane_self, State.withLane_withLane, State.withLane_withLane]

/-- An operation neither reads nor changes the waiting list of the lane `l`. -/
def BlindTo (l : LaneId) (f : State → State) : Prop :=
  ∀ s requests, f (s.withWaiting l requests) = (f s).withWaiting l requests

theorem BlindTo.waiting {f : State → State} (h : BlindTo l f) (s : State) : ((f s).lane l).waiting = (s.lane l).waiting := by
  have hsame := h s (s.lane l).waiting
  rw [State.withWaiting_self] at hsame
  rw [hsame, State.withWaiting_lane]

theorem BlindTo.comp {f g : State → State} (hg : BlindTo l g) (hf : BlindTo l f) : BlindTo l fun s => g (f s) := by
  intro s requests
  show g (f (s.withWaiting l requests)) = _
  rw [hf, hg]

theorem State.testHigh_blind (p : Port) (osc : Nat) : BlindTo l fun s => s.testHigh p osc := by
  intro s requests
  show (s.withWaiting l requests).testHigh p osc = (s.testHigh p osc).withWaiting l requests
  rw [State.testHigh_eq, State.testHigh_eq, State.withWaiting_profileOf, apply_ite fun u : State => u.withWaiting l requests]
  rfl

theorem State.testLow_blind (p : Port) : BlindTo l fun s => s.testLow p := by
  intro s requests
  show (s.withWaiting l requests).testLow p = (s.testLow p).withWaiting l requests
  rw [State.testLow_eq, State.testLow_eq, State.withWaiting_profileOf, apply_ite fun u : State => u.withWaiting l requests]
  rfl

theorem State.withWaiting_belowLow : (s.withWaiting l requests).belowLow p = s.belowLow p := by
  unfold State.belowLow
  rw [State.withWaiting_profileOf]
  rfl

theorem State.testEpisode_none {t : Instant} (h : (s.port p).episode = none) : s.testEpisode p t = s := by
  unfold State.testEpisode
  rw [h]

theorem State.testEpisode_some {t : Instant} {e : Episode} (h : (s.port p).episode = some e) :
    s.testEpisode p t =
      if e.openedBelow = true ∨ s.belowLow p = true then
        (s.withPort p { s.port p with episode := none }).hand t (.laneOverflow (laneOf p) p true e.drops false)
      else s := by
  unfold State.testEpisode
  rw [h]

theorem State.testEpisode_blind (p : Port) (t : Instant) : BlindTo l fun s => s.testEpisode p t := by
  intro s requests
  show (s.withWaiting l requests).testEpisode p t = (s.testEpisode p t).withWaiting l requests
  have hport : (s.withWaiting l requests).port p = s.port p := rfl
  cases h : (s.port p).episode with
  | none => rw [State.testEpisode_none (hport ▸ h), State.testEpisode_none h]
  | some e =>
    rw [State.testEpisode_some (hport ▸ h), State.testEpisode_some h, State.withWaiting_belowLow,
      apply_ite fun u : State => u.withWaiting l requests]
    rfl

theorem State.afterFall_blind (p : Port) (t : Instant) : BlindTo l fun s => s.afterFall p t :=
  .comp (State.testEpisode_blind p t) (State.testLow_blind p)

theorem State.dropFrame_blind (p : Port) (t : Instant) : BlindTo l fun s => s.dropFrame p t := by
  intro s requests
  show (s.withWaiting l requests).dropFrame p t = (s.dropFrame p t).withWaiting l requests
  have hport : (s.withWaiting l requests).port p = s.port p := rfl
  unfold State.dropFrame
  rw [hport, State.withWaiting_belowLow]
  dsimp only
  cases (s.port p).episode <;> rfl

theorem State.offerFrame_blind (p : Port) (bytes : List Byte) (detection : DetectionRecord) (t : Instant) (osc : Nat) :
    BlindTo l fun s => s.offerFrame p bytes detection t osc := by
  intro s requests
  show (s.withWaiting l requests).offerFrame p bytes detection t osc = (s.offerFrame p bytes detection t osc).withWaiting l requests
  unfold State.offerFrame
  rw [apply_ite fun u : State => u.withWaiting l requests]
  exact if_congr Iff.rfl
    (State.testHigh_blind p osc (s.withPort p { s.port p with fifo := (s.port p).fifo ++ [.frame bytes detection] }) requests)
    (State.dropFrame_blind p t s requests)

end

/-! ### The end of an order frame (R91, R97, R99) -/

section

variable {s : State} {p : Port} {f : Reception} {frame : List Byte} {c : Classification} {t : Instant} {osc : Nat}

/-- The lane of an order frame once its class is counted (R97). -/
def State.classedLane (s : State) (p : Port) (f : Reception) (c : Classification) : Lane :=
  { s.lane (laneOf p) with classes := (s.lane (laneOf p)).classes.raise c f.detection.profile.defaultAction }

theorem State.endOrder_passed (hclass : f.classification frame = some c) (hdating : c.dating f.detection.profile.defaultAction = none) :
    s.endOrder p f frame t osc =
      ((s.withTable (s.table.hit f.detection.bank c)).withLane (laneOf p) (s.classedLane p f c)).offerFrame (mate p) frame f.detection t osc := by
  unfold State.endOrder
  rw [hclass]
  dsimp only
  rw [hdating]
  rfl

theorem State.endOrder_dated {d : Dating} (hclass : f.classification frame = some c)
    (hdating : c.dating f.detection.profile.defaultAction = some d) :
    let trailer := (s.lane (laneOf p)).trailerFor s.auction f.detection d
    s.endOrder p f frame t osc =
      ((s.withTable (s.table.hit f.detection.bank c)).withLane (laneOf p) ((s.classedLane p f c).dateWith trailer)).offerFrame (mate p)
        (datedFrame frame trailer) f.detection t osc := by
  unfold State.endOrder
  rw [hclass]
  dsimp only
  rw [hdating]
  dsimp only
  rw [State.lane_withLane_self, State.withLane_withLane]
  rfl

theorem State.endOrder_blind (p : Port) (f : Reception) (frame : List Byte) (t : Instant) (osc : Nat) :
    BlindTo (laneOf p) fun s => s.endOrder p f frame t osc := by
  intro s requests
  show (s.withWaiting (laneOf p) requests).endOrder p f frame t osc = (s.endOrder p f frame t osc).withWaiting (laneOf p) requests
  cases hclass : f.classification frame with
  | none => simp only [State.endOrder, hclass]
  | some c =>
    have hclassed : (s.withWaiting (laneOf p) requests).classedLane p f c = { s.classedLane p f c with waiting := requests } := by
      rw [State.classedLane, State.withWaiting_lane]
      rfl
    cases hdating : c.dating f.detection.profile.defaultAction with
    | none =>
      rw [State.endOrder_passed hclass hdating, State.endOrder_passed hclass hdating, ← State.offerFrame_blind, ← State.withWaiting_withLane,
        hclassed]
      rfl
    | some d =>
      rw [State.endOrder_dated hclass hdating, State.endOrder_dated hclass hdating, ← State.offerFrame_blind, ← State.withWaiting_withLane,
        hclassed, State.withWaiting_lane]
      rfl

end

/-! ### The disposition, and the markers that follow the frame (R63, R143) -/

section

variable {s : State} {l : LaneId} {p : Port} {f : Reception} {frame : List Byte}

theorem State.endOrdinary_blind (p : Port) (f : Reception) (frame : List Byte) (t : Instant) (osc : Nat) :
    BlindTo (laneOf p) fun s => s.endOrdinary p f frame t osc := by
  intro s requests
  show (s.withWaiting (laneOf p) requests).endOrdinary p f frame t osc = (s.endOrdinary p f frame t osc).withWaiting (laneOf p) requests
  unfold State.endOrdinary
  by_cases hgateway : isGateway p = true
  · rw [if_pos hgateway, if_pos hgateway]
    cases f.detection.mode with
    | stamp => exact State.endOrder_blind p f frame t osc s requests
    | pass =>
      dsimp only
      rw [State.withWaiting_lane, ← State.offerFrame_blind, ← State.withWaiting_withLane]
  · rw [if_neg hgateway, if_neg hgateway]
    exact State.offerFrame_blind (mate p) frame f.detection t osc s requests

theorem State.dispose_blind (p : Port) (f : Reception) (frame : List Byte) (c : FrameClass) (t : Instant) (osc : Nat) :
    BlindTo (laneOf p) fun s => s.dispose p f frame c t osc := by
  intro s requests
  show (s.withWaiting (laneOf p) requests).dispose p f frame c t osc = (s.dispose p f frame c t osc).withWaiting (laneOf p) requests
  cases c with
  | runt => rfl
  | oversize => rfl
  | badManagement => rfl
  | management => rfl
  | macControl =>
    unfold State.dispose
    dsimp only
    rw [apply_ite fun u : State => u.withWaiting (laneOf p) requests]
    rfl
  | bad => exact State.offerFrame_blind (mate p) frame f.detection t osc s requests
  | ordinary => exact State.endOrdinary_blind p f frame t osc s requests

theorem filter_none {α : Type} {xs : List α} {f : α → Bool} (h : ∀ x ∈ xs, f x = false) :
    xs.filter f = [] ∧ (xs.filter fun x => !f x) = xs :=
  ⟨List.filter_eq_nil_iff.mpr fun x hx => Bool.eq_false_iff.mp (h x hx), List.filter_eq_self.mpr fun x hx => by rw [h x hx]; rfl⟩

theorem State.placeWaiting_none {concerns : MarkerRequest → Bool} {order : Order} (h : ∀ r ∈ (s.lane l).waiting, concerns r = false) :
    s.placeWaiting l concerns order = s := by
  obtain ⟨hnone, hall⟩ := filter_none h
  unfold State.placeWaiting
  dsimp only
  rw [hnone, hall]
  exact s.withLane_lane l

theorem inOrder_one {α : Type} (order : Order) (x : α) : inOrder order [x] = [x] := List.perm_singleton.mp (inOrder_perm order [x])

theorem State.placeWaiting_one {concerns : MarkerRequest → Bool} {order : Order} {r : MarkerRequest} (hwaiting : (s.lane l).waiting = [r])
    (h : concerns r = true) : s.placeWaiting l concerns order = (s.withWaiting l []).placeMarker l r := by
  unfold State.placeWaiting
  dsimp only
  have hleft : ([r].filter fun r => !concerns r) = [] := by rw [List.filter_cons, h]; rfl
  have htaken : [r].filter concerns = [r] := by rw [List.filter_cons, if_pos h]; rfl
  rw [hwaiting, hleft, htaken, inOrder_one]
  rfl

/-- The state once a frame is taken out of reception and counted in its class (R63, R80). -/
def State.sorted (s : State) (p : Port) (c : FrameClass) : State :=
  s.withPort p { s.port p with reception := none, ingress := (s.port p).ingress.end c }

theorem State.endFrame_eq (s : State) (p : Port) (f : Reception) (frame : List Byte) (bad : Bool) (t : Instant) (osc : Nat) (order : Order) :
    let c := f.classOf frame bad
    let disposed := (s.sorted p c).dispose p f frame c t osc
    s.endFrame p f frame bad t osc order =
      if isGateway p then disposed.placeWaiting (laneOf p) (fun r => r.afterFrame) order else disposed := rfl

theorem State.endFrame_unfollowed {bad : Bool} {t : Instant} {osc : Nat} {order : Order}
    (h : ∀ r ∈ (s.lane (laneOf p)).waiting, r.afterFrame = false) :
    s.endFrame p f frame bad t osc order = (s.sorted p (f.classOf frame bad)).dispose p f frame (f.classOf frame bad) t osc := by
  rw [State.endFrame_eq]
  split
  · refine State.placeWaiting_none fun r hr => h r ?_
    rw [(State.dispose_blind p f frame (f.classOf frame bad) t osc).waiting] at hr
    exact hr
  · rfl

theorem execFrameEnd_complete {rest : List Byte} {bad : Bool} {sub : Sub} {order : Order} (hf : s.receiving p = some f)
    (hcomplete : f.complete (f.bytes ++ rest) = true) :
    execFrameEnd p rest bad sub order s = .next (s.endFrame p f (f.bytes ++ rest) bad (s.readingAt sub) (s.oscAt sub) order) := by
  unfold execFrameEnd
  rw [hf]
  exact congrArg Host.Outcome.next (if_pos hcomplete)

theorem exec_frameEnd_unfollowed {rest : List Byte} {bad : Bool} {sub : Sub} {order : Order} (hrunning : s.phase = .running)
    (hf : (s.port p).reception = some f) (hcomplete : f.complete (f.bytes ++ rest) = true)
    (h : ∀ r ∈ (s.lane (laneOf p)).waiting, r.afterFrame = false) {c : FrameClass} (hclass : f.classOf (f.bytes ++ rest) bad = c) :
    exec (.frameEnd p rest bad sub order) s =
      .next ((s.sorted p c).dispose p f (f.bytes ++ rest) c (s.readingAt sub) (s.oscAt sub)) := by
  subst hclass
  exact (execFrameEnd_complete (State.receiving_some hrunning hf) hcomplete).trans
    (congrArg Host.Outcome.next (State.endFrame_unfollowed h))

end

end Sys2Proof.Machine
end

