-- ==== Sys2Proof/Proofs/SortedFrame.lean ====
section
/-! PROOF. The classes of R63 at a frame's end, and the offer of a frame to a passing FIFO. -/

namespace Sys2Proof.Machine

/-! ### Which class a frame is of (R63) -/

section

variable {f : Reception} {frame : List Byte} {bad : Bool}

theorem Reception.classOf_runt (h : frame.length < 64) : f.classOf frame bad = .runt := if_pos h

theorem Reception.classOf_oversize (hlong : 64 ≤ frame.length) (h : f.oversize = true ∨ 9216 < frame.length) :
    f.classOf frame bad = .oversize := (if_neg (Nat.not_lt.mpr hlong)).trans (if_pos h)

/-- A frame that is neither too short nor too long is sorted by its kind, FCS and receive error (R63). -/
theorem Reception.classOf_sized (hlong : 64 ≤ frame.length) (hshort : frame.length ≤ 9216) (hoversize : f.oversize = false) :
    f.classOf frame bad =
      if f.kind = some .management then (if fcsCorrect frame && !bad then .management else .badManagement)
      else if f.kind = some .macControl then .macControl
      else if fcsCorrect frame && !bad then .ordinary else .bad := by
  have hsized : ¬ (f.oversize = true ∨ 9216 < frame.length) := by rw [hoversize]; simp [hshort]
  exact (if_neg (Nat.not_lt.mpr hlong)).trans (if_neg hsized)

theorem intact_iff : (fcsCorrect frame && !bad) = true ↔ fcsCorrect frame = true ∧ bad = false := by
  rw [Bool.and_eq_true, Bool.not_eq_true']

theorem not_intact (h : fcsCorrect frame = false ∨ bad = true) : ¬ (fcsCorrect frame && !bad) = true := by
  rw [intact_iff]
  obtain hfcs | hbad := h
  · exact fun hboth => Bool.false_ne_true (hfcs.symm.trans hboth.1)
  · exact fun hboth => Bool.false_ne_true (hboth.2.symm.trans hbad)

theorem Reception.complete_of_kind {k : FrameKind} (h : f.kind = some k) (hk : k ≠ .order) : f.complete frame = true := by
  unfold Reception.complete
  rw [h]
  cases k with
  | order => exact absurd rfl hk
  | _ => rfl

/-- An order frame is complete once its lookup is made, or where it is too short for one (R86, R87). -/
theorem Reception.complete_of_order (h : f.kind = some .order) (hlookup : frame.length < 18 + f.detection.profile.needed ∨ f.lookup.isSome = true) :
    f.complete frame = true := by
  unfold Reception.complete
  rw [h]
  obtain hshort | hfound := hlookup
  · simp [hshort]
  · simp [hfound]

end

/-- Settles O26: the class of the frame names its disposition, and no marker waits for its end. -/
theorem frameIsSortedAtItsEnd : Obligations.FrameIsSortedAtItsEnd := by
  intro s p f rest bad sub order hrunning hf hwaiting frame k ended run
  have hrun {c : FrameClass} (hcomplete : f.complete frame = true) (hclass : f.classOf frame bad = c) :
      run = .next ((s.sorted p c).dispose p f frame c (s.readingAt sub) (s.oscAt sub)) :=
    exec_frameEnd_unfollowed hrunning hf hcomplete hwaiting hclass
  refine ⟨fun hshort hcomplete => ?runt, fun hlong hover hcomplete => ?oversize, fun hlong hshort hsize hkind hfcs hbad => ?management,
    fun hlong hshort hsize hkind hbroken => ?badManagement, fun hlong hshort hsize hkind hfcs hpause => ?honoured,
    fun hlong hshort hsize hkind hnot => ?unhonoured⟩
  case runt => exact hrun hcomplete (Reception.classOf_runt hshort)
  case oversize => exact hrun hcomplete (Reception.classOf_oversize hlong hover)
  case management =>
    have hclass : f.classOf frame bad = .management := by
      rw [Reception.classOf_sized hlong hshort hsize, if_pos hkind, if_pos (intact_iff.mpr ⟨hfcs, hbad⟩)]
    have hdone := hrun (Reception.complete_of_kind hkind (by decide)) hclass
    refine ⟨fun hslot => hdone.trans ?_, fun other hslot => hdone.trans ?_⟩
    · have hintake : (s.agentPort p).intakeFrame frame = { s.agentPort p with slot := some frame, intake := (s.agentPort p).intake + 1 } := by
        unfold AgentPort.intakeFrame
        rw [hslot]
      exact congrArg (fun a => Host.Outcome.next ((s.sorted p .management).withAgentPort p a)) hintake
    · have hintake : (s.agentPort p).intakeFrame frame = { s.agentPort p with slotFull := (s.agentPort p).slotFull + 1 } := by
        unfold AgentPort.intakeFrame
        split
        next hnone => cases hslot.symm.trans hnone
        next => rfl
      exact congrArg (fun a => Host.Outcome.next ((s.sorted p .management).withAgentPort p a)) hintake
  case badManagement =>
    have hclass : f.classOf frame bad = .badManagement := by
      rw [Reception.classOf_sized hlong hshort hsize, if_pos hkind, if_neg (not_intact hbroken)]
    exact hrun (Reception.complete_of_kind hkind (by decide)) hclass
  all_goals
    have hclass : f.classOf frame bad = .macControl := by
      rw [Reception.classOf_sized hlong hshort hsize, hkind]
      rfl
    have hdone := hrun (Reception.complete_of_kind hkind (by decide)) hclass
    refine hdone.trans (congrArg Host.Outcome.next ?_)
  case honoured =>
    have hhonoured : isPause frame = true := Bool.and_eq_true_iff.mpr ⟨hfcs, beq_iff_eq.mpr hpause⟩
    refine (if_pos hhonoured).trans ?_
    rw [State.sorted, State.port_withPort_self, State.withPort_withPort]
    rfl
  case unhonoured =>
    have hignored : ¬ isPause frame = true := by
      intro hhonoured
      obtain ⟨hfcs, hpause⟩ := Bool.and_eq_true_iff.mp hhonoured
      exact hnot.elim (fun h => Bool.false_ne_true (h.symm.trans hfcs)) fun h => h (beq_iff_eq.mp hpause)
    exact if_neg hignored

/-! ### A frame offered to a passing FIFO (R70, R71, R76) -/

section

variable {v : State} {p : Port} {bytes : List Byte} {detection : DetectionRecord} {t : Instant} {osc : Nat}

/-- A port whose passing FIFO has taken a frame (R70). -/
def PortState.withFrame (x : PortState) (bytes : List Byte) (detection : DetectionRecord) : PortState :=
  { x with fifo := x.fifo ++ [.frame bytes detection] }

theorem fillOf_withFrame (x : PortState) : fillOf (x.withFrame bytes detection).fifo = fillOf x.fifo + bytes.length := by
  rw [PortState.withFrame, fillOf_append, fillOf_cons, fillOf_nil]
  rfl

theorem State.offerFrame_entered (hfits : fillOf (v.port p).fifo + bytes.length ≤ 32768) :
    v.offerFrame p bytes detection t osc = (v.withPort p ((v.port p).withFrame bytes detection)).testHigh p osc := if_pos hfits

theorem State.offerFrame_dropped (hfull : 32768 < fillOf (v.port p).fifo + bytes.length) :
    v.offerFrame p bytes detection t osc = v.dropFrame p t := if_neg (Nat.not_le.mpr hfull)

theorem State.withFrame_testHigh :
    (v.withPort p ((v.port p).withFrame bytes detection)).testHigh p osc =
      if (v.profileOf p).high < fillOf (v.port p).fifo + bytes.length ∧ (v.port p).pauseTimer = none then
        (v.withPort p { (v.port p).withFrame bytes detection with pauseTimer := some osc }).withPort (mate p) ((v.port (mate p)).offerPause 65535)
      else v.withPort p ((v.port p).withFrame bytes detection) := by
  rw [State.testHigh_eq, State.port_withPort_self, fillOf_withFrame]
  refine if_congr Iff.rfl ?_ rfl
  rw [State.tellFeeder, State.port_withPort_self, State.withPort_withPort, State.port_withPort_other _ _ _ _ (mate_ne p)]

theorem State.dropFrame_opens (h : (v.port p).episode = none) :
    v.dropFrame p t =
      { v.withPort p { v.port p with
          egress := { (v.port p).egress with drop := (v.port p).egress.drop + 1 }
          episode := some { drops := 1, openedBelow := v.belowLow p } } with
        journal := v.journal.take (v.dtu.handed t (.laneOverflow (laneOf p) p false 1 false)) } := by
  unfold State.dropFrame
  dsimp only
  rw [h]
  rfl

theorem State.dropFrame_counts {e : Episode} (h : (v.port p).episode = some e) :
    v.dropFrame p t =
      v.withPort p { v.port p with
        egress := { (v.port p).egress with drop := (v.port p).egress.drop + 1 }
        episode := some { e with drops := min (e.drops + 1) 4294967295 } } := by
  unfold State.dropFrame
  dsimp only
  rw [h]
  rfl

/-- What the offer leaves of the passing FIFO's own port, whatever the tests of its fill do (R70, R71). -/
theorem State.offerFrame_fits (hfits : fillOf (v.port p).fifo + bytes.length ≤ 32768) :
    ((v.offerFrame p bytes detection t osc).port p).fifo = (v.port p).fifo ++ [.frame bytes detection] ∧
      (v.offerFrame p bytes detection t osc).journal = v.journal := by
  rw [State.offerFrame_entered hfits, State.withFrame_testHigh]
  split
  · refine ⟨?_, rfl⟩
    rw [State.port_withPort_other _ _ _ _ (mate_ne p).symm, State.port_withPort_self]
    rfl
  · refine ⟨?_, rfl⟩
    rw [State.port_withPort_self]
    rfl

theorem laneOf_mate (p : Port) : laneOf (mate p) = laneOf p := by
  revert p
  decide

/-! ### An ordinary frame of a lane in PASS, or of the engine side (R66) -/

/-- The state in which a frame that passes unchanged is offered: counted at its port, and on its lane in the order direction (R66, R80). -/
def State.forwarding (s : State) (p : Port) : State :=
  (s.withLane (laneOf p) { s.lane (laneOf p) with
    passForwarded := if p.val < 4 then (s.lane (laneOf p)).passForwarded + 1 else (s.lane (laneOf p)).passForwarded }).withPort p
    { s.port p with reception := none, ingress := (s.port p).ingress.end .ordinary }

theorem State.endOrdinary_forwards {s : State} {f : Reception} {frame : List Byte} (hmode : p.val < 4 → f.detection.mode = .pass) :
    (s.sorted p .ordinary).endOrdinary p f frame t osc = (s.forwarding p).offerFrame (mate p) frame f.detection t osc := by
  by_cases hgateway : p.val < 4
  · unfold State.forwarding
    rw [if_pos hgateway]
    unfold State.endOrdinary
    rw [if_pos ((isGateway_iff p).mpr hgateway), hmode hgateway]
    rfl
  · unfold State.forwarding
    rw [if_neg hgateway]
    refine (if_neg ((isGateway_iff p).not.mpr hgateway)).trans ?_
    exact congrArg (fun u : State => (u.withPort p { s.port p with reception := none, ingress := (s.port p).ingress.end .ordinary }).offerFrame
      (mate p) frame f.detection t osc) (s.withLane_lane (laneOf p)).symm

end

/-- Settles O24: the frame's class and its lane's mode leave one offer, which the fill and the pause state decide. -/
theorem ordinaryFrameIsForwardedOrDropped : Obligations.OrdinaryFrameIsForwardedOrDropped := by
  refine ⟨?forwarded, ?bad, fun v p bytes detection t osc => ?offered⟩
  case forwarded =>
    intro s p f rest sub order hrunning hf hkind hsize hmode frame hlong hshort hfcs hwaiting
    have hclass : f.classOf frame false = .ordinary := by
      rw [Reception.classOf_sized hlong hshort hsize, hkind]
      exact if_pos (intact_iff.mpr ⟨hfcs, rfl⟩)
    have hcomplete : f.complete frame = true := Reception.complete_of_kind hkind (by decide)
    have hrun := (exec_frameEnd_unfollowed (sub := sub) (order := order) hrunning hf hcomplete hwaiting hclass).trans
      (congrArg Host.Outcome.next (State.endOrdinary_forwards (t := s.readingAt sub) (osc := s.oscAt sub) hmode))
    have hmate : (s.forwarding p).port (mate p) = s.port (mate p) := State.port_withPort_other _ _ _ _ (mate_ne p)
    have hself : (s.forwarding p).port p = { s.port p with reception := none, ingress := (s.port p).ingress.end .ordinary } :=
      State.port_withPort_self _ _ _
    have hlane : (s.forwarding p).lane (laneOf p) = _ := State.lane_withLane_self s (laneOf p) _
    have hlow : (s.forwarding p).belowLow (mate p) = decide (fillOf (s.port (mate p)).fifo < (s.lane (laneOf p)).profile.low) := by
      rw [State.belowLow, State.profileOf, laneOf_mate, hmate, hlane]
    obtain ⟨ports, journal, honly⟩ := (s.forwarding p).offerFrame_only (mate p) frame f.detection (s.readingAt sub) (s.oscAt sub)
    have hsame := State.offerFrame_sameIngress (s := s.forwarding p) (p := mate p) frame f.detection (s.readingAt sub) (s.oscAt sub) p
    rw [hself] at hsame
    have hlanes : ((s.forwarding p).offerFrame (mate p) frame f.detection (s.readingAt sub) (s.oscAt sub)).lanes = (s.forwarding p).lanes := by
      rw [honly]
    refine ⟨_, hrun, hsame.reception, hsame.ingress, by rw [honly]; rfl, ?lane, fun hfits => ?fits, fun hfull => ?full, ?whole⟩
    case lane => rw [State.lane, hlanes]; exact hlane
    case fits =>
      rw [← hmate] at hfits ⊢
      exact State.offerFrame_fits hfits
    case full =>
      rw [← hmate] at hfull
      rw [State.offerFrame_dropped hfull]
      cases hepisode : (s.port (mate p)).episode with
      | none =>
        rw [State.dropFrame_opens (hmate ▸ hepisode), hmate, hlow, laneOf_mate]
        have hport := State.port_withPort_self (s.forwarding p) (mate p) { s.port (mate p) with
          egress := { (s.port (mate p)).egress with drop := (s.port (mate p)).egress.drop + 1 }
          episode := some { drops := 1, openedBelow := decide (fillOf (s.port (mate p)).fifo < (s.lane (laneOf p)).profile.low) } }
        exact ⟨(congrArg PortState.fifo hport).trans rfl, (congrArg (fun x : PortState => x.egress.drop) hport).trans rfl,
          fun _ => ⟨(congrArg PortState.episode hport).trans rfl, rfl⟩, fun e he => nomatch he⟩
      | some e =>
        rw [State.dropFrame_counts (hmate ▸ hepisode), hmate]
        have hport := State.port_withPort_self (s.forwarding p) (mate p) { s.port (mate p) with
          egress := { (s.port (mate p)).egress with drop := (s.port (mate p)).egress.drop + 1 }
          episode := some { e with drops := min (e.drops + 1) 4294967295 } }
        refine ⟨(congrArg PortState.fifo hport).trans rfl, (congrArg (fun x : PortState => x.egress.drop) hport).trans rfl, ?_, ?_⟩
        · exact fun hnone => nomatch hnone
        · intro e' he
          cases he
          exact ⟨(congrArg PortState.episode hport).trans rfl, rfl⟩
    case whole =>
      rw [hsame.ingress, hlanes]
      rfl
  case bad =>
    intro s p f rest bad sub order hrunning hf hmanagement hmac hsize frame hcomplete hlong hshort hbroken hwaiting
    have hclass : f.classOf frame bad = .bad := by
      rw [Reception.classOf_sized hlong hshort hsize, if_neg hmanagement, if_neg hmac, if_neg (not_intact hbroken)]
    exact exec_frameEnd_unfollowed hrunning hf hcomplete hwaiting hclass
  case offered =>
    intro x above
    refine ⟨fun hfits => ⟨fun hlow => ?_, fun habove => ?_⟩, fun hfull => ⟨fun hnone => ?_, fun e he => ?_⟩⟩
    · rw [State.offerFrame_entered hfits, State.withFrame_testHigh]
      exact if_neg hlow
    · rw [State.offerFrame_entered hfits, State.withFrame_testHigh]
      exact if_pos habove
    · exact (State.offerFrame_dropped hfull).trans (State.dropFrame_opens hnone)
    · exact (State.offerFrame_dropped hfull).trans (State.dropFrame_counts he)

end Sys2Proof.Machine
end

