-- ==== Sys2Proof/Proofs/MarkerMoments.lean ====
section
/-! PROOF. The moments of a waiting marker: its point, the end and the abort of the frame it follows; the end of a strobe pulse. -/

namespace Sys2Proof.Machine

section

variable {s : State} {l : LaneId} {r : MarkerRequest} {p : Port}

/-! ### The point of a marker (R143) -/

theorem State.reachMarkerPoint_idle {order : Order} (hidle : (s.port (gatewayPort l)).reception = none) (hwaiting : (s.lane l).waiting = [r])
    (hreached : r.reached = true) (hfollow : r.afterFrame = false) :
    s.reachMarkerPoint l order = (s.withWaiting l []).placeMarker l r := by
  unfold State.reachMarkerPoint
  rw [hidle]
  exact State.placeWaiting_one hwaiting (by rw [hreached, hfollow]; rfl)

theorem State.reachMarkerPoint_receiving {order : Order} (hbusy : (s.port (gatewayPort l)).reception ≠ none)
    (hwaiting : (s.lane l).waiting = [r]) (hreached : r.reached = true) (hfollow : r.afterFrame = false) :
    s.reachMarkerPoint l order = s.withWaiting l [{ r with reached := false, afterFrame := true }] := by
  obtain ⟨f, hf⟩ := Option.ne_none_iff_exists'.mp hbusy
  unfold State.reachMarkerPoint
  rw [hf]
  dsimp only
  rw [hwaiting, List.map_cons, List.map_nil, if_pos (by rw [hreached, hfollow]; rfl)]
  rfl

theorem State.withWaiting_withLane_any (requests : List MarkerRequest) (x : Lane) : (s.withWaiting l requests).withLane l x = s.withLane l x :=
  s.withLane_withLane l _ x

/-! ### An operation at whose end a marker follows (R143) -/

/-- An operation that does not look at the waiting list, after which the requests that follow are placed: a single one leaves the list first. -/
theorem placeWaiting_after {op : State → State} {order : Order} (hop : BlindTo l op) (hwaiting : (s.lane l).waiting = [r])
    (hfollow : r.afterFrame = true) :
    (op s).placeWaiting l (fun r => r.afterFrame) order = (op (s.withWaiting l [])).placeMarker l r ∧
      (op (s.withWaiting l [])).placeWaiting l (fun r => r.afterFrame) order = op (s.withWaiting l []) := by
  have hleft : (op (s.withWaiting l [])).lane l = { (op s).lane l with waiting := [] } := by
    rw [hop s [], State.withWaiting_lane]
  refine ⟨?_, State.placeWaiting_none fun r hr => ?_⟩
  · rw [hop s []]
    exact State.placeWaiting_one (by rw [hop.waiting, hwaiting]) hfollow
  · rw [hleft] at hr
    exact absurd hr List.not_mem_nil

/-! ### What a frame's end leaves of its lane's mode and of the reception -/

theorem State.offerFrame_lanes (bytes : List Byte) (detection : DetectionRecord) (t : Instant) (osc : Nat) :
    (s.offerFrame p bytes detection t osc).lanes = s.lanes := by
  obtain ⟨_, _, honly⟩ := s.offerFrame_only p bytes detection t osc
  rw [honly]

theorem State.offerFrame_lane (l : LaneId) (bytes : List Byte) (detection : DetectionRecord) (t : Instant) (osc : Nat) :
    (s.offerFrame p bytes detection t osc).lane l = s.lane l := congrArg (fun lanes => lanes[l]) (State.offerFrame_lanes _ _ _ _)

theorem Lane.dateWith_mode (x : Lane) (trailer : Trailer) : (x.dateWith trailer).mode = x.mode := rfl

theorem State.endOrdinary_keeps {f : Reception} {frame : List Byte} {t : Instant} {osc : Nat} :
    ((s.endOrdinary p f frame t osc).lane (laneOf p)).mode = (s.lane (laneOf p)).mode ∧
      ((s.endOrdinary p f frame t osc).port p).reception = (s.port p).reception := by
  have hoffered (u : State) (x : Lane) (bytes : List Byte) (hmode : x.mode = (s.lane (laneOf p)).mode)
      (hport : u.port p = s.port p) :
      (((u.withLane (laneOf p) x).offerFrame (mate p) bytes f.detection t osc).lane (laneOf p)).mode = (s.lane (laneOf p)).mode ∧
        (((u.withLane (laneOf p) x).offerFrame (mate p) bytes f.detection t osc).port p).reception = (s.port p).reception := by
    refine ⟨by rw [State.offerFrame_lane, State.lane_withLane_self, hmode], ?_⟩
    rw [(State.offerFrame_sameIngress bytes f.detection t osc p).reception]
    exact congrArg PortState.reception hport
  unfold State.endOrdinary
  split
  · split
    next =>
      cases hclass : f.classification frame with
      | none => simp only [State.endOrder, hclass, and_self]
      | some c =>
        cases hdating : c.dating f.detection.profile.defaultAction with
        | none => rw [State.endOrder_passed hclass hdating]; exact hoffered _ _ _ rfl rfl
        | some d => rw [State.endOrder_dated hclass hdating]; exact hoffered _ _ _ (Lane.dateWith_mode _ _) rfl
    next => exact hoffered _ _ _ rfl rfl
  · exact ⟨by rw [State.offerFrame_lane], (State.offerFrame_sameIngress _ _ _ _ p).reception⟩

theorem State.dispose_keeps {f : Reception} {frame : List Byte} {c : FrameClass} {t : Instant} {osc : Nat} :
    ((s.dispose p f frame c t osc).lane (laneOf p)).mode = (s.lane (laneOf p)).mode ∧
      ((s.dispose p f frame c t osc).port p).reception = (s.port p).reception := by
  cases c with
  | runt => exact ⟨rfl, rfl⟩
  | oversize => exact ⟨rfl, rfl⟩
  | badManagement => exact ⟨rfl, rfl⟩
  | management => exact ⟨rfl, rfl⟩
  | macControl =>
    unfold State.dispose
    dsimp only
    split
    · exact ⟨rfl, by rw [State.port_withPort_self]; rfl⟩
    · exact ⟨rfl, rfl⟩
  | bad => exact ⟨by rw [State.dispose, State.offerFrame_lane], (State.offerFrame_sameIngress _ _ _ _ p).reception⟩
  | ordinary => exact State.endOrdinary_keeps

/-! ### The loss of a link, before the markers (R77, R79) -/

/-- The tests of a fall of the fill, where the cut is one. -/
def State.fallen (s : State) (falls : Bool) (p : Port) (t : Instant) : State := if falls then s.afterFall p t else s

/-- A port that has gone down, before the markers that were to follow its frame are placed (R77, R79). -/
def State.lineCut (s : State) (p : Port) (t : Instant) (order : Order) : State :=
  let cut := s.withPort p (s.port p).cut
  if order.headD 0 % 2 = 0 then (cut.noteLink p false t).fallen (s.port p).abortFalls p t
  else (cut.fallen (s.port p).abortFalls p t).noteLink p false t

theorem State.linkLost_eq (s : State) (p : Port) (t : Instant) (order : Order) :
    s.linkLost p t order =
      if isGateway p then (s.lineCut p t order).placeWaiting (laneOf p) (fun r => r.afterFrame) order.tail else s.lineCut p t order := rfl

theorem State.fallen_blind (falls : Bool) (p : Port) (t : Instant) : BlindTo l fun s => s.fallen falls p t := by
  cases falls with
  | false => exact fun _ _ => rfl
  | true => exact State.afterFall_blind p t

theorem State.lineCut_blind (p : Port) (t : Instant) (order : Order) : BlindTo l fun s => s.lineCut p t order := by
  intro s requests
  show (s.withWaiting l requests).lineCut p t order = (s.lineCut p t order).withWaiting l requests
  unfold State.lineCut
  dsimp only
  rw [apply_ite fun u : State => u.withWaiting l requests]
  refine if_congr Iff.rfl ?_ ?_
  · exact State.fallen_blind (s.port p).abortFalls p t ((s.withPort p (s.port p).cut).noteLink p false t) requests
  · exact congrArg (fun u : State => u.noteLink p false t) (State.fallen_blind (s.port p).abortFalls p t (s.withPort p (s.port p).cut) requests)

theorem State.fallen_sameIngress (falls : Bool) (t : Instant) : s.SameIngress (s.fallen falls p t) := by
  cases falls with
  | false => exact .refl s
  | true => exact State.afterFall_sameIngress t

theorem State.fallen_only (falls : Bool) (p : Port) (t : Instant) :
    ∃ ports journal, s.fallen falls p t = { s with ports := ports, journal := journal } := by
  cases falls with
  | false => exact ⟨s.ports, s.journal, rfl⟩
  | true => exact s.afterFall_only p t

theorem State.lineCut_only (s : State) (p : Port) (t : Instant) (order : Order) :
    ∃ ports journal, s.lineCut p t order = { s with ports := ports, journal := journal } := by
  unfold State.lineCut
  dsimp only
  split
  · obtain ⟨ports, journal, h⟩ := ((s.withPort p (s.port p).cut).noteLink p false t).fallen_only (s.port p).abortFalls p t
    exact ⟨ports, journal, h⟩
  · obtain ⟨ports, journal, h⟩ := (s.withPort p (s.port p).cut).fallen_only (s.port p).abortFalls p t
    rw [h]
    exact ⟨_, _, rfl⟩

theorem State.noteLink_port (s : State) (p : Port) (up : Bool) (t : Instant) :
    (s.noteLink p up t).port p = { s.port p with link := up, linkChanges := (s.port p).linkChanges + 1 } :=
  s.port_withPort_self p _

/-- What the port that goes down has received: its cut, with the change of link counted. -/
theorem State.lineCut_sameIngress (s : State) (p : Port) (t : Instant) (order : Order) :
    ({ (s.port p).cut with link := false, linkChanges := (s.port p).cut.linkChanges + 1 } : PortState).SameIngress
      ((s.lineCut p t order).port p) := by
  have hcut : (s.withPort p (s.port p).cut).port p = (s.port p).cut := s.port_withPort_self p _
  unfold State.lineCut
  dsimp only
  split
  · have hfallen := State.fallen_sameIngress (s := (s.withPort p (s.port p).cut).noteLink p false t) (p := p) (s.port p).abortFalls t p
    rw [State.noteLink_port, hcut] at hfallen
    exact hfallen
  · have hfallen := State.fallen_sameIngress (s := s.withPort p (s.port p).cut) (p := p) (s.port p).abortFalls t p
    rw [hcut] at hfallen
    rw [State.noteLink_port]
    obtain ⟨_, hchanges, hreception, hsending, hpause, hingress⟩ := hfallen
    exact ⟨rfl, by rw [hchanges], hreception, hsending, hpause, hingress⟩

end

/-! ### The three moments -/

theorem laneOf_gatewayPort (l : LaneId) : laneOf (gatewayPort l) = l := by
  revert l
  decide

theorem isGateway_gatewayPort (l : LaneId) : isGateway (gatewayPort l) = true := by
  revert l
  decide

section

variable {s : State} {l : LaneId} {r : MarkerRequest} {f : Reception} {sub : Sub} {order : Order}

/-- What one moment makes of the request that follows a frame: `c` is the frame's end or its abort, `op` all that the moment does before the marker. -/
structure FollowedBy (s : State) (l : LaneId) (r : MarkerRequest) (c : Instr) (op : State → State) : Prop where
  placed : exec c s = .next ((op (s.withWaiting l [])).placeMarker l r)
  alone : exec c (s.withWaiting l []) = .next (op (s.withWaiting l []))
  waiting : ((op (s.withWaiting l [])).lane l).waiting = []
  mode : ((op (s.withWaiting l [])).lane l).mode = (s.lane l).mode
  reception : ((op (s.withWaiting l [])).port (gatewayPort l)).reception = none

/-- Either moment is a blind operation, after which the requests that follow are placed (R143). -/
theorem FollowedBy.of_blind {c : Instr} {op : State → State} {order : Order} (hop : BlindTo l op) (hwaiting : (s.lane l).waiting = [r])
    (hfollow : r.afterFrame = true)
    (hrun : ∀ requests, exec c (s.withWaiting l requests) =
      .next ((op (s.withWaiting l requests)).placeWaiting l (fun r => r.afterFrame) order))
    (hkeeps : ∀ u : State, ((op u).lane l).mode = (u.lane l).mode ∧ ((op u).port (gatewayPort l)).reception = none) :
    FollowedBy s l r c op := by
  obtain ⟨hplaced, halone⟩ := placeWaiting_after (order := order) hop hwaiting hfollow
  obtain ⟨hmode, hreception⟩ := hkeeps (s.withWaiting l [])
  refine ⟨?_, (hrun []).trans (congrArg Host.Outcome.next halone), by rw [hop.waiting, State.withWaiting_lane],
    hmode.trans (by rw [State.withWaiting_lane]), hreception⟩
  have hself := hrun (s.lane l).waiting
  rw [State.withWaiting_self] at hself
  exact hself.trans (congrArg Host.Outcome.next hplaced)

theorem frameEnd_followed {rest : List Byte} {bad : Bool} (hrunning : s.phase = .running) (hwaiting : (s.lane l).waiting = [r])
    (hfollow : r.afterFrame = true) (hf : (s.port (gatewayPort l)).reception = some f) (hcomplete : f.complete (f.bytes ++ rest) = true) :
    FollowedBy s l r (.frameEnd (gatewayPort l) rest bad sub order) fun u =>
      (u.sorted (gatewayPort l) (f.classOf (f.bytes ++ rest) bad)).dispose (gatewayPort l) f (f.bytes ++ rest) (f.classOf (f.bytes ++ rest) bad)
        (s.readingAt sub) (s.oscAt sub) := by
  refine .of_blind (order := order) ?_ hwaiting hfollow (fun requests => ?_) fun u => ?_
  · intro u requests
    have hblind := State.dispose_blind (gatewayPort l) f (f.bytes ++ rest) (f.classOf (f.bytes ++ rest) bad) (s.readingAt sub) (s.oscAt sub)
    rw [laneOf_gatewayPort] at hblind
    exact hblind (u.sorted (gatewayPort l) (f.classOf (f.bytes ++ rest) bad)) requests
  · refine (execFrameEnd_complete (State.receiving_some (s := s.withWaiting l requests) hrunning hf) hcomplete).trans (congrArg Host.Outcome.next ?_)
    rw [State.endFrame_eq, if_pos (isGateway_gatewayPort l), laneOf_gatewayPort]
    rfl
  · have hkeeps := State.dispose_keeps (s := u.sorted (gatewayPort l) (f.classOf (f.bytes ++ rest) bad)) (p := gatewayPort l) (f := f)
      (frame := f.bytes ++ rest) (c := f.classOf (f.bytes ++ rest) bad) (t := s.readingAt sub) (osc := s.oscAt sub)
    rw [laneOf_gatewayPort] at hkeeps
    exact ⟨hkeeps.1, hkeeps.2.trans (congrArg PortState.reception (u.port_withPort_self (gatewayPort l) _))⟩

theorem State.counting_of_running (h : s.phase = .running) : s.counting = true := Bool.or_eq_true_iff.mpr (.inl (State.running_iff.mpr h))

theorem execLinkDown_up {p : Port} (hcounting : s.counting = true) (hlink : (s.port p).link = true) :
    execLinkDown p sub order s = .next (s.linkLost p (s.readingAt sub) order) :=
  congrArg Host.Outcome.next (if_pos (Bool.and_eq_true_iff.mpr ⟨hcounting, hlink⟩))

theorem PortState.cut_reception (x : PortState) : x.cut.reception = none ∧ x.cut.receivedPause = none := by
  have habort : x.abortReception.reception = none := by
    unfold PortState.abortReception
    split
    · rfl
    next hidle => exact Option.not_isSome_iff_eq_none.mp hidle
  refine ⟨?_, rfl⟩
  unfold PortState.cut PortState.abortItem
  split <;> exact habort

theorem linkDown_followed (hrunning : s.phase = .running) (hwaiting : (s.lane l).waiting = [r]) (hfollow : r.afterFrame = true)
    (hlink : (s.port (gatewayPort l)).link = true) :
    FollowedBy s l r (.linkDown (gatewayPort l) sub order) fun u => u.lineCut (gatewayPort l) (s.readingAt sub) order := by
  refine .of_blind (order := order.tail) (State.lineCut_blind _ _ _) hwaiting hfollow (fun requests => ?_) fun u => ⟨?_, ?_⟩
  · refine (execLinkDown_up (s := s.withWaiting l requests) (State.counting_of_running hrunning) hlink).trans (congrArg Host.Outcome.next ?_)
    rw [State.linkLost_eq, if_pos (isGateway_gatewayPort l), laneOf_gatewayPort]
    rfl
  · obtain ⟨ports, journal, honly⟩ := u.lineCut_only (gatewayPort l) (s.readingAt sub) order
    rw [honly]
    rfl
  · exact (u.lineCut_sameIngress (gatewayPort l) (s.readingAt sub) order).reception.trans (PortState.cut_reception _).1

theorem execMarkerPointReached_running (h : s.phase = .running) : execMarkerPointReached l order s = .next (s.reachMarkerPoint l order) :=
  congrArg Host.Outcome.next (if_pos (State.running_iff.mpr h))

theorem Strobe.over_iff {x : Strobe} {ends : Nat} (h : x.pulseEnd = some ends) (osc : Nat) : x.over osc = true ↔ ends ≤ osc := by
  unfold Strobe.over
  rw [h]
  exact decide_eq_true_iff

end

/-- Settles O34: each moment leaves the request to one placement, which the lane's mode and the FIFO's markers decide. -/
theorem markerAndStrobeMoments : Obligations.MarkerAndStrobeMoments := by
  refine ⟨?point, ?followed, fun s line ends hends => ?strobe⟩
  case point =>
    intro s l order r hrunning hwaiting hreached hfollow lane out left marker
    have hrun : exec (.markerPointReached l order) s = _ := execMarkerPointReached_running hrunning
    have hlane : (s.withWaiting l []).lane l = { lane with waiting := [] } := State.withWaiting_lane
    refine ⟨fun hidle => ?idle, fun hbusy => ?busy⟩
    case busy =>
      rw [hrun, State.reachMarkerPoint_receiving hbusy hwaiting hreached hfollow]
      rfl
    case idle =>
      rw [hrun, State.reachMarkerPoint_idle hidle hwaiting hreached hfollow]
      refine ⟨fun hmode => ?_, fun hmode hroom => ?_, fun hmode hfull => ?_⟩
      · rw [State.placeMarker_pass (by rw [hlane]; exact hmode), hlane, State.withWaiting_withLane_any]
        rfl
      · rw [State.placeMarker_placed (s := s.withWaiting l []) (by rw [hlane]; exact hmode) hroom, hlane]
        refine congrArg Host.Outcome.next ?_
        exact congrArg (fun u : State => u.withPort (enginePort l) _) (State.withWaiting_withLane_any _ _)
      · rw [State.placeMarker_lost (s := s.withWaiting l []) (by rw [hlane]; exact hmode) hfull, hlane, State.withWaiting_withLane_any]
        rfl
  case followed =>
    intro s l sub order r f c hrunning hwaiting hfollow hf hmoment
    have hfollowed : ∃ op, FollowedBy s l r c op := by
      obtain ⟨rest, bad, hcomplete, rfl⟩ | ⟨hlink, rfl⟩ := hmoment
      · exact ⟨_, frameEnd_followed hrunning hwaiting hfollow hf hcomplete⟩
      · exact ⟨_, linkDown_followed hrunning hwaiting hfollow hlink⟩
    obtain ⟨op, hplaced, halone, hnone, hmode, hreception⟩ := hfollowed
    refine ⟨_, halone, hnone, hmode, hreception, fun hpass => ?_, fun hstamp hroom => ?_, fun hstamp hfull => ?_⟩
    · rw [hplaced, State.placeMarker_pass hpass]
      rfl
    · rw [hplaced, State.placeMarker_placed hstamp hroom]
      rfl
    · rw [hplaced, State.placeMarker_lost hstamp hfull]
      rfl
  case strobe =>
    have hover := Strobe.over_iff hends s.osc
    refine ⟨fun hearly => ?_, fun hlate => ?_⟩
    · exact congrArg Host.Outcome.next (if_neg (hover.not.mpr (Nat.not_le.mpr hearly)))
    · exact congrArg Host.Outcome.next (if_pos (hover.mpr hlate))

end Sys2Proof.Machine
end

