-- ==== Sys2Proof/Proofs/Transmission.lean ====
section
/-! PROOF. The fall of a passing FIFO's fill: at the end of a transmission, and at the loss of a link. -/

namespace Sys2Proof.Machine

section

variable {s : State} {p : Port} {t : Instant}

/-! ### A fall of the fill (R71, R76) -/

/-- The overflow episode of a port after a fall of its fill (R71). -/
def State.episodeAfter (s : State) (p : Port) : Option Episode :=
  match (s.port p).episode with
  | some e => if e.openedBelow = true ∨ s.belowLow p = true then none else some e
  | none => none

/-- The journal after a fall of a port's fill: the LaneOverflow record of the episode's end, where it ends (R71). -/
def State.journalAfter (s : State) (p : Port) (t : Instant) : Journal :=
  match (s.port p).episode with
  | some e =>
    if e.openedBelow = true ∨ s.belowLow p = true then s.journal.take (s.dtu.handed t (.laneOverflow (laneOf p) p true e.drops false))
    else s.journal
  | none => s.journal

theorem State.after_none (h : (s.port p).episode = none) : s.episodeAfter p = (s.port p).episode ∧ s.journalAfter p t = s.journal := by
  unfold State.episodeAfter State.journalAfter
  rw [h]
  exact ⟨rfl, rfl⟩

theorem State.after_open {e : Episode} (h : (s.port p).episode = some e) (hopen : ¬ (e.openedBelow = true ∨ s.belowLow p = true)) :
    s.episodeAfter p = (s.port p).episode ∧ s.journalAfter p t = s.journal := by
  unfold State.episodeAfter State.journalAfter
  rw [h]
  exact ⟨if_neg hopen, if_neg hopen⟩

theorem State.after_closed {e : Episode} (h : (s.port p).episode = some e) (hcloses : e.openedBelow = true ∨ s.belowLow p = true) :
    s.episodeAfter p = none ∧
      s.journalAfter p t = s.journal.take (s.dtu.handed t (.laneOverflow (laneOf p) p true e.drops false)) := by
  unfold State.episodeAfter State.journalAfter
  rw [h]
  exact ⟨if_pos hcloses, if_pos hcloses⟩

/-- A state after the tests of a fall of the fill, with the feeder port told of a pause state that ends (R71, R76). -/
structure State.Fallen (s : State) (p : Port) (t : Instant) (u : State) : Prop where
  only : u = { s with ports := u.ports, journal := u.journal }
  port : u.port p = { s.port p with
    pauseTimer := if s.belowLow p = true then none else (s.port p).pauseTimer, episode := s.episodeAfter p }
  mate : u.port (mate p) =
    if s.belowLow p = true ∧ (s.port p).pauseTimer ≠ none then (s.port (mate p)).offerPause 0 else s.port (mate p)
  other : ∀ k, k ≠ p → k ≠ Machine.mate p → u.port k = s.port k
  journal : u.journal = s.journalAfter p t

/-- A state after the test of the low watermark alone (R76). -/
structure State.LowTested (s : State) (p : Port) (u : State) : Prop where
  only : u = { s with ports := u.ports }
  port : u.port p = { s.port p with pauseTimer := if s.belowLow p = true then none else (s.port p).pauseTimer }
  mate : u.port (Machine.mate p) =
    if s.belowLow p = true ∧ (s.port p).pauseTimer ≠ none then (s.port (Machine.mate p)).offerPause 0 else s.port (Machine.mate p)
  other : ∀ k, k ≠ p → k ≠ Machine.mate p → u.port k = s.port k

theorem State.belowLow_iff (s : State) (p : Port) : s.belowLow p = true ↔ fillOf (s.port p).fifo < (s.profileOf p).low := decide_eq_true_iff

theorem State.testLow_tested (s : State) (p : Port) : s.LowTested p (s.testLow p) := by
  have hiff : fillOf (s.port p).fifo < (s.profileOf p).low ∧ (s.port p).pauseTimer ≠ none ↔ s.belowLow p = true ∧ (s.port p).pauseTimer ≠ none :=
    and_congr_left' (s.belowLow_iff p).symm
  rw [State.testLow_eq]
  by_cases h : s.belowLow p = true ∧ (s.port p).pauseTimer ≠ none
  · rw [if_pos (hiff.mpr h)]
    refine ⟨rfl, ?_, ?_, fun k hp hmate => ?_⟩
    · rw [State.tellFeeder, State.port_withPort_other _ _ _ _ (mate_ne p).symm, State.port_withPort_self, if_pos h.1]
    · rw [State.tellFeeder, State.port_withPort_self, if_pos h]
    · rw [State.tellFeeder, State.port_withPort_other _ _ _ _ (Ne.symm hmate), State.port_withPort_other _ _ _ _ (Ne.symm hp)]
  · rw [if_neg (hiff.not.mpr h)]
    refine ⟨rfl, ?_, (if_neg h).symm, fun _ _ _ => rfl⟩
    by_cases hlow : s.belowLow p = true
    · have hclear : (s.port p).pauseTimer = none := not_not.mp fun hset => h ⟨hlow, hset⟩
      rw [if_pos hlow, ← hclear]
    · rw [if_neg hlow]

theorem State.LowTested.belowLow {u : State} (h : s.LowTested p u) : u.belowLow p = s.belowLow p := by
  obtain ⟨honly, hport, _, _⟩ := h
  rw [State.belowLow, State.belowLow, hport]
  rw [honly]
  rfl

theorem State.afterFall_fallen (s : State) (p : Port) (t : Instant) : s.Fallen p t (s.afterFall p t) := by
  have htested := s.testLow_tested p
  have hlow := htested.belowLow
  obtain ⟨honly, hport, hmate, hother⟩ := htested
  unfold State.afterFall
  generalize s.testLow p = u at honly hport hmate hother hlow
  have hepisode : (u.port p).episode = (s.port p).episode := by rw [hport]
  have hjournal : u.journal = s.journal := by rw [honly]
  have hdtu : u.dtu = s.dtu := by rw [honly]
  have hkept : s.episodeAfter p = (s.port p).episode ∧ s.journalAfter p t = s.journal → s.Fallen p t u := by
    rintro ⟨hsame, hkeeps⟩
    refine ⟨by rw [honly], ?_, hmate, hother, hjournal.trans hkeeps.symm⟩
    rw [hport, hsame]
  cases he : (s.port p).episode with
  | none =>
    rw [State.testEpisode_none (hepisode.trans he)]
    exact hkept (State.after_none he)
  | some e =>
    rw [State.testEpisode_some (hepisode.trans he), hlow]
    by_cases hcloses : e.openedBelow = true ∨ s.belowLow p = true
    · rw [if_pos hcloses]
      obtain ⟨hclosed, hrecord⟩ := State.after_closed (t := t) he hcloses
      refine ⟨?_, ?_, ?_, fun k hp hmate' => ?_, ?_⟩
      · rw [honly]; rfl
      · refine (u.port_withPort_self p _).trans ?_
        rw [hport, hclosed]
      · exact (State.port_withPort_other u p (mate p) _ (mate_ne p)).trans hmate
      · exact (State.port_withPort_other u p k _ (Ne.symm hp)).trans (hother k hp hmate')
      · rw [hrecord, State.hand_journal, State.withPort_journal, State.withPort_dtu, hjournal, hdtu]
    · rw [if_neg hcloses]
      exact hkept (State.after_open he hcloses)

theorem State.episodeAfter_eq {P : Prop} [Decidable P] (h : s.belowLow p = true ↔ P) :
    s.episodeAfter p =
      match (s.port p).episode with
      | some e => if e.openedBelow = true ∨ P then none else some e
      | none => none := by
  unfold State.episodeAfter
  cases (s.port p).episode with
  | none => rfl
  | some e => exact if_congr (or_congr_right h) rfl rfl

theorem State.journalAfter_eq {P : Prop} [Decidable P] (h : s.belowLow p = true ↔ P) :
    s.journalAfter p t =
      match (s.port p).episode with
      | some e =>
        if e.openedBelow = true ∨ P then s.journal.take (s.dtu.handed t (.laneOverflow (laneOf p) p true e.drops false)) else s.journal
      | none => s.journal := by
  unfold State.journalAfter
  cases (s.port p).episode with
  | none => rfl
  | some e => exact if_congr (or_congr_right h) rfl rfl

/-! ### The end of a transmission (R70 to R76, R80) -/

/-- A port whose passing head has left it (R70). -/
def PortState.sentItem (x : PortState) (item : PassingItem) : PortState := { x.dropPassing with egress := x.egress.sentPassing item }

theorem execTransmissionEnd_running {sub : Sub} (h : s.phase = .running) :
    execTransmissionEnd p sub s = .next (s.endTransmission p (s.readingAt sub)) := congrArg Host.Outcome.next (if_pos (State.running_iff.mpr h))

theorem State.endTransmission_passing {item : PassingItem} {rest : List PassingItem} (hsending : (s.port p).sending = some .passing)
    (hfifo : (s.port p).fifo = item :: rest) :
    s.endTransmission p t =
      if PassingItem.isMarker item then s.withPort p ((s.port p).sentItem item)
      else (s.withPort p ((s.port p).sentItem item)).afterFall p t := by
  unfold State.endTransmission
  dsimp only
  rw [hsending, hfifo]
  rfl

theorem State.endTransmission_own {frame : OwnFrame} {rest : List OwnFrame} (hsending : (s.port p).sending = some .own)
    (hown : (s.port p).own = frame :: rest) :
    s.endTransmission p t =
      (s.withPort p { (s.port p).dropOwn with egress := (s.port p).egress.sentOwn frame }).noteAnswered frame := by
  unfold State.endTransmission
  dsimp only
  rw [hsending, hown]

theorem PortState.sentItem_eq {x : PortState} {item : PassingItem} {rest : List PassingItem} (h : x.fifo = item :: rest) :
    x.sentItem item = { x with fifo := rest, sending := none, egress := x.egress.sentPassing item } := by
  rw [PortState.sentItem, PortState.dropPassing, h]
  rfl

theorem PortState.dropOwn_eq {x : PortState} {frame : OwnFrame} {rest : List OwnFrame} (h : x.own = frame :: rest) :
    x.dropOwn = { x with own := rest, passedOver := 0, sending := none } := by
  rw [PortState.dropOwn, h]
  rfl

end

/-- Settles O28: the head names the case; a frame's leaving is a fall of the fill. -/
theorem transmittedItemLeavesItsStore : Obligations.TransmittedItemLeavesItsStore := by
  intro s p sub hrunning x low
  have hrun : exec (.transmissionEnd p sub) s = _ := execTransmissionEnd_running hrunning
  refine ⟨fun m rest hsending hfifo => ?marker, fun bytes detection rest hsending hfifo => ?frame,
    fun bytes ofRestart rest hsending hown => ?response, fun quanta rest hsending hown => ?pause⟩
  case marker =>
    rw [hrun, State.endTransmission_passing hsending hfifo, PortState.sentItem_eq hfifo]
    rfl
  case frame =>
    rw [hrun, State.endTransmission_passing hsending hfifo, PortState.sentItem_eq hfifo]
    refine ⟨_, congrArg Host.Outcome.next (if_neg Bool.false_ne_true), ?_⟩
    have hleft := s.port_withPort_self p { x with
      fifo := rest, sending := none, egress := x.egress.sentPassing (.frame bytes detection) }
    have hmate := s.port_withPort_other p (mate p) { x with
      fifo := rest, sending := none, egress := x.egress.sentPassing (.frame bytes detection) } (mate_ne p)
    have hother (k : Port) (hk : k ≠ p) := s.port_withPort_other p k { x with
      fifo := rest, sending := none, egress := x.egress.sentPassing (.frame bytes detection) } (Ne.symm hk)
    have hfallen := (s.withPort p { x with
      fifo := rest, sending := none, egress := x.egress.sentPassing (.frame bytes detection) }).afterFall_fallen p (s.readingAt sub)
    have hlow := (s.withPort p { x with
      fifo := rest, sending := none, egress := x.egress.sentPassing (.frame bytes detection) }).belowLow_iff p
    rw [hleft] at hlow
    obtain ⟨honly, hport, hfeeder, hothers, hjournal⟩ := hfallen
    refine ⟨?_, ?_, fun k hk hkmate => (hothers k hk hkmate).trans (hother k hk), honly, ?_⟩
    · rw [hport, State.episodeAfter_eq hlow, if_congr hlow rfl rfl, hleft]
      rfl
    · rw [hfeeder, if_congr (and_congr_left' hlow) rfl rfl, hleft, hmate]
      rfl
    · rw [hjournal, State.journalAfter_eq hlow, hleft]
      rfl
  case response =>
    intro sent
    rw [hrun, State.endTransmission_own hsending hown, PortState.dropOwn_eq hown]
    refine ⟨fun hplain => ?_, fun r hrestart hpending => ?_⟩
    · rw [hplain]
      rfl
    · rw [hrestart]
      refine congrArg (fun a => Host.Outcome.next ({ sent with agent := a } : State)) ?_
      exact congrArg (fun restart => ({ s.agent with restart := restart } : Agent)) (congrArg (Option.map _) hpending)
  case pause =>
    rw [hrun, State.endTransmission_own hsending hown, PortState.dropOwn_eq hown]
    rfl

end Sys2Proof.Machine
end

