-- ==== Sys2Proof/Proofs/LinkChange.lean ====
section
/-! PROOF. A change of a port's link: what the port loses, what the fall of its fill ends, and the records of the moment in their order. -/

namespace Sys2Proof.Machine

/-! ### What a port loses with its link (R79) -/

theorem PortState.cut_eq (x : PortState) :
    x.cut = { x with
      reception := none, receivedPause := none, sending := none
      ingress := if x.reception.isSome then { x.ingress with aborted := x.ingress.aborted + 1 } else x.ingress
      egress := if x.sending.isSome then { x.egress with abort := x.egress.abort + 1 } else x.egress
      fifo := if x.sending = some .passing then x.fifo.tail else x.fifo
      own := if x.sending = some .own then x.own.tail else x.own
      passedOver := if x.sending = some .own then 0 else x.passedOver } := by
  rcases x with ⟨_, _ | _, _, _, _, _ | _ | _, _⟩ <;> rfl

theorem PortState.abortFalls_iff (x : PortState) :
    x.abortFalls = true ↔ ∃ bytes detection rest, x.sending = some .passing ∧ x.fifo = .frame bytes detection :: rest := by
  unfold PortState.abortFalls
  constructor
  · intro h
    split at h
    next item rest hsending hfifo =>
      cases item with
      | frame bytes detection => exact ⟨bytes, detection, rest, hsending, hfifo⟩
      | marker m => exact absurd h Bool.false_ne_true
    next => exact absurd h Bool.false_ne_true
  · rintro ⟨bytes, detection, rest, hsending, hfifo⟩
    rw [hsending, hfifo]
    rfl

section

variable {s : State} {p : Port} {t : Instant} {order : Order}

/-- The state in which a port has lost what it loses with its link (R79). -/
def State.cutAt (s : State) (p : Port) : State := s.withPort p (s.port p).cut

theorem State.cutAt_port (s : State) (p : Port) : (s.cutAt p).port p = (s.port p).cut := s.port_withPort_self p _

theorem State.cutAt_other {k : Port} (h : k ≠ p) : (s.cutAt p).port k = s.port k := s.port_withPort_other p k _ (Ne.symm h)

theorem State.cutAt_belowLow (s : State) (p : Port) :
    (s.cutAt p).belowLow p = true ↔
      fillOf (if (s.port p).sending = some .passing then (s.port p).fifo.tail else (s.port p).fifo) < (s.lane (laneOf p)).profile.low := by
  rw [State.belowLow_iff, State.cutAt_port, PortState.cut_eq]
  rfl

/-- An open episode that the cut ends: the cut is a fall of the fill, and the fill is then below the low watermark, or was when the episode opened (R71). -/
def State.CutEnds (s : State) (p : Port) (e : Episode) : Prop :=
  (s.port p).episode = some e ∧ (s.port p).abortFalls = true ∧ (e.openedBelow = true ∨ (s.cutAt p).belowLow p = true)

/-- The cut clears the port's pause state and tells its feeder (R76). -/
def State.CutClears (s : State) (p : Port) : Prop :=
  (s.port p).abortFalls = true ∧ (s.cutAt p).belowLow p = true ∧ (s.port p).pauseTimer ≠ none

/-- The records of the moment: the LinkChange, and the LaneOverflow of an episode that ends (R71, R77). -/
def State.changeRecord (s : State) (p : Port) (t : Instant) : Handed := s.dtu.handed t (.linkChange p false)

def State.closeRecord (s : State) (p : Port) (t : Instant) (e : Episode) : Handed := s.dtu.handed t (.laneOverflow (laneOf p) p true e.drops false)

/-- A state in which a port has gone down, its lane's markers aside (R71, R76, R77, R79). -/
structure State.Down (s : State) (p : Port) (t : Instant) (order : Order) (u : State) : Prop where
  only : u = { s with ports := u.ports, journal := u.journal }
  port : u.port p = { (s.port p).cut with
    link := false, linkChanges := (s.port p).linkChanges + 1, pauseTimer := (u.port p).pauseTimer, episode := (u.port p).episode }
  other : ∀ k, k ≠ p → k ≠ mate p → u.port k = s.port k
  stays : ¬ s.CutClears p → u.port (mate p) = s.port (mate p) ∧ (u.port p).pauseTimer = (s.port p).pauseTimer
  clears : s.CutClears p → u.port (mate p) = (s.port (mate p)).offerPause 0 ∧ (u.port p).pauseTimer = none
  kept : (∀ e, ¬ s.CutEnds p e) → (u.port p).episode = (s.port p).episode ∧ u.journal = s.journal.take (s.changeRecord p t)
  ended : ∀ e, s.CutEnds p e → (u.port p).episode = none ∧
    u.journal = if order.headD 0 % 2 = 0 then s.journal.takeAll [s.changeRecord p t, s.closeRecord p t e]
      else s.journal.takeAll [s.closeRecord p t e, s.changeRecord p t]

theorem State.lineCut_unfallen (h : (s.port p).abortFalls = false) : s.lineCut p t order = (s.cutAt p).noteLink p false t := by
  unfold State.lineCut
  dsimp only
  rw [h]
  exact ite_self _

theorem State.down_unfallen (h : (s.port p).abortFalls = false) : s.Down p t order ((s.cutAt p).noteLink p false t) := by
  have hport : ((s.cutAt p).noteLink p false t).port p =
      { (s.port p).cut with link := false, linkChanges := (s.port p).cut.linkChanges + 1 } := by
    rw [State.noteLink_port, State.cutAt_port]
  have hother (k : Port) (hk : k ≠ p) : ((s.cutAt p).noteLink p false t).port k = s.port k :=
    ((s.cutAt p).port_withPort_other p k _ (Ne.symm hk)).trans (State.cutAt_other hk)
  have hcut := PortState.cut_eq (s.port p)
  refine ⟨rfl, ?_, fun k hk _ => hother k hk, fun _ => ⟨hother _ (mate_ne p).symm, ?_⟩, fun hclears => ?_, fun _ => ⟨?_, rfl⟩, fun e hends => ?_⟩
  · rw [hport, hcut]
  · rw [hport, hcut]
  · exact absurd hclears.1 (Bool.eq_false_iff.mp h)
  · rw [hport, hcut]
  · exact absurd hends.2.1 (Bool.eq_false_iff.mp h)

/-- The tests of the fall, in a state whose episode and fill are those of the cut. -/
theorem State.after_kept {v : State} (hepisode : (v.port p).episode = (s.port p).episode) (hlow : v.belowLow p = (s.cutAt p).belowLow p)
    (hfalls : (s.port p).abortFalls = true) (h : ∀ e, ¬ s.CutEnds p e) :
    v.episodeAfter p = (s.port p).episode ∧ v.journalAfter p t = v.journal := by
  rw [← hepisode]
  cases he : (v.port p).episode with
  | none => exact he ▸ State.after_none he
  | some e => exact he ▸ State.after_open he fun hends => h e ⟨hepisode.symm.trans he, hfalls, hlow ▸ hends⟩

theorem State.after_ended {v : State} {e : Episode} (hepisode : (v.port p).episode = (s.port p).episode)
    (hlow : v.belowLow p = (s.cutAt p).belowLow p) (h : s.CutEnds p e) :
    v.episodeAfter p = none ∧ v.journalAfter p t = v.journal.take (v.closeRecord p t e) := by
  obtain ⟨hopen, _, hends⟩ := h
  exact State.after_closed (hepisode.trans hopen) (hlow ▸ hends)

theorem State.cutClears_iff (hfalls : (s.port p).abortFalls = true) :
    s.CutClears p ↔ (s.cutAt p).belowLow p = true ∧ (s.port p).pauseTimer ≠ none := and_iff_right hfalls

/-- The pause timer and the feeder port after the cut, from what the test of the low watermark leaves. -/
theorem State.cut_pauses {timer : Option Nat} {feeder : PortState} (hfalls : (s.port p).abortFalls = true)
    (htimer : timer = if (s.cutAt p).belowLow p = true then none else (s.port p).pauseTimer)
    (hfeeder : feeder = if (s.cutAt p).belowLow p = true ∧ (s.port p).pauseTimer ≠ none then (s.port (mate p)).offerPause 0 else s.port (mate p)) :
    (¬ s.CutClears p → feeder = s.port (mate p) ∧ timer = (s.port p).pauseTimer) ∧
      (s.CutClears p → feeder = (s.port (mate p)).offerPause 0 ∧ timer = none) := by
  rw [State.cutClears_iff hfalls]
  refine ⟨fun h => ⟨hfeeder.trans (if_neg h), htimer.trans ?_⟩, fun h => ⟨hfeeder.trans (if_pos h), htimer.trans (if_pos h.1)⟩⟩
  split
  next hlow => exact (not_not.mp fun hset => h ⟨hlow, hset⟩).symm
  next => rfl

/-- The change of link first, then the tests of the fall. -/
theorem State.down_changeFirst (hfalls : (s.port p).abortFalls = true) (horder : order.headD 0 % 2 = 0) :
    s.Down p t order (((s.cutAt p).noteLink p false t).afterFall p t) := by
  have hcut := PortState.cut_eq (s.port p)
  have hport : ((s.cutAt p).noteLink p false t).port p =
      { (s.port p).cut with link := false, linkChanges := (s.port p).linkChanges + 1 } := by
    rw [State.noteLink_port, State.cutAt_port, hcut]
  have hother (k : Port) (hk : k ≠ p) : ((s.cutAt p).noteLink p false t).port k = s.port k :=
    ((s.cutAt p).port_withPort_other p k _ (Ne.symm hk)).trans (State.cutAt_other hk)
  have hlow : ((s.cutAt p).noteLink p false t).belowLow p = (s.cutAt p).belowLow p := by
    rw [State.belowLow, State.belowLow, hport, State.cutAt_port]
    rfl
  have hepisode : (((s.cutAt p).noteLink p false t).port p).episode = (s.port p).episode := by rw [hport, hcut]
  have htimer : (((s.cutAt p).noteLink p false t).port p).pauseTimer = (s.port p).pauseTimer := by rw [hport, hcut]
  obtain ⟨honly, hfallen, hmate, hothers, hjournal⟩ := ((s.cutAt p).noteLink p false t).afterFall_fallen p t
  generalize ((s.cutAt p).noteLink p false t).afterFall p t = u at honly hfallen hmate hothers hjournal
  rw [hlow, htimer] at hfallen hmate
  rw [hother _ (mate_ne p).symm] at hmate
  obtain ⟨hstays, hclears⟩ := State.cut_pauses hfalls (congrArg PortState.pauseTimer hfallen) hmate
  refine ⟨honly, ?_, fun k hk hkmate => (hothers k hk hkmate).trans (hother k hk), hstays, hclears, fun hkept => ?_, fun e hends => ?_⟩
  · rw [hfallen, hport]
  · obtain ⟨hsame, hrecord⟩ := State.after_kept (t := t) hepisode hlow hfalls hkept
    exact ⟨(congrArg PortState.episode hfallen).trans hsame, hjournal.trans hrecord⟩
  · obtain ⟨hnone, hrecord⟩ := State.after_ended (t := t) hepisode hlow hends
    exact ⟨(congrArg PortState.episode hfallen).trans hnone, (hjournal.trans hrecord).trans (if_pos horder).symm⟩

/-- The tests of the fall first, then the change of link. -/
theorem State.down_fallFirst (hfalls : (s.port p).abortFalls = true) (horder : ¬ order.headD 0 % 2 = 0) :
    s.Down p t order (((s.cutAt p).afterFall p t).noteLink p false t) := by
  have hcut := PortState.cut_eq (s.port p)
  have hepisode : ((s.cutAt p).port p).episode = (s.port p).episode := by rw [State.cutAt_port, hcut]
  have htimer : ((s.cutAt p).port p).pauseTimer = (s.port p).pauseTimer := by rw [State.cutAt_port, hcut]
  obtain ⟨honly, hfallen, hmate, hothers, hjournal⟩ := (s.cutAt p).afterFall_fallen p t
  generalize (s.cutAt p).afterFall p t = w at honly hfallen hmate hothers hjournal
  rw [htimer] at hfallen hmate
  rw [State.cutAt_port] at hfallen
  rw [State.cutAt_other (mate_ne p).symm] at hmate
  have hport : (w.noteLink p false t).port p = { w.port p with link := false, linkChanges := (w.port p).linkChanges + 1 } := w.noteLink_port p false t
  have hother (k : Port) (hk : k ≠ p) : (w.noteLink p false t).port k = w.port k := w.port_withPort_other p k _ (Ne.symm hk)
  have hdtu : w.dtu = s.dtu := by rw [honly]; rfl
  have hnoted : (w.noteLink p false t).journal = w.journal.take (s.changeRecord p t) := by rw [State.changeRecord, ← hdtu]; rfl
  obtain ⟨hstays, hclears⟩ := State.cut_pauses hfalls (congrArg PortState.pauseTimer hfallen) hmate
  refine ⟨?_, ?_, fun k hk hkmate => ?_, fun h => ?_, fun h => ?_, fun hkept => ?_, fun e hends => ?_⟩
  · rw [honly]; rfl
  · rw [hport, hfallen, hcut]
  · rw [hother k hk, hothers k hk hkmate, State.cutAt_other hk]
  · rw [hother _ (mate_ne p).symm, hport]
    exact hstays h
  · rw [hother _ (mate_ne p).symm, hport]
    exact hclears h
  · obtain ⟨hsame, hrecord⟩ := State.after_kept (t := t) hepisode rfl hfalls hkept
    rw [hport, hnoted, hjournal, hrecord]
    exact ⟨(congrArg PortState.episode hfallen).trans hsame, rfl⟩
  · obtain ⟨hnone, hrecord⟩ := State.after_ended (t := t) hepisode rfl hends
    rw [hport, hnoted, hjournal, hrecord, if_neg horder]
    exact ⟨(congrArg PortState.episode hfallen).trans hnone, rfl⟩

theorem State.lineCut_down (s : State) (p : Port) (t : Instant) (order : Order) : s.Down p t order (s.lineCut p t order) := by
  cases hfalls : (s.port p).abortFalls with
  | false =>
    rw [State.lineCut_unfallen hfalls]
    exact State.down_unfallen hfalls
  | true =>
    unfold State.lineCut
    dsimp only
    rw [hfalls]
    by_cases horder : order.headD 0 % 2 = 0
    · rw [if_pos horder]
      exact State.down_changeFirst hfalls horder
    · rw [if_neg horder]
      exact State.down_fallFirst hfalls horder

/-! ### The rows (R77, R79) -/

theorem execLinkUp_up {sub : Sub} (h : (s.port p).link = true) : execLinkUp p sub s = .next s :=
  congrArg Host.Outcome.next (if_neg (by rw [h, Bool.not_true, Bool.and_false]; exact Bool.false_ne_true))

theorem execLinkUp_down {sub : Sub} (hcounting : s.counting = true) (h : (s.port p).link = false) :
    execLinkUp p sub s = .next (s.noteLink p true (s.readingAt sub)) :=
  congrArg Host.Outcome.next (if_pos (by rw [hcounting, h]; rfl))

theorem execLinkDown_down {sub : Sub} (h : (s.port p).link = false) : execLinkDown p sub order s = .next s :=
  congrArg Host.Outcome.next (if_neg (by rw [h, Bool.and_false]; exact Bool.false_ne_true))

theorem State.linkLost_unfollowed (h : ∀ r ∈ (s.lane (laneOf p)).waiting, r.afterFrame = false) :
    s.linkLost p t order = s.lineCut p t order := by
  rw [State.linkLost_eq]
  split
  · refine State.placeWaiting_none fun r hr => h r ?_
    rw [(State.lineCut_blind p t order).waiting] at hr
    exact hr
  · rfl

/-- Markers placed leave a gateway-side port as it was. -/
theorem State.placeWaiting_port {concerns : MarkerRequest → Bool} {l : LaneId} (hp : p ≠ enginePort l) :
    (s.placeWaiting l concerns order).port p = s.port p := by
  have hplaced (rs : List MarkerRequest) (u : State) : (u.placeMarkers l rs).port p = u.port p := by
    induction rs generalizing u with
    | nil => rfl
    | cons r rs ih => exact (ih (u.placeMarker l r)).trans (State.placeMarker_laneAlone.port p hp)
  exact hplaced _ _

theorem gateway_ne_enginePort (h : isGateway p = true) : p ≠ enginePort (laneOf p) := by
  revert p
  decide

theorem State.linkLost_port (s : State) (p : Port) (t : Instant) (order : Order) :
    (s.linkLost p t order).port p = (s.lineCut p t order).port p ∧ (s.linkLost p t order).journal = (s.lineCut p t order).journal := by
  rw [State.linkLost_eq]
  split
  next hgateway =>
    obtain ⟨_, _, honly⟩ := (s.lineCut p t order).placeWaiting_only (laneOf p) (fun r => r.afterFrame) order.tail
    exact ⟨State.placeWaiting_port (gateway_ne_enginePort hgateway), by rw [honly]⟩
  next => exact ⟨rfl, rfl⟩

end

/-- Settles O30: the cut, the change of link, the fall of the fill and the markers, each with what it leaves. -/
theorem linkChangeIsRecorded : Obligations.LinkChangeIsRecorded := by
  intro s p sub order hcounting x
  refine ⟨fun h => execLinkUp_up h, fun h => execLinkDown_down h, fun h => execLinkUp_down hcounting h, fun hlink => ?down,
    fun hlink hwaiting => ?unfollowed⟩
  case down =>
    have hcut := PortState.cut_eq x
    obtain ⟨_, hport, _, _, _, hkept, _⟩ := s.lineCut_down p (s.readingAt sub) order
    obtain ⟨hsame, hjournal⟩ := s.linkLost_port p (s.readingAt sub) order
    rw [← hsame, hcut] at hport
    obtain ⟨lanes, ports, journal, honly⟩ := s.linkLost_only p (s.readingAt sub) order
    refine ⟨_, execLinkDown_up hcounting hlink, ?_⟩
    rw [hport]
    refine ⟨rfl, rfl, rfl, rfl, rfl, ?_, ?_, by rw [honly], fun hnone => ?_⟩
    · exact apply_ite IngressCounters.aborted _ _ _
    · exact apply_ite EgressCounters.abort _ _ _
    · exact hjournal.trans (hkept fun e hends => nomatch hnone.symm.trans hends.1).2
  case unfollowed =>
    intro low left falls clears closes
    have hcut := PortState.cut_eq x
    have hfalls : x.abortFalls = true ↔ falls := x.abortFalls_iff
    have hclears : s.CutClears p ↔ clears := and_congr hfalls (and_congr_left' (s.cutAt_belowLow p))
    have hcloses (e : Episode) : s.CutEnds p e ↔ closes e := and_congr_right' (and_congr hfalls (or_congr_right (s.cutAt_belowLow p)))
    obtain ⟨honly, hport, hother, hstays, hpauses, hkept, hended⟩ := s.lineCut_down p (s.readingAt sub) order
    refine ⟨_, (execLinkDown_up hcounting hlink).trans (congrArg Host.Outcome.next (State.linkLost_unfollowed hwaiting)), honly, ?_, ?_, ?_, hother,
      fun h => hstays (hclears.not.mpr h), fun h => hpauses (hclears.mpr h), fun h => hkept fun e => (hcloses e).not.mpr (h e),
      fun e h => hended e ((hcloses e).mpr h)⟩
    all_goals rw [hport, hcut]

end Sys2Proof.Machine
end

