-- ==== Sys2Proof/Proofs/OrderFrame.lean ====
section
/-! PROOF. The end of an order frame of a lane in STAMP: its class, the lane that dates it, the phase of R105 and the bytes of the trailer. -/

namespace Sys2Proof.Machine

/-! ### The stamp floor (R101) -/

theorem before_carry (sec ns unit : Nat) : Before { sec := sec, ns := ns } { sec := sec + (ns + 1) / unit, ns := (ns + 1) % unit } := by
  have hsplit := Nat.div_add_mod (ns + 1) unit
  obtain hcarry | hcarry := Nat.eq_zero_or_pos ((ns + 1) / unit)
  · rw [hcarry, Nat.mul_zero, Nat.zero_add] at hsplit
    exact .inr ⟨by rw [hcarry, Nat.add_zero], by rw [hsplit]; exact Nat.lt_succ_self ns⟩
  · exact .inl (Nat.lt_add_of_pos_right hcarry)

theorem before_stampOver (last raw : Instant) : Before last (stampOver last raw) := by
  unfold stampOver
  split
  next h => exact h
  next => exact before_carry last.sec last.ns nsPerSecond

section

variable {x : Lane} {a : AuctionTimer} {r : DetectionRecord} {d : Dating}

/-- The trailer of a frame that a lane dates, field by field (R99 to R108). -/
theorem Lane.trailerFor_eq (x : Lane) (a : AuctionTimer) (r : DetectionRecord) (d : Dating) :
    let raw := lessNs r.instant r.profile.latency
    x.trailerFor a r d =
      { stamp := if Before x.lastStamp raw then raw else addNs x.lastStamp 1, sequence := x.sequence + 1, group := d.group
        phase := a.phaseOf d.group raw, quality := r.quality, clamped := decide (¬ Before x.lastStamp raw)
        keyAbsent := d.keyAbsent, unlabelled := r.unlabelled, utcOffset := r.utcOffset, index := d.index } := by
  unfold Lane.trailerFor clampedOver
  rw [← decide_not]
  rfl

/-- A lane that has dated a frame of a class, field by field (R97, R101, R103, R104, R112). -/
theorem Lane.dateWith_trailerFor (x : Lane) (classes : ClassCounters) (a : AuctionTimer) (r : DetectionRecord) (d : Dating) :
    let raw := lessNs r.instant r.profile.latency
    ({ x with classes := classes } : Lane).dateWith (x.trailerFor a r d) =
      { x with
        lastStamp := (x.trailerFor a r d).stamp, sequence := x.sequence + 1, datedSince := true, dated := x.dated + 1, classes := classes
        clamped := if Before x.lastStamp raw then x.clamped else x.clamped + 1 } := by
  intro raw
  have hclamped : (if (x.trailerFor a r d).clamped = true then x.clamped + 1 else x.clamped) =
      if Before x.lastStamp raw then x.clamped else x.clamped + 1 := by
    have hiff : (x.trailerFor a r d).clamped = true ↔ ¬ Before x.lastStamp raw := by
      rw [Lane.trailerFor_eq]
      exact decide_eq_true_iff
    rw [if_congr hiff rfl rfl, ite_not]
  rw [← hclamped]
  rfl

end

/-! ### The phase (R105) -/

section

variable {r : GroupRecord} {raw : Instant}

/-- The group's close lies at or before a raw stamp, and the group is CLOSED (R105). -/
def GroupRecord.LateFor (r : GroupRecord) (raw : Instant) : Prop := r.state = .closed ∧ ∃ c, r.close = some c ∧ AtOrAfter raw c

theorem GroupRecord.phase_idle (h : r.state = .idle) : r.phase raw = .continuous := if_pos h

theorem GroupRecord.phase_early (hstate : r.state ≠ .idle) (h : Before raw r.callStart) : r.phase raw = .continuous :=
  (if_neg hstate).trans (if_pos h)

theorem GroupRecord.phase_late (hstarted : AtOrAfter raw r.callStart) (h : r.LateFor raw) : r.phase raw = .late := by
  obtain ⟨hclosed, c, hc, hafter⟩ := h
  have hstate : r.state ≠ .idle := by rw [hclosed]; decide
  unfold GroupRecord.phase
  rw [if_neg hstate, if_neg hstarted, hclosed, hc]
  exact if_pos hafter

theorem GroupRecord.phase_call (hstate : r.state ≠ .idle) (hstarted : AtOrAfter raw r.callStart) (h : ¬ r.LateFor raw) : r.phase raw = .call := by
  unfold GroupRecord.phase
  rw [if_neg hstate, if_neg hstarted]
  split
  next c hclosed hc => exact if_neg fun hafter => h ⟨hclosed, c, hc, hafter⟩
  next => rfl

end

/-! ### The bytes of the trailer (R108) -/

/-- The last byte of a trailer's head: the match index (R108). -/
def Trailer.indexByte (x : Trailer) : Byte :=
  match x.index with
  | some i => BitVec.ofNat 8 i
  | none => 0xFF

theorem Trailer.head_eq {x : Trailer} {group index : Byte} (hgroup : groupByte x.group = group) (hindex : x.indexByte = index) :
    x.head =
      beBytes 2 0xEA16 ++ beBytes 6 x.stamp.sec ++ beBytes 4 x.stamp.ns ++ beBytes 4 x.sequence.toNat ++
        [group, OrderPhase.code x.phase, Quality.code x.quality, x.flags] ++ signedBytes 1 x.utcOffset ++ [index] := by
  have hsplit : beBytes 2 0xEA16 ++ instantBytes x.stamp = beBytes 2 0xEA16 ++ beBytes 6 x.stamp.sec ++ beBytes 4 x.stamp.ns :=
    (List.append_assoc _ _ _).symm
  rw [← hsplit, ← hgroup, ← hindex]
  rfl

/-! ### The class of an order frame (R85, R87, R90, R91) -/

section

variable {s : State} {p : Port} {f : Reception} {frame : List Byte} {t : Instant} {osc : Nat}

theorem Reception.classification_other (h : f.kind = some .other) : f.classification frame = some .other := by
  unfold Reception.classification
  rw [h]

theorem Reception.classification_short (h : f.kind = some .order) (hshort : frame.length < 18 + f.detection.profile.needed) :
    f.classification frame = some .keyAbsent := by
  unfold Reception.classification
  rw [h]
  exact if_pos hshort

theorem Reception.classification_looked {found : Lookup} (h : f.kind = some .order) (hlong : 18 + f.detection.profile.needed ≤ frame.length)
    (hlookup : f.lookup = some found) : f.classification frame = some (.looked found) := by
  unfold Reception.classification
  rw [h]
  exact (if_neg (Nat.not_lt.mpr hlong)).trans (congrArg (Option.map _) hlookup)

theorem Classification.defaulted_passed {action : Action} (h : action ≠ .stampNoGroup) (k : ClassCounters) :
    (Classification.looked .defaulted).dating action = none ∧
      k.raise (.looked .defaulted) action = { k with defaultedPassed := k.defaultedPassed + 1 } := by
  cases action with
  | stampNoGroup => exact absurd rfl h
  | _ => exact ⟨rfl, rfl⟩

/-- The end of a good frame of an order-direction lane in STAMP (R63, R66). -/
theorem exec_frameEnd_stamped {rest : List Byte} {sub : Sub} {order : Order} (hrunning : s.phase = .running) (hgateway : p.val < 4)
    (hf : (s.port p).reception = some f) (hkind : f.kind = some .other ∨ f.kind = some .order) (hoversize : f.oversize = false)
    (hmode : f.detection.mode = .stamp) (hlong : 64 ≤ (f.bytes ++ rest).length) (hshort : (f.bytes ++ rest).length ≤ 9216)
    (hfcs : fcsCorrect (f.bytes ++ rest) = true) (hwaiting : ∀ r ∈ (s.lane (laneOf p)).waiting, r.afterFrame = false)
    (hcomplete : f.complete (f.bytes ++ rest) = true) :
    exec (.frameEnd p rest false sub order) s =
      .next ((s.sorted p .ordinary).endOrder p f (f.bytes ++ rest) (s.readingAt sub) (s.oscAt sub)) := by
  have hclass : f.classOf (f.bytes ++ rest) false = .ordinary := by
    rw [Reception.classOf_sized hlong hshort hoversize]
    obtain h | h := hkind <;> rw [h] <;> exact if_pos (intact_iff.mpr ⟨hfcs, rfl⟩)
  refine (exec_frameEnd_unfollowed hrunning hf hcomplete hwaiting hclass).trans (congrArg Host.Outcome.next ?_)
  rw [State.dispose, State.endOrdinary, if_pos ((isGateway_iff p).mpr hgateway), hmode]

theorem State.offerFrame_table (bytes : List Byte) (detection : DetectionRecord) :
    (s.offerFrame p bytes detection t osc).table = s.table := by
  obtain ⟨_, _, honly⟩ := s.offerFrame_only p bytes detection t osc
  rw [honly]

/-- A frame that fits changes the ports alone (R70). -/
theorem State.offerFrame_unrecorded {bytes : List Byte} {detection : DetectionRecord}
    (hfits : fillOf (s.port p).fifo + bytes.length ≤ 32768) :
    ((s.offerFrame p bytes detection t osc).port p).fifo = (s.port p).fifo ++ [.frame bytes detection] ∧
      s.offerFrame p bytes detection t osc = { s with ports := (s.offerFrame p bytes detection t osc).ports } := by
  obtain ⟨hfifo, hjournal⟩ := State.offerFrame_fits (detection := detection) (t := t) (osc := osc) hfits
  obtain ⟨ports, journal, honly⟩ := s.offerFrame_only p bytes detection t osc
  rw [honly] at hjournal
  refine ⟨hfifo, ?_⟩
  rw [honly]
  exact congrArg (fun j => ({ s with ports := ports, journal := j } : State)) hjournal

theorem datedFrame_length (trailer : Trailer) (hlong : 4 ≤ frame.length) : (datedFrame frame trailer).length = frame.length + 24 := by
  rw [datedFrame, withFcs_length, List.length_append, Trailer.bytes_length, withoutFcs, List.length_take_of_le (Nat.sub_le _ _)]
  omega

theorem fillOf_datedFrame (x : PortState) (trailer : Trailer) (hlong : 4 ≤ frame.length) (h : fillOf x.fifo + frame.length + 24 ≤ 32768) :
    fillOf x.fifo + (datedFrame frame trailer).length ≤ 32768 := by
  rw [datedFrame_length trailer hlong]
  exact h

theorem MatchTable.hit_slot (table : MatchTable) (bank : Fin 2) (i : Fin 64) (action : Action) (g : Option Group) :
    ((table.hit bank (.looked (.matched i action g))).slot bank i).hits = (table.slot bank i).hits + 1 := by
  unfold MatchTable.slot MatchTable.hit
  simp

/-- The end of a frame that a lane dates, its trailer and its lane spelled (R99 to R112). -/
theorem State.endOrder_spelled {c : Classification} {d : Dating} (hclass : f.classification frame = some c)
    (hdating : c.dating f.detection.profile.defaultAction = some d) :
    let lane := s.lane (laneOf p)
    let raw := lessNs f.detection.instant f.detection.profile.latency
    let trailer : Trailer :=
      { stamp := if Before lane.lastStamp raw then raw else addNs lane.lastStamp 1, sequence := lane.sequence + 1, group := d.group
        phase := s.auction.phaseOf d.group raw, quality := f.detection.quality, clamped := decide (¬ Before lane.lastStamp raw)
        keyAbsent := d.keyAbsent, unlabelled := f.detection.unlabelled, utcOffset := f.detection.utcOffset, index := d.index }
    (s.sorted p .ordinary).endOrder p f frame t osc =
      (((s.sorted p .ordinary).withTable (s.table.hit f.detection.bank c)).withLane (laneOf p)
        { lane with
          lastStamp := trailer.stamp, sequence := trailer.sequence, datedSince := true, dated := lane.dated + 1
          classes := lane.classes.raise c f.detection.profile.defaultAction
          clamped := if Before lane.lastStamp raw then lane.clamped else lane.clamped + 1 }).offerFrame (mate p)
        (withFcs (frame.take (frame.length - 4) ++ trailer.bytes)) f.detection t osc := by
  intro lane raw trailer
  have htrailer : lane.trailerFor s.auction f.detection d = trailer := Lane.trailerFor_eq lane s.auction f.detection d
  have hlane := Lane.dateWith_trailerFor lane (lane.classes.raise c f.detection.profile.defaultAction) s.auction f.detection d
  have hdated := State.endOrder_dated (s := s.sorted p .ordinary) (p := p) (t := t) (osc := osc) hclass hdating
  have hsame : (s.sorted p .ordinary).classedLane p f c = { lane with classes := lane.classes.raise c f.detection.profile.defaultAction } := rfl
  have hsameTrailer : ((s.sorted p .ordinary).lane (laneOf p)).trailerFor (s.sorted p .ordinary).auction f.detection d =
    lane.trailerFor s.auction f.detection d := rfl
  dsimp only at hdated hlane
  rw [hsame, hsameTrailer, hlane, htrailer] at hdated
  exact hdated

end

/-- Settles O25: the class names the counters and the dating; the trailer is laid out once. -/
theorem orderFrameIsDated : Obligations.OrderFrameIsDated := by
  refine ⟨?stamped, ?classes, fun a raw => ⟨rfl, fun g => ?phase⟩, fun x => ?trailer⟩
  case stamped =>
    intro s p f rest sub order i g hrunning hgateway hf hkind hoversize hmode hlookup frame lane raw hlong hshort hfcs hneeded hwaiting hroom
    have hclass : f.classification frame = some (.looked (.matched i .stamp g)) := Reception.classification_looked hkind hneeded hlookup
    have hcomplete : f.complete frame = true := Reception.complete_of_order hkind (.inr (by rw [hlookup]; rfl))
    have hrun := exec_frameEnd_stamped (sub := sub) (order := order) hrunning hgateway hf (.inr hkind) hoversize hmode hlong hshort hfcs
      hwaiting hcomplete
    have hdated := State.endOrder_dated (s := s.sorted p .ordinary) (p := p) (t := s.readingAt sub) (osc := s.oscAt sub)
      (d := { group := g, index := some i, keyAbsent := false }) hclass rfl
    have hmate : (s.sorted p .ordinary).port (mate p) = s.port (mate p) := State.port_withPort_other _ _ _ _ (mate_ne p)
    have hoffered (table : MatchTable) (x : Lane) := State.offerFrame_unrecorded (s := ((s.sorted p .ordinary).withTable table).withLane (laneOf p) x)
      (p := mate p) (bytes := datedFrame frame (lane.trailerFor s.auction f.detection { group := g, index := some i, keyAbsent := false }))
      (detection := f.detection) (t := s.readingAt sub) (osc := s.oscAt sub)
      (fillOf_datedFrame _ _ (by omega) (hmate ▸ hroom))
    refine ⟨_, lane.trailerFor s.auction f.detection { group := g, index := some i, keyAbsent := false },
      hrun.trans (congrArg Host.Outcome.next hdated), rfl, ?_, before_stampOver _ _, rfl, rfl, rfl, rfl, rfl, rfl, rfl, rfl, ?_, ?_, ?_, ?_⟩
    · rw [Lane.trailerFor_eq]
      exact decide_eq_true_iff
    · exact (hoffered _ _).1.trans (congrArg (fun x : PortState => x.fifo ++ _) hmate)
    · rw [State.offerFrame_lane, State.lane_withLane_self]
      rfl
    · rw [State.offerFrame_table]
      exact MatchTable.hit_slot s.table f.detection.bank i .stamp g
    · refine (hoffered _ _).2.trans ?_
      rw [State.offerFrame_lanes, State.offerFrame_table]
      rfl
  case classes =>
    intro s p f rest sub order hrunning hgateway hf hoversize hmode frame lane k bank raw needed hlong hshort hfcs hwaiting run ended hit
      offered passed dated
    have hrun (hkind : f.kind = some .other ∨ f.kind = some .order) (hcomplete : f.complete frame = true) :
        run = .next ((s.sorted p .ordinary).endOrder p f frame (s.readingAt sub) (s.oscAt sub)) :=
      exec_frameEnd_stamped hrunning hgateway hf hkind hoversize hmode hlong hshort hfcs hwaiting hcomplete
    have hpassed {c : Classification} (hclass : f.classification frame = some c) (hdating : c.dating f.detection.profile.defaultAction = none) :
        Host.Outcome.next ((s.sorted p .ordinary).endOrder p f frame (s.readingAt sub) (s.oscAt sub)) =
          passed (s.table.hit bank c) (k.raise c f.detection.profile.defaultAction) :=
      congrArg Host.Outcome.next (State.endOrder_passed (s := s.sorted p .ordinary) hclass hdating)
    have hdated {c : Classification} {d : Dating} (hclass : f.classification frame = some c)
        (hdating : c.dating f.detection.profile.defaultAction = some d) :
        Host.Outcome.next ((s.sorted p .ordinary).endOrder p f frame (s.readingAt sub) (s.oscAt sub)) =
          dated (s.table.hit bank c) (k.raise c f.detection.profile.defaultAction) d.group d.index d.keyAbsent :=
      congrArg Host.Outcome.next (State.endOrder_spelled hclass hdating)
    clear_value dated passed
    refine ⟨fun hkind => ?other, fun hkind habsent => ?absent, fun hkind hneeded => ?looked⟩
    case other =>
      exact (hrun (.inl hkind) (Reception.complete_of_kind hkind (by decide))).trans (hpassed (Reception.classification_other hkind) rfl)
    case absent =>
      exact (hrun (.inr hkind) (Reception.complete_of_order hkind (.inl habsent))).trans
        (hdated (d := { group := none, index := none, keyAbsent := true }) (Reception.classification_short hkind habsent) rfl)
    case looked =>
      have hlooked {found : Lookup} (h : f.lookup = some found) :
          run = .next ((s.sorted p .ordinary).endOrder p f frame (s.readingAt sub) (s.oscAt sub)) ∧
            f.classification frame = some (.looked found) :=
        ⟨hrun (.inr hkind) (Reception.complete_of_order hkind (.inr (by rw [h]; rfl))), Reception.classification_looked hkind hneeded h⟩
      refine ⟨fun i g h => ?_, fun i g h => ?_, fun i g h => ?_, fun h haction => ?_, fun h haction => ?_⟩
      · exact (hlooked h).1.trans (hdated (d := { group := g, index := some i, keyAbsent := false }) (hlooked h).2 rfl)
      · exact (hlooked h).1.trans (hdated (d := { group := none, index := some i, keyAbsent := false }) (hlooked h).2 rfl)
      · exact (hlooked h).1.trans (hpassed (hlooked h).2 rfl)
      · have hdatedNow := hdated (d := { group := none, index := none, keyAbsent := false }) (hlooked h).2 (by rw [haction]; rfl)
        rw [haction] at hdatedNow
        exact (hlooked h).1.trans hdatedNow
      · obtain ⟨hdating, hraise⟩ := Classification.defaulted_passed haction k
        have hpassedNow := hpassed (hlooked h).2 hdating
        rw [hraise] at hpassedNow
        exact (hlooked h).1.trans hpassedNow
  case phase =>
    exact ⟨GroupRecord.phase_idle, GroupRecord.phase_early, GroupRecord.phase_late, GroupRecord.phase_call⟩
  case trailer =>
    refine ⟨?_, x.bytes_length⟩
    refine congrArg (fun head => head ++ beBytes 2 (check head).toNat) (Trailer.head_eq ?_ ?_)
    · cases x.group <;> rfl
    · unfold Trailer.indexByte
      cases x.index <;> rfl

end Sys2Proof.Machine
end

