-- ==== Sys2Proof/Proofs/FrameStart.lean ====
section
/-! PROOF. The start of a frame: its detection record, and the markers that go before it. -/

namespace Sys2Proof.Machine

section

variable {s : State} {l : LaneId} {p : Port} {t : Instant} {order : Order}

theorem State.placeMarker_waiting (s : State) (l : LaneId) (r : MarkerRequest) : ((s.placeMarker l r).lane l).waiting = (s.lane l).waiting := by
  unfold State.placeMarker
  dsimp only
  split
  · rw [State.lane_withLane_self]
    rfl
  · split
    · rw [State.lane_withLane_self]
      rfl
    · rw [State.lane_withLane_self]
      rfl

theorem State.placeMarkers_waiting (rs : List MarkerRequest) (s : State) (l : LaneId) :
    ((s.placeMarkers l rs).lane l).waiting = (s.lane l).waiting := by
  induction rs generalizing s with
  | nil => rfl
  | cons r rs ih => exact (ih (s.placeMarker l r)).trans (s.placeMarker_waiting l r)

/-- The requests that a moment does not concern stay on the list (R143). -/
theorem State.placeWaiting_waiting (concerns : MarkerRequest → Bool) (order : Order) :
    ((s.placeWaiting l concerns order).lane l).waiting = (s.lane l).waiting.filter fun r => !concerns r := by
  refine (State.placeMarkers_waiting _ _ l).trans ?_
  rw [State.lane_withLane_self]

theorem not_decide_atOrAfter (a b : Instant) : (!decide (AtOrAfter a b)) = decide (Before a b) := by
  rw [← decide_not]
  exact decide_eq_decide.mpr not_not

theorem State.readingAt_eq (s : State) (sub : Sub) :
    s.readingAt sub =
      if 1000000000 ≤ s.time.ns + sub.val then { sec := (s.time.sec + 1) % 281474976710656, ns := s.time.ns + sub.val - 1000000000 }
      else { sec := s.time.sec, ns := s.time.ns + sub.val } := by
  unfold State.readingAt TimeBase.reading
  rfl

theorem State.canReceive_iff (s : State) (p : Port) :
    s.canReceive p = true ↔ s.phase = .running ∧ (s.port p).link = true ∧ (s.port p).reception = none := by
  rw [State.canReceive, Bool.and_eq_true, Bool.and_eq_true, State.running_iff, Option.isNone_iff_eq_none, and_assoc]

/-- A port has begun a reception (R64). -/
def State.begun (s : State) (p : Port) (t : Instant) : State :=
  s.withPort p { s.port p with reception := some (Reception.begin (s.detection p t)) }

theorem State.startFrame_gateway (h : p.val < 4) :
    s.startFrame p t order =
      (s.begun p t).placeWaiting (laneOf p) (fun r => decide (AtOrAfter (s.detection p t).compensated r.close)) order :=
  if_pos ((isGateway_iff p).mpr h)

theorem State.startFrame_engine (h : 4 ≤ p.val) : s.startFrame p t order = s.begun p t :=
  if_neg ((isGateway_iff p).not.mpr (Nat.not_lt.mpr h))

theorem execFrameStartDetected_starts {sub : Sub} (h : s.canReceive p = true) :
    execFrameStartDetected p sub order s = .next (s.startFrame p (s.readingAt sub) order) := congrArg Host.Outcome.next (if_pos h)

end

/-- Settles O21: the port can begin a reception or not; the lane's waiting requests are sorted by the compensated instant. -/
theorem frameStartIsDetected : Obligations.FrameStartIsDetected := by
  intro s p sub order hrunning
  refine ⟨s.readingAt_eq sub, fun hdown => ?down, fun hlink hidle => ?starts⟩
  case down =>
    have hcannot : ¬ s.canReceive p = true := fun h => Bool.false_ne_true (hdown.symm.trans ((s.canReceive_iff p).mp h).2.1)
    exact congrArg Host.Outcome.next (if_neg hcannot)
  case starts =>
    intro lane record begun compensated out
    have hrun : exec (.frameStartDetected p sub order) s = .next (s.startFrame p (s.readingAt sub) order) :=
      execFrameStartDetected_starts ((s.canReceive_iff p).mpr ⟨hrunning, hlink, hidle⟩)
    have hbegun : s.begun p (s.readingAt sub) = begun := rfl
    refine ⟨fun hengine => ?engine, fun hgateway => ?gateway, fun r hgateway hwaiting hafter hmode hroom => ?single⟩
    case engine => rw [hrun, State.startFrame_engine hengine, hbegun]
    case gateway =>
      rw [hrun, State.startFrame_gateway hgateway, hbegun]
      obtain ⟨lanes, ports, honly⟩ := begun.placeWaiting_only (laneOf p) (fun r => decide (AtOrAfter (s.detection p (s.readingAt sub)).compensated r.close)) order
      refine ⟨_, rfl, by rw [honly]; rfl, State.placeWaiting_port (gateway_ne_enginePort ((isGateway_iff p).mpr hgateway)), ?_⟩
      rw [State.placeWaiting_waiting]
      exact List.filter_congr fun r _ => not_decide_atOrAfter _ _
    case single =>
      have hlane : (begun.withWaiting (laneOf p) []).lane (laneOf p) = { lane with waiting := [] } := State.withWaiting_lane
      have hout : (begun.withWaiting (laneOf p) []).port (enginePort (laneOf p)) = out :=
        State.port_withPort_other _ _ _ _ (gateway_ne_enginePort ((isGateway_iff p).mpr hgateway))
      rw [hrun, State.startFrame_gateway hgateway, hbegun,
        State.placeWaiting_one (s := begun) (r := r) hwaiting (decide_eq_true hafter),
        State.placeMarker_placed (s := begun.withWaiting (laneOf p) []) (by rw [hlane]; exact hmode) (by rw [hout]; exact hroom), hlane, hout]
      exact congrArg (fun u : State => Host.Outcome.next (u.withPort (enginePort (laneOf p)) _)) (State.withWaiting_withLane_any _ _)

end Sys2Proof.Machine
end

