-- ==== Sys2Proof/Proofs/SecondStages.lean ====
section
/-! PROOF. The stages of a second event but the change of active reference: the minute, the growth of D, the judgement of both references, the pair of θ, the
clearing of the disagreement flag, the rest of the rate. Each lemma names what its stage changes. -/

namespace Sys2Proof.Machine

/-! ### The quality of a record (R51, R153) -/

theorem Dtu.handed_congr {a b : Dtu} {t : Instant} {p : Payload} (hstate : a.state = b.state)
    (hwarning : b.state = .traceable → a.warning = b.warning) : a.handed t p = b.handed t p := by
  have hquality : a.quality = b.quality := by
    unfold Dtu.quality
    rw [hstate]
    cases hb : b.state with
    | traceable => rw [hwarning hb]
    | _ => rfl
  rw [Dtu.handed, Dtu.handed, hstate, hquality]

section

variable {e : DtuEffect} {t : Instant}

/-! ### Stage 1: the minute (R59) -/

theorem DtuEffect.summarise_newMinute (h : t.sec / 60 ≠ e.dtu.lastSecond / 60) :
    e.summarise t = { e with
      dtu := { e.dtu with lastSecond := t.sec, minute := Minute.start e.dtu.bound }
      out := e.out ++ [e.dtu.handed t (.minuteSummary e.dtu.minute e.dtu.state e.dtu.active)] } := if_pos h

theorem DtuEffect.summarise_sameMinute (h : t.sec / 60 = e.dtu.lastSecond / 60) :
    e.summarise t = { e with dtu := { e.dtu with lastSecond := t.sec } } := if_neg (not_not.mpr h)

/-! ### Stage 2: the growth of D (R46, R48, R49) -/

/-- D after one more growth (R46, R49). -/
def Dtu.grownBound (d : Dtu) : Nat := min (d.entryBound + d.settings.growth * (d.growths + 1)) 4294967295

/-- D grows above L in HOLDOVER (R46). -/
def Dtu.Exceeds (d : Dtu) : Prop := d.state = .holdover ∧ d.settings.limit < d.grownBound

/-- What growth changes of a DTU, in each discipline state (R46, R48, R49). -/
structure Dtu.Grown (d u : Dtu) : Prop where
  only : u = { d with
    state := u.state, bound := u.bound, warning := u.warning, qualifying := u.qualifying, entryBound := u.entryBound, growths := u.growths
    minute := { d.minute with largestD := u.minute.largestD } }
  largest : u.minute.largestD = max d.minute.largestD u.bound ∨ (u.minute.largestD = d.minute.largestD ∧ u.bound = d.bound)
  holdover : d.state = .holdover → u.bound = d.grownBound ∧
    (¬ d.Exceeds → u.state = .holdover ∧ u.entryBound = d.entryBound ∧ u.growths = d.growths + 1 ∧
      u.warning = (if d.settings.warn < d.grownBound then true
        else if d.grownBound ≤ d.settings.warn - d.settings.warn / 8 then false else d.warning)) ∧
    (d.Exceeds → u.state = .untraceable ∧ u.warning = false ∧
      u.entryBound = (if d.active = none then d.grownBound else d.entryBound) ∧ u.growths = (if d.active = none then 0 else d.growths + 1))
  untraceable : d.state = .untraceable → u.state = .untraceable ∧ u.warning = d.warning ∧
    u.bound = (if d.active = none then d.grownBound else d.bound) ∧ u.entryBound = d.entryBound ∧
    u.growths = (if d.active = none then d.growths + 1 else d.growths)
  still : d.state ≠ .holdover → d.state ≠ .untraceable → u = d
  qualifying : (d.Exceeds → u.qualifying = 0) ∧ (¬ d.Exceeds → u.qualifying = d.qualifying)

theorem Dtu.Grown.refl {d : Dtu} (hholdover : d.state ≠ .holdover) (hactive : d.state = .untraceable → d.active ≠ none) : d.Grown d := by
  refine ⟨rfl, .inr ⟨rfl, rfl⟩, fun h => absurd h hholdover, fun h => ?_, fun _ _ => rfl, fun h => absurd h.1 hholdover, fun _ => rfl⟩
  rw [if_neg (hactive h), if_neg (hactive h)]
  exact ⟨h, rfl, rfl, rfl, rfl⟩

theorem Dtu.grown_grow {d : Dtu} (hstate : d.state = .untraceable) (hactive : d.active = none) : d.Grown d.grow := by
  have hholdover : d.state ≠ .holdover := by rw [hstate]; decide
  refine ⟨rfl, .inl rfl, fun h => absurd h hholdover, fun _ => ?_, fun _ h => absurd hstate h, fun h => absurd h.1 hholdover, fun _ => rfl⟩
  rw [if_pos hactive, if_pos hactive]
  exact ⟨hstate, rfl, rfl, rfl, rfl⟩

theorem Dtu.grown_held {d : Dtu} (hstate : d.state = .holdover) (hwithin : ¬ d.Exceeds) : d.Grown d.grow.evaluateWarning := by
  have huntraceable : d.state ≠ .untraceable := by rw [hstate]; decide
  exact ⟨rfl, .inl rfl, fun _ => ⟨rfl, fun _ => ⟨hstate, rfl, rfl, rfl⟩, fun h => absurd h hwithin⟩, fun h => absurd h huntraceable,
    fun h => absurd hstate h, fun h => absurd h hwithin, fun _ => rfl⟩

theorem Dtu.grown_left {d : Dtu} (hstate : d.state = .holdover) (hexceeds : d.Exceeds) : d.Grown d.grow.evaluateWarning.enterUntraceable := by
  have huntraceable : d.state ≠ .untraceable := by rw [hstate]; decide
  exact ⟨rfl, .inl rfl, fun _ => ⟨rfl, fun h => absurd hexceeds h, fun _ => ⟨rfl, rfl, rfl, rfl⟩⟩, fun h => absurd h huntraceable,
    fun h => absurd hstate h, fun _ => rfl, fun h => absurd hexceeds h⟩

/-- The record of the growth, where D then exceeds L (R50). -/
def Dtu.GrowthRecord (d u : Dtu) (t : Instant) (out : List Handed) : Prop :=
  (d.Exceeds → out = [u.handed t (.stateChange .holdover .untraceable .holdoverLimit d.grownBound d.active)]) ∧ (¬ d.Exceeds → out = [])

theorem DtuEffect.growBound_grown (e : DtuEffect) (t : Instant) :
    ∃ u out, e.growBound t = { e with dtu := u, out := e.out ++ out } ∧ e.dtu.Grown u ∧ e.dtu.GrowthRecord u t out := by
  have hquiet {u : Dtu} (h : ¬ e.dtu.Exceeds) : e.dtu.GrowthRecord u t [] := ⟨fun hexceeds => absurd hexceeds h, fun _ => rfl⟩
  have hsame : e = { e with dtu := e.dtu, out := e.out ++ [] } := by rw [List.append_nil]
  have hother (hstate : e.dtu.state ≠ .holdover) (hactive : e.dtu.state = .untraceable → e.dtu.active ≠ none)
      (hstill : e.growBound t = e) : ∃ u out, e.growBound t = { e with dtu := u, out := e.out ++ out } ∧ e.dtu.Grown u ∧ e.dtu.GrowthRecord u t out :=
    ⟨e.dtu, [], hstill.trans hsame, .refl hstate hactive, hquiet fun h => hstate h.1⟩
  cases hstate : e.dtu.state with
  | free => exact hother (by rw [hstate]; decide) (fun h => nomatch hstate.symm.trans h) (DtuEffect.growBound_still t (.inl hstate))
  | acquiring => exact hother (by rw [hstate]; decide) (fun h => nomatch hstate.symm.trans h) (DtuEffect.growBound_still t (.inr (.inl hstate)))
  | traceable =>
    exact hother (by rw [hstate]; decide) (fun h => nomatch hstate.symm.trans h) (DtuEffect.growBound_still t (.inr (.inr (.inl hstate))))
  | untraceable =>
    by_cases hactive : e.dtu.active = none
    · refine ⟨e.dtu.grow, [], ?_, Dtu.grown_grow hstate hactive, hquiet fun h => nomatch hstate.symm.trans h.1⟩
      rw [DtuEffect.growBound_untraceable t hstate hactive, List.append_nil]
      rfl
    · exact hother (by rw [hstate]; decide) (fun _ => hactive) (DtuEffect.growBound_still t (.inr (.inr (.inr ⟨hstate, hactive⟩))))
  | holdover =>
    by_cases hexceeds : e.dtu.settings.limit < e.dtu.grownBound
    · refine ⟨e.dtu.grow.evaluateWarning.enterUntraceable, _, DtuEffect.growBound_exceeds t hstate hexceeds,
        Dtu.grown_left hstate ⟨hstate, hexceeds⟩, fun _ => rfl, fun h => absurd ⟨hstate, hexceeds⟩ h⟩
    · have hwithin : ¬ e.dtu.Exceeds := fun h => hexceeds h.2
      refine ⟨e.dtu.grow.evaluateWarning, [], ?_, Dtu.grown_held hstate hwithin, hquiet hwithin⟩
      rw [DtuEffect.growBound_grows t hstate (Nat.not_lt.mp hexceeds), List.append_nil]
      rfl

/-! ### Stages 3 and 4: both references, and the pair of θ (R52, R53) -/

/-- A reference passes the three tests of a second event, its ages having risen (R52). -/
def RefJudgement.Qualifies (r : RefJudgement) (m : Nat) : Prop :=
  (∃ n, r.edgeAge = some n ∧ min (n + 1) 255 ≤ m) ∧ r.source = some .locked ∧ ∀ n, r.jumpAge = some n → m < min (n + 1) 255

theorem RefJudgement.passes_iff (r : RefJudgement) (m : Nat) :
    ({ r with edgeAge := ageOneSecond r.edgeAge, jumpAge := ageOneSecond r.jumpAge } : RefJudgement).passes m = true ↔ r.Qualifies m := by
  have hedge : (match ageOneSecond r.edgeAge with | some n => decide (n ≤ m) | none => false) = true ↔
      ∃ n, r.edgeAge = some n ∧ min (n + 1) 255 ≤ m := by
    unfold ageOneSecond
    cases r.edgeAge <;> simp
  have hjump : (match ageOneSecond r.jumpAge with | some n => decide (m < n) | none => true) = true ↔
      ∀ n, r.jumpAge = some n → m < min (n + 1) 255 := by
    unfold ageOneSecond
    cases r.jumpAge <;> simp
  unfold RefJudgement.passes
  rw [Bool.and_eq_true, Bool.and_eq_true, and_assoc]
  exact and_congr hedge (and_congr beq_iff_eq hjump)

/-- A reference after a second event: judged, its θ no longer new (R52, R53). -/
def RefJudgement.taken (r : RefJudgement) (m : Nat) : RefJudgement := { r.judge m with fresh := false }

theorem RefJudgement.judge_run (r : RefJudgement) (m : Nat) :
    (r.Qualifies m → (r.judge m).run = r.run + 1) ∧ (¬ r.Qualifies m → (r.judge m).run = 0) := by
  rw [← r.passes_iff m]
  exact ⟨fun h => if_pos h, fun h => if_neg h⟩

theorem RefJudgement.qualified_iff (r : RefJudgement) : r.qualified = true ↔ r.run ≠ 0 := bne_iff_ne

/-- The counts of agreement and the flag after a second event (R53). -/
structure Dtu.PairTaken (d : Dtu) (x y : Nat) (flag : Bool) : Prop where
  paired : ∀ a b, d.pair = some (a, b) →
    x = (if d.settings.crossLimit < (a - b).natAbs then d.disagreeing + 1 else 0) ∧
    y = (if d.settings.crossLimit < (a - b).natAbs then 0 else d.agreeing + 1) ∧
    flag = (if d.disagreement then !decide (d.settings.qualify ≤ y) else decide (d.settings.persistence ≤ x))
  unpaired : d.pair = none → x = d.disagreeing ∧ y = d.agreeing ∧ flag = d.disagreement

/-- The DTU with its counts of agreement, its flag, and both θ no longer new (R53). -/
def Dtu.crossed (d : Dtu) (x y : Nat) (flag : Bool) : Dtu :=
  { d with
    refA := { d.refA with fresh := false }, refB := { d.refB with fresh := false }
    disagreeing := x, agreeing := y, disagreement := flag }

/-- The record of a flag set or cleared on the counts (R53). -/
def Dtu.pairRecord (d : Dtu) (t : Instant) (flag : Bool) : List Handed :=
  if flag = d.disagreement then [] else [d.handed t (.referenceDisagree flag false d.refA.theta d.refB.theta)]

theorem Dtu.countPair_eq (d : Dtu) (a b : Int) :
    d.countPair a b = { d with
      disagreeing := if d.settings.crossLimit < (a - b).natAbs then d.disagreeing + 1 else 0
      agreeing := if d.settings.crossLimit < (a - b).natAbs then 0 else d.agreeing + 1 } := by
  unfold Dtu.countPair
  split <;> rfl

theorem DtuEffect.crossCheck_unpaired (h : e.dtu.pair = none) :
    e.crossCheck t = { e with dtu := e.dtu.crossed e.dtu.disagreeing e.dtu.agreeing e.dtu.disagreement } := by
  unfold DtuEffect.crossCheck
  rw [h]
  rfl

theorem DtuEffect.crossCheck_paired {a b : Int} {x y : Nat} (h : e.dtu.pair = some (a, b))
    (hcounted : e.dtu.countPair a b = { e.dtu with disagreeing := x, agreeing := y }) :
    e.crossCheck t =
      (if !e.dtu.disagreement && decide (e.dtu.settings.persistence ≤ x) then
          ({ e with dtu := { e.dtu with disagreeing := x, agreeing := y } } : DtuEffect).setDisagreement t true false
        else if e.dtu.disagreement && decide (e.dtu.settings.qualify ≤ y) then
          ({ e with dtu := { e.dtu with disagreeing := x, agreeing := y } } : DtuEffect).setDisagreement t false false
        else { e with dtu := { e.dtu with disagreeing := x, agreeing := y } }).change
        fun d => { d with refA := { d.refA with fresh := false }, refB := { d.refB with fresh := false } } := by
  unfold DtuEffect.crossCheck DtuEffect.change
  rw [h]
  dsimp only
  rw [hcounted]
  rfl

/-- The flag after a pair of θ is counted, by the counts `x` and `y` then reached (R53). -/
def Dtu.flagOn (d : Dtu) (x y : Nat) : Bool :=
  if d.disagreement then !decide (d.settings.qualify ≤ y) else decide (d.settings.persistence ≤ x)

theorem DtuEffect.crossCheck_counted {a b : Int} {x y : Nat} (h : e.dtu.pair = some (a, b))
    (hcounted : e.dtu.countPair a b = { e.dtu with disagreeing := x, agreeing := y }) :
    e.crossCheck t = { e with dtu := e.dtu.crossed x y (e.dtu.flagOn x y), out := e.out ++ e.dtu.pairRecord t (e.dtu.flagOn x y) } := by
  have hkept (hsame : e.dtu.flagOn x y = e.dtu.disagreement) :
      ({ e with dtu := { e.dtu with disagreeing := x, agreeing := y } } : DtuEffect).change
          (fun d => { d with refA := { d.refA with fresh := false }, refB := { d.refB with fresh := false } }) =
        { e with dtu := e.dtu.crossed x y (e.dtu.flagOn x y), out := e.out ++ e.dtu.pairRecord t (e.dtu.flagOn x y) } := by
    rw [Dtu.pairRecord, if_pos hsame, List.append_nil, hsame]
    rfl
  have hturned (flag : Bool) (hflag : e.dtu.flagOn x y = flag) (hne : flag ≠ e.dtu.disagreement) :
      (({ e with dtu := { e.dtu with disagreeing := x, agreeing := y } } : DtuEffect).setDisagreement t flag false).change
          (fun d => { d with refA := { d.refA with fresh := false }, refB := { d.refB with fresh := false } }) =
        { e with dtu := e.dtu.crossed x y (e.dtu.flagOn x y), out := e.out ++ e.dtu.pairRecord t (e.dtu.flagOn x y) } := by
    rw [hflag, Dtu.pairRecord, if_neg hne]
    rfl
  rw [DtuEffect.crossCheck_paired h hcounted]
  cases hflagged : e.dtu.disagreement with
  | false =>
    have hflag : e.dtu.flagOn x y = decide (e.dtu.settings.persistence ≤ x) := by rw [Dtu.flagOn, hflagged]; rfl
    by_cases hsets : e.dtu.settings.persistence ≤ x
    · rw [decide_eq_true hsets] at hflag ⊢
      exact hturned true hflag (by rw [hflagged]; decide)
    · rw [decide_eq_false hsets] at hflag ⊢
      exact hkept (hflag.trans hflagged.symm)
  | true =>
    have hflag : e.dtu.flagOn x y = !decide (e.dtu.settings.qualify ≤ y) := by rw [Dtu.flagOn, hflagged]; rfl
    by_cases hclears : e.dtu.settings.qualify ≤ y
    · rw [decide_eq_true hclears] at hflag ⊢
      exact hturned false hflag (by rw [hflagged]; decide)
    · rw [decide_eq_false hclears] at hflag ⊢
      exact hkept (hflag.trans hflagged.symm)

theorem DtuEffect.crossCheck_crossed (e : DtuEffect) (t : Instant) :
    ∃ x y flag, e.crossCheck t = { e with dtu := e.dtu.crossed x y flag, out := e.out ++ e.dtu.pairRecord t flag } ∧ e.dtu.PairTaken x y flag := by
  have hkept : e.dtu.pairRecord t e.dtu.disagreement = [] := if_pos rfl
  cases hpair : e.dtu.pair with
  | none =>
    refine ⟨_, _, _, (DtuEffect.crossCheck_unpaired hpair).trans ?_, ⟨fun a b h => (nomatch hpair.symm.trans h), fun _ => ⟨rfl, rfl, rfl⟩⟩⟩
    rw [hkept, List.append_nil]
  | some ab =>
    obtain ⟨a, b⟩ := ab
    refine ⟨_, _, _, DtuEffect.crossCheck_counted hpair (e.dtu.countPair_eq a b), ⟨fun a' b' h => ?_, fun h => (nomatch hpair.symm.trans h)⟩⟩
    cases hpair.symm.trans h
    exact ⟨rfl, rfl, rfl⟩

/-! ### Stage 7: the flag where a reference is disqualified (R53) -/

theorem DtuEffect.clearDisagreement_both (hA : e.dtu.refA.run ≠ 0) (hB : e.dtu.refB.run ≠ 0) : e.clearDisagreement t = e :=
  if_pos (Bool.and_eq_true_iff.mpr ⟨(RefJudgement.qualified_iff _).mpr hA, (RefJudgement.qualified_iff _).mpr hB⟩)

/-- The record of a flag cleared by a disqualification (R53). -/
def Dtu.clearRecord (d : Dtu) (t : Instant) : List Handed :=
  if d.disagreement = true then [d.handed t (.referenceDisagree false true d.refA.theta d.refB.theta)] else []

theorem DtuEffect.clearDisagreement_either (h : ¬ e.dtu.refA.run ≠ 0 ∨ ¬ e.dtu.refB.run ≠ 0) :
    e.clearDisagreement t = { e with
      dtu := { e.dtu with disagreement := false, disagreeing := 0, agreeing := 0 }, out := e.out ++ e.dtu.clearRecord t } := by
  have hnot : ¬ (e.dtu.refA.qualified && e.dtu.refB.qualified) = true := by
    rw [Bool.and_eq_true, RefJudgement.qualified_iff, RefJudgement.qualified_iff]
    exact fun hboth => h.elim (fun hA => hA hboth.1) fun hB => hB hboth.2
  refine (if_neg hnot).trans ?_
  unfold Dtu.clearRecord
  by_cases hflag : e.dtu.disagreement = true
  · rw [if_pos hflag, if_pos hflag]
    rfl
  · rw [if_neg hflag, if_neg hflag, List.append_nil, ← Bool.eq_false_iff.mpr hflag]
    rfl

/-! ### Stage 8: the rest of the rate (R41) -/

theorem DtuEffect.restRate_rests (h : 1 ≤ e.dtu.sinceApplied) :
    e.restRate = { e with
      dtu := { e.dtu with sinceApplied := min (e.dtu.sinceApplied + 1) 2, proportional := 0 }
      rate := if e.dtu.proportional = 0 then e.rate else some (clampTo rateLimit e.dtu.integral) } := by
  have hsince : min (e.dtu.sinceApplied + 1) 2 = 2 := Nat.min_eq_right (Nat.succ_le_succ h)
  by_cases hzero : e.dtu.proportional = 0
  · refine (if_neg fun hboth => hboth.2 hzero).trans ?_
    rw [if_pos hzero, ← hzero]
    rfl
  · refine (if_pos ⟨hsince, hzero⟩).trans ?_
    rw [if_neg hzero]
    rfl

theorem DtuEffect.restRate_counts (h : e.dtu.sinceApplied = 0) :
    e.restRate = { e with dtu := { e.dtu with sinceApplied := min (e.dtu.sinceApplied + 1) 2 } } := by
  have hsince : ¬ min (e.dtu.sinceApplied + 1) 2 = 2 := by rw [h]; decide
  exact if_neg fun hboth => hsince hboth.1

end

end Sys2Proof.Machine
end

