-- ==== Sys2Proof/Proofs/Reselection.lean ====
section
/-! PROOF. The change of active reference at a second event: failover, revert, loss and selection, each with what it leaves of the DTU and the records it hands. -/

namespace Sys2Proof.Machine

/-! ### Which reference becomes active (R54, R55, R56) -/

/-- A reference is qualified (R52). -/
abbrev Dtu.Fit (d : Dtu) (ch : Channel) : Prop := (d.ref ch).run ≠ 0

/-- The active reference is lost: disqualified, with no other to take its place (R54). -/
def Dtu.Lost (d : Dtu) : Prop := ∃ ch, d.active = some ch ∧ ¬ d.Fit ch ∧ (¬ d.Fit (otherRef ch) ∨ d.disagreement = true)

/-- The active reference after a second event (R54, R55, R56). -/
def Dtu.chosen (d : Dtu) : Option Channel :=
  match d.active with
  | some ch =>
    if d.Fit ch then
      if ch ≠ d.preferred ∧ d.settings.revertDelay ≤ (d.ref d.preferred).run ∧ d.disagreement = false then some d.preferred else some ch
    else if d.Fit (otherRef ch) ∧ d.disagreement = false then some (otherRef ch)
    else none
  | none =>
    if d.disagreement = true then none
    else if d.Fit d.preferred then some d.preferred
    else if d.Fit (otherRef d.preferred) then some (otherRef d.preferred)
    else none

section

variable {d : Dtu} {ch : Channel}

theorem Dtu.selection_eq (d : Dtu) :
    d.selection =
      if d.disagreement = true then none
      else if d.Fit d.preferred then some d.preferred
      else if d.Fit (otherRef d.preferred) then some (otherRef d.preferred)
      else none :=
  if_congr Iff.rfl rfl (if_congr (RefJudgement.qualified_iff _) rfl (if_congr (RefJudgement.qualified_iff _) rfl rfl))

theorem Dtu.chosen_idle (h : d.active = none) : d.chosen = d.selection := by
  unfold Dtu.chosen
  rw [h, Dtu.selection_eq]

theorem Dtu.chosen_active (h : d.active = some ch) :
    d.chosen =
      if d.Fit ch then
        if ch ≠ d.preferred ∧ d.settings.revertDelay ≤ (d.ref d.preferred).run ∧ d.disagreement = false then some d.preferred else some ch
      else if d.Fit (otherRef ch) ∧ d.disagreement = false then some (otherRef ch)
      else none := by
  unfold Dtu.chosen
  rw [h]

theorem Dtu.lost_iff (h : d.active = some ch) : d.Lost ↔ ¬ d.Fit ch ∧ (¬ d.Fit (otherRef ch) ∨ d.disagreement = true) := by
  constructor
  · rintro ⟨other, hactive, hlost⟩
    cases h.symm.trans hactive
    exact hlost
  · exact fun hlost => ⟨ch, h, hlost⟩

theorem Dtu.not_lost_idle (h : d.active = none) : ¬ d.Lost := fun ⟨_, hactive, _⟩ => nomatch h.symm.trans hactive

/-- Nothing can be selected where the active reference is lost. -/
theorem Dtu.selection_lost (h : d.Lost) : d.selection = none := by
  obtain ⟨ch, _, hunfit, hother⟩ := h
  rw [Dtu.selection_eq]
  by_cases hflag : d.disagreement = true
  · exact if_pos hflag
  · have hnone : ¬ d.Fit (otherRef ch) := hother.resolve_right hflag
    have hboth : ¬ d.Fit d.preferred ∧ ¬ d.Fit (otherRef d.preferred) := by
      cases hpreferred : d.preferred <;> cases ch
      · exact ⟨hunfit, hnone⟩
      · exact ⟨hnone, hunfit⟩
      · exact ⟨hnone, hunfit⟩
      · exact ⟨hunfit, hnone⟩
    rw [if_neg hflag, if_neg hboth.1, if_neg hboth.2]

end

/-! ### What the change leaves of the DTU -/

/-- What failover, revert, loss and selection change of a DTU (R45 to R49, R54 to R56). -/
structure Dtu.Reselected (d u : Dtu) : Prop where
  only : u = { d with
    state := u.state, warning := u.warning, active := u.active, qualifying := u.qualifying, persistent := u.persistent
    entryBound := u.entryBound, growths := u.growths, proportional := u.proportional }
  active : u.active = d.chosen
  kept : ¬ d.Lost → u.state = d.state ∧ u.warning = d.warning ∧ u.entryBound = d.entryBound ∧ u.growths = d.growths ∧
    u.proportional = d.proportional
  lostTraceable : d.Lost → d.state = .traceable → u.state = (if d.settings.limit < d.bound then .untraceable else .holdover) ∧
    u.warning = (if d.settings.limit < d.bound then false else d.warning) ∧ u.entryBound = d.bound ∧ u.growths = 0
  lostElse : d.Lost → d.state ≠ .traceable → u.state = d.state ∧ u.warning = d.warning ∧
    u.entryBound = (if d.state = .untraceable then d.bound else d.entryBound) ∧
    u.growths = (if d.state = .untraceable then 0 else d.growths)
  rests : d.Lost → u.proportional = 0
  persistent : u.persistent = if u.active = d.active then d.persistent else 0
  qualifying : u.qualifying =
    if u.active = d.active then d.qualifying
    else if d.state = .traceable ∧ d.active ≠ none ∧ u.active ≠ none then d.qualifying
    else if (d.state = .free ∨ d.state = .acquiring) ∧ u.active = none then d.qualifying
    else 0

/-- The records of the change, each with the quality after it (R50, R57). -/
def Dtu.switchRecords (d u : Dtu) (t : Instant) (order : Order) : List Handed :=
  let switched (cause : SwitchCause) : Handed := u.handed t (.referenceSwitch d.active u.active cause)
  let ended : Handed := u.handed t (.stateChange .traceable u.state .referenceLost d.bound none)
  match d.active with
  | none => if u.active = none then [] else [switched .selection]
  | some ch =>
    if u.active = some ch then []
    else if d.Fit ch then [switched .revert]
    else if u.active ≠ none then [switched .failover]
    else if d.state ≠ .traceable then [switched .loss]
    else if order.headD 0 % 2 = 0 then [switched .holdover, ended]
    else [ended, switched .holdover]

/-- The change of active reference, stages 5 and 6 (R54 to R57). -/
def DtuEffect.reselect (e : DtuEffect) (t : Instant) (order : Order) : DtuEffect := (e.failover t order).select t

/-- What the change makes of an effect: its DTU, its records, and the rate where the reference is lost. -/
structure DtuEffect.Reselects (e e' : DtuEffect) (t : Instant) (order : Order) : Prop where
  dtu : e.dtu.Reselected e'.dtu
  out : e'.out = e.out ++ e.dtu.switchRecords e'.dtu t order
  step : e'.step = e.step
  rate : (e.dtu.Lost → e'.rate = some (clampTo rateLimit e.dtu.integral)) ∧ (¬ e.dtu.Lost → e'.rate = e.rate)

section

variable {e : DtuEffect} {t : Instant} {order : Order} {ch : Channel}

/-! ### The active reference stays -/

theorem DtuEffect.reselects_stays (hchosen : e.dtu.chosen = e.dtu.active) (hlost : ¬ e.dtu.Lost) : e.Reselects e t order := by
  refine ⟨⟨rfl, hchosen.symm, fun _ => ⟨rfl, rfl, rfl, rfl, rfl⟩, fun h => absurd h hlost, fun h => absurd h hlost, fun h => absurd h hlost,
    (if_pos rfl).symm, (if_pos rfl).symm⟩, ?_, rfl, fun h => absurd h hlost, fun _ => rfl⟩
  have hnone : e.dtu.switchRecords e.dtu t order = [] := by
    unfold Dtu.switchRecords
    cases e.dtu.active with
    | none => exact if_pos rfl
    | some ch => exact if_pos rfl
  rw [hnone, List.append_nil]

/-! ### Another reference becomes active (R54, R55, R56) -/

theorem DtuEffect.reselects_switchTo {new : Channel} {cause : SwitchCause} (hchosen : e.dtu.chosen = some new) (hnew : e.dtu.active ≠ some new)
    (hlost : ¬ e.dtu.Lost)
    (hrecord : e.dtu.switchRecords (e.switchTo t (some new) cause).dtu t order =
      [(e.switchTo t (some new) cause).dtu.handed t (.referenceSwitch e.dtu.active (some new) cause)]) :
    e.Reselects (e.switchTo t (some new) cause) t order := by
  have hne : ¬ (some new = e.dtu.active) := fun h => hnew h.symm
  refine ⟨⟨rfl, hchosen.symm, fun _ => ⟨rfl, rfl, rfl, rfl, rfl⟩, fun h => absurd h hlost, fun h => absurd h hlost, fun h => absurd h hlost,
    (if_neg hne).symm, ?_⟩, by rw [hrecord]; rfl, rfl, fun h => absurd h hlost, fun _ => rfl⟩
  refine Eq.trans ?_ (if_neg hne).symm
  have hsome : (e.switchTo t (some new) cause).dtu.active ≠ none := Option.some_ne_none new
  by_cases hkeeps : e.dtu.state = .traceable ∧ e.dtu.active ≠ none
  · exact (if_pos hkeeps).trans (if_pos ⟨hkeeps.1, hkeeps.2, hsome⟩).symm
  · refine (if_neg hkeeps).trans ((if_neg fun h => hkeeps ⟨h.1, h.2.1⟩).trans ?_).symm
    exact if_neg fun h => hsome h.2

theorem DtuEffect.switchRecords_selection {new : Channel} (hactive : e.dtu.active = none) :
    e.dtu.switchRecords (e.switchTo t (some new) .selection).dtu t order =
      [(e.switchTo t (some new) .selection).dtu.handed t (.referenceSwitch e.dtu.active (some new) .selection)] := by
  unfold Dtu.switchRecords
  rw [hactive]
  rfl

theorem DtuEffect.switchRecords_revert {new : Channel} (hactive : e.dtu.active = some ch) (hnew : ch ≠ new) (hfit : e.dtu.Fit ch) :
    e.dtu.switchRecords (e.switchTo t (some new) .revert).dtu t order =
      [(e.switchTo t (some new) .revert).dtu.handed t (.referenceSwitch e.dtu.active (some new) .revert)] := by
  unfold Dtu.switchRecords
  rw [hactive]
  exact (if_neg fun h => hnew (Option.some.inj h).symm).trans (if_pos hfit)

theorem otherRef_ne (ch : Channel) : ch ≠ otherRef ch := by cases ch <;> decide

theorem DtuEffect.switchRecords_failover (hactive : e.dtu.active = some ch) (hunfit : ¬ e.dtu.Fit ch) :
    e.dtu.switchRecords (e.switchTo t (some (otherRef ch)) .failover).dtu t order =
      [(e.switchTo t (some (otherRef ch)) .failover).dtu.handed t (.referenceSwitch e.dtu.active (some (otherRef ch)) .failover)] := by
  unfold Dtu.switchRecords
  rw [hactive]
  refine (if_neg fun h => otherRef_ne ch (Option.some.inj h).symm).trans ((if_neg hunfit).trans (if_pos ?_))
  exact Option.some_ne_none _

/-! ### The active reference is lost (R46, R47, R49, R54) -/

theorem Dtu.chosen_lost {d : Dtu} (h : d.Lost) : d.chosen = none := by
  obtain ⟨ch, hactive, hunfit, hother⟩ := h
  rw [Dtu.chosen_active hactive, if_neg hunfit]
  exact if_neg fun hboth => hother.elim (fun h => h hboth.1) fun hflag => Bool.false_ne_true (hboth.2.symm.trans hflag)

theorem inOrder_two {α : Type} (order : Order) (x y : α) : inOrder order [x, y] = if order.headD 0 % 2 = 0 then [x, y] else [y, x] := by
  have hone (order : Order) (z : α) : pickInOrder 1 order [z] = [z] := by
    rw [pickInOrder, List.length_singleton, Nat.mod_one]
    rfl
  have htwo : inOrder order [x, y] = match [x, y][order.headD 0 % 2]? with
      | some z => z :: pickInOrder 1 order.tail ([x, y].eraseIdx (order.headD 0 % 2))
      | none => [x, y] := rfl
  rw [htwo]
  obtain heven | hodd := Nat.mod_two_eq_zero_or_one (order.headD 0)
  · rw [heven]
    exact congrArg (x :: ·) (hone _ y)
  · rw [hodd]
    exact congrArg (y :: ·) (hone _ x)

theorem DtuEffect.reselects_loseTraceable (hlost : e.dtu.Lost) (hstate : e.dtu.state = .traceable) :
    e.Reselects (e.loseTraceable t order) t order := by
  have hchosen := Dtu.chosen_lost hlost
  have hlost' := hlost
  obtain ⟨ch, hactive, hunfit, _⟩ := hlost'
  have hne : ¬ (none = e.dtu.active) := by rw [hactive]; exact fun h => nomatch h
  have hrecords : e.dtu.switchRecords (e.loseTraceable t order).dtu t order =
      inOrder order
        [(e.loseTraceable t order).dtu.handed t (.referenceSwitch e.dtu.active none .holdover),
          (e.loseTraceable t order).dtu.handed t
            (.stateChange .traceable (e.loseTraceable t order).dtu.state .referenceLost e.dtu.bound none)] := by
    rw [inOrder_two]
    unfold Dtu.switchRecords
    rw [hactive]
    exact (if_neg fun h => nomatch h).trans ((if_neg hunfit).trans ((if_neg fun h => h rfl).trans (if_neg fun h => h hstate)))
  refine ⟨⟨rfl, hchosen.symm, fun h => absurd hlost h, fun _ _ => ⟨rfl, rfl, rfl, rfl⟩, fun _ h => absurd hstate h, fun _ => rfl,
    (if_neg hne).symm, ?_⟩, by rw [hrecords]; rfl, rfl, fun _ => rfl, fun h => absurd hlost h⟩
  refine ((if_neg hne).trans ((if_neg fun h => h.2.2 rfl).trans (if_neg fun h => ?_))).symm
  rw [hstate] at h
  exact h.1.elim (fun h => nomatch h) fun h => nomatch h

theorem DtuEffect.reselects_loseActive (hlost : e.dtu.Lost) (hstate : e.dtu.state ≠ .traceable) : e.Reselects (e.loseActive t) t order := by
  have hchosen := Dtu.chosen_lost hlost
  have hlost' := hlost
  obtain ⟨ch, hactive, hunfit, _⟩ := hlost'
  have hne : ¬ (none = e.dtu.active) := by rw [hactive]; exact fun h => nomatch h
  have hrecords : e.dtu.switchRecords (e.loseActive t).dtu t order =
      [(e.loseActive t).dtu.handed t (.referenceSwitch e.dtu.active none .loss)] := by
    unfold Dtu.switchRecords
    rw [hactive]
    exact (if_neg fun h => nomatch h).trans ((if_neg hunfit).trans ((if_neg fun h => h rfl).trans (if_pos hstate)))
  refine ⟨⟨rfl, hchosen.symm, fun h => absurd hlost h, fun _ h => absurd h hstate, fun _ _ => ⟨rfl, rfl, rfl, rfl⟩, fun _ => rfl,
    (if_neg hne).symm, ?_⟩, by rw [hrecords]; rfl, rfl, fun _ => rfl, fun h => absurd hlost h⟩
  refine Eq.trans ?_ ((if_neg hne).trans (if_neg fun h => h.2.2 rfl)).symm
  show (if e.dtu.state = .holdover ∨ e.dtu.state = .untraceable then 0 else e.dtu.qualifying) =
    if (e.dtu.state = .free ∨ e.dtu.state = .acquiring) ∧ none = none then e.dtu.qualifying else 0
  cases hstate' : e.dtu.state with
  | traceable => exact absurd hstate' hstate
  | _ => rfl

/-! ### The two stages together -/

theorem DtuEffect.select_active (h : e.dtu.active = some ch) : e.select t = e := by
  unfold DtuEffect.select
  rw [h]

theorem DtuEffect.select_none (h : e.dtu.selection = none) : e.select t = e := by
  unfold DtuEffect.select
  rw [h]
  cases e.dtu.active <;> rfl

theorem DtuEffect.select_picks {new : Channel} (hactive : e.dtu.active = none) (h : e.dtu.selection = some new) :
    e.select t = e.switchTo t (some new) .selection := by
  unfold DtuEffect.select
  rw [hactive, h]

theorem DtuEffect.failover_idle (h : e.dtu.active = none) : e.failover t order = e := by
  unfold DtuEffect.failover
  rw [h]

theorem DtuEffect.failover_active (h : e.dtu.active = some ch) :
    e.failover t order =
      if e.dtu.Fit ch then
        if ch ≠ e.dtu.preferred ∧ e.dtu.settings.revertDelay ≤ (e.dtu.ref e.dtu.preferred).run ∧ e.dtu.disagreement = false then
          e.switchTo t (some e.dtu.preferred) .revert
        else e
      else if e.dtu.Fit (otherRef ch) ∧ e.dtu.disagreement = false then e.switchTo t (some (otherRef ch)) .failover
      else if e.dtu.state = .traceable then e.loseTraceable t order
      else e.loseActive t := by
  unfold DtuEffect.failover
  rw [h]
  exact if_congr (RefJudgement.qualified_iff _) rfl (if_congr (and_congr_left' (RefJudgement.qualified_iff _)) rfl rfl)

theorem DtuEffect.reselect_idle (hactive : e.dtu.active = none) : e.Reselects (e.reselect t order) t order := by
  have hlost := Dtu.not_lost_idle hactive
  rw [DtuEffect.reselect, DtuEffect.failover_idle hactive]
  cases hselection : e.dtu.selection with
  | none =>
    rw [DtuEffect.select_none hselection]
    exact DtuEffect.reselects_stays ((Dtu.chosen_idle hactive).trans (hselection.trans hactive.symm)) hlost
  | some new =>
    rw [DtuEffect.select_picks hactive hselection]
    exact DtuEffect.reselects_switchTo ((Dtu.chosen_idle hactive).trans hselection) (by rw [hactive]; exact fun h => nomatch h) hlost
      (DtuEffect.switchRecords_selection hactive)

theorem DtuEffect.reselect_fit (hactive : e.dtu.active = some ch) (hfit : e.dtu.Fit ch) : e.Reselects (e.reselect t order) t order := by
  have hlost : ¬ e.dtu.Lost := fun h => ((Dtu.lost_iff hactive).mp h).1 hfit
  have hchosen := Dtu.chosen_active hactive
  rw [DtuEffect.reselect, DtuEffect.failover_active hactive, if_pos hfit]
  rw [if_pos hfit] at hchosen
  by_cases hrevert : ch ≠ e.dtu.preferred ∧ e.dtu.settings.revertDelay ≤ (e.dtu.ref e.dtu.preferred).run ∧ e.dtu.disagreement = false
  · rw [if_pos hrevert] at hchosen ⊢
    rw [DtuEffect.select_active (e := e.switchTo t (some e.dtu.preferred) .revert) (ch := e.dtu.preferred) rfl]
    exact DtuEffect.reselects_switchTo hchosen (by rw [hactive]; exact fun h => hrevert.1 (Option.some.inj h)) hlost
      (DtuEffect.switchRecords_revert hactive hrevert.1 hfit)
  · rw [if_neg hrevert] at hchosen ⊢
    rw [DtuEffect.select_active hactive]
    exact DtuEffect.reselects_stays (hchosen.trans hactive.symm) hlost

theorem DtuEffect.reselect_unfit (hactive : e.dtu.active = some ch) (hunfit : ¬ e.dtu.Fit ch) : e.Reselects (e.reselect t order) t order := by
  have hchosen := Dtu.chosen_active hactive
  rw [DtuEffect.reselect, DtuEffect.failover_active hactive, if_neg hunfit]
  rw [if_neg hunfit] at hchosen
  by_cases hother : e.dtu.Fit (otherRef ch) ∧ e.dtu.disagreement = false
  · have hlost : ¬ e.dtu.Lost := fun h => ((Dtu.lost_iff hactive).mp h).2.elim (fun h => h hother.1)
      fun hflag => Bool.false_ne_true (hother.2.symm.trans hflag)
    rw [if_pos hother] at hchosen ⊢
    rw [DtuEffect.select_active (e := e.switchTo t (some (otherRef ch)) .failover) (ch := otherRef ch) rfl]
    exact DtuEffect.reselects_switchTo hchosen (by rw [hactive]; exact fun h => otherRef_ne ch (Option.some.inj h)) hlost
      (DtuEffect.switchRecords_failover hactive hunfit)
  · have hlost : e.dtu.Lost := by
      refine (Dtu.lost_iff hactive).mpr ⟨hunfit, ?_⟩
      rw [← Bool.not_eq_false]
      exact not_and_or.mp hother
    have hnone := Dtu.selection_lost hlost
    rw [if_neg hother]
    by_cases hstate : e.dtu.state = .traceable
    · rw [if_pos hstate, DtuEffect.select_none (e := e.loseTraceable t order) hnone]
      exact DtuEffect.reselects_loseTraceable hlost hstate
    · rw [if_neg hstate, DtuEffect.select_none (e := e.loseActive t) hnone]
      exact DtuEffect.reselects_loseActive hlost hstate

theorem DtuEffect.reselect_reselects (e : DtuEffect) (t : Instant) (order : Order) : e.Reselects (e.reselect t order) t order := by
  cases hactive : e.dtu.active with
  | none => exact DtuEffect.reselect_idle hactive
  | some ch =>
    by_cases hfit : e.dtu.Fit ch
    · exact DtuEffect.reselect_fit hactive hfit
    · exact DtuEffect.reselect_unfit hactive hfit

end

end Sys2Proof.Machine
end

