-- ==== Sys2Proof/Proofs/SecondEvent.lean ====
section
/-! PROOF. A second event taken by the DTU: its stages joined, what each leaves of the DTU, its records in their order, the rate it hands over; the MinuteSummary in
the journal. -/

namespace Sys2Proof.Machine

/-! ### Stages 7 and 8 together (R41, R53) -/

/-- What the last two stages change: the flag and the counts of a disqualified reference, the proportional term and the rate. -/
structure DtuEffect.Closes (v e : DtuEffect) (t : Instant) : Prop where
  only : e.dtu = { v.dtu with
    disagreement := e.dtu.disagreement, disagreeing := e.dtu.disagreeing, agreeing := e.dtu.agreeing
    sinceApplied := min (v.dtu.sinceApplied + 1) 2, proportional := e.dtu.proportional }
  both : v.dtu.refA.run ≠ 0 → v.dtu.refB.run ≠ 0 →
    e.dtu.disagreement = v.dtu.disagreement ∧ e.dtu.disagreeing = v.dtu.disagreeing ∧ e.dtu.agreeing = v.dtu.agreeing ∧ e.out = v.out
  either : ¬ v.dtu.refA.run ≠ 0 ∨ ¬ v.dtu.refB.run ≠ 0 →
    e.dtu.disagreement = false ∧ e.dtu.disagreeing = 0 ∧ e.dtu.agreeing = 0 ∧ e.out = v.out ++ v.dtu.clearRecord t
  rests : 1 ≤ v.dtu.sinceApplied → e.dtu.proportional = 0 ∧
    e.rate = if v.dtu.proportional = 0 then v.rate else some (clampTo rateLimit v.dtu.integral)
  counts : v.dtu.sinceApplied = 0 → e.dtu.proportional = v.dtu.proportional ∧ e.rate = v.rate
  step : e.step = v.step

theorem DtuEffect.closes (v : DtuEffect) (t : Instant) : v.Closes (v.clearDisagreement t).restRate t := by
  have hrest (w : DtuEffect) : w.restRate = { w with
      dtu := { w.dtu with sinceApplied := min (w.dtu.sinceApplied + 1) 2, proportional := if 1 ≤ w.dtu.sinceApplied then 0 else w.dtu.proportional }
      rate := if 1 ≤ w.dtu.sinceApplied then (if w.dtu.proportional = 0 then w.rate else some (clampTo rateLimit w.dtu.integral)) else w.rate } := by
    by_cases hsince : 1 ≤ w.dtu.sinceApplied
    · rw [DtuEffect.restRate_rests hsince, if_pos hsince, if_pos hsince]
    · rw [DtuEffect.restRate_counts (Nat.eq_zero_of_not_pos hsince), if_neg hsince, if_neg hsince]
  have hnot {n : Nat} (h : n = 0) : ¬ 1 ≤ n := by rw [h]; decide
  by_cases hboth : v.dtu.refA.run ≠ 0 ∧ v.dtu.refB.run ≠ 0
  · rw [DtuEffect.clearDisagreement_both hboth.1 hboth.2, hrest]
    exact ⟨rfl, fun _ _ => ⟨rfl, rfl, rfl, rfl⟩, fun h => absurd hboth (not_and_or.mpr h), fun h => ⟨if_pos h, if_pos h⟩,
      fun h => ⟨if_neg (hnot h), if_neg (hnot h)⟩, rfl⟩
  · rw [DtuEffect.clearDisagreement_either (not_and_or.mp hboth), hrest]
    exact ⟨rfl, fun hA hB => absurd ⟨hA, hB⟩ hboth, fun _ => ⟨rfl, rfl, rfl, rfl⟩, fun h => ⟨if_pos h, if_pos h⟩,
      fun h => ⟨if_neg (hnot h), if_neg (hnot h)⟩, rfl⟩

/-! ### The stages joined (R57) -/

/-- The DTU once the second event is counted to its minute (R59). -/
def Dtu.dated (d : Dtu) (now : Instant) (minute : Minute) : Dtu := { d with lastSecond := now.sec, minute := minute }

/-- Both references judged (R52). -/
def Dtu.bothJudged (d : Dtu) : Dtu := { d with refA := d.refA.judge d.settings.age, refB := d.refB.judge d.settings.age }

/-- The stages of a second event, each by what it leaves: the minute and its record, the growth of D and its record, the pair of θ, the change of
active reference, and the last two. -/
structure Dtu.Stages (d : Dtu) (now : Instant) (order : Order) (minute : Minute) (told : List Handed) (u : Dtu) (grew : List Handed)
    (x y : Nat) (flag : Bool) (v e : DtuEffect) : Prop where
  newMinute : now.sec / 60 ≠ d.lastSecond / 60 →
    minute = Minute.start d.bound ∧ told = [d.handed now (.minuteSummary d.minute d.state d.active)]
  sameMinute : now.sec / 60 = d.lastSecond / 60 → minute = d.minute ∧ told = []
  grown : (d.dated now minute).Grown u
  growth : (d.dated now minute).GrowthRecord u now grew
  pair : u.bothJudged.PairTaken x y flag
  switched : DtuEffect.Reselects
    { dtu := u.bothJudged.crossed x y flag, out := told ++ grew ++ u.bothJudged.pairRecord now flag, rate := none, step := none } v now order
  closed : v.Closes e now

theorem Dtu.summarise_dated (d : Dtu) (now : Instant) :
    ∃ minute told, (DtuEffect.of d).summarise now = { DtuEffect.of (d.dated now minute) with out := told } ∧
      (now.sec / 60 ≠ d.lastSecond / 60 →
        minute = Minute.start d.bound ∧ told = [d.handed now (.minuteSummary d.minute d.state d.active)]) ∧
      (now.sec / 60 = d.lastSecond / 60 → minute = d.minute ∧ told = []) := by
  by_cases h : now.sec / 60 = d.lastSecond / 60
  · exact ⟨d.minute, [], DtuEffect.summarise_sameMinute h, fun hne => absurd h hne, fun _ => ⟨rfl, rfl⟩⟩
  · exact ⟨_, _, DtuEffect.summarise_newMinute h, fun _ => ⟨rfl, rfl⟩, fun heq => absurd heq h⟩

theorem Dtu.secondEvent_stages (d : Dtu) (now : Instant) (order : Order) :
    ∃ minute told u grew x y flag v, d.Stages now order minute told u grew x y flag v (d.secondEvent now order) := by
  obtain ⟨minute, told, htold, hnew, hsame⟩ := d.summarise_dated now
  obtain ⟨u, grew, hgrew, hgrown, hgrowth⟩ := ({ DtuEffect.of (d.dated now minute) with out := told } : DtuEffect).growBound_grown now
  obtain ⟨x, y, flag, hcrossed, hpair⟩ :=
    ({ dtu := u.bothJudged, out := told ++ grew, rate := none, step := none } : DtuEffect).crossCheck_crossed now
  have hswitched := DtuEffect.reselect_reselects
    { dtu := u.bothJudged.crossed x y flag, out := told ++ grew ++ u.bothJudged.pairRecord now flag, rate := none, step := none } now order
  refine ⟨minute, told, u, grew, x, y, flag, _, hnew, hsame, hgrown, hgrowth, hpair, hswitched, ?_⟩
  have hstages : d.secondEvent now order =
      (((DtuEffect.reselect
        { dtu := u.bothJudged.crossed x y flag, out := told ++ grew ++ u.bothJudged.pairRecord now flag, rate := none, step := none }
        now order)).clearDisagreement now).restRate := by
    rw [← hcrossed]
    unfold Dtu.secondEvent
    rw [htold, hgrew]
    rfl
  rw [hstages]
  exact DtuEffect.closes _ now

/-! ### What the stages leave of the DTU -/

section

variable {d : Dtu} {now : Instant} {order : Order} {minute : Minute} {told : List Handed} {u : Dtu} {grew : List Handed} {x y : Nat} {flag : Bool}
  {v e : DtuEffect} (h : d.Stages now order minute told u grew x y flag v e)

include h

/-- The DTU with both references judged, field by field. -/
theorem Dtu.Stages.judged_eq :
    u.bothJudged = { d with
      state := u.state, bound := u.bound, warning := u.warning, qualifying := u.qualifying, entryBound := u.entryBound, growths := u.growths
      lastSecond := now.sec, minute := { minute with largestD := u.minute.largestD }
      refA := d.refA.judge d.settings.age, refB := d.refB.judge d.settings.age } := by
  conv_lhs => rw [h.grown.only]
  rfl

/-- The DTU before the change of active reference, field by field. -/
theorem Dtu.Stages.checked_eq :
    u.bothJudged.crossed x y flag = { d with
      state := u.state, bound := u.bound, warning := u.warning, qualifying := u.qualifying, entryBound := u.entryBound, growths := u.growths
      lastSecond := now.sec, minute := { minute with largestD := u.minute.largestD }
      refA := d.refA.taken d.settings.age, refB := d.refB.taken d.settings.age
      disagreeing := x, agreeing := y, disagreement := flag } := by
  rw [h.judged_eq]
  rfl

/-- The DTU after the second event, field by field. -/
theorem Dtu.Stages.final_eq :
    e.dtu = { d with
      state := v.dtu.state, warning := v.dtu.warning, active := v.dtu.active, qualifying := v.dtu.qualifying, persistent := v.dtu.persistent
      entryBound := v.dtu.entryBound, growths := v.dtu.growths, bound := u.bound
      lastSecond := now.sec, minute := { minute with largestD := u.minute.largestD }
      refA := d.refA.taken d.settings.age, refB := d.refB.taken d.settings.age
      disagreement := e.dtu.disagreement, disagreeing := e.dtu.disagreeing, agreeing := e.dtu.agreeing
      sinceApplied := min (d.sinceApplied + 1) 2, proportional := e.dtu.proportional } := by
  have hswitched := h.switched.dtu.only
  rw [h.checked_eq] at hswitched
  have hclosed := h.closed.only
  generalize v.dtu = w at hswitched hclosed
  rw [hswitched] at hclosed
  exact hclosed

theorem Dtu.Stages.ref_eq (ch : Channel) :
    e.dtu.ref ch = (d.ref ch).taken d.settings.age := by
  cases ch
  · exact congrArg Dtu.refA h.final_eq
  · exact congrArg Dtu.refB h.final_eq

theorem Dtu.Stages.checked_ref (ch : Channel) :
    (u.bothJudged.crossed x y flag).ref ch = e.dtu.ref ch := by
  rw [h.ref_eq]
  cases ch
  · exact congrArg Dtu.refA h.checked_eq
  · exact congrArg Dtu.refB h.checked_eq

theorem Dtu.Stages.checked_fit (ch : Channel) :
    (u.bothJudged.crossed x y flag).Fit ch ↔ (e.dtu.ref ch).run ≠ 0 := by
  rw [Dtu.Fit, h.checked_ref]

theorem Dtu.Stages.checked_active :
    (u.bothJudged.crossed x y flag).active = d.active := (congrArg Dtu.active h.checked_eq).trans rfl

/-- The active reference is lost at this second event, told by the qualified runs after it (R54). -/
def Dtu.LostAt (d e : Dtu) (flag : Bool) : Prop :=
  ∃ ch, d.active = some ch ∧ ¬ (e.ref ch).run ≠ 0 ∧ (¬ (e.ref (otherRef ch)).run ≠ 0 ∨ flag = true)

theorem Dtu.Stages.lost_iff :
    (u.bothJudged.crossed x y flag).Lost ↔ d.LostAt e.dtu flag := by
  unfold Dtu.Lost Dtu.LostAt
  simp only [h.checked_active, h.checked_fit]
  rfl

theorem Dtu.Stages.active_eq :
    e.dtu.active = (u.bothJudged.crossed x y flag).chosen := (congrArg Dtu.active h.final_eq).trans h.switched.dtu.active

theorem Dtu.Stages.active_spelled :
    e.dtu.active =
      (match d.active with
      | some ch =>
        if (e.dtu.ref ch).run ≠ 0 then
          if ch ≠ d.preferred ∧ d.settings.revertDelay ≤ (e.dtu.ref d.preferred).run ∧ flag = false then some d.preferred else some ch
        else if (e.dtu.ref (otherRef ch)).run ≠ 0 ∧ flag = false then some (otherRef ch)
        else none
      | none =>
        if flag = true then none
        else if (e.dtu.ref d.preferred).run ≠ 0 then some d.preferred
        else if (e.dtu.ref (otherRef d.preferred)).run ≠ 0 then some (otherRef d.preferred)
        else none) := by
  have hpreferred : (u.bothJudged.crossed x y flag).preferred = d.preferred := (congrArg Dtu.preferred h.checked_eq).trans rfl
  have hsettings : (u.bothJudged.crossed x y flag).settings = d.settings := (congrArg Dtu.settings h.checked_eq).trans rfl
  have hflag : (u.bothJudged.crossed x y flag).disagreement = flag := rfl
  rw [h.active_eq]
  cases hactive : d.active with
  | none =>
    rw [Dtu.chosen_idle (h.checked_active.trans hactive), Dtu.selection_eq, hpreferred, hflag]
    simp only [Dtu.Fit, h.checked_ref]
  | some ch =>
    rw [Dtu.chosen_active (h.checked_active.trans hactive), hpreferred, hsettings, hflag]
    simp only [Dtu.Fit, h.checked_ref]

/-! ### The discipline state and D (R46, R48, R49) -/

theorem Dtu.Stages.state_within (hwithin : ¬ d.Exceeds) : u.state = d.state := by
  by_cases hholdover : d.state = .holdover
  · exact ((h.grown.holdover hholdover).2.1 hwithin).1.trans hholdover.symm
  · by_cases huntraceable : d.state = .untraceable
    · exact (h.grown.untraceable huntraceable).1.trans huntraceable.symm
    · exact (congrArg Dtu.state (h.grown.still hholdover huntraceable)).trans rfl

theorem Dtu.Stages.state_exceeds (hexceeds : d.Exceeds) : u.state = .untraceable :=
  ((h.grown.holdover hexceeds.1).2.2 hexceeds).1

theorem Dtu.Stages.traceable_iff : u.state = .traceable ↔ d.state = .traceable := by
  by_cases hexceeds : d.Exceeds
  · rw [h.state_exceeds hexceeds, hexceeds.1]
    exact ⟨fun h => (nomatch h), fun h => (nomatch h)⟩
  · rw [h.state_within hexceeds]

/-- Outside TRACEABLE a second event's change of reference keeps the state and the warning flag (R47, R49). -/
theorem Dtu.Stages.elsewhere (hstate : d.state ≠ .traceable) :
    v.dtu.state = u.state ∧ v.dtu.warning = u.warning ∧
      (¬ d.LostAt e.dtu flag → v.dtu.entryBound = u.entryBound ∧ v.dtu.growths = u.growths) ∧
      (d.LostAt e.dtu flag → v.dtu.entryBound = (if u.state = .untraceable then u.bound else u.entryBound) ∧
        v.dtu.growths = (if u.state = .untraceable then 0 else u.growths)) := by
  have hne : u.state ≠ .traceable := h.traceable_iff.not.mpr hstate
  rw [← h.lost_iff]
  by_cases hlost : (u.bothJudged.crossed x y flag).Lost
  · obtain ⟨hsame, hwarning, hentry, hgrowths⟩ := h.switched.dtu.lostElse hlost hne
    exact ⟨hsame, hwarning, fun hnot => absurd hlost hnot, fun _ => ⟨hentry, hgrowths⟩⟩
  · obtain ⟨hsame, hwarning, hentry, hgrowths, _⟩ := h.switched.dtu.kept hlost
    exact ⟨hsame, hwarning, fun _ => ⟨hentry, hgrowths⟩, fun h => absurd h hlost⟩

/-- The parts of the DTU after the second event that the change of reference sets (R45 to R49). -/
theorem Dtu.Stages.final_parts :
    e.dtu.state = v.dtu.state ∧ e.dtu.warning = v.dtu.warning ∧ e.dtu.entryBound = v.dtu.entryBound ∧ e.dtu.growths = v.dtu.growths ∧
      e.dtu.bound = u.bound ∧ e.dtu.qualifying = v.dtu.qualifying ∧ e.dtu.persistent = v.dtu.persistent :=
  ⟨(congrArg Dtu.state h.final_eq).trans rfl, (congrArg Dtu.warning h.final_eq).trans rfl, (congrArg Dtu.entryBound h.final_eq).trans rfl, (congrArg Dtu.growths h.final_eq).trans rfl,
    (congrArg Dtu.bound h.final_eq).trans rfl, (congrArg Dtu.qualifying h.final_eq).trans rfl, (congrArg Dtu.persistent h.final_eq).trans rfl⟩

/-! ### The pair of θ (R53) -/

/-- Both references qualified, both θ new. -/
def Dtu.PairFormed (d e : Dtu) : Prop :=
  (e.ref .A).run ≠ 0 ∧ (e.ref .B).run ≠ 0 ∧ d.refA.fresh = true ∧ d.refB.fresh = true

theorem Dtu.Stages.judged_run :
    u.bothJudged.refA.run = (e.dtu.ref .A).run ∧ u.bothJudged.refB.run = (e.dtu.ref .B).run := by
  rw [h.judged_eq, h.ref_eq, h.ref_eq]
  exact ⟨rfl, rfl⟩

theorem Dtu.Stages.formed_iff :
    (u.bothJudged.refA.qualified && u.bothJudged.refB.qualified && u.bothJudged.refA.fresh && u.bothJudged.refB.fresh) = true ↔
      d.PairFormed e.dtu := by
  have hfresh : u.bothJudged.refA.fresh = d.refA.fresh ∧ u.bothJudged.refB.fresh = d.refB.fresh := by
    rw [h.judged_eq]
    exact ⟨rfl, rfl⟩
  rw [Bool.and_eq_true, Bool.and_eq_true, Bool.and_eq_true, RefJudgement.qualified_iff, RefJudgement.qualified_iff, h.judged_run.1,
    h.judged_run.2, hfresh.1, hfresh.2, and_assoc, and_assoc]
  rfl

theorem Dtu.Stages.pair_formed (hformed : d.PairFormed e.dtu) {a b : Int}
    (ha : d.refA.theta = some a) (hb : d.refB.theta = some b) : u.bothJudged.pair = some (a, b) := by
  have htheta : u.bothJudged.refA.theta = some a ∧ u.bothJudged.refB.theta = some b := by
    rw [h.judged_eq]
    exact ⟨ha, hb⟩
  unfold Dtu.pair
  rw [if_pos (h.formed_iff.mpr hformed), htheta.1, htheta.2]

theorem Dtu.Stages.pair_unformed (hunformed : ¬ d.PairFormed e.dtu) :
    u.bothJudged.pair = none := if_neg (h.formed_iff.not.mpr hunformed)

theorem Dtu.Stages.counted {a b : Int} (hpair : u.bothJudged.pair = some (a, b)) :
    x = (if d.settings.crossLimit < (a - b).natAbs then d.disagreeing + 1 else 0) ∧
    y = (if d.settings.crossLimit < (a - b).natAbs then 0 else d.agreeing + 1) ∧
    flag = (if d.disagreement then !decide (d.settings.qualify ≤ y) else decide (d.settings.persistence ≤ x)) := by
  have hcounted := h.pair.paired a b hpair
  rw [h.judged_eq] at hcounted
  exact hcounted

theorem Dtu.Stages.uncounted (hunformed : ¬ d.PairFormed e.dtu) :
    x = d.disagreeing ∧ y = d.agreeing ∧ flag = d.disagreement := by
  have hkept := h.pair.unpaired (h.pair_unformed hunformed)
  rw [h.judged_eq] at hkept
  exact hkept

/-- The change of active reference keeps the flag, its counts and both references. -/
theorem Dtu.Stages.switched_keeps :
    v.dtu.disagreement = flag ∧ v.dtu.disagreeing = x ∧ v.dtu.agreeing = y ∧ v.dtu.refA = e.dtu.refA ∧ v.dtu.refB = e.dtu.refB ∧
      v.dtu.sinceApplied = d.sinceApplied ∧ v.dtu.integral = d.integral := by
  have hA : v.dtu.refA = d.refA.taken d.settings.age := (congrArg Dtu.refA h.switched.dtu.only).trans (congrArg Dtu.refA h.checked_eq)
  have hB : v.dtu.refB = d.refB.taken d.settings.age := (congrArg Dtu.refB h.switched.dtu.only).trans (congrArg Dtu.refB h.checked_eq)
  refine ⟨(congrArg Dtu.disagreement h.switched.dtu.only).trans rfl, (congrArg Dtu.disagreeing h.switched.dtu.only).trans rfl,
    (congrArg Dtu.agreeing h.switched.dtu.only).trans rfl, hA.trans (h.ref_eq .A).symm, hB.trans (h.ref_eq .B).symm, ?_, ?_⟩
  · exact (congrArg Dtu.sinceApplied h.switched.dtu.only).trans ((congrArg Dtu.sinceApplied h.checked_eq).trans rfl)
  · exact (congrArg Dtu.integral h.switched.dtu.only).trans ((congrArg Dtu.integral h.checked_eq).trans rfl)

theorem Dtu.Stages.flag_both (hA : (e.dtu.ref .A).run ≠ 0) (hB : (e.dtu.ref .B).run ≠ 0) :
    e.dtu.disagreement = flag ∧ e.dtu.disagreeing = x ∧ e.dtu.agreeing = y ∧ e.out = v.out := by
  obtain ⟨hflag, hx, hy, hrefA, hrefB, _, _⟩ := h.switched_keeps
  obtain ⟨hdisagreement, hdisagreeing, hagreeing, hout⟩ := h.closed.both (by rw [hrefA]; exact hA) (by rw [hrefB]; exact hB)
  exact ⟨hdisagreement.trans hflag, hdisagreeing.trans hx, hagreeing.trans hy, hout⟩

theorem Dtu.Stages.flag_either
    (hunfit : ¬ (e.dtu.ref .A).run ≠ 0 ∨ ¬ (e.dtu.ref .B).run ≠ 0) :
    e.dtu.disagreement = false ∧ e.dtu.disagreeing = 0 ∧ e.dtu.agreeing = 0 ∧ e.out = v.out ++ v.dtu.clearRecord now := by
  obtain ⟨_, _, _, hrefA, hrefB, _, _⟩ := h.switched_keeps
  exact h.closed.either (by rw [hrefA, hrefB]; exact hunfit)

/-! ### The rate (R41) -/

theorem Dtu.Stages.rate_lost (hlost : d.LostAt e.dtu flag) :
    e.dtu.proportional = 0 ∧ e.rate = some (clampTo rateLimit d.integral) := by
  obtain ⟨_, _, _, _, _, _, hintegral⟩ := h.switched_keeps
  have hlost' := h.lost_iff.mpr hlost
  have hzero := h.switched.dtu.rests hlost'
  have hrate : v.rate = some (clampTo rateLimit d.integral) :=
    (h.switched.rate.1 hlost').trans (congrArg (fun f => some (clampTo rateLimit f)) ((congrArg Dtu.integral h.checked_eq).trans rfl))
  obtain hsince | hsince := Nat.eq_zero_or_pos v.dtu.sinceApplied
  · obtain ⟨hproportional, hsame⟩ := h.closed.counts hsince
    exact ⟨hproportional.trans hzero, hsame.trans hrate⟩
  · obtain ⟨hproportional, hsame⟩ := h.closed.rests hsince
    exact ⟨hproportional, hsame.trans ((if_pos hzero).trans hrate)⟩

theorem Dtu.Stages.unlost (hlost : ¬ d.LostAt e.dtu flag) :
    v.dtu.proportional = d.proportional ∧ v.rate = none := by
  have hlost' := h.lost_iff.not.mpr hlost
  obtain ⟨_, _, _, _, hproportional⟩ := h.switched.dtu.kept hlost'
  exact ⟨hproportional.trans ((congrArg Dtu.proportional h.checked_eq).trans rfl), h.switched.rate.2 hlost'⟩

theorem Dtu.Stages.rate_rests (hlost : ¬ d.LostAt e.dtu flag) (hsince : 1 ≤ d.sinceApplied) :
    e.dtu.proportional = 0 ∧ e.rate = if d.proportional = 0 then none else some (clampTo rateLimit d.integral) := by
  obtain ⟨_, _, _, _, _, hsame, hintegral⟩ := h.switched_keeps
  obtain ⟨hproportional, hnone⟩ := h.unlost hlost
  have hrests := h.closed.rests (by rw [hsame]; exact hsince)
  rw [hproportional, hnone, hintegral] at hrests
  exact hrests

theorem Dtu.Stages.rate_counts (hlost : ¬ d.LostAt e.dtu flag) (hsince : d.sinceApplied = 0) :
    e.dtu.proportional = d.proportional ∧ e.rate = none := by
  obtain ⟨_, _, _, _, _, hsame, _⟩ := h.switched_keeps
  obtain ⟨hproportional, hnone⟩ := h.unlost hlost
  have hcounts := h.closed.counts (hsame.trans hsince)
  rw [hproportional, hnone] at hcounts
  exact hcounts

end

end Sys2Proof.Machine
end

