-- ==== Sys2Proof/Proofs/SecondEventTaken.lean ====
section
/-! PROOF. The records of a second event in their order, its rows, and the MinuteSummary in the journal. -/

namespace Sys2Proof.Machine

section

variable {d : Dtu} {now : Instant} {order : Order} {minute : Minute} {told : List Handed} {u : Dtu} {grew : List Handed} {x y : Nat} {flag : Bool}
  {v e : DtuEffect} (h : d.Stages now order minute told u grew x y flag v e)

include h

/-! ### The quality in each record (R153) -/

theorem Dtu.Stages.handed_switched (p : Payload) :
    v.dtu.handed now p = e.dtu.handed now p := by
  obtain ⟨hstate, hwarning, _⟩ := h.final_parts
  exact Dtu.handed_congr hstate.symm fun _ => hwarning.symm

theorem Dtu.Stages.handed_elsewhere (hstate : d.state ≠ .traceable) (p : Payload) :
    u.handed now p = e.dtu.handed now p := by
  obtain ⟨hsame, hwarning, _⟩ := h.elsewhere hstate
  rw [← h.handed_switched]
  exact Dtu.handed_congr hsame.symm fun _ => hwarning.symm

theorem Dtu.Stages.dated_of_traceable (hstate : d.state = .traceable) :
    u = d.dated now minute := h.grown.still (by rw [Dtu.dated, hstate]; decide) (by rw [Dtu.dated, hstate]; decide)

theorem Dtu.Stages.handed_judged (p : Payload) :
    u.bothJudged.handed now p = (if d.state = .traceable then d else e.dtu).handed now p := by
  have hjudged : u.bothJudged.handed now p = u.handed now p := rfl
  rw [hjudged]
  split
  next hstate =>
    rw [h.dated_of_traceable hstate]
    rfl
  next hstate => exact h.handed_elsewhere hstate p

/-! ### The records, in the order of the stages (R50, R53, R57) -/

theorem Dtu.Stages.grew_eq :
    grew = if d.state = .holdover ∧ d.settings.limit < d.grownBound then
      [e.dtu.handed now (.stateChange .holdover .untraceable .holdoverLimit d.grownBound d.active)] else [] := by
  by_cases hexceeds : d.Exceeds
  · have hstate : d.state ≠ .traceable := by rw [hexceeds.1]; decide
    refine ((h.growth.1 hexceeds).trans ?_).trans (if_pos hexceeds).symm
    rw [h.handed_elsewhere hstate]
    rfl
  · exact (h.growth.2 hexceeds).trans (if_neg hexceeds).symm

theorem Dtu.Stages.paired_eq :
    u.bothJudged.pairRecord now flag = if flag = d.disagreement then []
      else [(if d.state = .traceable then d else e.dtu).handed now (.referenceDisagree flag false d.refA.theta d.refB.theta)] := by
  have hsame : u.bothJudged.disagreement = d.disagreement ∧ u.bothJudged.refA.theta = d.refA.theta ∧ u.bothJudged.refB.theta = d.refB.theta := by
    rw [h.judged_eq]
    exact ⟨rfl, rfl, rfl⟩
  unfold Dtu.pairRecord
  rw [hsame.1, hsame.2.1, hsame.2.2, h.handed_judged]

theorem Dtu.Stages.switch_eq :
    (u.bothJudged.crossed x y flag).switchRecords v.dtu now order =
      (match d.active with
      | none => if e.dtu.active = none then [] else [e.dtu.handed now (.referenceSwitch d.active e.dtu.active .selection)]
      | some ch =>
        if e.dtu.active = some ch then []
        else if (e.dtu.ref ch).run ≠ 0 then [e.dtu.handed now (.referenceSwitch d.active e.dtu.active .revert)]
        else if e.dtu.active ≠ none then [e.dtu.handed now (.referenceSwitch d.active e.dtu.active .failover)]
        else if d.state ≠ .traceable then [e.dtu.handed now (.referenceSwitch d.active e.dtu.active .loss)]
        else if order.headD 0 % 2 = 0 then
          [e.dtu.handed now (.referenceSwitch d.active e.dtu.active .holdover),
            e.dtu.handed now (.stateChange .traceable e.dtu.state .referenceLost d.bound none)]
        else
          [e.dtu.handed now (.stateChange .traceable e.dtu.state .referenceLost d.bound none),
            e.dtu.handed now (.referenceSwitch d.active e.dtu.active .holdover)]) := by
  have hactive : v.dtu.active = e.dtu.active := ((congrArg Dtu.active h.final_eq).trans rfl).symm
  have hstate : v.dtu.state = e.dtu.state := h.final_parts.1.symm
  have htraceable : (u.bothJudged.crossed x y flag).state = .traceable ↔ d.state = .traceable := h.traceable_iff
  have hbound : d.state = .traceable → (u.bothJudged.crossed x y flag).bound = d.bound := fun hstate => by
    rw [h.checked_eq, h.dated_of_traceable hstate]
    rfl
  unfold Dtu.switchRecords
  rw [h.checked_active]
  simp only [h.handed_switched, hactive, hstate, h.checked_fit, ne_eq, htraceable]
  cases d.active with
  | none => rfl
  | some ch =>
    by_cases hd : d.state = .traceable
    · simp only [hbound hd]
    · simp only [if_pos hd]

theorem Dtu.Stages.cleared_eq :
    e.out = v.out ++ if flag = true ∧ (¬ (e.dtu.ref .A).run ≠ 0 ∨ ¬ (e.dtu.ref .B).run ≠ 0) then
      [e.dtu.handed now (.referenceDisagree false true d.refA.theta d.refB.theta)] else [] := by
  obtain ⟨hflag, _, _, hA, hB, _, _⟩ := h.switched_keeps
  have htheta : v.dtu.refA.theta = d.refA.theta ∧ v.dtu.refB.theta = d.refB.theta := by
    rw [hA, hB]
    exact ⟨(congrArg RefJudgement.theta (h.ref_eq .A)).trans rfl, (congrArg RefJudgement.theta (h.ref_eq .B)).trans rfl⟩
  by_cases hunfit : ¬ (e.dtu.ref .A).run ≠ 0 ∨ ¬ (e.dtu.ref .B).run ≠ 0
  · rw [(h.flag_either hunfit).2.2.2, Dtu.clearRecord, h.handed_switched, htheta.1, htheta.2, hflag]
    exact congrArg (v.out ++ ·) (if_congr (and_iff_left hunfit).symm rfl rfl)
  · obtain ⟨hfitA, hfitB⟩ := not_or.mp hunfit
    rw [(h.flag_both (not_not.mp hfitA) (not_not.mp hfitB)).2.2.2, if_neg fun hboth => hunfit hboth.2, List.append_nil]

/-- All the records, after the MinuteSummary. -/
theorem Dtu.Stages.out_eq {paired switch cleared : List Handed}
    (hpaired : u.bothJudged.pairRecord now flag = paired) (hswitch : (u.bothJudged.crossed x y flag).switchRecords v.dtu now order = switch)
    (hcleared : e.out = v.out ++ cleared) : e.out = told ++ (grew ++ paired ++ switch ++ cleared) := by
  rw [hcleared, h.switched.out, ← hpaired, ← hswitch]
  simp only [List.append_assoc]

theorem Dtu.Stages.step_none : e.step = none := h.closed.step.trans h.switched.step

/-! ### The state, D, its growth and the warning flag (R46 to R49) -/

theorem Dtu.Stages.holdover (hd : d.state = .holdover) :
    e.dtu.bound = d.grownBound ∧
      (¬ d.Exceeds → e.dtu.state = .holdover ∧ e.dtu.entryBound = d.entryBound ∧ e.dtu.growths = d.growths + 1 ∧
        e.dtu.warning = (if d.settings.warn < d.grownBound then true
          else if d.grownBound ≤ d.settings.warn - d.settings.warn / 8 then false else d.warning)) ∧
      (d.Exceeds → e.dtu.state = .untraceable ∧ e.dtu.warning = false ∧
        (d.active = none ∨ d.LostAt e.dtu flag → e.dtu.entryBound = d.grownBound ∧ e.dtu.growths = 0) ∧
        (d.active ≠ none → ¬ d.LostAt e.dtu flag → e.dtu.entryBound = d.entryBound ∧ e.dtu.growths = d.growths + 1)) := by
  obtain ⟨hbound, hwithin, hexceeds⟩ := h.grown.holdover hd
  obtain ⟨hstate, hwarning, hkept, hlost⟩ := h.elsewhere (by rw [hd]; decide)
  obtain ⟨hestate, hewarning, heentry, hegrowths, hebound, _, _⟩ := h.final_parts
  rw [hestate, hewarning, heentry, hegrowths, hebound, hstate, hwarning]
  refine ⟨hbound, fun h => ?_, fun h => ?_⟩
  · obtain ⟨hu, hentry, hgrowths, hwarn⟩ := hwithin h
    have hsame : v.dtu.entryBound = u.entryBound ∧ v.dtu.growths = u.growths := by
      by_cases hl : d.LostAt e.dtu flag
      · have hleft := hlost hl
        rw [hu] at hleft
        exact hleft
      · exact hkept hl
    exact ⟨hu, hsame.1.trans hentry, hsame.2.trans hgrowths, hwarn⟩
  · obtain ⟨hu, hwarn, hentry, hgrowths⟩ := hexceeds h
    refine ⟨hu, hwarn, fun hgone => ?_, fun hactive hl => ?_⟩
    · by_cases hl : d.LostAt e.dtu flag
      · obtain ⟨hentry', hgrowths'⟩ := hlost hl
        rw [if_pos hu] at hentry' hgrowths'
        exact ⟨hentry'.trans hbound, hgrowths'⟩
      · have hnone : d.active = none := hgone.resolve_right hl
        obtain ⟨hentry', hgrowths'⟩ := hkept hl
        exact ⟨hentry'.trans (hentry.trans (if_pos hnone)), hgrowths'.trans (hgrowths.trans (if_pos hnone))⟩
    · obtain ⟨hentry', hgrowths'⟩ := hkept hl
      exact ⟨hentry'.trans (hentry.trans (if_neg hactive)), hgrowths'.trans (hgrowths.trans (if_neg hactive))⟩

omit h in
theorem Dtu.LostAt.active_ne {w : Dtu} (h : d.LostAt w flag) : d.active ≠ none := by
  obtain ⟨ch, hactive, _⟩ := h
  rw [hactive]
  exact Option.some_ne_none ch

theorem Dtu.Stages.untraceable (hd : d.state = .untraceable) :
    e.dtu.state = .untraceable ∧ e.dtu.warning = d.warning ∧ e.dtu.bound = (if d.active = none then d.grownBound else d.bound) ∧
      (d.active = none → e.dtu.entryBound = d.entryBound ∧ e.dtu.growths = d.growths + 1) ∧
      (d.LostAt e.dtu flag → e.dtu.entryBound = d.bound ∧ e.dtu.growths = 0) ∧
      (d.active ≠ none → ¬ d.LostAt e.dtu flag → e.dtu.entryBound = d.entryBound ∧ e.dtu.growths = d.growths) := by
  obtain ⟨hu, hwarn, hbound, hentry, hgrowths⟩ := h.grown.untraceable hd
  obtain ⟨hstate, hwarning, hkept, hlost⟩ := h.elsewhere (by rw [hd]; decide)
  obtain ⟨hestate, hewarning, heentry, hegrowths, hebound, _, _⟩ := h.final_parts
  rw [hestate, hewarning, heentry, hegrowths, hebound, hstate, hwarning]
  refine ⟨hu, hwarn, hbound, fun hnone => ?_, fun hl => ?_, fun hactive hl => ?_⟩
  · obtain ⟨hentry', hgrowths'⟩ := hkept fun hl => hl.active_ne hnone
    exact ⟨hentry'.trans hentry, hgrowths'.trans (hgrowths.trans (if_pos hnone))⟩
  · obtain ⟨hentry', hgrowths'⟩ := hlost hl
    rw [if_pos hu] at hentry' hgrowths'
    exact ⟨hentry'.trans (hbound.trans (if_neg hl.active_ne)), hgrowths'⟩
  · obtain ⟨hentry', hgrowths'⟩ := hkept hl
    exact ⟨hentry'.trans hentry, hgrowths'.trans (hgrowths.trans (if_neg hactive))⟩

theorem Dtu.Stages.traceable (hd : d.state = .traceable) :
    e.dtu.bound = d.bound ∧
      (¬ d.LostAt e.dtu flag → e.dtu.state = .traceable ∧ e.dtu.warning = d.warning ∧ e.dtu.entryBound = d.entryBound ∧
        e.dtu.growths = d.growths) ∧
      (d.LostAt e.dtu flag → e.dtu.state = (if d.settings.limit < d.bound then .untraceable else .holdover) ∧
        e.dtu.warning = (if d.settings.limit < d.bound then false else d.warning) ∧ e.dtu.entryBound = d.bound ∧ e.dtu.growths = 0) := by
  have hchecked := h.checked_eq
  have hdated := h.dated_of_traceable hd
  have hsame : u.bound = d.bound ∧ u.warning = d.warning ∧ u.entryBound = d.entryBound ∧ u.growths = d.growths := by
    rw [hdated]
    exact ⟨rfl, rfl, rfl, rfl⟩
  obtain ⟨hestate, hewarning, heentry, hegrowths, hebound, _, _⟩ := h.final_parts
  rw [hestate, hewarning, heentry, hegrowths, hebound, ← h.lost_iff]
  refine ⟨hsame.1, fun hl => ?_, fun hl => ?_⟩
  · obtain ⟨hstate, hwarning, hentry, hgrowths, _⟩ := h.switched.dtu.kept hl
    exact ⟨hstate.trans (h.traceable_iff.mpr hd), hwarning.trans hsame.2.1, hentry.trans hsame.2.2.1, hgrowths.trans hsame.2.2.2⟩
  · have hlost := h.switched.dtu.lostTraceable hl (h.traceable_iff.mpr hd)
    rw [hchecked, hdated] at hlost
    exact hlost

theorem Dtu.Stages.unlocked (hd : d.state = .free ∨ d.state = .acquiring) :
    e.dtu.bound = d.bound ∧ e.dtu.state = d.state ∧ e.dtu.warning = d.warning ∧ e.dtu.entryBound = d.entryBound ∧ e.dtu.growths = d.growths := by
  have hne : d.state ≠ .traceable ∧ d.state ≠ .holdover ∧ d.state ≠ .untraceable := by
    obtain hd | hd := hd <;> rw [hd] <;> decide
  have hdated : u = d.dated now minute := h.grown.still hne.2.1 hne.2.2
  obtain ⟨hstate, hwarning, hkept, hlost⟩ := h.elsewhere hne.1
  obtain ⟨hestate, hewarning, heentry, hegrowths, hebound, _, _⟩ := h.final_parts
  have hustate : u.state ≠ .untraceable := by rw [hdated]; exact hne.2.2
  have hsame : v.dtu.entryBound = u.entryBound ∧ v.dtu.growths = u.growths := by
    by_cases hl : d.LostAt e.dtu flag
    · have hleft := hlost hl
      rw [if_neg hustate, if_neg hustate] at hleft
      exact hleft
    · exact hkept hl
  rw [hestate, hewarning, heentry, hegrowths, hebound, hstate, hwarning, hsame.1, hsame.2, hdated]
  exact ⟨rfl, rfl, rfl, rfl, rfl⟩

/-! ### The qualifying and the persistence count (R45, R49, R54 to R56) -/

theorem Dtu.Stages.persistent_eq :
    e.dtu.persistent = if e.dtu.active = d.active then d.persistent else 0 := by
  have hactive : e.dtu.active = v.dtu.active := (congrArg Dtu.active h.final_eq).trans rfl
  have hcount := h.switched.dtu.persistent
  rw [h.checked_eq, ← hactive] at hcount
  exact h.final_parts.2.2.2.2.2.2.trans hcount

theorem Dtu.Stages.qualifying_eq :
    e.dtu.qualifying =
      if e.dtu.active = d.active then u.qualifying
      else if u.state = .traceable ∧ d.active ≠ none ∧ e.dtu.active ≠ none then u.qualifying
      else if (u.state = .free ∨ u.state = .acquiring) ∧ e.dtu.active = none then u.qualifying
      else 0 := by
  have hactive : e.dtu.active = v.dtu.active := (congrArg Dtu.active h.final_eq).trans rfl
  have hcount := h.switched.dtu.qualifying
  rw [h.checked_eq, ← hactive] at hcount
  exact h.final_parts.2.2.2.2.2.1.trans hcount

theorem Dtu.Stages.qualifying_cases :
    (d.Exceeds → e.dtu.qualifying = 0) ∧
      (¬ d.Exceeds → e.dtu.active = d.active → e.dtu.qualifying = d.qualifying) ∧
      (¬ d.Exceeds → e.dtu.active ≠ d.active →
        e.dtu.qualifying =
          (if d.state = .traceable ∧ d.active ≠ none ∧ e.dtu.active ≠ none then d.qualifying
          else if (d.state = .free ∨ d.state = .acquiring) ∧ e.dtu.active = none then d.qualifying
          else 0)) := by
  have hcount := h.qualifying_eq
  obtain ⟨hzero, hkept⟩ := h.grown.qualifying
  refine ⟨fun hexceeds => ?_, fun hwithin hsame => ?_, fun hwithin hne => ?_⟩
  · rw [hcount, hzero hexceeds, ite_self, ite_self, ite_self]
  · rw [hcount, if_pos hsame]
    exact hkept hwithin
  · rw [hcount, if_neg hne, h.state_within hwithin, hkept hwithin]
    rfl

/-! ### The minute (R58, R59) -/

theorem Dtu.Stages.minute_eq :
    e.dtu.minute = { minute with largestD := u.minute.largestD } := (congrArg Dtu.minute h.final_eq).trans rfl

theorem Dtu.Stages.minute_new (hnew : now.sec / 60 ≠ d.lastSecond / 60) :
    e.dtu.minute = { smallest := 0, largest := 0, accepted := 0, rejected := 0, largestD := max d.bound e.dtu.bound } := by
  obtain ⟨hminute, _⟩ := h.newMinute hnew
  have hbound : e.dtu.bound = u.bound := h.final_parts.2.2.2.2.1
  have hlargest : u.minute.largestD = max d.bound u.bound := by
    have hgrown := h.grown.largest
    rw [Dtu.dated, hminute] at hgrown
    obtain hmax | ⟨hsame, hkept⟩ := hgrown
    · exact hmax
    · have hkept : u.bound = d.bound := hkept
      rw [hkept, Nat.max_self]
      exact hsame
  rw [h.minute_eq, hminute, hlargest, hbound]
  rfl

theorem Dtu.Stages.minute_same (hsame : now.sec / 60 = d.lastSecond / 60) :
    e.dtu.minute = { d.minute with largestD := e.dtu.minute.largestD } := by
  obtain ⟨hminute, _⟩ := h.sameMinute hsame
  rw [h.minute_eq, hminute]

/-- A reference after the second event, judged by the three tests (R52). -/
theorem Dtu.Stages.ref_judged (ch : Channel) :
    ((d.ref ch).Qualifies d.settings.age → (e.dtu.ref ch).run = (d.ref ch).run + 1) ∧
      (¬ (d.ref ch).Qualifies d.settings.age → (e.dtu.ref ch).run = 0) ∧
      e.dtu.ref ch =
        { edgeAge := (d.ref ch).edgeAge.map fun n => min (n + 1) 255, jumpAge := (d.ref ch).jumpAge.map fun n => min (n + 1) 255
          source := (d.ref ch).source, run := (e.dtu.ref ch).run, theta := (d.ref ch).theta, fresh := false } := by
  rw [h.ref_eq]
  obtain ⟨hqualifies, hfails⟩ := (d.ref ch).judge_run d.settings.age
  exact ⟨hqualifies, hfails, rfl⟩

end

/-! ### The row (R57) -/

theorem addendOf_clamped (f : Int) : addendOf (clampTo rateLimit f) = addendOf f := by
  have hclamp : clampTo rateLimit (clampTo rateLimit f) = clampTo rateLimit f := by
    unfold clampTo rateLimit
    omega
  rw [addendOf, addendOf, hclamp]

/-- The addend after a rate handed over, or none (R4, R5). -/
def TimeBase.addendAfter (tb : TimeBase) (rate : Option Int) : Nat :=
  match rate with
  | some r => addendOf r
  | none => tb.addend

theorem exec_secondEvent_running {s : State} {order : Order} {now : Instant} {rest : List Instant} (hrunning : s.phase = .running)
    (hevents : s.time.secondEvents = now :: rest) (hstep : (s.dtu.secondEvent now order).step = none) :
    exec (.secondEvent order) s = .next
      { s with
        time := { s.time with secondEvents := rest, addend := s.time.addendAfter (s.dtu.secondEvent now order).rate }
        dtu := (s.dtu.secondEvent now order).dtu
        journal := s.journal.takeAll (s.dtu.secondEvent now order).out } := by
  have htime : ({ s.time with secondEvents := rest } : TimeBase).takeEffect (s.dtu.secondEvent now order) =
      { s.time with secondEvents := rest, addend := s.time.addendAfter (s.dtu.secondEvent now order).rate } := by
    rw [TimeBase.takeEffect_eq, hstep]
    unfold TimeBase.addendAfter
    cases (s.dtu.secondEvent now order).rate <;> rfl
  refine congrArg Host.Outcome.next ?_
  rw [hevents]
  refine (if_pos (State.running_iff.mpr hrunning)).trans ?_
  unfold State.takeEffect State.withEffect
  rw [State.withTime_time, State.withTime_dtu, htime]
  rfl

/-! ### The MinuteSummary in the journal (R160, R161) -/

theorem Journal.take_minuteSummary {h : Handed} {minute : Minute} {state : DState} {active : Option Channel}
    (hpayload : h.payload = .minuteSummary minute state active) (j : Journal) : j.take h = j.takeRoutine h := by
  have hroutine : Payload.routine h.payload = true := by rw [hpayload]; rfl
  exact if_pos hroutine

theorem Journal.inShortage_iff (j : Journal) : j.inShortage = true ↔ j.omitted ≠ 0 ∨ j.lost ≠ 0 := by
  rw [Journal.inShortage, Bool.or_eq_true, bne_iff_ne, bne_iff_ne]

theorem Journal.omit_eq (j : Journal) :
    j.omit = { j with
      omitted := min (j.omitted + 1) 4294967295
      shortageStart := if j.omitted ≠ 0 ∨ j.lost ≠ 0 then j.shortageStart else j.next - 1 } := by
  have hstart : j.shortageStartNow = if j.omitted ≠ 0 ∨ j.lost ≠ 0 then j.shortageStart else j.next - 1 :=
    if_congr j.inShortage_iff rfl rfl
  rw [Journal.omit, hstart]
  rfl

/-- Settles O19: the stages of the event, each by what it leaves, and the place of its records. -/
theorem secondEventIsTaken : Obligations.SecondEventIsTaken := by
  refine ⟨fun s order now rest hrunning hevents => ?event, fun j h minute state active hpayload => ?summary⟩
  case summary =>
    have hshortage := j.inShortage_iff
    rw [Journal.take_minuteSummary hpayload]
    refine ⟨fun hfull => ?_, fun hfree hquiet => ?_, fun hfree hnear hshort => ?_, fun hfree hshort => ?_⟩
    · exact (if_pos hfull).trans j.omit_eq
    · exact (if_neg (Nat.not_lt.mpr hfree)).trans (if_neg (hshortage.not.mpr hquiet))
    · exact ((if_neg (Nat.not_lt.mpr hfree)).trans ((if_pos (hshortage.mpr hshort)).trans (if_pos hnear))).trans j.omit_eq
    · have hroom : ¬ j.free < 64 := Nat.not_lt.mpr (le_trans (by decide) hfree)
      exact (if_neg hroom).trans ((if_pos (hshortage.mpr hshort)).trans (if_neg (Nat.not_lt.mpr hfree)))
  case event =>
    intro d
    obtain ⟨minute, told, u, grew, x, y, flag, v, h⟩ := d.secondEvent_stages now order
    have hrun := exec_secondEvent_running (order := order) hrunning hevents h.step_none
    generalize d.secondEvent now order = e at h hrun
    refine ⟨_, flag, hrun, rfl, ?_⟩
    dsimp only
    have hfinal := h.final_eq
    refine ⟨(congrArg Dtu.lastSecond hfinal).trans rfl, (congrArg Dtu.settings hfinal).trans rfl, (congrArg Dtu.integral hfinal).trans rfl,
      (congrArg Dtu.preferred hfinal).trans rfl, (congrArg Dtu.lastTheta hfinal).trans rfl, (congrArg Dtu.unlabelled hfinal).trans rfl,
      (congrArg Dtu.steppedAt hfinal).trans rfl, (congrArg Dtu.sinceApplied hfinal).trans rfl, fun ch => ?refs, ?paired, ?unpaired, ?fresh,
      fun hA hB => (h.flag_both hA hB).1, fun hunfit => ?cleared, h.active_spelled, h.holdover, h.untraceable, h.traceable, h.unlocked,
      h.persistent_eq, h.qualifying_cases.1, h.qualifying_cases.2.1, h.qualifying_cases.2.2, fun hlost => ?lost, fun hlost hsince => ?rests,
      fun hlost hsince => ?counts, fun hnew => ?newMinute, fun hsame => ?sameMinute⟩
    case refs => exact h.ref_judged ch
    case paired =>
      intro a b hA hB hfreshA hfreshB ha hb
      obtain ⟨rfl, rfl, hflag⟩ := h.counted (h.pair_formed ⟨hA, hB, hfreshA, hfreshB⟩ ha hb)
      obtain ⟨_, hx, hy, _⟩ := h.flag_both hA hB
      exact ⟨hx, hy, hflag⟩
    case unpaired =>
      intro hnot
      refine (h.uncounted fun hformed => ?_).2.2
      obtain ⟨hA, hB, hfreshA, hfreshB⟩ := hformed
      rw [hfreshA, hfreshB] at hnot
      exact hnot.elim (fun h => h hA) fun hnot => hnot.elim (fun h => h hB) fun hnot => hnot.elim (fun h => nomatch h) fun h => nomatch h
    case fresh =>
      intro hA hB hstale
      obtain ⟨_, hx, hy, _⟩ := h.flag_both hA hB
      obtain ⟨hx', hy', _⟩ := h.uncounted fun hformed => by
        rw [hformed.2.2.1, hformed.2.2.2] at hstale
        exact hstale.elim (fun h => nomatch h) fun h => nomatch h
      exact ⟨hx.trans hx', hy.trans hy'⟩
    case cleared =>
      obtain ⟨hflag, hx, hy, _⟩ := h.flag_either hunfit
      exact ⟨hflag, hx, hy⟩
    case lost =>
      obtain ⟨hzero, hrate⟩ := h.rate_lost hlost
      refine ⟨hzero, ?_⟩
      rw [hrate]
      exact addendOf_clamped d.integral
    case rests =>
      obtain ⟨hzero, hrate⟩ := h.rate_rests hlost hsince
      refine ⟨hzero, ?_⟩
      rw [hrate]
      split
      · rfl
      · exact addendOf_clamped d.integral
    case counts =>
      obtain ⟨hsame, hrate⟩ := h.rate_counts hlost hsince
      refine ⟨hsame, ?_⟩
      rw [hrate]
      rfl
    case newMinute =>
      refine ⟨?_, h.minute_new hnew⟩
      rw [h.out_eq h.paired_eq h.switch_eq h.cleared_eq, h.grew_eq, (h.newMinute hnew).2, Journal.takeAll_append]
      rfl
    case sameMinute =>
      refine ⟨?_, h.minute_same hsame⟩
      rw [h.out_eq h.paired_eq h.switch_eq h.cleared_eq, h.grew_eq, (h.sameMinute hsame).2, Journal.takeAll_append]
      rfl

end Sys2Proof.Machine
end
